-- ==== Sys2Proof/Word.lean ====
section
/-! DEFINITION. The word types of the HTB block. Bit 0 is the least significant bit and every value is an
unsigned integer (00_scope.md R9). -/

namespace Sys2Proof

/-- A byte: a symbol 0..255 (00_scope.md R7) or one cell of a buffer. -/
abbrev Byte := BitVec 8

/-- A 32-bit register, command word or host data word. -/
abbrev Word := BitVec 32

end Sys2Proof
end

