-- ==== Sys2Proof/Syntax.lean ====
section
/-! DEFINITION. The 25 commands of spec/opcode_table.json (30_encoding.md R66), with the operands of R65. -/

namespace Sys2Proof

/-- One constructor per row of the opcode table. -/
inductive Instr where
  /-- R79. -/
  | nop
  /-- R80. -/
  | sreset
  /-- R81. -/
  | result
  /-- R85. -/
  | freq
  /-- R88. -/
  | hufInit
  /-- R90. -/
  | hufMerge
  /-- R91. -/
  | hufBuild
  /-- R93. -/
  | hufCodes
  /-- R96. -/
  | hufCanon
  /-- R97. -/
  | hufEmit
  /-- R98; `canon` is CANON = cmd[0]. -/
  | hufEncode (canon : Bool)
  /-- R99. -/
  | ariTable
  /-- R101. -/
  | ariInit
  /-- R102; `sym` is SYM = cmd[23:16]. -/
  | ariStep (sym : Byte)
  /-- R103. -/
  | ariNarrow
  /-- R105. -/
  | ariFinal
  /-- R106. -/
  | ariEncode
  /-- R108. -/
  | lzwInit
  /-- R110; `sym` is SYM = cmd[23:16]. -/
  | lzwStep (sym : Byte)
  /-- R112. -/
  | lzwRun
  /-- R113. -/
  | lzwFlush
  /-- R114. -/
  | lzwEncode
  /-- R117. -/
  | bpClear
  /-- R118; `n` is N = cmd[23:16], `bits` is BITS = cmd[15:0]. -/
  | bpPut (n : Byte) (bits : BitVec 16)
  /-- R119. -/
  | bpPad
  deriving DecidableEq, Repr

end Sys2Proof
end

