-- ==== Sys2Proof/WellFormed.lean ====
section
/-! DEFINITION. Which instruction terms have an encoding: the operand limits of 30_encoding.md R65 and R67 that
the operand types do not already say. -/

namespace Sys2Proof

/-- Every operand value is legal but a BP_PUT bit count above 16 (R65: "Legal values are 0..16; values 17..255
are illegal"). -/
def Instr.wellFormed : Instr → Bool
  | .nop => true
  | .sreset => true
  | .result => true
  | .freq => true
  | .hufInit => true
  | .hufMerge => true
  | .hufBuild => true
  | .hufCodes => true
  | .hufCanon => true
  | .hufEmit => true
  | .hufEncode _ => true
  | .ariTable => true
  | .ariInit => true
  | .ariStep _ => true
  | .ariNarrow => true
  | .ariFinal => true
  | .ariEncode => true
  | .lzwInit => true
  | .lzwStep _ => true
  | .lzwRun => true
  | .lzwFlush => true
  | .lzwEncode => true
  | .bpClear => true
  | .bpPut n _ => decide (n.toNat ≤ 16)
  | .bpPad => true

end Sys2Proof
end

