-- ==== Sys2Proof/Decode.lean ====
section
/-! DEFINITION. The decoder of command words (30_encoding.md R63-R70), total on every 32-bit word, rejecting by
name; after it the encoder; and the opcode table of R66 with the masks of its formats, as data. -/

namespace Sys2Proof

/-- Why a command word is illegal (R67). -/
inductive DecodeReject where
  /-- The opcode is not in the table of R66. -/
  | unlistedOpcode
  /-- A field that R64 shows as `0` is not zero (R68). -/
  | reservedBitSet
  /-- A BP_PUT with N > 16. -/
  | putCountTooLarge
  deriving DecidableEq, Repr

/-- `OPC = cmd[31:24]` (R65). -/
def opcOf (w : Word) : Byte := w.extractLsb' 24 8

/-- `cmd[23:16]`: SYM in format S, N in format P (R64, R65). -/
def midOf (w : Word) : Byte := w.extractLsb' 16 8

/-- `cmd[15:0]`: BITS in format P (R64, R65). -/
def lowOf (w : Word) : BitVec 16 := w.extractLsb' 0 16

/-- Format N (R64): every bit below the opcode is zero. -/
def decodeN (i : Instr) (w : Word) : Except DecodeReject Instr :=
  if midOf w = 0 ∧ lowOf w = 0 then .ok i else .error .reservedBitSet

/-- Format S (R64): SYM in [23:16], the bits below it zero. -/
def decodeS (f : Byte → Instr) (w : Word) : Except DecodeReject Instr :=
  if lowOf w = 0 then .ok (f (midOf w)) else .error .reservedBitSet

/-- Format F (R64): CANON in [0], the bits [23:1] zero. -/
def decodeF (f : Bool → Instr) (w : Word) : Except DecodeReject Instr :=
  if midOf w = 0 ∧ (lowOf w).extractLsb' 1 15 = 0 then .ok (f ((lowOf w).getLsbD 0))
  else .error .reservedBitSet

/-- Format P (R64): N in [23:16], at most 16 (R67), and BITS in [15:0]. -/
def decodeP (f : Byte → BitVec 16 → Instr) (w : Word) : Except DecodeReject Instr :=
  if (midOf w).toNat ≤ 16 then .ok (f (midOf w) (lowOf w)) else .error .putCountTooLarge

/-- The decoder (R66): the row whose opcode equals cmd[31:24], and then only if the word has that row's format. -/
def decode (w : Word) : Except DecodeReject Instr :=
  match (opcOf w).toNat with
  | 0x00 => decodeN .nop w
  | 0x01 => decodeN .sreset w
  | 0x02 => decodeN .result w
  | 0x10 => decodeN .freq w
  | 0x20 => decodeN .hufInit w
  | 0x21 => decodeN .hufMerge w
  | 0x22 => decodeN .hufBuild w
  | 0x23 => decodeN .hufCodes w
  | 0x24 => decodeN .hufCanon w
  | 0x25 => decodeN .hufEmit w
  | 0x2F => decodeF .hufEncode w
  | 0x30 => decodeN .ariTable w
  | 0x31 => decodeN .ariInit w
  | 0x32 => decodeS .ariStep w
  | 0x33 => decodeN .ariNarrow w
  | 0x34 => decodeN .ariFinal w
  | 0x3F => decodeN .ariEncode w
  | 0x40 => decodeN .lzwInit w
  | 0x41 => decodeS .lzwStep w
  | 0x42 => decodeN .lzwRun w
  | 0x43 => decodeN .lzwFlush w
  | 0x4F => decodeN .lzwEncode w
  | 0x50 => decodeN .bpClear w
  | 0x51 => decodeP .bpPut w
  | 0x52 => decodeN .bpPad w
  | _ => .error .unlistedOpcode

/-- The four fields of a command word put together (R64). -/
def packWord (opc mid : Byte) (low : BitVec 16) : Word := opc ++ mid ++ low

/-- The encoder (R64, R66): the word of an instruction. -/
def encode : Instr → Word
  | .nop => packWord 0x00 0 0
  | .sreset => packWord 0x01 0 0
  | .result => packWord 0x02 0 0
  | .freq => packWord 0x10 0 0
  | .hufInit => packWord 0x20 0 0
  | .hufMerge => packWord 0x21 0 0
  | .hufBuild => packWord 0x22 0 0
  | .hufCodes => packWord 0x23 0 0
  | .hufCanon => packWord 0x24 0 0
  | .hufEmit => packWord 0x25 0 0
  | .hufEncode canon => packWord 0x2F 0 ((BitVec.ofBool canon).setWidth 16)
  | .ariTable => packWord 0x30 0 0
  | .ariInit => packWord 0x31 0 0
  | .ariStep sym => packWord 0x32 sym 0
  | .ariNarrow => packWord 0x33 0 0
  | .ariFinal => packWord 0x34 0 0
  | .ariEncode => packWord 0x3F 0 0
  | .lzwInit => packWord 0x40 0 0
  | .lzwStep sym => packWord 0x41 sym 0
  | .lzwRun => packWord 0x42 0 0
  | .lzwFlush => packWord 0x43 0 0
  | .lzwEncode => packWord 0x4F 0 0
  | .bpClear => packWord 0x50 0 0
  | .bpPut n bits => packWord 0x51 n bits
  | .bpPad => packWord 0x52 0 0

/-- One row of R66 with its format's mask and extra condition, as the table of R66 writes them. -/
structure OpcodeRow where
  mnemonic : String
  mask : Word
  matched : Word
  /-- The extra condition of format P, `cmd[23:16] ≤ 16`. -/
  putCount : Bool
  deriving DecidableEq, Repr

/-- The mask and match of each format (R66). -/
def rowN (m : String) (opc : Byte) : OpcodeRow := ⟨m, 0xFFFFFFFF, opc.setWidth 32 <<< 24, false⟩
/-- Format S (R66). -/
def rowS (m : String) (opc : Byte) : OpcodeRow := ⟨m, 0xFF00FFFF, opc.setWidth 32 <<< 24, false⟩
/-- Format F (R66). -/
def rowF (m : String) (opc : Byte) : OpcodeRow := ⟨m, 0xFFFFFFFE, opc.setWidth 32 <<< 24, false⟩
/-- Format P (R66). -/
def rowP (m : String) (opc : Byte) : OpcodeRow := ⟨m, 0xFF000000, opc.setWidth 32 <<< 24, true⟩

/-- The opcode table of R66, in its order. -/
def opcodeTable : List OpcodeRow :=
  [rowN "NOP" 0x00, rowN "SRESET" 0x01, rowN "RESULT" 0x02, rowN "FREQ" 0x10] ++
  [rowN "HUF_INIT" 0x20, rowN "HUF_MERGE" 0x21, rowN "HUF_BUILD" 0x22, rowN "HUF_CODES" 0x23,
    rowN "HUF_CANON" 0x24, rowN "HUF_EMIT" 0x25, rowF "HUF_ENCODE" 0x2F] ++
  [rowN "ARI_TABLE" 0x30, rowN "ARI_INIT" 0x31, rowS "ARI_STEP" 0x32, rowN "ARI_NARROW" 0x33,
    rowN "ARI_FINAL" 0x34, rowN "ARI_ENCODE" 0x3F] ++
  [rowN "LZW_INIT" 0x40, rowS "LZW_STEP" 0x41, rowN "LZW_RUN" 0x42, rowN "LZW_FLUSH" 0x43,
    rowN "LZW_ENCODE" 0x4F] ++
  [rowN "BP_CLEAR" 0x50, rowP "BP_PUT" 0x51, rowN "BP_PAD" 0x52]

/-- "(cmd & mask) == match and the extra condition holds" (R66). -/
def OpcodeRow.admits (r : OpcodeRow) (w : Word) : Bool :=
  w &&& r.mask == r.matched && (!r.putCount || decide ((midOf w).toNat ≤ 16))

/-- The mnemonic of an instruction's row in R66. -/
def Instr.mnemonic : Instr → String
  | .nop => "NOP"
  | .sreset => "SRESET"
  | .result => "RESULT"
  | .freq => "FREQ"
  | .hufInit => "HUF_INIT"
  | .hufMerge => "HUF_MERGE"
  | .hufBuild => "HUF_BUILD"
  | .hufCodes => "HUF_CODES"
  | .hufCanon => "HUF_CANON"
  | .hufEmit => "HUF_EMIT"
  | .hufEncode _ => "HUF_ENCODE"
  | .ariTable => "ARI_TABLE"
  | .ariInit => "ARI_INIT"
  | .ariStep _ => "ARI_STEP"
  | .ariNarrow => "ARI_NARROW"
  | .ariFinal => "ARI_FINAL"
  | .ariEncode => "ARI_ENCODE"
  | .lzwInit => "LZW_INIT"
  | .lzwStep _ => "LZW_STEP"
  | .lzwRun => "LZW_RUN"
  | .lzwFlush => "LZW_FLUSH"
  | .lzwEncode => "LZW_ENCODE"
  | .bpClear => "BP_CLEAR"
  | .bpPut _ _ => "BP_PUT"
  | .bpPad => "BP_PAD"

/-- The instruction the decoder reads from a table word: the low `nbits` bits of `w`, every bit above them 0. -/
def decodeTableWord (nbits w : Nat) : Option Instr :=
  match decode (BitVec.ofNat 32 (w % 2 ^ nbits)) with
  | .ok i => some i
  | .error _ => none

end Sys2Proof
end

