-- ==== Sys2Proof/Config.lean ====
section
/-! DEFINITION. The instance parameters of the block (00_scope.md R6) and the free values, which the spec leaves
open (93_implementation_defined.md U4-U8). A free value is an opaque constant: nothing can be proved of it. -/

namespace Sys2Proof

/-- The instance parameters (R6), in the units in which `PARAM0` and `PARAM1` report them (R21, R22).
They are arguments of the model: every state carries its own (`State.params`), and no command changes them. -/
structure Params where
  /-- log2 of `IBUF_SIZE`. -/
  ibufLog2 : Nat
  /-- log2 of `OBUF_SIZE`. -/
  obufLog2 : Nat
  /-- `LZW_WMAX`, the widest LZW code width. -/
  lzwWmax : Nat
  /-- `ARI_ACC_BITS` / 32. -/
  ariWords : Nat
  deriving DecidableEq, Repr

/-- The allowed values of R6. -/
abbrev Params.valid (p : Params) : Prop :=
  (8 ≤ p.ibufLog2 ∧ p.ibufLog2 ≤ 24) ∧ (8 ≤ p.obufLog2 ∧ p.obufLog2 ≤ 24) ∧
    (12 ≤ p.lzwWmax ∧ p.lzwWmax ≤ 16) ∧ (2 ≤ p.ariWords ∧ p.ariWords ≤ 4096)

/-- DESIGN CHOICE (log 1): the instance `State.reset` starts from is the one the spec's own test vectors use
(95_test_vectors.md section 1: 4096-byte buffers, 256-bit accumulators, LZW_WMAX 16). -/
def Config.defaultParams : Params where
  ibufLog2 := 12
  obufLog2 := 12
  lzwWmax := 16
  ariWords := 8

/-- Free value (93 U4): the cycle count the block reports for a command. Log 5. -/
opaque Config.freeCycles : Nat → Word

/-- Free value (93 U5): how many host events come between a command's acceptance and the engine's step. Log 2. -/
opaque Config.freeLatency : Nat → Nat

/-- Free value (93 U7): what a host read returns while BUSY = 1 where R46 leaves it unspecified. Log 6. -/
opaque Config.freeBusyRead : Nat → Word

/-- Free choice (log 17): whether ERR_CODE, ERR_INFO and ERR_CMD read their current value while BUSY = 1, as the table of
10_state.md R46 has it, or as unspecified values, as 70_reset_and_hazards.md R147 and 93 U7 have it. The spec says both;
nothing can be proved of which the block does. -/
opaque Config.errorRegsReadCurrent : Bool

/-- Free value (93 U6): the IBUF byte at an address after the given number of hardware resets, until the host
writes it. Log 7. -/
opaque Config.freeIbuf : Nat → Nat → Byte

/-- Free value (93 U6, U8): the OBUF byte at an address after the given number of hardware resets, until it is
written. Log 7. -/
opaque Config.freeObuf : Nat → Nat → Byte

/-- Free value (DESIGN CHOICE, log 8): what `ARI_K` or `LZW_NCODES` holds after a step that would carry it past
2^32 - 1. The spec states no result there. -/
opaque Config.freeCount : Nat → Word

end Sys2Proof
end

