-- ==== Sys2Proof/Machine/State.lean ====
section
/-! DEFINITION. The state of the HTB block (10_state.md, 20_memory.md) as plain data, and its value after hardware
reset (70_reset_and_hazards.md R142). Registers are grouped by unit; INVENTORY.md lists each with its rule. -/

namespace Sys2Proof.Machine

/-- A buffer's contents: the bytes that hold a value, by offset, in strictly rising order (20_memory.md R48, R49).
An unlisted offset has no value: R56 leaves it unspecified (log 7). -/
abbrev Memory := List Host.Cell

/-- The canonical form of a buffer: offsets strictly rising. -/
abbrev Memory.wf (m : Memory) : Prop := m.Pairwise fun a b => a.1 < b.1

/-- A table indexed by the 256 symbols (00_scope.md R7). -/
abbrev Table (α : Type) := Vector α 256

/-- `CTRL` (R23). -/
structure Ctrl where
  ieDone : Bool
  ieErr : Bool
  deriving DecidableEq, Repr

/-- `STATUS` (R24), less IRQ, which is a level computed from these bits and CTRL (R128). -/
structure Status where
  busy : Bool
  done : Bool
  err : Bool
  drop : Bool
  wbusy : Bool
  deriving DecidableEq, Repr

/-- The LZW capacity policies (R28, 44_lzw.md R111). The encoding 3 is illegal and never stored. -/
inductive Policy where
  | freeze
  | reject
  | reset
  deriving DecidableEq, Repr

/-- The fields of `LZW_CFG` (R28) and of `LZW_ACT` (R38). -/
structure LzwCfg where
  width : BitVec 5
  policy : Policy
  deriving DecidableEq, Repr

/-- The registers only the host writes, but for CTRL: R26, R27, R28. -/
structure HostCfg where
  inBase : Word
  inLen : Word
  outBase : Word
  outCap : Word
  lzwCfg : LzwCfg
  deriving DecidableEq, Repr

/-- The error codes (60_exceptions.md R121). Codes 0x0A..0xFF are never written (93 U14): no constructor. -/
inductive ErrCode where
  | none
  | illegalCmd
  | sequence
  | inRange
  | outRange
  | outOverflow
  | noCode
  | ariNoSym
  | precisionOverflow
  | dictOverflow
  deriving DecidableEq, Repr

/-- `ERR_CODE`, `ERR_INFO`, `ERR_CMD` (R29). -/
structure ErrRegs where
  code : ErrCode
  info : Word
  cmd : Word
  deriving DecidableEq, Repr

/-- `STAGE` (R31). -/
structure Stage where
  freqV : Bool
  hufStage : BitVec 2
  hufCanon : Bool
  ariTblV : Bool
  ariV : Bool
  lzwV : Bool
  lzwFull : Bool
  deriving DecidableEq, Repr

/-- `RES_ORIG`, `RES_COMP` (R33). -/
structure ResultRegs where
  orig : Word
  comp : Word
  deriving DecidableEq, Repr

/-- The BitPacker's registers (R34); `acc` and `cnt` are BP_STATE.ACC and BP_STATE.CNT. -/
structure BitPacker where
  outLen : Word
  bitLen : Word
  acc : Byte
  cnt : BitVec 3
  padBits : BitVec 3
  deriving DecidableEq, Repr

/-- The FrequencyModel: `FREQ[s]` (R39), `FREQ_TOTAL` and `FREQ_NSYM` (R35). -/
structure FreqModel where
  count : Table Word
  total : Word
  nsym : BitVec 9
  deriving DecidableEq, Repr

/-- An entry of the node arena (R41). -/
structure Node where
  freq : Word
  leaf : Bool
  sym : Byte
  left : BitVec 9
  right : BitVec 9
  live : Bool
  deriving DecidableEq, Repr

/-- The Huffman unit: the arena's entries in use, in index order (R41, log 9), the registers of R36 and the code
table (R42). -/
structure Huffman where
  arena : List Node
  nnodes : BitVec 10
  live : BitVec 10
  root : BitVec 9
  maxLen : BitVec 9
  codeLen : Table (BitVec 9)
  codeVal : Table (BitVec 256)
  deriving DecidableEq, Repr

/-- The arithmetic unit: `CUM_LO[s]` (R40), the accumulators L, H, D (R43), and `ARI_K`, `ARI_B`, `ARI_BITS` (R37).
The accumulators have ARI_ACC_BITS bits, a parameter; that their values fit is an invariant (R100, R102). -/
structure Arith where
  cumLo : Table Word
  l : Nat
  h : Nat
  d : Nat
  k : Word
  b : Word
  bits : Word
  deriving DecidableEq, Repr

/-- `PREFIX[e]` and `BYTE[e]` of a dictionary entry (R44). -/
structure DictEntry where
  pre : BitVec 16
  byte : Byte
  deriving DecidableEq, Repr

/-- The LZW unit: the registers of R38 and the entries 256, 257, … in code order (R44, log 9). -/
structure Lzw where
  dict : List DictEntry
  next : BitVec 17
  cur : BitVec 17
  ncodes : Word
  act : LzwCfg
  deriving DecidableEq, Repr

/-- The width of a host access (20_memory.md R53). -/
inductive AccessWidth where
  | w8
  | w16
  | w32
  deriving DecidableEq, Repr

/-- What the outside world can do to the block: a bus read, a bus write (the low bits of `v` for a narrow one),
or the hardware reset input (R16, R53, R141). -/
inductive HostEvent where
  | read (w : AccessWidth) (off : Word)
  | write (w : AccessWidth) (off : Word) (v : Word)
  | hwReset
  deriving DecidableEq, Repr

/-- The state of the block. The last five fields are the model's own, not the spec's (INVENTORY.md). -/
structure State where
  params : Params
  ctrl : Ctrl
  status : Status
  cmd : Word
  cfg : HostCfg
  err : ErrRegs
  cycles : Word
  stage : Stage
  inPos : Word
  res : ResultRegs
  bp : BitPacker
  freq : FreqModel
  huf : Huffman
  ari : Arith
  lzw : Lzw
  ibuf : Memory
  obuf : Memory
  inbox : List HostEvent
  resp : Option Word
  engineWait : Nat
  draws : Nat
  epoch : Nat
  deriving DecidableEq, Repr

/-- Why a step of the model stops. -/
inductive Fault where
  /-- A host access at a reserved offset, misaligned, or of a width its region does not allow (R51, R53; 93 U9).
  Raised by the host step; the block's state is unchanged. Safe: R51 directs it. -/
  | busError (off : Word)
  /-- An engine read of an IBUF byte that no host write has set (R56; 93 U6). Raised by the commands that read the
  input range. Safe: the hardware goes on with whatever the memory holds. -/
  | ibufUnwritten (addr : Nat)
  deriving DecidableEq, Repr

/-- Why the model has no answer. -/
inductive Refusal where
  /-- Raised by `exec` alone, for an instruction without a meaning; no arm raises it. Safe. -/
  | notModelled (mnemonic : String)
  deriving DecidableEq, Repr

/-- `EMPTY`, the value of LZW_CUR when there is no current match (R38). -/
def lzwEmpty : BitVec 17 := 0x1FFFF

/-- `NONE`, the value of HUF_ROOT while there is no single root, and of a leaf's LEFT and RIGHT (R36, R41). -/
def nodeNone : BitVec 9 := 0x1FF

/-- The FrequencyModel at reset (R142). -/
def FreqModel.zero : FreqModel := ⟨Vector.replicate 256 0, 0, 0⟩

/-- The Huffman unit at reset (R142). -/
def Huffman.zero : Huffman :=
  ⟨[], 0, 0, nodeNone, 0, Vector.replicate 256 0, Vector.replicate 256 0⟩

/-- The arithmetic unit at reset (R142). -/
def Arith.zero : Arith := ⟨Vector.replicate 256 0, 0, 0, 0, 0, 0, 0⟩

/-- The LZW unit at reset (R142). -/
def Lzw.zero : Lzw := ⟨[], 0, lzwEmpty, 0, ⟨0, .freeze⟩⟩

/-- Hardware reset of an instance (R141, R142): every register and table at its reset value, the buffers
unspecified. The host's further events and the draw counter are the model's own and go on. -/
def State.resetOf (p : Params) (inbox : List HostEvent) (draws epoch : Nat) : State where
  params := p
  ctrl := ⟨false, false⟩
  status := ⟨false, false, false, false, false⟩
  cmd := 0
  cfg := ⟨0, 0, 0, 0, ⟨12, .freeze⟩⟩
  err := ⟨.none, 0, 0⟩
  cycles := 0
  stage := ⟨false, 0, false, false, false, false, false⟩
  inPos := 0
  res := ⟨0, 0⟩
  bp := ⟨0, 0, 0, 0, 0⟩
  freq := FreqModel.zero
  huf := Huffman.zero
  ari := Arith.zero
  lzw := Lzw.zero
  ibuf := []
  obuf := []
  inbox := inbox
  resp := none
  engineWait := 0
  draws := draws
  epoch := epoch

/-- The machine right after hardware reset, with no host event pending. The instance is log 1's. -/
def State.reset : State := State.resetOf Config.defaultParams [] 0 0

end Sys2Proof.Machine
end

