-- ==== Sys2Proof/Machine/Operands.lean ====
section
/-! DEFINITION. Operand forms and the values commands compute with: the symbols and their tables, bit strings
(00_scope.md R11), the ERR_INFO of a byte (60_exceptions.md R123), and the parameters' sizes (R6). -/

namespace Sys2Proof.Machine

/-- The 256 symbols in ascending order (R7). -/
def allSyms : List Byte := (List.range 256).map (BitVec.ofNat 8)

/-- `TABLE[s]` (R12). -/
def Table.at {α : Type} (t : Table α) (s : Byte) : α := t[s.toNat]'s.isLt

/-- `TABLE[s] <- v` (R12). -/
def Table.put {α : Type} (t : Table α) (s : Byte) (v : α) : Table α := t.set s.toNat v s.isLt

/-- `IBUF_SIZE` (R6). -/
def State.ibufSize (s : State) : Nat := 2 ^ s.params.ibufLog2

/-- `OBUF_SIZE` (R6). -/
def State.obufSize (s : State) : Nat := 2 ^ s.params.obufLog2

/-- `ARI_ACC_BITS`, written W (R6, R22). -/
def State.accBits (s : State) : Nat := 32 * s.params.ariWords

/-- `cap` = 2^LZW_ACT.WIDTH (44_lzw.md, throughout). -/
def Lzw.cap (z : Lzw) : Nat := 2 ^ z.act.width.toNat

/-- `bits_N(v)`: the N-bit string of v, most significant bit first (R11). -/
def bitsOf : Nat → Nat → List Bool
  | 0, _ => []
  | n + 1, v => v.testBit n :: bitsOf n v

/-- The bit string BP_PUT appends: bits_N(BITS mod 2^N) (30_encoding.md R65). -/
def putBits (n : Byte) (bits : BitVec 16) : List Bool := bitsOf n.toNat (bits.toNat % 2 ^ n.toNat)

/-- `(i << 8) | b`: the ERR_INFO of an error tied to input byte b at offset i (R123). -/
def byteInfo (i : Nat) (b : Byte) : Word := BitVec.ofNat 24 i ++ b

/-- `ceil_div(a, b)` = ⌈a/b⌉ (R10). -/
def ceilDiv (a b : Nat) : Nat := (a + (b - 1)) / b

/-- `tz(n)`, the number of trailing zero bits of n > 0 (R10), with as many steps as `fuel` allows; any fuel at
least the bit length of n gives tz(n). -/
def trailingZeros : Nat → Nat → Nat
  | 0, _ => 0
  | fuel + 1, n => if n % 2 = 1 then 0 else 1 + trailingZeros fuel (n / 2)

/-- The code of symbol s as a bit string (10_state.md R42). -/
def Huffman.code (h : Huffman) (s : Byte) : List Bool :=
  bitsOf (h.codeLen.at s).toNat (h.codeVal.at s).toNat

end Sys2Proof.Machine
end

