-- ==== Sys2Proof/Machine/Flags.lean ====
section
/-! DEFINITION. The status, stage and configuration words as the host sees them (10_state.md R21-R38), the
interrupt level (60_exceptions.md R128), the error codes' numbers (R121), and the stage prerequisites
(40_control.md R76). -/

namespace Sys2Proof.Machine

/-- The word with bit `n` equal to `x` and every other bit 0. -/
def bitAt (n : Nat) (x : Bool) : Word := (BitVec.ofBool x).setWidth 32 <<< n

/-- The interrupt level (R128). -/
def State.irq (s : State) : Bool :=
  (s.status.done && s.ctrl.ieDone) || (s.status.err && s.ctrl.ieErr)

/-- `STATUS` as read (R24). -/
def State.statusWord (s : State) : Word :=
  bitAt 0 s.status.busy ||| bitAt 1 s.status.done ||| bitAt 2 s.status.err |||
    bitAt 3 s.status.drop ||| bitAt 4 s.status.wbusy ||| bitAt 5 s.irq

/-- `CTRL` as read (R23). -/
def Ctrl.word (c : Ctrl) : Word := bitAt 0 c.ieDone ||| bitAt 1 c.ieErr

/-- `CTRL` as written: the reserved bits are ignored (R19, R23). -/
def Ctrl.ofWord (w : Word) : Ctrl := ⟨w.getLsbD 0, w.getLsbD 1⟩

/-- `STAGE` as read (R31). -/
def Stage.word (g : Stage) : Word :=
  bitAt 0 g.freqV ||| (g.hufStage.setWidth 32 <<< 1) ||| bitAt 3 g.hufCanon ||| bitAt 4 g.ariTblV |||
    bitAt 5 g.ariV ||| bitAt 6 g.lzwV ||| bitAt 7 g.lzwFull

/-- The number of an LZW policy (R28). -/
def Policy.num : Policy → Word
  | .freeze => 0
  | .reject => 1
  | .reset => 2

/-- `LZW_CFG` and `LZW_ACT` as read (R28, R38). -/
def LzwCfg.word (c : LzwCfg) : Word := c.width.setWidth 32 ||| (c.policy.num <<< 8)

/-- The WARL write of `LZW_CFG` (R28): each field is stored if it is legal and keeps its value otherwise. -/
def LzwCfg.written (c : LzwCfg) (wmax : Nat) (w : Word) : LzwCfg where
  width :=
    let v := w.extractLsb' 0 5
    if 8 ≤ v.toNat ∧ v.toNat ≤ wmax then v else c.width
  policy :=
    match (w.extractLsb' 8 2).toNat with
    | 0 => .freeze
    | 1 => .reject
    | 2 => .reset
    | _ => c.policy

/-- The number of an error code (R121). -/
def ErrCode.num : ErrCode → Word
  | .none => 0x00
  | .illegalCmd => 0x01
  | .sequence => 0x02
  | .inRange => 0x03
  | .outRange => 0x04
  | .outOverflow => 0x05
  | .noCode => 0x06
  | .ariNoSym => 0x07
  | .precisionOverflow => 0x08
  | .dictOverflow => 0x09

/-- `BP_STATE` as read (R34). -/
def BitPacker.stateWord (b : BitPacker) : Word := b.cnt.setWidth 32 ||| (b.acc.setWidth 32 <<< 8)

/-- `PARAM0` (R21). -/
def param0Word (p : Params) : Word :=
  BitVec.ofNat 32 p.ibufLog2 ||| (BitVec.ofNat 32 p.obufLog2 <<< 8) ||| (BitVec.ofNat 32 p.lzwWmax <<< 16)

/-- `PARAM1` (R22). -/
def param1Word (p : Params) : Word := BitVec.ofNat 32 p.ariWords

/-- The stage prerequisite of a command (the table of R76). -/
def stageReady (i : Instr) (s : State) : Bool :=
  match i with
  | .nop => true
  | .sreset => true
  | .result => s.bp.cnt == 0
  | .freq => true
  | .hufInit => s.stage.freqV
  | .hufMerge => decide (1 ≤ s.stage.hufStage.toNat)
  | .hufBuild => decide (1 ≤ s.stage.hufStage.toNat)
  | .hufCodes => decide (2 ≤ s.stage.hufStage.toNat)
  | .hufCanon => s.stage.hufStage == 3
  | .hufEmit => s.stage.hufStage == 3
  | .hufEncode _ => true
  | .ariTable => s.stage.freqV
  | .ariInit => true
  | .ariStep _ => s.stage.ariTblV && s.stage.ariV
  | .ariNarrow => s.stage.ariTblV && s.stage.ariV
  | .ariFinal => s.stage.ariV
  | .ariEncode => true
  | .lzwInit => true
  | .lzwStep _ => s.stage.lzwV
  | .lzwRun => s.stage.lzwV
  | .lzwFlush => s.stage.lzwV
  | .lzwEncode => true
  | .bpClear => true
  | .bpPut _ _ => true
  | .bpPad => true

/-- The compression ratio (40_control.md R82): a function of the result record, an exact rational. -/
def State.ratio (s : State) : ℚ :=
  if s.res.orig = 0 then 0 else (s.res.comp.toNat : ℚ) / (s.res.orig.toNat : ℚ)

end Sys2Proof.Machine
end

