-- ==== Sys2Proof/Machine/Ops.lean ====
section
/-! DEFINITION. The shared operations: buffer bytes (20_memory.md R62), a command's acceptance, completion and
error (40_control.md R73, R75; 60_exceptions.md R122), the two ways out of the error state (R126), the range checks
(R77, R78), Append (45_bitpacker.md R116) and the pass over the input range. -/

namespace Sys2Proof.Machine

/-- `MemRead(…, a, 1)` (R62): the byte at offset a, if it holds a value (R56). -/
def Memory.read : Memory → Nat → Option Byte
  | [], _ => none
  | (x, b) :: m, a => if x = a then some b else Memory.read m a

/-- `MemWrite(…, a, 1, v)` (R62), keeping the canonical form. -/
def Memory.write : Memory → Nat → Byte → Memory
  | [], a, v => [(a, v)]
  | (x, b) :: m, a, v =>
    if a < x then (a, v) :: (x, b) :: m
    else if a = x then (a, v) :: m
    else (x, b) :: Memory.write m a v

/-- How the body of a command ends (R14): at its end, by `raise Error(code, info)` with the state its earlier steps
left (60_exceptions.md R124), or by a fault of the model. -/
inductive CmdResult where
  | ok (s : State)
  | error (s : State) (code : ErrCode) (info : Word)
  | fault (f : Fault)
  deriving DecidableEq, Repr

/-- One body after another: the first error or fault ends the whole (40_control.md R83). -/
def CmdResult.andThen (r : CmdResult) (f : State → CmdResult) : CmdResult :=
  match r with
  | .ok s => f s
  | .error s c i => .error s c i
  | .fault x => .fault x

/-- Acceptance of a command word (R73): CMD, BUSY, DONE, CYCLES. How many host events the engine's step waits for
is a free value (93 U5, log 2). -/
def State.accept (s : State) (w : Word) : State :=
  { s with
    cmd := w
    status.busy := true
    status.done := false
    cycles := 0
    engineWait := Config.freeLatency s.draws
    draws := s.draws + 1 }

/-- The end of a command, normal or by error: BUSY ← 0, DONE ← 1, and CYCLES holds its count, a free value
(R30, R75, R122; log 5). -/
def State.retire (s : State) : State :=
  { s with
    status.busy := false
    status.done := true
    cycles := Config.freeCycles s.draws
    draws := s.draws + 1 }

/-- `complete` (R75). -/
def State.complete (s : State) : State := s.retire

/-- `raise Error(code, info)` (R122): the block's one way of taking an error. Nothing else is saved; there is no
vector and no return address. -/
def State.raiseError (s : State) (code : ErrCode) (info : Word) : State :=
  { s.retire with
    err := ⟨code, info, s.cmd⟩
    status.err := true }

/-- The way out of the error state that a command takes (R126, 40_control.md R80): SRESET clears ERR, DROP, WBUSY
and the error registers. -/
def State.clearErrors (s : State) : State :=
  { s with
    err := ⟨.none, 0, 0⟩
    status.err := false
    status.drop := false
    status.wbusy := false }

/-- The host's write to STATUS (R24): each W1C bit written as 1 is cleared. Writing bit 2 is the other way out of
the error state (R126); the error registers keep their values (R29). -/
def State.writeStatus (s : State) (w : Word) : State :=
  { s with
    status.done := s.status.done && !w.getLsbD 1
    status.err := s.status.err && !w.getLsbD 2
    status.drop := s.status.drop && !w.getLsbD 3
    status.wbusy := s.status.wbusy && !w.getLsbD 4 }

/-- The end of an accepted command: `complete` or `raise Error`, each a next state (R14, R74). -/
def finish (r : CmdResult) : Host.Outcome State Fault Refusal :=
  match r with
  | .ok s => .next s.complete
  | .error s c i => .next (s.raiseError c i)
  | .fault f => .fault f

/-- A check that comes before any change of state: goes on, or raises (R14). -/
def require (holds : Bool) (code : ErrCode) (info : Word) (s : State) : CmdResult :=
  if holds then .ok s else .error s code info

/-- The stage check of a command (R76): SEQUENCE with info zext_32(STAGE[7:0]). -/
def checkStage (i : Instr) (s : State) : CmdResult :=
  require (stageReady i s) .sequence s.stage.word s

/-- The condition of `InCheck()` (R77), computed without wrap. -/
def State.inRangeOk (s : State) : Bool :=
  decide (s.cfg.inBase.toNat + s.cfg.inLen.toNat ≤ s.ibufSize)

/-- The condition of `OutCheck()` (R78), computed without wrap. -/
def State.outRangeOk (s : State) : Bool :=
  decide (s.cfg.outBase.toNat + s.cfg.outCap.toNat ≤ s.obufSize)

/-- `InCheck()` (R77). -/
def inCheck (s : State) : CmdResult := require s.inRangeOk .inRange 0 s

/-- `OutCheck()` (R78). -/
def outCheck (s : State) : CmdResult := require s.outRangeOk .outRange 0 s

/-- One bit into the stream (R116): ACC shifts it in; the eighth bit writes the byte to the output window. -/
def pushBit (s : State) (x : Bool) : State :=
  let acc := (s.bp.acc <<< 1) ||| (BitVec.ofBool x).setWidth 8
  if s.bp.cnt = 7 then
    { s with
      obuf := s.obuf.write (s.cfg.outBase.toNat + s.bp.outLen.toNat) acc
      bp.outLen := s.bp.outLen + 1
      bp.acc := 0
      bp.cnt := 0 }
  else
    { s with
      bp.acc := acc
      bp.cnt := s.bp.cnt + 1 }

/-- The bits of a string, first to last (R116). -/
def pushBits (s : State) (bits : List Bool) : State := bits.foldl pushBit s

/-- The capacity test of Append (R116), in ℤ: the bytes it would complete fit in the window. -/
def State.roomFor (s : State) (n : Nat) : Bool :=
  decide (s.bp.outLen.toNat + (s.bp.cnt.toNat + n) / 8 ≤ s.cfg.outCap.toNat)

/-- The state after an Append that has room (R116). -/
def State.appended (s : State) (bits : List Bool) : State :=
  { pushBits s bits with bp.bitLen := s.bp.bitLen + BitVec.ofNat 32 bits.length }

/-- `Append(s)` (R116): all or none; `info` is the ERR_INFO of an OUT_OVERFLOW (R123). -/
def appendBits (info : Word) (bits : List Bool) (s : State) : CmdResult :=
  if s.roomFor bits.length then .ok (s.appended bits) else .error s .outOverflow info

/-- A 32-bit event counter plus one. Past 2^32 - 1 the spec states no value (R10: "no rule in this spec truncates
silently"): a free value, log 8. -/
def bumpCount (c : Word) (draws : Nat) : Word :=
  if c = BitVec.allOnes 32 then Config.freeCount draws else c + 1

/-- One input byte after another (R32, R62): reads IBUF at IN_BASE + i, runs the step `body i b`, and counts the
byte in IN_POS. An unwritten byte faults (R56). -/
def streamFrom (body : Nat → Byte → State → CmdResult) : Nat → Nat → State → CmdResult
  | 0, _, s => .ok s
  | n + 1, i, s =>
    match s.ibuf.read (s.cfg.inBase.toNat + i) with
    | none => .fault (.ibufUnwritten (s.cfg.inBase.toNat + i))
    | some b =>
      (body i b s).andThen fun s' => streamFrom body n (i + 1) { s' with inPos := BitVec.ofNat 32 (i + 1) }

/-- The pass of a streaming command over the input range (R32): IN_POS starts at 0. -/
def stream (body : Nat → Byte → State → CmdResult) (s : State) : CmdResult :=
  streamFrom body s.cfg.inLen.toNat 0 { s with inPos := 0 }

end Sys2Proof.Machine
end

