-- ==== Sys2Proof/Machine/Bus.lean ====
section
/-! DEFINITION. The host's side: the address map (20_memory.md R50), the registers and windows as read and written
(10_state.md R19-R44), accesses while BUSY (R46), bus errors (R51), command issue (40_control.md R73) and hardware
reset (70_reset_and_hazards.md R141). -/

namespace Sys2Proof.Machine

/-- The control registers (R20-R38). -/
inductive Reg where
  | id | param0 | param1 | ctrl | status | cmd | inBase | inLen | outBase | outCap | lzwCfg
  | errCode | errInfo | errCmd | cycles | stage | inPos | resOrig | resComp
  | outLen | bitLen | bpState | padBits | freqTotal | freqNsym
  | hufNnodes | hufLive | hufRoot | hufMaxlen | ariK | ariB | ariBits
  | lzwNext | lzwCur | lzwNcodes | lzwAct
  deriving DecidableEq, Repr

/-- The registers in offset order: the one at position n has offset 4·n (R20-R38). -/
def regsInOrder : List Reg :=
  [.id, .param0, .param1, .ctrl, .status, .cmd, .inBase, .inLen, .outBase, .outCap, .lzwCfg,
    .errCode, .errInfo, .errCmd, .cycles, .stage, .inPos, .resOrig, .resComp,
    .outLen, .bitLen, .bpState, .padBits, .freqTotal, .freqNsym,
    .hufNnodes, .hufLive, .hufRoot, .hufMaxlen, .ariK, .ariB, .ariBits,
    .lzwNext, .lzwCur, .lzwNcodes, .lzwAct]

/-- A register's value as the host reads it while BUSY = 0 (R20-R38). -/
def regValue (s : State) : Reg → Word
  | .id => 0x48544231
  | .param0 => param0Word s.params
  | .param1 => param1Word s.params
  | .ctrl => s.ctrl.word
  | .status => s.statusWord
  | .cmd => s.cmd
  | .inBase => s.cfg.inBase
  | .inLen => s.cfg.inLen
  | .outBase => s.cfg.outBase
  | .outCap => s.cfg.outCap
  | .lzwCfg => s.cfg.lzwCfg.word
  | .errCode => s.err.code.num
  | .errInfo => s.err.info
  | .errCmd => s.err.cmd
  | .cycles => s.cycles
  | .stage => s.stage.word
  | .inPos => s.inPos
  | .resOrig => s.res.orig
  | .resComp => s.res.comp
  | .outLen => s.bp.outLen
  | .bitLen => s.bp.bitLen
  | .bpState => s.bp.stateWord
  | .padBits => s.bp.padBits.setWidth 32
  | .freqTotal => s.freq.total
  | .freqNsym => s.freq.nsym.setWidth 32
  | .hufNnodes => s.huf.nnodes.setWidth 32
  | .hufLive => s.huf.live.setWidth 32
  | .hufRoot => s.huf.root.setWidth 32
  | .hufMaxlen => s.huf.maxLen.setWidth 32
  | .ariK => s.ari.k
  | .ariB => s.ari.b
  | .ariBits => s.ari.bits
  | .lzwNext => s.lzw.next.setWidth 32
  | .lzwCur => s.lzw.cur.setWidth 32
  | .lzwNcodes => s.lzw.ncodes
  | .lzwAct => s.lzw.act.word

/-- The registers that read their current value while BUSY = 1: STATUS, the registers the host writes and the constants
(R46; 70_reset_and_hazards.md R147). Of the error registers R46's table says the same and R147 says that they read as
unspecified values: both are allowed (log 17). Every other register reads as a free value. -/
def Reg.steady : Reg → Bool
  | .id | .param0 | .param1 | .ctrl | .status | .cmd | .inBase | .inLen | .outBase | .outCap | .lzwCfg => true
  | .errCode | .errInfo | .errCmd => Config.errorRegsReadCurrent
  | .cycles | .stage | .inPos | .resOrig | .resComp
  | .outLen | .bitLen | .bpState | .padBits | .freqTotal | .freqNsym
  | .hufNnodes | .hufLive | .hufRoot | .hufMaxlen | .ariK | .ariB | .ariBits
  | .lzwNext | .lzwCur | .lzwNcodes | .lzwAct => false

/-- Word j, bits [32j+31:32j], of a multi-word value (R42, R43, R52). -/
def wordOf (v j : Nat) : Word := BitVec.ofNat 32 (v >>> (32 * j))

/-- Word w of an arena entry in the NODE window (R41). -/
def nodeWord (nd : Node) : Nat → Word
  | 0 => nd.freq
  | 1 => nd.left.setWidth 32 ||| (nd.right.setWidth 32 <<< 16)
  | 2 => nd.sym.setWidth 32 ||| bitAt 8 nd.leaf ||| bitAt 9 nd.live
  | _ => 0

/-- Entry e in the DICT window (R44). -/
def dictWord (s : State) (e : Nat) : Word :=
  if s.stage.lzwV then
    if e < 256 then 0xFFFF ||| (BitVec.ofNat 32 e <<< 16) ||| bitAt 31 true
    else if e < s.lzw.next.toNat then
      match s.lzw.dict[e - 256]? with
      | some x => x.pre.setWidth 32 ||| (x.byte.setWidth 32 <<< 16) ||| bitAt 31 true
      | none => 0
    else 0
  else 0

/-- Word j of an accumulator window (R43): the words at and beyond ARI_WORDS read as 0. -/
def accWord (s : State) (v j : Nat) : Word := if j < s.params.ariWords then wordOf v j else 0

/-- The word of the table windows at a 4-aligned offset (R39-R44, R50), if the offset lies in one. -/
def windowWord (s : State) (off : Nat) : Option Word :=
  if 0x1000 ≤ off ∧ off < 0x1400 then some (s.freq.count.at (BitVec.ofNat 8 ((off - 0x1000) / 4)))
  else if 0x1400 ≤ off ∧ off < 0x1800 then some (s.ari.cumLo.at (BitVec.ofNat 8 ((off - 0x1400) / 4)))
  else if 0x1800 ≤ off ∧ off < 0x1C00 then
    some ((s.huf.codeLen.at (BitVec.ofNat 8 ((off - 0x1800) / 4))).setWidth 32)
  else if 0x2000 ≤ off ∧ off < 0x4000 then
    some (wordOf (s.huf.codeVal.at (BitVec.ofNat 8 ((off - 0x2000) / 32))).toNat ((off - 0x2000) / 4 % 8))
  else if 0x4000 ≤ off ∧ off < 0x6000 then
    some (match s.huf.arena[(off - 0x4000) / 16]? with
      | some nd => nodeWord nd ((off - 0x4000) / 4 % 4)
      | none => 0)
  else if 0x10000 ≤ off ∧ off < 0x14000 then some (accWord s s.ari.l ((off - 0x10000) / 4))
  else if 0x14000 ≤ off ∧ off < 0x18000 then some (accWord s s.ari.h ((off - 0x14000) / 4))
  else if 0x18000 ≤ off ∧ off < 0x1C000 then some (accWord s s.ari.d ((off - 0x18000) / 4))
  else if 0x40000 ≤ off ∧ off < 0x80000 then some (dictWord s ((off - 0x40000) / 4))
  else none

/-- Where a legal access lands (R50). -/
inductive Target where
  /-- A control register. -/
  | reg (r : Reg)
  /-- A word of a table window; its value while BUSY = 0. -/
  | window (value : Word)
  /-- A byte offset of IBUF. -/
  | ibuf (a : Nat)
  /-- A byte offset of OBUF. -/
  | obuf (a : Nat)
  deriving DecidableEq, Repr

/-- The bytes of an access (R53). -/
def AccessWidth.bytes : AccessWidth → Nat
  | .w8 => 1
  | .w16 => 2
  | .w32 => 4

/-- The address map (R50) with the width and alignment rules (R53); `none` is a bus error (R51). A buffer's size is
a multiple of 4, so an aligned access that begins inside it ends inside it. -/
def target (s : State) (w : AccessWidth) (off : Word) : Option Target :=
  let a := off.toNat
  if a % w.bytes ≠ 0 then none
  else if 0x1000000 ≤ a ∧ a < 0x1000000 + s.ibufSize then some (.ibuf (a - 0x1000000))
  else if 0x2000000 ≤ a ∧ a < 0x2000000 + s.obufSize then some (.obuf (a - 0x2000000))
  else if w = .w32 then
    if a < 0x100 then (regsInOrder[a / 4]?).map .reg else (windowWord s a).map .window
  else none

/-- n bytes from offset a on, little-endian (R52). -/
def gatherBytes (byteAt : Nat → Byte) : Nat → Nat → Word
  | 0, _ => 0
  | n + 1, a => (byteAt a).setWidth 32 ||| (gatherBytes byteAt n (a + 1) <<< 8)

/-- An IBUF byte as the host reads it: one that has no value reads as a free value (R56, log 7). -/
def ibufByte (s : State) (a : Nat) : Byte := (s.ibuf.read a).getD (Config.freeIbuf s.epoch a)

/-- An OBUF byte as the host reads it (R56, log 7). -/
def obufByte (s : State) (a : Nat) : Byte := (s.obuf.read a).getD (Config.freeObuf s.epoch a)

/-- The low bits of a word that an access of this width carries (R53). -/
def AccessWidth.truncate (w : AccessWidth) (v : Word) : Word :=
  match w with
  | .w8 => (v.setWidth 8).setWidth 32
  | .w16 => (v.setWidth 16).setWidth 32
  | .w32 => v

/-- Whether the host sees the target's current value: always while BUSY = 0; while BUSY = 1 by R46 and R147. -/
def visible (s : State) : Target → Bool
  | .reg r => !s.status.busy || r.steady
  | .window _ => !s.status.busy
  | .ibuf _ => true
  | .obuf _ => !s.status.busy

/-- The value of a target (R20-R44, R52). -/
def targetValue (s : State) (w : AccessWidth) : Target → Word
  | .reg r => regValue s r
  | .window v => v
  | .ibuf a => gatherBytes (ibufByte s) w.bytes a
  | .obuf a => gatherBytes (obufByte s) w.bytes a

/-- A host read (R46, R54, R147): the only effect is the answer on the bus. -/
def hostRead (w : AccessWidth) (off : Word) (s : State) : Host.Outcome State Fault Refusal :=
  match target s w off with
  | none => .fault (.busError off)
  | some t =>
    if visible s t then .next { s with resp := some (targetValue s w t) }
    else .next { s with resp := some (w.truncate (Config.freeBusyRead s.draws)), draws := s.draws + 1 }

/-- n bytes of v, least significant first, written from offset a on (R52). -/
def scatterBytes : Nat → Nat → Word → Memory → Memory
  | 0, _, _, m => m
  | n + 1, a, v, m => scatterBytes n (a + 1) (v >>> 8) (m.write a (v.setWidth 8))

/-- A write that BUSY drops (R46): WBUSY is set and nothing else changes. -/
def ifIdle (s t : State) : State := if s.status.busy then { s with status.wbusy := true } else t

/-- The SRESET word (R80), the only one accepted while ERR = 1 (R73). -/
def sresetWord : Word := 0x01000000

/-- A write to CMD (R73): accepted, or dropped with DROP set. -/
def writeCmd (s : State) (w : Word) : State :=
  if s.status.busy ∨ (s.status.err ∧ w ≠ sresetWord) then { s with status.drop := true } else s.accept w

/-- A write to a control register (R19, R23-R28, R46). A read-only register ignores it. -/
def writeReg (s : State) (v : Word) : Reg → State
  | .ctrl => { s with ctrl := Ctrl.ofWord v }
  | .status => s.writeStatus v
  | .cmd => writeCmd s v
  | .inBase => ifIdle s { s with cfg.inBase := v }
  | .inLen => ifIdle s { s with cfg.inLen := v }
  | .outBase => ifIdle s { s with cfg.outBase := v }
  | .outCap => ifIdle s { s with cfg.outCap := v }
  | .lzwCfg => ifIdle s { s with cfg.lzwCfg := s.cfg.lzwCfg.written s.params.lzwWmax v }
  | .id | .param0 | .param1 | .errCode | .errInfo | .errCmd | .cycles | .stage | .inPos | .resOrig | .resComp
  | .outLen | .bitLen | .bpState | .padBits | .freqTotal | .freqNsym | .hufNnodes | .hufLive | .hufRoot
  | .hufMaxlen | .ariK | .ariB | .ariBits | .lzwNext | .lzwCur | .lzwNcodes | .lzwAct => s

/-- A write to a target (R46, R48, R49); windows ignore it (10_state.md section 6). -/
def writeTarget (s : State) (w : AccessWidth) (v : Word) : Target → State
  | .reg r => writeReg s v r
  | .window _ => s
  | .ibuf a => ifIdle s { s with ibuf := scatterBytes w.bytes a v s.ibuf }
  | .obuf a => ifIdle s { s with obuf := scatterBytes w.bytes a v s.obuf }

/-- A host write (R46, R54). -/
def hostWrite (w : AccessWidth) (off v : Word) (s : State) : Host.Outcome State Fault Refusal :=
  match target s w off with
  | none => .fault (.busError off)
  | some t => .next { writeTarget s w v t with resp := none }

/-- Hardware reset (R141): every register and table at its reset value, the buffers unspecified anew; a running
command is abandoned. -/
def hwReset (s : State) : State := State.resetOf s.params s.inbox s.draws (s.epoch + 1)

/-- One host event (R16). -/
def hostStep (e : HostEvent) (s : State) : Host.Outcome State Fault Refusal :=
  match e with
  | .read w off => hostRead w off s
  | .write w off v => hostWrite w off v s
  | .hwReset => .next (hwReset s)

end Sys2Proof.Machine
end

