-- ==== Sys2Proof/Machine/BitPack.lean ====
section
/-! DEFINITION. The BitPacker's commands BP_CLEAR, BP_PUT and BP_PAD (45_bitpacker.md R117-R119). -/

namespace Sys2Proof.Machine

/-- A new, empty bit stream (R117); OBUF is not cleared. -/
def clearStream (s : State) : State := { s with bp := ⟨0, 0, 0, 0, 0⟩ }

/-- `BP_CLEAR` (R117). -/
def execBpClear (s : State) : Host.Outcome State Fault Refusal := finish (.ok (clearStream s))

/-- The body of BP_PUT (R118). -/
def bpPutBody (n : Byte) (bits : BitVec 16) (s : State) : CmdResult :=
  (outCheck s).andThen (appendBits 0 (putBits n bits))

/-- `BP_PUT n, bits` (R118). -/
def execBpPut (n : Byte) (bits : BitVec 16) (s : State) : Host.Outcome State Fault Refusal :=
  finish (bpPutBody n bits s)

/-- `(8 - CNT) mod 8` (R119). -/
def padCount (cnt : BitVec 3) : Nat := (8 - cnt.toNat) % 8

/-- The body of BP_PAD (R119). -/
def bpPadBody (s : State) : CmdResult :=
  (outCheck s).andThen fun s =>
    (appendBits 0 (bitsOf (padCount s.bp.cnt) 0) s).andThen fun t =>
      .ok { t with bp.padBits := BitVec.ofNat 3 (padCount s.bp.cnt) }

/-- `BP_PAD` (R119). -/
def execBpPad (s : State) : Host.Outcome State Fault Refusal := finish (bpPadBody s)

end Sys2Proof.Machine
end

