-- ==== Sys2Proof/Machine/Control.lean ====
section
/-! DEFINITION. The control commands NOP, SRESET and RESULT (40_control.md R79-R81). -/

namespace Sys2Proof.Machine

/-- `NOP` (R79). -/
def execNop (s : State) : Host.Outcome State Fault Refusal := finish (.ok s)

/-- What SRESET clears (R80): every engine-written register and table, and the errors; not CTRL, the
configuration, CMD or the buffers. The arena and the dictionary hold no entry afterwards (R41, R44). -/
def softReset (s : State) : State :=
  { s.clearErrors with
    stage := ⟨false, 0, false, false, false, false, false⟩
    freq := FreqModel.zero
    huf := Huffman.zero
    ari := Arith.zero
    lzw := Lzw.zero
    bp := ⟨0, 0, 0, 0, 0⟩
    inPos := 0
    res := ⟨0, 0⟩ }

/-- `SRESET` (R80). -/
def execSreset (s : State) : Host.Outcome State Fault Refusal := finish (.ok (softReset s))

/-- The result record (R81). -/
def latchResult (s : State) : State := { s with res := ⟨s.cfg.inLen, s.bp.outLen⟩ }

/-- The body of RESULT (R81): the stream must be byte-aligned (R76). -/
def resultBody (s : State) : CmdResult := (checkStage .result s).andThen fun s => .ok (latchResult s)

/-- `RESULT` (R81). -/
def execResult (s : State) : Host.Outcome State Fault Refusal := finish (resultBody s)

end Sys2Proof.Machine
end

