-- ==== Sys2Proof/Machine/Frequency.lean ====
section
/-! DEFINITION. The FrequencyModel: FREQ (41_frequency.md R85). -/

namespace Sys2Proof.Machine

/-- `FREQ[s] <- 0` for every s (R85). -/
def clearFreq (s : State) : State := { s with freq.count := Vector.replicate 256 0 }

/-- One input byte counted (R85); the count fits in 32 bits (00_scope.md R8). -/
def countByte (_ : Nat) (b : Byte) (s : State) : CmdResult :=
  .ok { s with freq.count := s.freq.count.put b (s.freq.count.at b + 1) }

/-- |{ s : FREQ[s] > 0 }| (R85). -/
def presentCount (t : Table Word) : Nat := allSyms.countP fun s => t.at s != 0

/-- The end of FREQ (R85): the totals, and the models built from an older table are void. -/
def closeFreq (s : State) : State :=
  { s with
    freq.total := s.cfg.inLen
    freq.nsym := BitVec.ofNat 9 (presentCount s.freq.count)
    stage.freqV := true
    stage.hufStage := 0
    stage.hufCanon := false
    stage.ariTblV := false
    stage.ariV := false }

/-- The body of FREQ (R85). -/
def freqBody (s : State) : CmdResult :=
  (inCheck s).andThen fun s => (stream countByte (clearFreq s)).andThen fun s => .ok (closeFreq s)

/-- `FREQ` (R85). -/
def execFreq (s : State) : Host.Outcome State Fault Refusal := finish (freqBody s)

end Sys2Proof.Machine
end

