-- ==== Sys2Proof/Machine/Arith.lean ====
section
/-! DEFINITION. The arithmetic interval narrower (43_arithmetic.md R99-R107). T is FREQ_TOTAL and W is
ARI_ACC_BITS throughout. -/

namespace Sys2Proof.Machine

/-- The running sums from c on: c, c + f0, c + f0 + f1, … (R99). -/
def sumsFrom (c : Word) : List Word → List Word
  | [] => []
  | f :: fs => c :: sumsFrom (c + f) fs

theorem sumsFrom_length (fs : List Word) : ∀ c, (sumsFrom c fs).length = fs.length := by
  induction fs with
  | nil => intro c; rfl
  | cons f fs ih => intro c; simp [sumsFrom, ih]

/-- The cumulative interval table of a frequency table (R99). -/
def cumTable (t : Table Word) : Table Word :=
  ⟨⟨sumsFrom 0 t.toList⟩, by simp [sumsFrom_length]⟩

/-- The effect of ARI_TABLE (R99). -/
def buildIntervals (s : State) : State :=
  { s with
    ari.cumLo := cumTable s.freq.count
    stage.ariTblV := true
    stage.ariV := false }

/-- The body of ARI_TABLE (R99). -/
def ariTableBody (s : State) : CmdResult := (checkStage .ariTable s).andThen fun s => .ok (buildIntervals s)

/-- `ARI_TABLE` (R99). -/
def execAriTable (s : State) : Host.Outcome State Fault Refusal := finish (ariTableBody s)

/-- The effect of ARI_INIT (R101): the interval [0, 1). -/
def openInterval (s : State) : State :=
  { s with
    ari.l := 0
    ari.h := 1
    ari.d := 1
    ari.k := 0
    ari.b := 0
    ari.bits := 0
    stage.ariV := true }

/-- `ARI_INIT` (R101). -/
def execAriInit (s : State) : Host.Outcome State Fault Refusal := finish (.ok (openInterval s))

/-- The exact narrowing by symbol b (R102); both bounds use the old L and the old width. -/
def narrowBy (s : State) (b : Byte) : State :=
  let t := s.freq.total.toNat
  let width := s.ari.h - s.ari.l
  let lo := (s.ari.cumLo.at b).toNat
  let f := (s.freq.count.at b).toNat
  { s with
    ari.h := s.ari.l * t + width * (lo + f)
    ari.l := s.ari.l * t + width * lo
    ari.d := s.ari.d * t
    ari.k := bumpCount s.ari.k s.draws
    draws := s.draws + 1 }

/-- The step body of ARI_STEP (R102) for the symbol b at offset pos: ARI_NO_SYM, then PRECISION_OVERFLOW, each
before any change. -/
def ariStepAt (pos : Nat) (b : Byte) (s : State) : CmdResult :=
  if s.freq.count.at b = 0 then .error s .ariNoSym (byteInfo pos b)
  else if 2 ^ s.accBits ≤ s.ari.d * s.freq.total.toNat then .error s .precisionOverflow (byteInfo pos b)
  else .ok (narrowBy s b)

/-- The body of ARI_STEP (R102). -/
def ariStepBody (sym : Byte) (s : State) : CmdResult := (checkStage (.ariStep sym) s).andThen (ariStepAt 0 sym)

/-- `ARI_STEP sym` (R102). -/
def execAriStep (sym : Byte) (s : State) : Host.Outcome State Fault Refusal := finish (ariStepBody sym s)

/-- The body of ARI_NARROW (R103). -/
def ariNarrowBody (s : State) : CmdResult :=
  (checkStage .ariNarrow s).andThen fun s => (inCheck s).andThen (stream ariStepAt)

/-- `ARI_NARROW` (R103). -/
def execAriNarrow (s : State) : Host.Outcome State Fault Refusal := finish (ariNarrowBody s)

/-- The least b with width·2^b ≥ d (R104), by doubling; it is at most W (R104), so W is fuel enough. -/
def bitBound : Nat → Nat → Nat → Nat
  | 0, _, _ => 0
  | fuel + 1, width, d => if d ≤ width then 0 else 1 + bitBound fuel (2 * width) d

/-- B of R104. -/
def State.finalB (s : State) : Nat := bitBound s.accBits (s.ari.h - s.ari.l) s.ari.d

/-- N of R105: ⌈L·2^B / D⌉. -/
def State.finalN (s : State) : Nat := ceilDiv (s.ari.l * 2 ^ s.finalB) s.ari.d

/-- E of R105: the doubling stops once the remainder is exactly 0. -/
def State.finalE (s : State) : Nat :=
  if s.finalN = 0 then 0 else s.finalB - trailingZeros s.finalB s.finalN

/-- The bit string of R105. -/
def State.finalBits (s : State) : List Bool := bitsOf s.finalE (s.finalN >>> (s.finalB - s.finalE))

/-- The body of ARI_FINAL (R105). -/
def ariFinalBody (s : State) : CmdResult :=
  (checkStage .ariFinal s).andThen fun s =>
  (outCheck s).andThen fun s =>
  (appendBits 0 s.finalBits s).andThen fun t =>
    .ok { t with ari.b := BitVec.ofNat 32 s.finalB, ari.bits := BitVec.ofNat 32 s.finalE }

/-- `ARI_FINAL` (R105). -/
def execAriFinal (s : State) : Host.Outcome State Fault Refusal := finish (ariFinalBody s)

/-- The body of ARI_ENCODE (R106): its phases in order. -/
def ariEncodeBody (s : State) : CmdResult :=
  (inCheck s).andThen fun s =>
  (outCheck s).andThen fun s =>
  (freqBody (clearStream s)).andThen fun s =>
  (ariTableBody s).andThen fun s =>
  (ariNarrowBody (openInterval s)).andThen fun s =>
  (ariFinalBody s).andThen fun s =>
  (bpPadBody s).andThen resultBody

/-- `ARI_ENCODE` (R106). -/
def execAriEncode (s : State) : Host.Outcome State Fault Refusal := finish (ariEncodeBody s)

end Sys2Proof.Machine
end

