-- ==== Sys2Proof/Machine/Huff.lean ====
section
/-! DEFINITION. The Huffman tree builder, the code table and the emitter (42_huffman.md R87-R98). -/

namespace Sys2Proof.Machine

/-- A leaf as HUF_INIT makes it (R88). -/
def leafNode (f : Word) (s : Byte) : Node := ⟨f, true, s, nodeNone, nodeNone, true⟩

/-- The leaves of the present symbols, in ascending symbol order (R88). -/
def leavesOf (t : Table Word) : List Node :=
  allSyms.filterMap fun s => if t.at s = 0 then none else some (leafNode (t.at s) s)

/-- A code table with no code (R88, R93). -/
def Huffman.clearCodes (h : Huffman) : Huffman :=
  { h with codeLen := Vector.replicate 256 0, codeVal := Vector.replicate 256 0 }

/-- The effect of HUF_INIT (R88). -/
def plantLeaves (s : State) : State :=
  let leaves := leavesOf s.freq.count
  { s with
    huf.arena := leaves
    huf.nnodes := BitVec.ofNat 10 leaves.length
    huf.live := BitVec.ofNat 10 leaves.length
    huf.codeLen := Vector.replicate 256 0
    huf.codeVal := Vector.replicate 256 0
    huf.maxLen := 0
    huf.root := if leaves.length = 1 then 0 else nodeNone
    stage.hufStage := if leaves.length ≤ 1 then 2 else 1
    stage.hufCanon := false }

/-- The body of HUF_INIT (R88). -/
def hufInitBody (s : State) : CmdResult := (checkStage .hufInit s).andThen fun s => .ok (plantLeaves s)

/-- `HUF_INIT` (R88). -/
def execHufInit (s : State) : Host.Outcome State Fault Refusal := finish (hufInitBody s)

/-- The live node with the least (FREQ, index) among the nodes from index `i` on, given the least one before (R89). -/
def leastLiveFrom : List Node → Nat → Option (Nat × Nat) → Option (Nat × Nat)
  | [], _, best => best
  | nd :: rest, i, best =>
    leastLiveFrom rest (i + 1)
      (if nd.live then
        match best with
        | none => some (nd.freq.toNat, i)
        | some (f, j) => if nd.freq.toNat < f then some (nd.freq.toNat, i) else some (f, j)
      else best)

/-- The index `ExtractMin` returns (R89), if any node is live. -/
def leastLive (arena : List Node) : Option Nat := (leastLiveFrom arena 0 none).map (·.2)

/-- `NODE[i].LIVE <- 0` (R89). -/
def killNode (arena : List Node) (i : Nat) : List Node := arena.modify i fun nd => { nd with live := false }

/-- `ExtractMin()` (R89): the index, and the unit with that node no longer live. -/
def extractMin (h : Huffman) : Option (Nat × Huffman) :=
  (leastLive h.arena).map fun i => (i, { h with arena := killNode h.arena i, live := h.live - 1 })

/-- The frequency of an arena entry; an entry not in use reads as zero (R41). -/
def nodeFreq (arena : List Node) (i : Nat) : Word := (arena[i]?.map (·.freq)).getD 0

/-- The node HUF_MERGE creates (R90): the first extracted is the left child. -/
def mergedNode (arena : List Node) (a b : Nat) : Node :=
  ⟨nodeFreq arena a + nodeFreq arena b, false, 0, BitVec.ofNat 9 a, BitVec.ofNat 9 b, true⟩

/-- The merge of the two lowest live nodes (R90). With fewer than two live nodes, which HUF_LIVE ≥ 2 excludes in
every state the invariant of the arena holds in, nothing changes (log 14). -/
def mergeTwo (h : Huffman) : Huffman :=
  match extractMin h with
  | none => h
  | some (a, h1) =>
    match extractMin h1 with
    | none => h
    | some (b, h2) =>
      { h2 with
        arena := h2.arena ++ [mergedNode h2.arena a b]
        nnodes := h2.nnodes + 1
        live := h2.live + 1 }

/-- "the index i with NODE[i].LIVE = 1" (R90). -/
def soleLive (arena : List Node) : BitVec 9 := BitVec.ofNat 9 (arena.findIdx (·.live))

/-- The second half of HUF_MERGE (R90): with one live node, it is the root and the tree is complete. -/
def settleRoot (s : State) : State :=
  if s.huf.live = 1 then
    { s with
      huf.root := soleLive s.huf.arena
      stage.hufStage := if s.stage.hufStage = 1 then 2 else s.stage.hufStage }
  else s

/-- The effect of HUF_MERGE (R90). -/
def mergeStep (s : State) : State :=
  settleRoot (if 2 ≤ s.huf.live.toNat then { s with huf := mergeTwo s.huf } else s)

/-- The body of HUF_MERGE (R90). -/
def hufMergeBody (s : State) : CmdResult := (checkStage .hufMerge s).andThen fun s => .ok (mergeStep s)

/-- `HUF_MERGE` (R90). -/
def execHufMerge (s : State) : Host.Outcome State Fault Refusal := finish (hufMergeBody s)

/-- HUF_MERGE's effect again and again until HUF_LIVE ≤ 1 (R91); each merge lowers HUF_LIVE by one, so HUF_LIVE is
fuel enough. -/
def mergeUntilOne : Nat → State → State
  | 0, s => s
  | fuel + 1, s => if s.huf.live.toNat ≤ 1 then s else mergeUntilOne fuel (mergeStep s)

/-- The effect of HUF_BUILD (R91): at least one merge step, then until HUF_LIVE ≤ 1. -/
def buildTree (s : State) : State :=
  let t := mergeStep s
  mergeUntilOne t.huf.live.toNat t

/-- The body of HUF_BUILD (R91). -/
def hufBuildBody (s : State) : CmdResult := (checkStage .hufBuild s).andThen fun s => .ok (buildTree s)

/-- `HUF_BUILD` (R91). -/
def execHufBuild (s : State) : Host.Outcome State Fault Refusal := finish (hufBuildBody s)

/-- A code table under construction: CODE_LEN and CODE_VAL. -/
abbrev CodeTables := Table (BitVec 9) × Table (BitVec 256)

/-- `CODE_LEN[s] <- len; CODE_VAL[s] <- val` (R93). -/
def setCode (t : CodeTables) (s : Byte) (len val : Nat) : CodeTables :=
  (t.1.put s (BitVec.ofNat 9 len), t.2.put s (BitVec.ofNat 256 val))

/-- `Visit(i, len, val)` (R93). A child's index is smaller than its parent's (R87), so the number of nodes is fuel
enough. -/
def visit (arena : List Node) : Nat → Nat → Nat → Nat → CodeTables → CodeTables
  | 0, _, _, _, t => t
  | fuel + 1, i, len, val, t =>
    match arena[i]? with
    | none => t
    | some nd =>
      if nd.leaf then setCode t nd.sym len val
      else visit arena fuel nd.right.toNat (len + 1) (2 * val + 1)
        (visit arena fuel nd.left.toNat (len + 1) (2 * val) t)

/-- The code table of the tree (R93, and R94 for a single leaf). -/
def treeCodes (h : Huffman) : CodeTables :=
  let zero : CodeTables := (Vector.replicate 256 0, Vector.replicate 256 0)
  if h.root = nodeNone then zero
  else
    match h.arena[h.root.toNat]? with
    | none => zero
    | some nd =>
      if nd.leaf then setCode zero nd.sym 1 0
      else visit h.arena h.arena.length h.root.toNat 0 0 zero

/-- "max over s of CODE_LEN[s]" (R93). -/
def longestCode (t : Table (BitVec 9)) : Nat := allSyms.foldl (fun m s => max m (t.at s).toNat) 0

/-- The effect of HUF_CODES (R93). -/
def extractCodes (s : State) : State :=
  let t := treeCodes s.huf
  { s with
    huf.codeLen := t.1
    huf.codeVal := t.2
    huf.maxLen := BitVec.ofNat 9 (longestCode t.1)
    stage.hufStage := 3
    stage.hufCanon := false }

/-- The body of HUF_CODES (R93). -/
def hufCodesBody (s : State) : CmdResult := (checkStage .hufCodes s).andThen fun s => .ok (extractCodes s)

/-- `HUF_CODES` (R93). -/
def execHufCodes (s : State) : Host.Outcome State Fault Refusal := finish (hufCodesBody s)

/-- The order of R96: ascending by (CODE_LEN[s], s). -/
abbrev canonLe (lens : Table (BitVec 9)) (a b : Byte) : Prop :=
  (lens.at a).toNat < (lens.at b).toNat ∨ ((lens.at a).toNat = (lens.at b).toNat ∧ a.toNat ≤ b.toNat)

/-- "the symbols s with CODE_LEN[s] > 0, sorted ascending by (CODE_LEN[s], s)" (R96). -/
def canonList (lens : Table (BitVec 9)) : List Byte :=
  (allSyms.filter fun s => lens.at s != 0).insertionSort (canonLe lens)

/-- The loop of R96 after its first symbol: `code` and `len` are those of the symbol before. -/
def canonFrom (lens : Table (BitVec 9)) : List Byte → Nat → Nat → Table (BitVec 256) → Table (BitVec 256)
  | [], _, _, t => t
  | s :: rest, code, len, t =>
    let next := (code + 1) <<< ((lens.at s).toNat - len)
    canonFrom lens rest next (lens.at s).toNat (t.put s (BitVec.ofNat 256 next))

/-- The canonical CODE_VAL table (R96): the first symbol gets code 0. -/
def canonVals (lens : Table (BitVec 9)) (vals : Table (BitVec 256)) : Table (BitVec 256) :=
  match canonList lens with
  | [] => vals
  | s :: rest => canonFrom lens rest 0 (lens.at s).toNat (vals.put s 0)

/-- The effect of HUF_CANON (R96). -/
def renumberCodes (s : State) : State :=
  { s with
    huf.codeVal := canonVals s.huf.codeLen s.huf.codeVal
    stage.hufCanon := true }

/-- The body of HUF_CANON (R96). -/
def hufCanonBody (s : State) : CmdResult := (checkStage .hufCanon s).andThen fun s => .ok (renumberCodes s)

/-- `HUF_CANON` (R96). -/
def execHufCanon (s : State) : Host.Outcome State Fault Refusal := finish (hufCanonBody s)

/-- The step of HUF_EMIT for input byte i, b (R97): NO_CODE before OUT_OVERFLOW (60_exceptions.md R125). -/
def emitByte (i : Nat) (b : Byte) (s : State) : CmdResult :=
  if s.huf.codeLen.at b = 0 then .error s .noCode (byteInfo i b)
  else appendBits (byteInfo i b) (s.huf.code b) s

/-- The body of HUF_EMIT (R97). -/
def hufEmitBody (s : State) : CmdResult :=
  (checkStage .hufEmit s).andThen fun s =>
    (inCheck s).andThen fun s => (outCheck s).andThen (stream emitByte)

/-- `HUF_EMIT` (R97). -/
def execHufEmit (s : State) : Host.Outcome State Fault Refusal := finish (hufEmitBody s)

/-- The body of HUF_ENCODE (R98): its phases in order. -/
def hufEncodeBody (canon : Bool) (s : State) : CmdResult :=
  (inCheck s).andThen fun s =>
  (outCheck s).andThen fun s =>
  (freqBody (clearStream s)).andThen fun s =>
  (hufInitBody s).andThen fun s =>
  (hufBuildBody s).andThen fun s =>
  (hufCodesBody s).andThen fun s =>
  (if canon then hufCanonBody s else .ok s).andThen fun s =>
  (hufEmitBody s).andThen fun s =>
  (bpPadBody s).andThen resultBody

/-- `HUF_ENCODE` (R98). -/
def execHufEncode (canon : Bool) (s : State) : Host.Outcome State Fault Refusal := finish (hufEncodeBody canon s)

end Sys2Proof.Machine
end

