-- ==== Sys2Proof/Machine/LzwDict.lean ====
section
/-! DEFINITION. The LZW dictionary manager (44_lzw.md R108-R115). WIDTH, POLICY and cap are those of LZW_ACT
throughout. -/

namespace Sys2Proof.Machine

/-- LZW_FULL (R31): LZW_NEXT = cap. -/
def Lzw.full (z : Lzw) : Bool := decide (z.next.toNat = z.cap)

/-- The effect of LZW_INIT (R108). -/
def seedDict (s : State) : State :=
  { s with
    lzw := ⟨[], 256, lzwEmpty, 0, s.cfg.lzwCfg⟩
    stage.lzwV := true
    stage.lzwFull := decide (256 = 2 ^ s.cfg.lzwCfg.width.toNat) }

/-- `LZW_INIT` (R108). -/
def execLzwInit (s : State) : Host.Outcome State Fault Refusal := finish (.ok (seedDict s))

/-- The first entry for (c, b) from code e on. -/
def dictFind (c : Nat) (b : Byte) : List DictEntry → Nat → Option Nat
  | [], _ => none
  | x :: rest, e => if x.pre.toNat = c ∧ x.byte = b then some e else dictFind c b rest (e + 1)

/-- `Find(c, b)` (R109): the code e ≥ 256 with PREFIX[e] = c and BYTE[e] = b, if there is one. -/
def Lzw.find (z : Lzw) (c : BitVec 17) (b : Byte) : Option Nat := dictFind c.toNat b z.dict 256

/-- What a step does to the dictionary after it has emitted the code of s (R110, R111): insert the candidate under
next_code, or, at the cap, empty the dictionary (RESET) or insert nothing (FREEZE). -/
def Lzw.learn (z : Lzw) (b : Byte) : Lzw :=
  if z.next.toNat < z.cap then { z with dict := z.dict ++ [⟨z.cur.setWidth 16, b⟩], next := z.next + 1 }
  else if z.act.policy = .reset then { z with dict := [], next := 256 }
  else z

/-- LZW_CUR ← c, and STAGE.LZW_FULL as R110 ends. -/
def setCur (s : State) (c : BitVec 17) : State :=
  { s with
    lzw.cur := c
    stage.lzwFull := s.lzw.full }

/-- LZW_NCODES ← LZW_NCODES + 1 (R110, R113; log 8). -/
def countCode (s : State) : State :=
  { s with
    lzw.ncodes := bumpCount s.lzw.ncodes s.draws
    draws := s.draws + 1 }

/-- The bits of the code of the current match (R110, R113). -/
def Lzw.curBits (z : Lzw) : List Bool := bitsOf z.act.width.toNat z.cur.toNat

/-- The end of a step that emitted (R110): count the code, learn, restart at b. -/
def restartAt (s : State) (b : Byte) : State :=
  let t := countCode s
  setCur { t with lzw := t.lzw.learn b } (b.setWidth 17)

/-- The step body of LZW_STEP (R110) for the byte b at offset pos: DICT_OVERFLOW before OUT_OVERFLOW, each before
any change. -/
def lzwStepAt (pos : Nat) (b : Byte) (s : State) : CmdResult :=
  if s.lzw.cur = lzwEmpty then .ok (setCur s (b.setWidth 17))
  else
    match s.lzw.find s.lzw.cur b with
    | some e => .ok (setCur s (BitVec.ofNat 17 e))
    | none =>
      if s.lzw.next.toNat = s.lzw.cap ∧ s.lzw.act.policy = .reject then .error s .dictOverflow (byteInfo pos b)
      else (appendBits (byteInfo pos b) s.lzw.curBits s).andThen fun t => .ok (restartAt t b)

/-- The body of LZW_STEP (R110). -/
def lzwStepBody (sym : Byte) (s : State) : CmdResult :=
  (checkStage (.lzwStep sym) s).andThen fun s => (outCheck s).andThen (lzwStepAt 0 sym)

/-- `LZW_STEP sym` (R110). -/
def execLzwStep (sym : Byte) (s : State) : Host.Outcome State Fault Refusal := finish (lzwStepBody sym s)

/-- The body of LZW_RUN (R112). -/
def lzwRunBody (s : State) : CmdResult :=
  (checkStage .lzwRun s).andThen fun s =>
  (inCheck s).andThen fun s => (outCheck s).andThen (stream lzwStepAt)

/-- `LZW_RUN` (R112). -/
def execLzwRun (s : State) : Host.Outcome State Fault Refusal := finish (lzwRunBody s)

/-- The end of LZW_FLUSH after its Append (R113). -/
def emptyMatch (s : State) : State :=
  let t := countCode s
  { t with lzw.cur := lzwEmpty }

/-- The body of LZW_FLUSH (R113). -/
def lzwFlushBody (s : State) : CmdResult :=
  (checkStage .lzwFlush s).andThen fun s =>
  (outCheck s).andThen fun s =>
    if s.lzw.cur = lzwEmpty then .ok s
    else (appendBits 0 s.lzw.curBits s).andThen fun t => .ok (emptyMatch t)

/-- `LZW_FLUSH` (R113). -/
def execLzwFlush (s : State) : Host.Outcome State Fault Refusal := finish (lzwFlushBody s)

/-- The body of LZW_ENCODE (R114): its phases in order. -/
def lzwEncodeBody (s : State) : CmdResult :=
  (inCheck s).andThen fun s =>
  (outCheck s).andThen fun s =>
  (lzwRunBody (seedDict (clearStream s))).andThen fun s =>
  (lzwFlushBody s).andThen fun s =>
  (bpPadBody s).andThen resultBody

/-- `LZW_ENCODE` (R114). -/
def execLzwEncode (s : State) : Host.Outcome State Fault Refusal := finish (lzwEncodeBody s)

end Sys2Proof.Machine
end

