-- ==== Sys2Proof/Machine/Dispatch.lean ====
section
/-! DEFINITION. The dispatch of a decoded command to its meaning (40_control.md R74). -/

namespace Sys2Proof.Machine

def exec (i : Instr) (s : State) : Host.Outcome State Fault Refusal :=
  match i with
  | .nop => Sys2Proof.Machine.execNop s
  | .sreset => Sys2Proof.Machine.execSreset s
  | .result => Sys2Proof.Machine.execResult s
  | .freq => Sys2Proof.Machine.execFreq s
  | .hufInit => Sys2Proof.Machine.execHufInit s
  | .hufMerge => Sys2Proof.Machine.execHufMerge s
  | .hufBuild => Sys2Proof.Machine.execHufBuild s
  | .hufCodes => Sys2Proof.Machine.execHufCodes s
  | .hufCanon => Sys2Proof.Machine.execHufCanon s
  | .hufEmit => Sys2Proof.Machine.execHufEmit s
  | .hufEncode canon => Sys2Proof.Machine.execHufEncode canon s
  | .ariTable => Sys2Proof.Machine.execAriTable s
  | .ariInit => Sys2Proof.Machine.execAriInit s
  | .ariStep sym => Sys2Proof.Machine.execAriStep sym s
  | .ariNarrow => Sys2Proof.Machine.execAriNarrow s
  | .ariFinal => Sys2Proof.Machine.execAriFinal s
  | .ariEncode => Sys2Proof.Machine.execAriEncode s
  | .lzwInit => Sys2Proof.Machine.execLzwInit s
  | .lzwStep sym => Sys2Proof.Machine.execLzwStep sym s
  | .lzwRun => Sys2Proof.Machine.execLzwRun s
  | .lzwFlush => Sys2Proof.Machine.execLzwFlush s
  | .lzwEncode => Sys2Proof.Machine.execLzwEncode s
  | .bpClear => Sys2Proof.Machine.execBpClear s
  | .bpPut n bits => Sys2Proof.Machine.execBpPut n bits s
  | .bpPad => Sys2Proof.Machine.execBpPad s

end Sys2Proof.Machine
end

