-- ==== Sys2Proof/Machine/Step.lean ====
section
/-! DEFINITION. One step of the block: a host event, or the engine's whole command (20_memory.md R57). -/

namespace Sys2Proof.Machine

/-- The engine runs the latched word (40_control.md R74): an illegal word raises ILLEGAL_CMD with info
zext_32(w[31:24]); a legal one runs its rule. -/
def engineStep (s : State) : Host.Outcome State Fault Refusal :=
  match decode s.cmd with
  | .ok i => exec i s
  | .error _ => finish (.error s .illegalCmd ((opcOf s.cmd).setWidth 32))

/-- The next host event reaches the block; it is one fewer that the engine's step waits for (93 U5, log 2). -/
def takeEvent (s : State) (rest : List HostEvent) : State :=
  { s with inbox := rest, engineWait := s.engineWait - 1 }

/-- One step. With a command running, it is the engine's turn once the wait is over or no host event is left;
otherwise the host's next event is performed. With nothing to do the block waits, and nothing changes (R75). -/
def step (s : State) : Host.Outcome State Fault Refusal :=
  match s.inbox with
  | [] => if s.status.busy then engineStep s else .next s
  | e :: rest => if s.status.busy ∧ s.engineWait = 0 then engineStep s else hostStep e (takeEvent s rest)

/-- The state in which the engine has just been given the word `w` (R73: CMD, BUSY, DONE, CYCLES) and runs it at its
very next step (log 3). -/
def State.withFetchWord (s : State) (nbits w : Nat) : State :=
  { s with
    cmd := BitVec.ofNat 32 (w % 2 ^ nbits)
    status.busy := true
    status.done := false
    cycles := 0
    engineWait := 0 }

end Sys2Proof.Machine
end

