-- ==== Sys2Proof/Safety.lean ====
section
/-! DEFINITION. What holds of every state a run passes through, unit by unit, in the terms the claims use. Each
predicate gathers the invariants the spec states for that unit, with what is needed for one step to keep them. -/

namespace Sys2Proof.Machine

/-- The instance parameters are allowed ones (00_scope.md R6) and LZW_CFG.WIDTH is legal (10_state.md R28). -/
structure ConfigInv (s : State) : Prop where
  params : s.params.valid
  width : 8 ≤ s.cfg.lzwCfg.width.toNat ∧ s.cfg.lzwCfg.width.toNat ≤ s.params.lzwWmax

/-- The buffers are in canonical form and hold only offsets that exist (20_memory.md R48, R49, R62). -/
structure BuffersInv (s : State) : Prop where
  ibufForm : s.ibuf.wf
  obufForm : s.obuf.wf
  ibufBound : ∀ c ∈ s.ibuf, c.1 < s.ibufSize
  obufBound : ∀ c ∈ s.obuf, c.1 < s.obufSize

/-- The bit stream's counters (10_state.md R34, 45_bitpacker.md R120). -/
structure StreamInv (s : State) : Prop where
  /-- BIT_LEN = 8·OUT_LEN + CNT. -/
  bits : s.bp.bitLen.toNat = 8 * s.bp.outLen.toNat + s.bp.cnt.toNat
  /-- ACC holds CNT bits, right-aligned. -/
  acc : s.bp.acc.toNat < 2 ^ s.bp.cnt.toNat
  len : s.bp.outLen.toNat ≤ s.obufSize

/-- The occurrences of the symbols below n, summed. -/
def countBelow (t : Table Word) (n : Nat) : Nat :=
  ((List.range n).map fun c => (t.at (BitVec.ofNat 8 c)).toNat).sum

/-- The frequency table and its totals (41_frequency.md R86). -/
structure FreqInv (s : State) : Prop where
  total : s.freq.total.toNat = countBelow s.freq.count 256
  bound : s.freq.total.toNat ≤ s.ibufSize
  nsym : s.freq.nsym.toNat = presentCount s.freq.count

/-- The interval table and the interval (43_arithmetic.md R99, R100). -/
structure ArithInv (s : State) : Prop where
  order : s.stage.ariTblV = true → s.stage.freqV = true
  table : s.stage.ariTblV = true → ∀ b, (s.ari.cumLo.at b).toNat = countBelow s.freq.count b.toNat
  /-- 0 ≤ L < H ≤ D < 2^W. -/
  interval : s.stage.ariV = true → s.ari.l < s.ari.h ∧ s.ari.h ≤ s.ari.d ∧ s.ari.d < 2 ^ s.accBits
  /-- D = T^ARI_K. -/
  denominator : s.stage.ariV = true → s.ari.d = s.freq.total.toNat ^ s.ari.k.toNat

/-- The dictionary while LZW_V = 1 (44_lzw.md R115, 10_state.md R31), and that it is empty otherwise (R44). -/
structure LzwInv (s : State) : Prop where
  width : s.stage.lzwV = true → 8 ≤ s.lzw.act.width.toNat ∧ s.lzw.act.width.toNat ≤ 16
  next : s.stage.lzwV = true → 256 ≤ s.lzw.next.toNat ∧ s.lzw.next.toNat ≤ s.lzw.cap
  size : s.stage.lzwV = true → s.lzw.next.toNat = 256 + s.lzw.dict.length
  cur : s.stage.lzwV = true → s.lzw.cur = lzwEmpty ∨ s.lzw.cur.toNat < s.lzw.next.toNat
  /-- PREFIX[e] < e. -/
  lower : s.stage.lzwV = true → ∀ n x, s.lzw.dict[n]? = some x → x.pre.toNat < 256 + n
  /-- No pair is stored twice (R109). -/
  distinct : s.stage.lzwV = true → s.lzw.dict.Nodup
  full : s.stage.lzwV = true → s.stage.lzwFull = s.lzw.full
  absent : s.stage.lzwV = false → s.lzw.dict = [] ∧ s.lzw.next = 0

/-- The string a code stands for (R44): code c < 256 is the byte c, code e ≥ 256 is str(PREFIX[e]) ++ [BYTE[e]].
`fuel` bounds the length of the chain of prefixes; in a dictionary with PREFIX[e] < e any fuel above e gives str(e). -/
def dictStr (dict : List DictEntry) : Nat → Nat → List Byte
  | 0, _ => []
  | fuel + 1, e =>
    if e < 256 then [BitVec.ofNat 8 e]
    else
      match dict[e - 256]? with
      | some x => dictStr dict fuel x.pre.toNat ++ [x.byte]
      | none => []

/-- `str(e)` (R44). -/
def Lzw.str (z : Lzw) (e : Nat) : List Byte := dictStr z.dict (e + 1) e

/-- The children of the internal nodes, in creation order (R90). -/
def childrenOf (nodes : List Node) : List Nat :=
  nodes.flatMap fun nd => if nd.leaf then [] else [nd.left.toNat, nd.right.toNat]

/-- The frequencies of the live nodes, summed. -/
def liveWeight (nodes : List Node) : Nat := ((nodes.filter (·.live)).map (·.freq.toNat)).sum

/-- The arena of a tree under construction or complete, over the table it was made from (42_huffman.md R87-R92).
k is the number of present symbols. -/
structure ArenaInv (h : Huffman) (f : FreqModel) : Prop where
  nnodes : h.nnodes.toNat = h.arena.length
  liveCount : h.live.toNat = h.arena.countP (·.live)
  /-- Each merge adds a node and lowers HUF_LIVE by one. -/
  balance : h.arena.length + h.live.toNat = 2 * presentCount f.count
  /-- The first k nodes are the leaves in ascending symbol order, but for their LIVE bits. -/
  leaves : (h.arena.take (presentCount f.count)).map (fun nd => { nd with live := true }) = leavesOf f.count
  /-- Every later node is internal, its children come before it, and its FREQ is the sum of theirs. -/
  inner : ∀ i nd, h.arena[i]? = some nd → presentCount f.count ≤ i →
    nd.leaf = false ∧ nd.left.toNat < i ∧ nd.right.toNat < i ∧
      nd.freq.toNat = (nodeFreq h.arena nd.left.toNat).toNat + (nodeFreq h.arena nd.right.toNat).toNat
  /-- A node is a child of exactly one node, unless it is live: then it is a child of none. -/
  parents : (childrenOf h.arena).Nodup ∧
    ∀ i nd, h.arena[i]? = some nd → (i ∈ childrenOf h.arena ↔ nd.live = false)
  weight : liveWeight h.arena = f.total.toNat

/-- The Huffman unit (R88-R92): what HUF_STAGE says of the tree, HUF_ROOT and the code table. -/
structure HuffmanInv (s : State) : Prop where
  arena : s.stage.hufStage ≠ 0 → ArenaInv s.huf s.freq
  merging : s.stage.hufStage = 1 → 2 ≤ s.huf.live.toNat
  complete : 2 ≤ s.stage.hufStage.toNat → s.huf.live.toNat ≤ 1
  root : 2 ≤ s.stage.hufStage.toNat →
    s.huf.root.toNat = if s.huf.arena.length = 0 then 0x1FF else s.huf.arena.length - 1
  codes : s.stage.hufStage = 3 →
    s.huf.codeLen = (treeCodes s.huf).1 ∧
      s.huf.codeVal = if s.stage.hufCanon then canonVals (treeCodes s.huf).1 (treeCodes s.huf).2
        else (treeCodes s.huf).2
  canon : s.stage.hufCanon = true → s.stage.hufStage = 3

/-- What every state of a run meets. -/
structure Inv (s : State) : Prop where
  config : ConfigInv s
  buffers : BuffersInv s
  stream : StreamInv s
  freq : FreqInv s
  arith : ArithInv s
  lzw : LzwInv s
  huffman : HuffmanInv s

/-- The bytes of the input range (10_state.md R26) are `bs`, every one of them written by the host (R56). -/
abbrev State.inputIs (s : State) (bs : List Byte) : Prop :=
  bs.length = s.cfg.inLen.toNat ∧
    (List.range bs.length).map (fun i => s.ibuf.read (s.cfg.inBase.toNat + i)) = bs.map some

/-- The bits a byte stands for, most significant first (20_memory.md R52). -/
def byteBits (b : Byte) : List Bool := bitsOf 8 b.toNat

/-- The bit stream so far (45_bitpacker.md R120): the bits of the OUT_LEN bytes in the output window, then the CNT
bits in ACC. A byte with no value counts as zero. -/
def State.streamBits (s : State) : List Bool :=
  ((List.range s.bp.outLen.toNat).flatMap fun j =>
    byteBits ((s.obuf.read (s.cfg.outBase.toNat + j)).getD 0)) ++ bitsOf s.bp.cnt.toNat s.bp.acc.toNat

/-! How a command ends. -/

/-- Normal completion (40_control.md R75): BUSY is 0, DONE is 1, and the error state is as before. -/
def State.completed (s t : State) : Prop :=
  t.status = { s.status with busy := false, done := true } ∧ t.err = s.err

/-- Completion by an error (60_exceptions.md R122). -/
def State.raised (s t : State) (code : ErrCode) (info : Word) : Prop :=
  t.status = { s.status with busy := false, done := true, err := true } ∧ t.err = ⟨code, info, s.cmd⟩

/-- What no command writes: the instance, the registers the host writes (R17), CMD (R25), IBUF (R48), and the
model's own host side. -/
def State.sameHostSide (s t : State) : Prop :=
  t.params = s.params ∧ t.ctrl = s.ctrl ∧ t.cmd = s.cmd ∧ t.cfg = s.cfg ∧ t.ibuf = s.ibuf ∧
    t.inbox = s.inbox ∧ t.resp = s.resp ∧ t.engineWait = s.engineWait ∧ t.epoch = s.epoch

/-- The registers and tables the engine writes, but for STATUS, the error registers and CYCLES. -/
def State.sameEngineSide (s t : State) : Prop :=
  t.stage = s.stage ∧ t.inPos = s.inPos ∧ t.res = s.res ∧ t.bp = s.bp ∧ t.freq = s.freq ∧ t.huf = s.huf ∧
    t.ari = s.ari ∧ t.lzw = s.lzw ∧ t.obuf = s.obuf

/-- A command that raises before any change: the error is recorded and nothing else of the block's state changes but
CYCLES (R122, R124). -/
def raisesOnly (i : Instr) (s : State) (code : ErrCode) (info : Word) : Prop :=
  ∃ t, exec i s = .next t ∧ s.raised t code info ∧ s.sameHostSide t ∧ s.sameEngineSide t

/-- The commands of a list run one after another, each completing normally. -/
def runsClean : List Instr → State → State → Prop
  | [], s, t => s = t
  | i :: rest, s, t => ∃ u, exec i s = .next u ∧ s.completed u ∧ runsClean rest u t

/-! What each command may write: the "Writes" entry of its rule. -/

/-- The registers a command may write when it completes or fails at a step (files 40 to 45). STATUS, the error
registers and CYCLES, which every command's end writes (R75, R122), and STAGE, whose bits have their own table, are
not of this table. -/
def mayWriteReg : Instr → List Reg
  | .nop => []
  | .sreset => [.inPos, .resOrig, .resComp, .outLen, .bitLen, .bpState, .padBits, .freqTotal, .freqNsym,
      .hufNnodes, .hufLive, .hufRoot, .hufMaxlen, .ariK, .ariB, .ariBits, .lzwNext, .lzwCur, .lzwNcodes, .lzwAct]
  | .result => [.resOrig, .resComp]
  | .freq => [.freqTotal, .freqNsym, .inPos]
  | .hufInit => [.hufNnodes, .hufLive, .hufRoot, .hufMaxlen]
  | .hufMerge => [.hufNnodes, .hufLive, .hufRoot]
  | .hufBuild => [.hufNnodes, .hufLive, .hufRoot]
  | .hufCodes => [.hufMaxlen]
  | .hufCanon => []
  | .hufEmit => [.outLen, .bitLen, .bpState, .inPos]
  | .hufEncode _ => [.outLen, .bitLen, .bpState, .padBits, .freqTotal, .freqNsym, .inPos,
      .hufNnodes, .hufLive, .hufRoot, .hufMaxlen, .resOrig, .resComp]
  | .ariTable => []
  | .ariInit => [.ariK, .ariB, .ariBits]
  | .ariStep _ => [.ariK]
  | .ariNarrow => [.ariK, .inPos]
  | .ariFinal => [.outLen, .bitLen, .bpState, .ariB, .ariBits]
  | .ariEncode => [.outLen, .bitLen, .bpState, .padBits, .freqTotal, .freqNsym, .inPos,
      .ariK, .ariB, .ariBits, .resOrig, .resComp]
  | .lzwInit => [.lzwAct, .lzwNext, .lzwCur, .lzwNcodes]
  | .lzwStep _ => [.lzwCur, .lzwNext, .lzwNcodes, .outLen, .bitLen, .bpState]
  | .lzwRun => [.lzwCur, .lzwNext, .lzwNcodes, .outLen, .bitLen, .bpState, .inPos]
  | .lzwFlush => [.lzwCur, .lzwNcodes, .outLen, .bitLen, .bpState]
  | .lzwEncode => [.lzwAct, .lzwNext, .lzwCur, .lzwNcodes, .outLen, .bitLen, .bpState, .padBits, .inPos,
      .resOrig, .resComp]
  | .bpClear => [.outLen, .bitLen, .bpState, .padBits]
  | .bpPut _ _ => [.outLen, .bitLen, .bpState]
  | .bpPad => [.outLen, .bitLen, .bpState, .padBits]

/-- The tables and accumulators (10_state.md section 6) and OBUF. -/
inductive TableName where
  | freq | cumLo | arena | codeLen | codeVal | accumulators | dict | obuf
  deriving DecidableEq, Repr

/-- The tables and memories a command may write (files 40 to 45). -/
def mayWriteTable : Instr → List TableName
  | .nop => []
  | .sreset => [.freq, .cumLo, .arena, .codeLen, .codeVal, .accumulators, .dict]
  | .result => []
  | .freq => [.freq]
  | .hufInit => [.arena, .codeLen, .codeVal]
  | .hufMerge => [.arena]
  | .hufBuild => [.arena]
  | .hufCodes => [.codeLen, .codeVal]
  | .hufCanon => [.codeVal]
  | .hufEmit => [.obuf]
  | .hufEncode _ => [.freq, .arena, .codeLen, .codeVal, .obuf]
  | .ariTable => [.cumLo]
  | .ariInit => [.accumulators]
  | .ariStep _ => [.accumulators]
  | .ariNarrow => [.accumulators]
  | .ariFinal => [.obuf]
  | .ariEncode => [.freq, .cumLo, .accumulators, .obuf]
  | .lzwInit => [.dict]
  | .lzwStep _ => [.dict, .obuf]
  | .lzwRun => [.dict, .obuf]
  | .lzwFlush => [.obuf]
  | .lzwEncode => [.dict, .obuf]
  | .bpClear => []
  | .bpPut _ _ => [.obuf]
  | .bpPad => [.obuf]

/-- A table is the same in two states. -/
def sameTable (s t : State) : TableName → Prop
  | .freq => t.freq.count = s.freq.count
  | .cumLo => t.ari.cumLo = s.ari.cumLo
  | .arena => t.huf.arena = s.huf.arena
  | .codeLen => t.huf.codeLen = s.huf.codeLen
  | .codeVal => t.huf.codeVal = s.huf.codeVal
  | .accumulators => t.ari.l = s.ari.l ∧ t.ari.h = s.ari.h ∧ t.ari.d = s.ari.d
  | .dict => t.lzw.dict = s.lzw.dict
  | .obuf => t.obuf = s.obuf

/-- The bits of STAGE (10_state.md R31). -/
inductive StageBit where
  | freqV | hufStage | hufCanon | ariTblV | ariV | lzwV | lzwFull
  deriving DecidableEq, Repr

/-- A STAGE field's value. -/
def Stage.field (g : Stage) : StageBit → Nat
  | .freqV => g.freqV.toNat
  | .hufStage => g.hufStage.toNat
  | .hufCanon => g.hufCanon.toNat
  | .ariTblV => g.ariTblV.toNat
  | .ariV => g.ariV.toNat
  | .lzwV => g.lzwV.toNat
  | .lzwFull => g.lzwFull.toNat

/-- The STAGE fields a command may write: the "set by" and "cleared by" columns of R31, and for LZW_FULL the commands
that run R110's step body. -/
def mayWriteStage : Instr → List StageBit
  | .nop | .result | .hufEmit | .ariStep _ | .ariNarrow | .ariFinal | .lzwFlush | .bpClear | .bpPut _ _ | .bpPad => []
  | .sreset => [.freqV, .hufStage, .hufCanon, .ariTblV, .ariV, .lzwV, .lzwFull]
  | .freq => [.freqV, .hufStage, .hufCanon, .ariTblV, .ariV]
  | .hufInit => [.hufStage, .hufCanon]
  | .hufMerge | .hufBuild => [.hufStage]
  | .hufCodes => [.hufStage, .hufCanon]
  | .hufCanon => [.hufCanon]
  | .hufEncode _ => [.freqV, .hufStage, .hufCanon, .ariTblV, .ariV]
  | .ariTable => [.ariTblV, .ariV]
  | .ariInit => [.ariV]
  | .ariEncode => [.freqV, .hufStage, .hufCanon, .ariTblV, .ariV]
  | .lzwInit => [.lzwV, .lzwFull]
  | .lzwStep _ | .lzwRun => [.lzwFull]
  | .lzwEncode => [.lzwV, .lzwFull]

/-- The commands that start the bit stream anew (their BP_CLEAR phase; R98, R106, R114). -/
def startsStream : Instr → Bool
  | .hufEncode _ | .ariEncode | .lzwEncode => true
  | .nop | .sreset | .result | .freq | .hufInit | .hufMerge | .hufBuild | .hufCodes | .hufCanon | .hufEmit
  | .ariTable | .ariInit | .ariStep _ | .ariNarrow | .ariFinal | .lzwInit | .lzwStep _ | .lzwRun | .lzwFlush
  | .bpClear | .bpPut _ _ | .bpPad => false

/-- The window offset a command's first stored byte goes to (R116): OUT_LEN, or 0 after its BP_CLEAR phase. -/
def firstStored (i : Instr) (s : State) : Nat := if startsStream i then 0 else s.bp.outLen.toNat

/-! The tree, the codes and the interval as the rules describe them. -/

/-- The node reached from node i along a path, '0' to the left child and '1' to the right (42_huffman.md R93). A leaf
has no children. -/
def follow (nodes : List Node) : Nat → List Bool → Option Nat
  | i, [] => if i < nodes.length then some i else none
  | i, x :: path =>
    match nodes[i]? with
    | none => none
    | some nd => if nd.leaf then none else follow nodes (if x then nd.right.toNat else nd.left.toNat) path

/-- The interval after a sequence of symbols, as (L, H − L) (43_arithmetic.md R102). -/
def narrowed (f : FreqModel) (cumLo : Table Word) (bs : List Byte) (l w : Nat) : Nat × Nat :=
  bs.foldl (fun p b => (p.1 * f.total.toNat + p.2 * (cumLo.at b).toNat, p.2 * (f.count.at b).toNat)) (l, w)

/-- The dictionary's answer to a pair, as R109 defines it: e is the code of an entry (c, b). -/
def Lzw.holds (z : Lzw) (c : Nat) (b : Byte) (e : Nat) : Prop :=
  256 ≤ e ∧ ∃ x, z.dict[e - 256]? = some x ∧ x.pre.toNat = c ∧ x.byte = b

/-- The offsets of the table windows (20_memory.md R50). -/
abbrev inTableWindow (off : Nat) : Prop :=
  (0x1000 ≤ off ∧ off < 0x1C00) ∨ (0x2000 ≤ off ∧ off < 0x6000) ∨ (0x10000 ≤ off ∧ off < 0x1C000) ∨
    (0x40000 ≤ off ∧ off < 0x80000)

/-- An Append of n bits has no room (45_bitpacker.md R116). -/
abbrev State.overfull (s : State) (n : Nat) : Prop :=
  s.cfg.outCap.toNat < s.bp.outLen.toNat + (s.bp.cnt.toNat + n) / 8

/-- The first check that the byte b fails in the step body of a streaming command, in the order of 60_exceptions.md R125:
the symbol (42_huffman.md R97, 43_arithmetic.md R102), the capacity of the model (R102, 44_lzw.md R110), the room. -/
def firstFailure (i : Instr) (s : State) (b : Byte) (c : ErrCode) : Prop :=
  (i = .hufEmit ∧
    ((s.huf.codeLen.at b = 0 ∧ c = .noCode) ∨
      (s.huf.codeLen.at b ≠ 0 ∧ s.overfull (s.huf.codeLen.at b).toNat ∧ c = .outOverflow))) ∨
  (i = .ariNarrow ∧
    ((s.freq.count.at b = 0 ∧ c = .ariNoSym) ∨
      (s.freq.count.at b ≠ 0 ∧ 2 ^ s.accBits ≤ s.ari.d * s.freq.total.toNat ∧ c = .precisionOverflow))) ∨
  (i = .lzwRun ∧ s.lzw.cur ≠ lzwEmpty ∧ (∀ e, ¬ s.lzw.holds s.lzw.cur.toNat b e) ∧
    ((s.lzw.next.toNat = s.lzw.cap ∧ s.lzw.act.policy = .reject ∧ c = .dictOverflow) ∨
      (¬ (s.lzw.next.toNat = s.lzw.cap ∧ s.lzw.act.policy = .reject) ∧ s.overfull s.lzw.act.width.toNat ∧
        c = .outOverflow)))

/-! The decode checks (95_test_vectors.md section 4). The block has no decoder (00_scope.md R5): these say what its
output means. -/

/-- v decodes as the symbols `bs` from the interval of lower bound `lo` and width `w` on (95_test_vectors.md 4.2): each
symbol is present and the interval it owns holds v. -/
def decodesAs (f : FreqModel) (cumLo : Table Word) (v : ℚ) : List Byte → ℚ → ℚ → Prop
  | [], _, _ => True
  | b :: bs, lo, w =>
    f.count.at b ≠ 0 ∧ ((cumLo.at b).toNat : ℚ) / f.total.toNat ≤ (v - lo) / w ∧
      (v - lo) / w < (((cumLo.at b).toNat : ℚ) + (f.count.at b).toNat) / f.total.toNat ∧
      decodesAs f cumLo v bs (lo + w * ((cumLo.at b).toNat / f.total.toNat))
        (w * ((f.count.at b).toNat / f.total.toNat))

/-- The bytes the codes after the first stand for (95_test_vectors.md 4.3): `dict` holds the decoder's entries and `prev`
is the code before. -/
def lzwDecodeFrom (cap : Nat) (policy : Policy) : List DictEntry → Nat → List Nat → List Byte
  | _, _, [] => []
  | dict, prev, c :: rest =>
    let next := 256 + dict.length
    let before := dictStr dict (prev + 1) prev
    let str := if c < next then dictStr dict (c + 1) c else before ++ before.take 1
    let dict' :=
      if next < cap then dict ++ [⟨BitVec.ofNat 16 prev, str.headD 0⟩]
      else if policy = .reset then [] else dict
    str ++ lzwDecodeFrom cap policy dict' c rest

/-- The bytes a sequence of codes stands for (95_test_vectors.md 4.3). -/
def lzwDecode (cap : Nat) (policy : Policy) : List Nat → List Byte
  | [] => []
  | c :: rest => dictStr [] (c + 1) c ++ lzwDecodeFrom cap policy [] c rest

end Sys2Proof.Machine
end

