-- ==== Sys2Proof/Certificates/Slice0/Obligations.lean ====
section
/-! DEFINITION. The statements for the provers, in the order of OBLIGATIONS.json. -/

open Sys2Proof Sys2Proof.Machine

/-! ## Command words (30_encoding.md) -/

/-- Decoding the word of any well-formed instruction gives it back, whatever its operands (R64-R66). -/
def Obligations.DecodeOfEncodeIsTheInstruction : Prop :=
  ∀ i : Instr, i.wellFormed = true → decode (encode i) = .ok i

/-- Every word has at most one reading, and it is the word of what it decodes to: no bit of a legal word is ignored
(R67, R68). -/
def Obligations.LegalWordIsTheEncodingOfItsInstruction : Prop :=
  ∀ (w : Word) (i : Instr), decode w = .ok i → i.wellFormed = true ∧ encode i = w

/-- R66: a word decodes to a row exactly when (cmd & mask) == match and the extra condition holds; a word that no row
admits is illegal (R67). -/
def Obligations.DecoderAgreesWithTheOpcodeTable : Prop :=
  ∀ w : Word,
    (∀ r ∈ opcodeTable, (r.admits w = true ↔ ∃ i, decode w = .ok i ∧ i.mnemonic = r.mnemonic)) ∧
    ((∀ r ∈ opcodeTable, r.admits w = false) ↔ ∃ e, decode w = .error e)

/-- Words written out in the spec (R71, 95_test_vectors.md 3.1) decode as the spec says. -/
def Obligations.WordsOfTheSpecDecode : Prop :=
  decode 0x22000000 = .ok .hufBuild ∧ decode 0x32410000 = .ok (.ariStep 0x41) ∧
  decode 0x2F000001 = .ok (.hufEncode true) ∧ decode 0x51030005 = .ok (.bpPut 3 5) ∧
  decode 0x00000001 = .error .reservedBitSet ∧ decode 0x03000000 = .error .unlistedOpcode ∧
  decode 0x51110000 = .error .putCountTooLarge

/-! ## The step (40_control.md, 20_memory.md R57) -/

/-- R57, R74, R75: at the engine's turn the step is the rule of the latched word; otherwise it is the host's next event;
with no command running and no host event nothing changes. How long the engine waits (`engineWait`), and that it runs
when no event is left, are the model's choice (log 2). -/
def Obligations.StepRunsTheDecodedCommand : Prop :=
  ∀ s : State,
    (∀ i, s.status.busy = true → (s.inbox = [] ∨ s.engineWait = 0) → decode s.cmd = .ok i → step s = exec i s) ∧
    (∀ e rest, s.inbox = e :: rest → (s.status.busy = false ∨ s.engineWait ≠ 0) →
      step s = hostStep e { s with inbox := rest, engineWait := s.engineWait - 1 }) ∧
    (s.status.busy = false → s.inbox = [] → step s = .next s)

/-- R67: an accepted illegal word completes with ILLEGAL_CMD, ERR_INFO = the opcode, and changes no other state. -/
def Obligations.IllegalWordRaisesIllegalCmd : Prop :=
  ∀ (s : State) (e : DecodeReject), s.status.busy = true → (s.inbox = [] ∨ s.engineWait = 0) →
    decode s.cmd = .error e →
    ∃ t, step s = .next t ∧ s.raised t .illegalCmd ((opcOf s.cmd).setWidth 32) ∧
      s.sameHostSide t ∧ s.sameEngineSide t

/-- The block never refuses, and it faults only where R51 and R56 direct it: at a host access, or at an input byte no
host write has set, inside the input range. -/
def Obligations.StepStopsOnlyWhereTheSpecSays : Prop :=
  ∀ s : State, (∀ r, step s ≠ .refused r) ∧
    ∀ f, step s = .fault f →
      (∃ off e rest, f = .busError off ∧ s.inbox = e :: rest ∧
        (∃ w, target s w off = none ∧ (e = .read w off ∨ ∃ v, e = .write w off v))) ∨
      (∃ a, f = .ibufUnwritten a ∧ s.status.busy = true ∧ s.ibuf.read a = none ∧
        s.cfg.inBase.toNat ≤ a ∧ a < s.cfg.inBase.toNat + s.cfg.inLen.toNat)

/-- R73: a word written to CMD is accepted if BUSY = 0, and ERR = 0 or it is the SRESET word; any other word is
discarded, DROP is set and nothing else changes. -/
def Obligations.CommandWriteIsAcceptedOrDropped : Prop :=
  ∀ (s : State) (w : Word),
    (s.status.busy = false → (s.status.err = false ∨ w = 0x01000000) →
      ∃ t, hostStep (.write .w32 0x014 w) s = .next t ∧ t.cmd = w ∧
        t.status = { s.status with busy := true, done := false } ∧ t.cycles = 0 ∧
        t.params = s.params ∧ t.ctrl = s.ctrl ∧ t.cfg = s.cfg ∧ t.err = s.err ∧ t.ibuf = s.ibuf ∧
        s.sameEngineSide t) ∧
    ((s.status.busy = true ∨ (s.status.err = true ∧ w ≠ 0x01000000)) →
      hostStep (.write .w32 0x014 w) s =
        .next { s with status := { s.status with drop := true }, resp := none })

/-! ## The host's accesses (10_state.md R19-R46, 20_memory.md) -/

/-- R46, R57 item 3, R148: while BUSY = 1, a write to a configuration register or a buffer has no effect but WBUSY, and
nothing the host does, short of a hardware reset, changes what the running command reads or has written, nor ends it. -/
def Obligations.HostCannotDisturbARunningCommand : Prop :=
  (∀ (s : State) (w : AccessWidth) (off v : Word) (x : Target), s.status.busy = true → target s w off = some x →
    (x ∈ [Target.reg .inBase, .reg .inLen, .reg .outBase, .reg .outCap, .reg .lzwCfg] ∨
      (∃ a, x = .ibuf a) ∨ ∃ a, x = .obuf a) →
    hostStep (.write w off v) s = .next { s with status := { s.status with wbusy := true }, resp := none }) ∧
  ∀ (s t : State) (e : HostEvent), s.status.busy = true → e ≠ .hwReset → hostStep e s = .next t →
    t.status.busy = true ∧ t.cmd = s.cmd ∧ t.params = s.params ∧ t.cfg = s.cfg ∧ t.ibuf = s.ibuf ∧
      s.sameEngineSide t ∧ t.err = s.err ∧ t.cycles = s.cycles

/-- R20-R44, R46, R50, R147: while BUSY = 0 each register reads its fields at its offset, and each table entry reads at
its window's offset. While BUSY = 1 the registers from ID to LZW_CFG (offsets 0x000 to 0x028) still read their current
values, and every register from CYCLES on, every window word and every OBUF word reads as a free value. The three error
registers between them read their current values on a block that follows R46's table, and as free values on one that
follows R147: which it is, is left open (log 17). That the free value is a new one at each read is the model's choice
(log 6). -/
def Obligations.RegistersAndWindowsReadAsMapped : Prop :=
  ∀ s : State, s.params.valid →
    (∀ off n : Nat, (s.status.busy = false ∨ off ≤ 0x028 ∨ (Config.errorRegsReadCurrent = true ∧ off ≤ 0x034)) →
      (off, n) ∈
        [(0x000, 0x48544231),
          (0x004, s.params.ibufLog2 + 2 ^ 8 * s.params.obufLog2 + 2 ^ 16 * s.params.lzwWmax),
          (0x008, s.params.ariWords),
          (0x00C, s.ctrl.ieDone.toNat + 2 * s.ctrl.ieErr.toNat),
          (0x010, s.status.busy.toNat + 2 * s.status.done.toNat + 4 * s.status.err.toNat + 8 * s.status.drop.toNat +
            16 * s.status.wbusy.toNat +
            32 * (s.status.done && s.ctrl.ieDone || s.status.err && s.ctrl.ieErr).toNat),
          (0x014, s.cmd.toNat),
          (0x018, s.cfg.inBase.toNat), (0x01C, s.cfg.inLen.toNat),
          (0x020, s.cfg.outBase.toNat), (0x024, s.cfg.outCap.toNat),
          (0x028, s.cfg.lzwCfg.width.toNat + 2 ^ 8 * [Policy.freeze, .reject, .reset].idxOf s.cfg.lzwCfg.policy),
          (0x02C, [ErrCode.none, .illegalCmd, .sequence, .inRange, .outRange, .outOverflow, .noCode, .ariNoSym,
            .precisionOverflow, .dictOverflow].idxOf s.err.code),
          (0x030, s.err.info.toNat), (0x034, s.err.cmd.toNat), (0x038, s.cycles.toNat),
          (0x03C, s.stage.freqV.toNat + 2 * s.stage.hufStage.toNat + 2 ^ 3 * s.stage.hufCanon.toNat +
            2 ^ 4 * s.stage.ariTblV.toNat + 2 ^ 5 * s.stage.ariV.toNat + 2 ^ 6 * s.stage.lzwV.toNat +
            2 ^ 7 * s.stage.lzwFull.toNat),
          (0x040, s.inPos.toNat), (0x044, s.res.orig.toNat), (0x048, s.res.comp.toNat),
          (0x04C, s.bp.outLen.toNat), (0x050, s.bp.bitLen.toNat),
          (0x054, s.bp.cnt.toNat + 2 ^ 8 * s.bp.acc.toNat), (0x058, s.bp.padBits.toNat),
          (0x05C, s.freq.total.toNat), (0x060, s.freq.nsym.toNat),
          (0x064, s.huf.nnodes.toNat), (0x068, s.huf.live.toNat), (0x06C, s.huf.root.toNat),
          (0x070, s.huf.maxLen.toNat),
          (0x074, s.ari.k.toNat), (0x078, s.ari.b.toNat), (0x07C, s.ari.bits.toNat),
          (0x080, s.lzw.next.toNat), (0x084, s.lzw.cur.toNat), (0x088, s.lzw.ncodes.toNat),
          (0x08C, s.lzw.act.width.toNat + 2 ^ 8 * [Policy.freeze, .reject, .reset].idxOf s.lzw.act.policy)] →
      hostStep (.read .w32 (BitVec.ofNat 32 off)) s = .next { s with resp := some (BitVec.ofNat 32 n) }) ∧
    (s.status.busy = true → ∀ off : Nat, off % 4 = 0 →
      ((0x038 ≤ off ∧ off < 0x090) ∨ (Config.errorRegsReadCurrent = false ∧ 0x02C ≤ off ∧ off < 0x038) ∨
        inTableWindow off ∨ (0x2000000 ≤ off ∧ off < 0x2000000 + s.obufSize)) →
      hostStep (.read .w32 (BitVec.ofNat 32 off)) s =
        .next { s with resp := some (Config.freeBusyRead s.draws), draws := s.draws + 1 }) ∧
    (s.status.busy = false → ∀ off v,
      ((∃ b : Byte, (off = 0x1000 + 4 * b.toNat ∧ v = s.freq.count.at b) ∨
          (off = 0x1400 + 4 * b.toNat ∧ v = s.ari.cumLo.at b) ∨
          (off = 0x1800 + 4 * b.toNat ∧ v = (s.huf.codeLen.at b).setWidth 32) ∨
          ∃ j, j < 8 ∧ off = 0x2000 + 32 * b.toNat + 4 * j ∧
            v = (s.huf.codeVal.at b).extractLsb' (32 * j) 32) ∨
        (∃ i, i < 512 ∧ s.huf.arena.length ≤ i ∧ (∃ j, j < 4 ∧ off = 0x4000 + 16 * i + 4 * j) ∧ v = 0) ∨
        (∃ i nd, i < 511 ∧ s.huf.arena[i]? = some nd ∧
          ((off = 0x4000 + 16 * i ∧ v = nd.freq) ∨
            (off = 0x4000 + 16 * i + 4 ∧ v.toNat = nd.left.toNat + 2 ^ 16 * nd.right.toNat) ∨
            (off = 0x4000 + 16 * i + 8 ∧
              v.toNat = nd.sym.toNat + 2 ^ 8 * nd.leaf.toNat + 2 ^ 9 * nd.live.toNat) ∨
            (off = 0x4000 + 16 * i + 12 ∧ v = 0))) ∨
        (∃ j x, j < 4096 ∧ ((off = 0x10000 + 4 * j ∧ x = s.ari.l) ∨ (off = 0x14000 + 4 * j ∧ x = s.ari.h) ∨
            (off = 0x18000 + 4 * j ∧ x = s.ari.d)) ∧
          v.toNat = if j < s.params.ariWords then x / 2 ^ (32 * j) % 2 ^ 32 else 0) ∨
        (∃ e, e < 65536 ∧ off = 0x40000 + 4 * e ∧
          ((s.stage.lzwV = true ∧ e < 256 ∧ v.toNat = 0xFFFF + 2 ^ 16 * e + 2 ^ 31) ∨
            (∃ x, s.stage.lzwV = true ∧ 256 ≤ e ∧ e < s.lzw.next.toNat ∧ s.lzw.dict[e - 256]? = some x ∧
              v.toNat = x.pre.toNat + 2 ^ 16 * x.byte.toNat + 2 ^ 31) ∨
            ((s.stage.lzwV = false ∨ (256 ≤ e ∧ s.lzw.next.toNat ≤ e)) ∧ v = 0)))) →
      hostStep (.read .w32 (BitVec.ofNat 32 off)) s = .next { s with resp := some v })

/-- R54: a host read has no side effect; while BUSY = 0 repeating it returns the same value. That a byte nothing has
written reads the same twice is the model's reading of R54 beside R56 (log 7), and so for CYCLES (log 5). The counter
`draws` is the model's own (log 6). -/
def Obligations.ReadsHaveNoSideEffects : Prop :=
  ∀ (s t : State) (w : AccessWidth) (off : Word), hostStep (.read w off) s = .next t →
    t = { s with resp := t.resp, draws := t.draws } ∧
    (s.status.busy = false → hostStep (.read w off) t = .next t)

/-- R51, R53: a misaligned access, a narrow access to a register or window, and an access at a reserved offset are bus
errors. -/
def Obligations.IllegalAccessIsABusError : Prop :=
  ∀ (s : State) (w : AccessWidth) (off v : Word), s.params.valid →
    (off.toNat % w.bytes ≠ 0 ∨ (off.toNat < 0x1000000 ∧ w ≠ .w32) ∨
      (0x090 ≤ off.toNat ∧ off.toNat < 0x1000) ∨ (0x1C00 ≤ off.toNat ∧ off.toNat < 0x2000) ∨
      (0x6000 ≤ off.toNat ∧ off.toNat < 0x10000) ∨ (0x1C000 ≤ off.toNat ∧ off.toNat < 0x40000) ∨
      (0x80000 ≤ off.toNat ∧ off.toNat < 0x1000000) ∨
      (0x1000000 + s.ibufSize ≤ off.toNat ∧ off.toNat < 0x2000000) ∨ 0x2000000 + s.obufSize ≤ off.toNat) →
    hostStep (.read w off) s = .fault (.busError off) ∧ hostStep (.write w off v) s = .fault (.busError off)

/-- R46, R48, R49, R52, R53: an aligned write of one, two or four bytes to IBUF or OBUF while idle stores the bytes
little-endian and changes nothing else; an aligned read returns the stored bytes little-endian, from IBUF whether BUSY or
not, from OBUF while idle. What a narrow read answers above its width is not said. -/
def Obligations.BufferAccessesAreLittleEndian : Prop :=
  ∀ (s : State) (w : AccessWidth) (n a : Nat), s.params.valid →
    (w, n) ∈ [(AccessWidth.w8, 1), (.w16, 2), (.w32, 4)] → a % n = 0 →
    (s.status.busy = false → ∀ v : Word,
      (a < s.ibufSize → ∃ t, hostStep (.write w (BitVec.ofNat 32 (0x1000000 + a)) v) s = .next t ∧
        t = { s with ibuf := t.ibuf, resp := none } ∧
        (∀ j, j < n → t.ibuf.read (a + j) = some (v.extractLsb' (8 * j) 8)) ∧
        ∀ x, (x < a ∨ a + n ≤ x) → t.ibuf.read x = s.ibuf.read x) ∧
      (a < s.obufSize → ∃ t, hostStep (.write w (BitVec.ofNat 32 (0x2000000 + a)) v) s = .next t ∧
        t = { s with obuf := t.obuf, resp := none } ∧
        (∀ j, j < n → t.obuf.read (a + j) = some (v.extractLsb' (8 * j) 8)) ∧
        ∀ x, (x < a ∨ a + n ≤ x) → t.obuf.read x = s.obuf.read x)) ∧
    ∀ bytes : Nat → Byte,
      (a < s.ibufSize → (∀ j, j < n → s.ibuf.read (a + j) = some (bytes j)) →
        ∃ r, hostStep (.read w (BitVec.ofNat 32 (0x1000000 + a))) s = .next { s with resp := some r } ∧
          ∀ j, j < n → r.extractLsb' (8 * j) 8 = bytes j) ∧
      (a < s.obufSize → s.status.busy = false → (∀ j, j < n → s.obuf.read (a + j) = some (bytes j)) →
        ∃ r, hostStep (.read w (BitVec.ofNat 32 (0x2000000 + a))) s = .next { s with resp := some r } ∧
          ∀ j, j < n → r.extractLsb' (8 * j) 8 = bytes j)

/-- R24, R46, R128: a read of STATUS, BUSY or not, returns its bits, bit 5 being the interrupt level; a write clears each
W1C bit written as 1 and changes nothing else, so the error registers keep their values (R29). -/
def Obligations.StatusReadsItsBitsAndClearsOnOne : Prop :=
  ∀ s : State,
    (∃ t w, hostStep (.read .w32 0x010) s = .next t ∧ t.resp = some w ∧
      (w.getLsbD 0 = s.status.busy) ∧ (w.getLsbD 1 = s.status.done) ∧ (w.getLsbD 2 = s.status.err) ∧
      (w.getLsbD 3 = s.status.drop) ∧ (w.getLsbD 4 = s.status.wbusy) ∧
      (w.getLsbD 5 = true ↔ (s.status.done = true ∧ s.ctrl.ieDone = true) ∨
        (s.status.err = true ∧ s.ctrl.ieErr = true)) ∧
      ∀ n, 6 ≤ n → w.getLsbD n = false) ∧
    ∀ w : Word, ∃ t, hostStep (.write .w32 0x010 w) s = .next t ∧
      t = { s with status := t.status, resp := none } ∧
      t.status.busy = s.status.busy ∧
      (t.status.done = true ↔ s.status.done = true ∧ w.getLsbD 1 = false) ∧
      (t.status.err = true ↔ s.status.err = true ∧ w.getLsbD 2 = false) ∧
      (t.status.drop = true ↔ s.status.drop = true ∧ w.getLsbD 3 = false) ∧
      (t.status.wbusy = true ↔ s.status.wbusy = true ∧ w.getLsbD 4 = false)

/-- R19, R23, R26-R28, R46: while idle a write to IN_BASE, IN_LEN, OUT_BASE or OUT_CAP stores the whole word there, and
each field of LZW_CFG is written independently, a field written with an illegal value keeping its previous value. A write
to CTRL stores its two enables, BUSY or not, and a write to a read-only register or to a table window changes nothing,
BUSY or not. -/
def Obligations.HostWritesStoreAsRuled : Prop :=
  ∀ (s : State) (w : Word),
    (s.status.busy = false →
      hostStep (.write .w32 0x018 w) s = .next { s with cfg := { s.cfg with inBase := w }, resp := none } ∧
      hostStep (.write .w32 0x01C w) s = .next { s with cfg := { s.cfg with inLen := w }, resp := none } ∧
      hostStep (.write .w32 0x020 w) s = .next { s with cfg := { s.cfg with outBase := w }, resp := none } ∧
      hostStep (.write .w32 0x024 w) s = .next { s with cfg := { s.cfg with outCap := w }, resp := none } ∧
      ∃ t, hostStep (.write .w32 0x028 w) s = .next t ∧
        t = { s with cfg := { s.cfg with lzwCfg := t.cfg.lzwCfg }, resp := none } ∧
        (if 8 ≤ w.toNat % 32 ∧ w.toNat % 32 ≤ s.params.lzwWmax then t.cfg.lzwCfg.width.toNat = w.toNat % 32
          else t.cfg.lzwCfg.width = s.cfg.lzwCfg.width) ∧
        (if w.toNat / 256 % 4 = 0 then t.cfg.lzwCfg.policy = .freeze
          else if w.toNat / 256 % 4 = 1 then t.cfg.lzwCfg.policy = .reject
          else if w.toNat / 256 % 4 = 2 then t.cfg.lzwCfg.policy = .reset
          else t.cfg.lzwCfg.policy = s.cfg.lzwCfg.policy)) ∧
    hostStep (.write .w32 0x00C w) s =
      .next { s with ctrl := { ieDone := w.getLsbD 0, ieErr := w.getLsbD 1 }, resp := none } ∧
    ∀ off : Nat, off % 4 = 0 → (off < 0x00C ∨ (0x02C ≤ off ∧ off < 0x090) ∨ inTableWindow off) →
      hostStep (.write .w32 (BitVec.ofNat 32 off) w) s = .next { s with resp := none }

/-! ## Reset (70_reset_and_hazards.md) -/

/-- R141, R142: hardware reset gives every register and table the value the table of R142 states, whatever the block
was doing; the interrupt output is low, and no byte of IBUF or OBUF has a value (R56). -/
def Obligations.HardwareResetGivesTheResetValues : Prop :=
  ∀ s : State, ∃ t, hostStep .hwReset s = .next t ∧
    (∀ r, regValue t r =
      (if r = .id then 0x48544231 else if r = .param0 then param0Word s.params
        else if r = .param1 then param1Word s.params else if r = .lzwCfg then 0x0000000C
        else if r = .hufRoot then 0x1FF else if r = .lzwCur then 0x1FFFF else 0)) ∧
    (∀ b, t.freq.count.at b = 0 ∧ t.ari.cumLo.at b = 0 ∧ t.huf.codeLen.at b = 0 ∧ t.huf.codeVal.at b = 0) ∧
    t.huf.arena = [] ∧ t.lzw.dict = [] ∧ t.ari.l = 0 ∧ t.ari.h = 0 ∧ t.ari.d = 0 ∧ t.irq = false ∧
    ∀ a, t.ibuf.read a = none ∧ t.obuf.read a = none

/-! ## Errors (60_exceptions.md) -/

/-- R76: a command whose stage prerequisite fails raises SEQUENCE with info zext_32(STAGE[7:0]) and changes no other
state. -/
def Obligations.FailedPrerequisiteRaisesSequence : Prop :=
  ∀ s : State,
    (s.bp.cnt ≠ 0 → raisesOnly .result s .sequence s.stage.word) ∧
    (s.stage.freqV = false → ∀ i ∈ [Instr.hufInit, .ariTable], raisesOnly i s .sequence s.stage.word) ∧
    (s.stage.hufStage.toNat < 1 → ∀ i ∈ [Instr.hufMerge, .hufBuild], raisesOnly i s .sequence s.stage.word) ∧
    (s.stage.hufStage.toNat < 2 → raisesOnly .hufCodes s .sequence s.stage.word) ∧
    (s.stage.hufStage ≠ 3 → ∀ i ∈ [Instr.hufCanon, .hufEmit], raisesOnly i s .sequence s.stage.word) ∧
    ((s.stage.ariTblV = false ∨ s.stage.ariV = false) →
      raisesOnly .ariNarrow s .sequence s.stage.word ∧ ∀ b, raisesOnly (.ariStep b) s .sequence s.stage.word) ∧
    (s.stage.ariV = false → raisesOnly .ariFinal s .sequence s.stage.word) ∧
    (s.stage.lzwV = false →
      raisesOnly .lzwRun s .sequence s.stage.word ∧ raisesOnly .lzwFlush s .sequence s.stage.word ∧
        ∀ b, raisesOnly (.lzwStep b) s .sequence s.stage.word)

/-- R77, R78, R125: an input range that does not fit in IBUF raises IN_RANGE before any change, in every command that
reads it; an output window that does not fit in OBUF raises OUT_RANGE before any change, in every command that writes
it, after the stage and the input range have passed. The sums are computed without wrap. -/
def Obligations.BadRangesRaiseBeforeAnyChange : Prop :=
  ∀ s : State,
    (s.ibufSize < s.cfg.inBase.toNat + s.cfg.inLen.toNat →
      raisesOnly .freq s .inRange 0 ∧ (∀ c, raisesOnly (.hufEncode c) s .inRange 0) ∧
      raisesOnly .ariEncode s .inRange 0 ∧ raisesOnly .lzwEncode s .inRange 0 ∧
      (s.stage.hufStage = 3 → raisesOnly .hufEmit s .inRange 0) ∧
      (s.stage.ariTblV = true → s.stage.ariV = true → raisesOnly .ariNarrow s .inRange 0) ∧
      (s.stage.lzwV = true → raisesOnly .lzwRun s .inRange 0)) ∧
    (s.obufSize < s.cfg.outBase.toNat + s.cfg.outCap.toNat →
      raisesOnly .bpPad s .outRange 0 ∧ (∀ n bits, raisesOnly (.bpPut n bits) s .outRange 0) ∧
      (s.stage.ariV = true → raisesOnly .ariFinal s .outRange 0) ∧
      (s.stage.lzwV = true → raisesOnly .lzwFlush s .outRange 0 ∧ ∀ b, raisesOnly (.lzwStep b) s .outRange 0) ∧
      (s.cfg.inBase.toNat + s.cfg.inLen.toNat ≤ s.ibufSize →
        (∀ c, raisesOnly (.hufEncode c) s .outRange 0) ∧ raisesOnly .ariEncode s .outRange 0 ∧
        raisesOnly .lzwEncode s .outRange 0 ∧
        (s.stage.hufStage = 3 → raisesOnly .hufEmit s .outRange 0) ∧
        (s.stage.lzwV = true → raisesOnly .lzwRun s .outRange 0)))

/-- R116, R123: an append of BP_PUT, BP_PAD or LZW_FLUSH that would complete more bytes than the window has room for
raises OUT_OVERFLOW with info 0 and appends nothing. -/
def Obligations.OverfullAppendChangesNothing : Prop :=
  ∀ s : State, s.cfg.outBase.toNat + s.cfg.outCap.toNat ≤ s.obufSize →
    (∀ n bits, s.cfg.outCap.toNat < s.bp.outLen.toNat + (s.bp.cnt.toNat + n.toNat) / 8 →
      raisesOnly (.bpPut n bits) s .outOverflow 0) ∧
    (s.cfg.outCap.toNat ≤ s.bp.outLen.toNat → s.bp.cnt ≠ 0 → raisesOnly .bpPad s .outOverflow 0) ∧
    (s.stage.lzwV = true → s.lzw.cur ≠ lzwEmpty →
      s.cfg.outCap.toNat < s.bp.outLen.toNat + (s.bp.cnt.toNat + s.lzw.act.width.toNat) / 8 →
      raisesOnly .lzwFlush s .outOverflow 0)

/-- R83, R97, R102, R110, R123-R125: a streaming command ends by an error exactly where a byte of its input fails a check,
with the code of the first check that byte fails; it leaves the state of the same command over the bytes before it,
IN_POS holds that byte's offset, and ERR_INFO the offset and the byte. A fused command is its phases run one after
another: it completes with the state they leave, or ends with the first error of a phase, keeping the effects of the
phases before it and of the bytes the failing one has processed. -/
def Obligations.ErrorsArePreciseAtTheByteAndThePhase : Prop :=
  (∀ (i : Instr) (s : State), i ∈ [Instr.hufEmit, .ariNarrow, .lzwRun] → s.params.valid → s.status.err = false →
    s.cfg.inBase.toNat + s.cfg.inLen.toNat ≤ s.ibufSize →
    (i ≠ .ariNarrow → s.cfg.outBase.toNat + s.cfg.outCap.toNat ≤ s.obufSize) →
    (i = .hufEmit → s.stage.hufStage = 3) → (i = .ariNarrow → s.stage.ariTblV = true ∧ s.stage.ariV = true) →
    (i = .lzwRun → s.stage.lzwV = true) →
    (∀ t, exec i s = .next t → t.status.err = true →
      ∃ b u, t.inPos.toNat < s.cfg.inLen.toNat ∧ s.ibuf.read (s.cfg.inBase.toNat + t.inPos.toNat) = some b ∧
        t.err.info.toNat = t.inPos.toNat * 256 + b.toNat ∧
        exec i { s with cfg := { s.cfg with inLen := t.inPos } } = .next u ∧ s.completed u ∧ t.sameEngineSide u ∧
        firstFailure i u b t.err.code) ∧
    ∀ (n : Word) (b : Byte) (u : State) (c : ErrCode), n.toNat < s.cfg.inLen.toNat →
      exec i { s with cfg := { s.cfg with inLen := n } } = .next u → s.completed u →
      s.ibuf.read (s.cfg.inBase.toNat + n.toNat) = some b → firstFailure i u b c →
      ∃ t info, exec i s = .next t ∧ s.raised t c info ∧ info.toNat = n.toNat * 256 + b.toNat ∧ t.inPos = n ∧
        u.sameEngineSide t) ∧
  ∀ (i : Instr) (phases : List Instr) (s t : State),
    (i, phases) ∈
      [(Instr.hufEncode false, [.bpClear, .freq, .hufInit, .hufBuild, .hufCodes, .hufEmit, .bpPad, .result]),
        (.hufEncode true, [.bpClear, .freq, .hufInit, .hufBuild, .hufCodes, .hufCanon, .hufEmit, .bpPad, .result]),
        (.ariEncode, [.bpClear, .freq, .ariTable, .ariInit, .ariNarrow, .ariFinal, .bpPad, .result]),
        (.lzwEncode, [.bpClear, .lzwInit, .lzwRun, .lzwFlush, .bpPad, .result])] →
    s.params.valid →
    s.cfg.inBase.toNat + s.cfg.inLen.toNat ≤ s.ibufSize → s.cfg.outBase.toNat + s.cfg.outCap.toNat ≤ s.obufSize →
    exec i s = .next t →
    (s.completed t ∧ ∃ u, runsClean phases s u ∧ u.sameEngineSide t) ∨
    ∃ before j after u v code info, phases = before ++ j :: after ∧ runsClean before s u ∧ exec j u = .next v ∧
      u.raised v code info ∧ s.raised t code info ∧ v.sameEngineSide t

/-- Every command but SRESET ends with BUSY = 0 and DONE = 1 (R75, R122), leaves DROP and WBUSY alone (R24), and
either leaves the error state as it was or records the accepted word in ERR_CMD and sets ERR (R122). -/
def Obligations.EveryCommandEndsDone : Prop :=
  ∀ (i : Instr) (s t : State), i ≠ .sreset → exec i s = .next t →
    s.completed t ∨ ∃ code info, s.raised t code info

/-! ## Frames: what a command leaves as it was -/

/-- Whenever a command answers a next state, normally or by an error: it writes neither the registers the host writes nor
CMD nor IBUF (R17, R48); every register its rule's "Writes" entry does not name reads as before, but for STATUS, CYCLES
and the error registers, which the end of a command writes, and STAGE; every STAGE field that R31 does not let it set or
clear is unchanged; and every table its rule does not name, and OBUF of a command that stores nothing. -/
def Obligations.FrameOfEveryCommand : Prop :=
  ∀ (i : Instr) (s t : State), exec i s = .next t →
    s.sameHostSide t ∧
    (∀ r : Reg, r ∉ mayWriteReg i → r ∉ [Reg.status, .cycles, .stage, .errCode, .errInfo, .errCmd] →
      regValue t r = regValue s r) ∧
    (∀ b : StageBit, b ∉ mayWriteStage i → t.stage.field b = s.stage.field b) ∧
    ∀ x : TableName, x ∉ mayWriteTable i → sameTable s t x

/-- R116: every byte of OBUF outside the window bytes from the first stored one to OUT_LEN reads as before, for every
command, and whether it completes or fails. -/
def Obligations.ObufFrameOfEveryCommand : Prop :=
  ∀ (i : Instr) (s t : State) (a : Nat), exec i s = .next t →
    (a < s.cfg.outBase.toNat + firstStored i s ∨ s.cfg.outBase.toNat + t.bp.outLen.toNat ≤ a) →
    t.obuf.read a = s.obuf.read a

/-! ## Control commands -/

/-- R79, R117: NOP completes and changes nothing but STATUS and CYCLES; BP_CLEAR starts an empty stream, changes nothing
else of the working state, and leaves OBUF alone. -/
def Obligations.NopAndBpClearComplete : Prop :=
  ∀ s : State,
    (∃ t, exec .nop s = .next t ∧ s.completed t ∧ s.sameHostSide t ∧ s.sameEngineSide t) ∧
    ∃ t, exec .bpClear s = .next t ∧ s.completed t ∧ s.sameHostSide t ∧ t.bp = ⟨0, 0, 0, 0, 0⟩ ∧ t.streamBits = [] ∧
      s.sameEngineSide { t with bp := s.bp }

/-- R80, R143: SRESET gives every engine-written register and table its hardware-reset value, clears the errors, and
keeps the host's configuration and both buffers. -/
def Obligations.SresetRestoresWorkingState : Prop :=
  ∀ s : State, ∃ t, exec .sreset s = .next t ∧
    t.status = ⟨false, true, false, false, false⟩ ∧ t.err = ⟨.none, 0, 0⟩ ∧ s.sameHostSide t ∧ t.obuf = s.obuf ∧
    t.stage = State.reset.stage ∧ t.inPos = 0 ∧ t.res = State.reset.res ∧ t.bp = State.reset.bp ∧
    t.freq = State.reset.freq ∧ t.huf = State.reset.huf ∧ t.ari = State.reset.ari ∧ t.lzw = State.reset.lzw

/-- R81: with the stream byte-aligned, RESULT latches IN_LEN and OUT_LEN and changes nothing else of the working state;
the ratio of R82 is then 0 for an empty input and OUT_LEN / IN_LEN otherwise. -/
def Obligations.ResultLatchesTheSizes : Prop :=
  ∀ s : State, s.bp.cnt = 0 → ∃ t, exec .result s = .next t ∧ s.completed t ∧ s.sameHostSide t ∧
    t.res.orig = s.cfg.inLen ∧ t.res.comp = s.bp.outLen ∧ s.sameEngineSide { t with res := s.res } ∧
    (s.cfg.inLen = 0 → t.ratio = 0) ∧
    (s.cfg.inLen ≠ 0 → t.ratio * s.cfg.inLen.toNat = s.bp.outLen.toNat)

/-! ## FrequencyModel -/

/-- R85, R86: FREQ counts each symbol of the input range, and voids the models built from an older table. -/
def Obligations.FreqCountsEverySymbol : Prop :=
  ∀ (s : State) (bs : List Byte), s.params.valid →
    s.cfg.inBase.toNat + s.cfg.inLen.toNat ≤ s.ibufSize → s.inputIs bs →
    ∃ t, exec .freq s = .next t ∧ s.completed t ∧
      (∀ b, (t.freq.count.at b).toNat = bs.count b) ∧ t.freq.total = s.cfg.inLen ∧
      t.freq.nsym.toNat = bs.toFinset.card ∧ t.inPos = s.cfg.inLen ∧
      t.stage = { s.stage with freqV := true, hufStage := 0, hufCanon := false, ariTblV := false, ariV := false }

/-! ## Huffman -/

/-- R88: HUF_INIT makes one live leaf for each present symbol, in ascending symbol order, and clears the code table. -/
def Obligations.HufInitPlantsTheLeaves : Prop :=
  ∀ s : State, s.stage.freqV = true →
    ∃ t, exec .hufInit s = .next t ∧ s.completed t ∧
      t.huf.arena.map (fun nd => nd.sym) = allSyms.filter (fun b => s.freq.count.at b != 0) ∧
      (∀ nd ∈ t.huf.arena, nd.freq = s.freq.count.at nd.sym ∧ nd.leaf = true ∧ nd.live = true ∧
        nd.left = 0x1FF ∧ nd.right = 0x1FF) ∧
      t.huf.nnodes.toNat = t.huf.arena.length ∧ t.huf.live.toNat = t.huf.arena.length ∧
      t.huf.root = (if t.huf.arena.length = 1 then 0 else 0x1FF) ∧ t.huf.maxLen = 0 ∧
      (∀ b, t.huf.codeLen.at b = 0 ∧ t.huf.codeVal.at b = 0) ∧
      t.stage = { s.stage with hufStage := (if t.huf.arena.length ≤ 1 then 2 else 1), hufCanon := false }

/-- R89, R90: HUF_MERGE joins the two live nodes that come first in the order (FREQ, index): the first becomes the
left child and the second the right. With at most one live node the arena is unchanged. -/
def Obligations.HufMergeJoinsTheTwoLowest : Prop :=
  ∀ s : State, 1 ≤ s.stage.hufStage.toNat → s.huf.live.toNat = s.huf.arena.countP (·.live) →
    s.huf.nnodes.toNat = s.huf.arena.length → s.huf.arena.length ≤ 510 →
    ∃ t, exec .hufMerge s = .next t ∧ s.completed t ∧
      (s.huf.live.toNat ≤ 1 → t.huf.arena = s.huf.arena ∧ t.huf.live = s.huf.live ∧ t.huf.nnodes = s.huf.nnodes) ∧
      (2 ≤ s.huf.live.toNat → ∃ a b x y, s.huf.arena[a]? = some x ∧ s.huf.arena[b]? = some y ∧
        x.live = true ∧ y.live = true ∧ a ≠ b ∧
        (x.freq.toNat < y.freq.toNat ∨ (x.freq.toNat = y.freq.toNat ∧ a < b)) ∧
        (∀ c z, s.huf.arena[c]? = some z → z.live = true → c ≠ a → c ≠ b →
          y.freq.toNat < z.freq.toNat ∨ (y.freq.toNat = z.freq.toNat ∧ b < c)) ∧
        t.huf.arena = (s.huf.arena.set a { x with live := false }).set b { y with live := false } ++
          [⟨x.freq + y.freq, false, 0, BitVec.ofNat 9 a, BitVec.ofNat 9 b, true⟩] ∧
        t.huf.nnodes.toNat = s.huf.nnodes.toNat + 1 ∧ t.huf.live.toNat = s.huf.live.toNat - 1) ∧
      (t.huf.live = 1 → (∃ nd, t.huf.arena[t.huf.root.toNat]? = some nd ∧ nd.live = true) ∧
        t.stage.hufStage = (if s.stage.hufStage = 1 then 2 else s.stage.hufStage)) ∧
      (t.huf.live ≠ 1 → t.huf.root = s.huf.root ∧ t.stage = s.stage)

/-- R91: HUF_BUILD leaves at most one live node, and the Huffman unit and STAGE as max(HUF_LIVE-1, 0) + 1 successive
HUF_MERGE commands leave them. -/
def Obligations.HufBuildIsRepeatedMerging : Prop :=
  ∀ s : State, 1 ≤ s.stage.hufStage.toNat → s.huf.live.toNat = s.huf.arena.countP (·.live) →
    ∃ t u, exec .hufBuild s = .next t ∧ s.completed t ∧ t.huf.live.toNat ≤ 1 ∧
      runsClean (List.replicate (s.huf.live.toNat - 1 + 1) .hufMerge) s u ∧ t.huf = u.huf ∧ t.stage = u.stage

/-- R93, R94: after HUF_CODES every present symbol has a code, which is its leaf's path from the root ("0" for a single
symbol), and no other symbol has one; HUF_MAXLEN is the longest length. -/
def Obligations.HufCodesAreTheLeafPaths : Prop :=
  ∀ s : State, FreqInv s → HuffmanInv s → 2 ≤ s.stage.hufStage.toNat →
    ∃ t, exec .hufCodes s = .next t ∧ s.completed t ∧ t.huf.arena = s.huf.arena ∧ t.huf.root = s.huf.root ∧
      t.stage = { s.stage with hufStage := 3, hufCanon := false } ∧
      (∀ b, (0 < (t.huf.codeLen.at b).toNat ↔ s.freq.count.at b ≠ 0)) ∧
      (∀ b, 0 < (t.huf.codeLen.at b).toNat → 2 ≤ presentCount s.freq.count →
        ∃ n nd, follow t.huf.arena t.huf.root.toNat (t.huf.code b) = some n ∧ t.huf.arena[n]? = some nd ∧
          nd.leaf = true ∧ nd.sym = b) ∧
      (∀ b, 0 < (t.huf.codeLen.at b).toNat → presentCount s.freq.count = 1 → t.huf.code b = [false]) ∧
      (∀ b, (t.huf.codeLen.at b).toNat ≤ t.huf.maxLen.toNat) ∧
      (t.huf.maxLen = 0 ∨ ∃ b, t.huf.codeLen.at b = t.huf.maxLen)

/-- R95: in every state that meets the invariants, once HUF_STAGE = 3 the code table, canonical or not, is
prefix-free; for two symbols or more the code lengths fill the code space (Σ 2^(−len) = 1), and a single symbol has the
code "0". -/
def Obligations.CodeTableIsCompleteAndPrefixFree : Prop :=
  ∀ s : State, FreqInv s → HuffmanInv s → s.stage.hufStage = 3 →
    (∀ x y, x ≠ y → s.huf.codeLen.at x ≠ 0 → s.huf.codeLen.at y ≠ 0 → ¬ s.huf.code x <+: s.huf.code y) ∧
    (2 ≤ presentCount s.freq.count →
      ((allSyms.filter fun b => s.huf.codeLen.at b != 0).map fun b => 2 ^ (256 - (s.huf.codeLen.at b).toNat)).sum
        = 2 ^ 256) ∧
    (presentCount s.freq.count = 1 → ∀ x, s.huf.codeLen.at x ≠ 0 → s.huf.code x = [false])

/-- R96: HUF_CANON gives the coded symbols, in the order (CODE_LEN, symbol), the code 0 and then each time
(code + 1) << (length difference); lengths, HUF_MAXLEN and the symbols without a code are unchanged. Applying it twice
gives the same table. -/
def Obligations.HufCanonRenumbersInLengthOrder : Prop :=
  ∀ s : State, s.stage.hufStage = 3 →
    ∃ t, exec .hufCanon s = .next t ∧ s.completed t ∧ t.stage = { s.stage with hufCanon := true } ∧
      t.huf.codeLen = s.huf.codeLen ∧ t.huf.maxLen = s.huf.maxLen ∧
      (∀ b, s.huf.codeLen.at b = 0 → t.huf.codeVal.at b = s.huf.codeVal.at b) ∧
      (∀ l : List Byte, (∀ b, b ∈ l ↔ s.huf.codeLen.at b ≠ 0) →
        l.Pairwise (fun a b => (s.huf.codeLen.at a).toNat < (s.huf.codeLen.at b).toNat ∨
          ((s.huf.codeLen.at a).toNat = (s.huf.codeLen.at b).toNat ∧ a.toNat < b.toNat)) →
        (∀ b, l[0]? = some b → t.huf.codeVal.at b = 0) ∧
        ∀ j a b, l[j]? = some a → l[j + 1]? = some b →
          (t.huf.codeVal.at b).toNat = ((t.huf.codeVal.at a).toNat + 1) *
            2 ^ ((s.huf.codeLen.at b).toNat - (s.huf.codeLen.at a).toNat) % 2 ^ 256) ∧
      ∃ u, exec .hufCanon t = .next u ∧ u.huf = t.huf

/-- R97: with every input byte coded and room for all the codes, HUF_EMIT appends the codes of the input bytes, in
order, and IN_POS counts them. -/
def Obligations.HufEmitAppendsTheCodes : Prop :=
  ∀ (s : State) (bs : List Byte), s.stage.hufStage = 3 →
    s.cfg.inBase.toNat + s.cfg.inLen.toNat ≤ s.ibufSize → s.cfg.outBase.toNat + s.cfg.outCap.toNat ≤ s.obufSize →
    s.inputIs bs → (∀ b ∈ bs, s.huf.codeLen.at b ≠ 0) → s.bp.acc.toNat < 2 ^ s.bp.cnt.toNat →
    s.bp.outLen.toNat + (s.bp.cnt.toNat + (bs.flatMap s.huf.code).length) / 8 ≤ s.cfg.outCap.toNat →
    ∃ t, exec .hufEmit s = .next t ∧ s.completed t ∧
      t.streamBits = s.streamBits ++ bs.flatMap s.huf.code ∧ t.inPos = s.cfg.inLen ∧
      8 * t.bp.outLen.toNat + t.bp.cnt.toNat =
        8 * s.bp.outLen.toNat + s.bp.cnt.toNat + (bs.flatMap s.huf.code).length ∧
      t.bp.padBits = s.bp.padBits

/-- R98, R145: on any readable input, with an output window of ⌈255·IN_LEN/8⌉ bytes, HUF_ENCODE completes without
error; the window then holds the codes of the input and PAD_BITS zero bits, and the result record their sizes. -/
def Obligations.HufEncodeCompletes : Prop :=
  ∀ (s : State) (bs : List Byte) (canon : Bool), s.params.valid →
    s.cfg.inBase.toNat + s.cfg.inLen.toNat ≤ s.ibufSize → s.cfg.outBase.toNat + s.cfg.outCap.toNat ≤ s.obufSize →
    s.inputIs bs → 255 * s.cfg.inLen.toNat ≤ 8 * s.cfg.outCap.toNat →
    ∃ t, exec (.hufEncode canon) s = .next t ∧ s.completed t ∧
      t.streamBits = bs.flatMap t.huf.code ++ List.replicate t.bp.padBits.toNat false ∧ t.bp.cnt = 0 ∧
      t.res.orig = s.cfg.inLen ∧ t.res.comp = t.bp.outLen ∧ t.stage.hufStage = 3 ∧ t.stage.hufCanon = canon ∧
      (∀ b, (t.freq.count.at b).toNat = bs.count b)

/-! ## Arithmetic coder -/

/-- R99: CUM_LO[s] is the number of occurrences of the symbols below s; an interval opened before is void. -/
def Obligations.AriTableCumulates : Prop :=
  ∀ s : State, FreqInv s → s.stage.freqV = true →
    ∃ t, exec .ariTable s = .next t ∧ s.completed t ∧
      (∀ b, (t.ari.cumLo.at b).toNat =
        ((List.range b.toNat).map fun c => (s.freq.count.at (BitVec.ofNat 8 c)).toNat).sum) ∧
      t.stage = { s.stage with ariTblV := true, ariV := false } ∧ t.freq = s.freq

/-- R101: ARI_INIT opens the interval [0, 1). -/
def Obligations.AriInitOpensTheUnitInterval : Prop :=
  ∀ s : State, ∃ t, exec .ariInit s = .next t ∧ s.completed t ∧ t.ari.l = 0 ∧ t.ari.h = 1 ∧ t.ari.d = 1 ∧
    t.ari.k = 0 ∧ t.ari.b = 0 ∧ t.ari.bits = 0 ∧ t.stage = { s.stage with ariV := true }

/-- R102: ARI_STEP narrows the interval exactly, low' = low + width·lo/T and high' = low + width·(lo+f)/T as rationals
over D·T; it raises ARI_NO_SYM for a symbol that is not in the table and then PRECISION_OVERFLOW if D·T would not fit,
each with nothing changed. -/
def Obligations.AriStepNarrowsExactly : Prop :=
  ∀ (s : State) (b : Byte), s.stage.ariTblV = true → s.stage.ariV = true →
    (s.freq.count.at b = 0 → raisesOnly (.ariStep b) s .ariNoSym (b.setWidth 32)) ∧
    (s.freq.count.at b ≠ 0 → 2 ^ s.accBits ≤ s.ari.d * s.freq.total.toNat →
      raisesOnly (.ariStep b) s .precisionOverflow (b.setWidth 32)) ∧
    (s.freq.count.at b ≠ 0 → s.ari.d * s.freq.total.toNat < 2 ^ s.accBits → s.ari.l ≤ s.ari.h →
      s.freq.total ≠ 0 → s.ari.d ≠ 0 →
      ∃ t, exec (.ariStep b) s = .next t ∧ s.completed t ∧ t.ari.d = s.ari.d * s.freq.total.toNat ∧
        (t.ari.l : ℚ) / t.ari.d = (s.ari.l : ℚ) / s.ari.d +
          ((s.ari.h : ℚ) - s.ari.l) / s.ari.d * ((s.ari.cumLo.at b).toNat / s.freq.total.toNat) ∧
        (t.ari.h : ℚ) / t.ari.d = (s.ari.l : ℚ) / s.ari.d +
          ((s.ari.h : ℚ) - s.ari.l) / s.ari.d *
            (((s.ari.cumLo.at b).toNat + (s.freq.count.at b).toNat) / s.freq.total.toNat) ∧
        (s.ari.k.toNat + 1 < 2 ^ 32 → t.ari.k.toNat = s.ari.k.toNat + 1) ∧ t.inPos = s.inPos ∧ t.bp = s.bp)

/-- R103, R107: with every input byte in the table and D·T^n within W bits, ARI_NARROW narrows by every byte of the
input range in order: the denominator grows to D·T^n and the width by the product of the frequencies. -/
def Obligations.AriNarrowNarrowsByEveryByte : Prop :=
  ∀ (s : State) (bs : List Byte), s.stage.ariTblV = true → s.stage.ariV = true →
    s.cfg.inBase.toNat + s.cfg.inLen.toNat ≤ s.ibufSize → s.inputIs bs →
    (∀ b ∈ bs, s.freq.count.at b ≠ 0) → s.ari.d * s.freq.total.toNat ^ bs.length < 2 ^ s.accBits →
    ∃ t, exec .ariNarrow s = .next t ∧ s.completed t ∧ t.inPos = s.cfg.inLen ∧
      t.ari.d = s.ari.d * s.freq.total.toNat ^ bs.length ∧
      (t.ari.l, t.ari.h - t.ari.l) = narrowed s.freq s.ari.cumLo bs s.ari.l (s.ari.h - s.ari.l) ∧
      t.ari.h - t.ari.l = (s.ari.h - s.ari.l) * (bs.map fun b => (s.freq.count.at b).toNat).prod ∧
      (s.ari.k.toNat + bs.length < 2 ^ 32 → t.ari.k.toNat = s.ari.k.toNat + bs.length)

/-- R104, R105, R107: ARI_FINAL takes the least B with (H − L)·2^B ≥ D and the least N with N/2^B ≥ L/D; N/2^B lies in
[L/D, H/D); it appends the E bits of N without its trailing zero bits, or raises OUT_OVERFLOW with nothing changed if
they do not fit. -/
def Obligations.AriFinalEmitsAFractionInTheInterval : Prop :=
  ∀ s : State, ArithInv s → s.stage.ariV = true → s.params.valid →
    s.cfg.outBase.toNat + s.cfg.outCap.toNat ≤ s.obufSize → s.bp.acc.toNat < 2 ^ s.bp.cnt.toNat →
    ∃ B N E z : Nat,
      (s.ari.d ≤ (s.ari.h - s.ari.l) * 2 ^ B ∧ ∀ c, c < B → (s.ari.h - s.ari.l) * 2 ^ c < s.ari.d) ∧
      (s.ari.l * 2 ^ B ≤ N * s.ari.d ∧ (∀ M, s.ari.l * 2 ^ B ≤ M * s.ari.d → N ≤ M) ∧
        N * s.ari.d < s.ari.h * 2 ^ B) ∧
      (if N = 0 then E = 0 ∧ z = 0 else N = z * 2 ^ (B - E) ∧ z % 2 = 1 ∧ E ≤ B) ∧ B ≤ s.accBits ∧
      (s.bp.outLen.toNat + (s.bp.cnt.toNat + E) / 8 ≤ s.cfg.outCap.toNat →
        ∃ t, exec .ariFinal s = .next t ∧ s.completed t ∧ t.streamBits = s.streamBits ++ bitsOf E z ∧
          t.ari.b.toNat = B ∧ t.ari.bits.toNat = E ∧
          t.ari.l = s.ari.l ∧ t.ari.h = s.ari.h ∧ t.ari.d = s.ari.d ∧ t.ari.k = s.ari.k) ∧
      (s.cfg.outCap.toNat < s.bp.outLen.toNat + (s.bp.cnt.toNat + E) / 8 → raisesOnly .ariFinal s .outOverflow 0)

/-- R106, R139, R145: on a readable input of n bytes with n^n < 2^W, with an output window of ⌈W/8⌉ bytes, ARI_ENCODE
completes without error, and the bits in the window are a binary fraction in the final interval. -/
def Obligations.AriEncodeCompletes : Prop :=
  ∀ (s : State) (bs : List Byte), s.params.valid →
    s.cfg.inBase.toNat + s.cfg.inLen.toNat ≤ s.ibufSize → s.cfg.outBase.toNat + s.cfg.outCap.toNat ≤ s.obufSize →
    s.inputIs bs → bs.length ^ bs.length < 2 ^ s.accBits → s.accBits ≤ 8 * s.cfg.outCap.toNat →
    ∃ t z, exec .ariEncode s = .next t ∧ s.completed t ∧
      t.ari.d = bs.length ^ bs.length ∧ t.ari.h - t.ari.l = (bs.map fun b => bs.count b).prod ∧
      t.streamBits = bitsOf t.ari.bits.toNat z ++ List.replicate t.bp.padBits.toNat false ∧ t.bp.cnt = 0 ∧
      z < 2 ^ t.ari.bits.toNat ∧
      t.ari.l * 2 ^ t.ari.bits.toNat ≤ z * t.ari.d ∧ z * t.ari.d < t.ari.h * 2 ^ t.ari.bits.toNat ∧
      t.res.orig = s.cfg.inLen ∧ t.res.comp = t.bp.outLen

/-- 95_test_vectors.md 4.2, R107: whenever ARI_ENCODE completes without error, the fraction its bits stand for decodes,
against the table of the command, to the input bytes and to no other sequence of that length. -/
def Obligations.AriStreamDecodesToTheInput : Prop :=
  ∀ (s t : State) (bs : List Byte), s.params.valid → s.inputIs bs → exec .ariEncode s = .next t → t.status.err = false →
    ∃ z : Nat, t.streamBits = bitsOf t.ari.bits.toNat z ++ List.replicate t.bp.padBits.toNat false ∧
      z < 2 ^ t.ari.bits.toNat ∧
      ∀ cs : List Byte, cs.length = bs.length →
        (decodesAs t.freq t.ari.cumLo ((z : ℚ) / 2 ^ t.ari.bits.toNat) cs 0 1 ↔ cs = bs)

/-! ## LZW -/

/-- R108: LZW_INIT latches LZW_CFG and leaves the dictionary with the 256 single-byte strings only; neither the bit
stream nor the other encoders' state changes. -/
def Obligations.LzwInitSeedsTheDictionary : Prop :=
  ∀ s : State, ∃ t, exec .lzwInit s = .next t ∧ s.completed t ∧ t.lzw.act = s.cfg.lzwCfg ∧ t.lzw.dict = [] ∧
    t.lzw.next = 256 ∧ t.lzw.cur = 0x1FFFF ∧ t.lzw.ncodes = 0 ∧
    t.stage = { s.stage with lzwV := true, lzwFull := decide (s.cfg.lzwCfg.width = 8) } ∧
    t.bp = s.bp ∧ t.obuf = s.obuf ∧ t.freq = s.freq ∧ t.huf = s.huf ∧ t.ari = s.ari

/-- R110, R111: what LZW_STEP does, in each of its cases: the first byte of a match; a longer match; a miss, where the
code of the match is emitted, and the candidate inserted, or the dictionary emptied or left as it is at the cap; and
the two errors, with nothing changed, DICT_OVERFLOW first. -/
def Obligations.LzwStepFollowsTheDictionary : Prop :=
  ∀ (s : State) (b : Byte), LzwInv s → s.stage.lzwV = true → s.bp.acc.toNat < 2 ^ s.bp.cnt.toNat →
    s.cfg.outBase.toNat + s.cfg.outCap.toNat ≤ s.obufSize →
    (s.lzw.cur = lzwEmpty → ∃ t, exec (.lzwStep b) s = .next t ∧ s.completed t ∧
      t.lzw = { s.lzw with cur := b.setWidth 17 } ∧ t.bp = s.bp ∧ t.obuf = s.obuf) ∧
    (∀ e, s.lzw.cur ≠ lzwEmpty → s.lzw.holds s.lzw.cur.toNat b e → ∃ t, exec (.lzwStep b) s = .next t ∧
      s.completed t ∧ t.lzw = { s.lzw with cur := BitVec.ofNat 17 e } ∧ t.bp = s.bp ∧ t.obuf = s.obuf) ∧
    (s.lzw.cur ≠ lzwEmpty → (∀ e, ¬ s.lzw.holds s.lzw.cur.toNat b e) →
      ((s.lzw.next.toNat = s.lzw.cap ∧ s.lzw.act.policy = .reject) →
        raisesOnly (.lzwStep b) s .dictOverflow (b.setWidth 32)) ∧
      (¬ (s.lzw.next.toNat = s.lzw.cap ∧ s.lzw.act.policy = .reject) →
        (s.cfg.outCap.toNat < s.bp.outLen.toNat + (s.bp.cnt.toNat + s.lzw.act.width.toNat) / 8 →
          raisesOnly (.lzwStep b) s .outOverflow (b.setWidth 32)) ∧
        (s.bp.outLen.toNat + (s.bp.cnt.toNat + s.lzw.act.width.toNat) / 8 ≤ s.cfg.outCap.toNat →
          ∃ t, exec (.lzwStep b) s = .next t ∧ s.completed t ∧
            t.streamBits = s.streamBits ++ bitsOf s.lzw.act.width.toNat s.lzw.cur.toNat ∧
            t.lzw.cur = b.setWidth 17 ∧ t.lzw.act = s.lzw.act ∧
            (s.lzw.ncodes.toNat + 1 < 2 ^ 32 → t.lzw.ncodes.toNat = s.lzw.ncodes.toNat + 1) ∧
            (s.lzw.next.toNat < s.lzw.cap →
              t.lzw.dict = s.lzw.dict ++ [⟨BitVec.ofNat 16 s.lzw.cur.toNat, b⟩] ∧
                t.lzw.next.toNat = s.lzw.next.toNat + 1) ∧
            (s.lzw.next.toNat = s.lzw.cap → s.lzw.act.policy = .reset → t.lzw.dict = [] ∧ t.lzw.next = 256) ∧
            (s.lzw.next.toNat = s.lzw.cap → s.lzw.act.policy = .freeze →
              t.lzw.dict = s.lzw.dict ∧ t.lzw.next = s.lzw.next) ∧
            t.stage = { s.stage with lzwFull := decide (t.lzw.next.toNat = t.lzw.cap) })))

/-- R112, R145: with a policy other than REJECT and room for one code per byte, LZW_RUN processes every byte of the
input range without error, and leaves the LZW unit, the stream and STAGE as one LZW_STEP for each byte, in order, leaves
them (the event counter LZW_NCODES while it stays below 2^32, log 8). -/
def Obligations.LzwRunCompletes : Prop :=
  ∀ (s : State) (bs : List Byte), LzwInv s → s.stage.lzwV = true → s.lzw.act.policy ≠ .reject →
    s.cfg.inBase.toNat + s.cfg.inLen.toNat ≤ s.ibufSize → s.cfg.outBase.toNat + s.cfg.outCap.toNat ≤ s.obufSize →
    s.inputIs bs →
    s.bp.outLen.toNat + (s.bp.cnt.toNat + s.lzw.act.width.toNat * bs.length) / 8 ≤ s.cfg.outCap.toNat →
    ∃ t u, exec .lzwRun s = .next t ∧ s.completed t ∧ t.inPos = s.cfg.inLen ∧ LzwInv t ∧
      (bs ≠ [] → t.lzw.cur ≠ lzwEmpty) ∧
      runsClean (bs.map fun b => .lzwStep b) s u ∧ { t with inPos := s.inPos, lzw.ncodes := 0 }.sameEngineSide
        { u with lzw.ncodes := 0 } ∧
      (s.lzw.ncodes.toNat + bs.length < 2 ^ 32 → t.lzw.ncodes = u.lzw.ncodes)

/-- R112: LZW_RUN over two ranges, one after the other, equals one run over their concatenation, in everything the engine
writes but IN_POS, which counts the second range alone, and CYCLES (the event counter LZW_NCODES while it has not passed
2^32 - 1, log 8). -/
def Obligations.LzwRunsConcatenate : Prop :=
  ∀ (s t u : State) (n m : Word), s.stage.lzwV = true →
    s.cfg.inBase.toNat + n.toNat + m.toNat ≤ s.ibufSize → n.toNat + m.toNat < 2 ^ 32 →
    s.cfg.inBase.toNat + n.toNat < 2 ^ 32 → s.lzw.ncodes.toNat + n.toNat + m.toNat < 2 ^ 32 →
    exec .lzwRun { s with cfg := { s.cfg with inLen := n } } = .next t → t.status.err = false →
    exec .lzwRun { t with cfg := { s.cfg with inBase := s.cfg.inBase + n, inLen := m } } = .next u →
    u.status.err = false →
    u.inPos = m ∧
    ∃ v, exec .lzwRun { s with cfg := { s.cfg with inLen := n + m } } = .next v ∧ s.completed v ∧ v.inPos = n + m ∧
      u.sameEngineSide { v with inPos := u.inPos }

/-- R113: LZW_FLUSH emits the code of a non-empty match and empties it; a second flush emits nothing. The dictionary is
kept. -/
def Obligations.LzwFlushEmitsThePendingMatch : Prop :=
  ∀ s : State, s.stage.lzwV = true → s.cfg.outBase.toNat + s.cfg.outCap.toNat ≤ s.obufSize →
    s.bp.acc.toNat < 2 ^ s.bp.cnt.toNat →
    s.bp.outLen.toNat + (s.bp.cnt.toNat + s.lzw.act.width.toNat) / 8 ≤ s.cfg.outCap.toNat →
    ∃ t, exec .lzwFlush s = .next t ∧ s.completed t ∧ t.lzw.cur = lzwEmpty ∧ t.lzw.dict = s.lzw.dict ∧
      t.lzw.next = s.lzw.next ∧ t.lzw.act = s.lzw.act ∧
      (s.lzw.cur = lzwEmpty → t.streamBits = s.streamBits ∧ t.lzw.ncodes = s.lzw.ncodes) ∧
      (s.lzw.cur ≠ lzwEmpty → t.streamBits = s.streamBits ++ bitsOf s.lzw.act.width.toNat s.lzw.cur.toNat ∧
        (s.lzw.ncodes.toNat + 1 < 2 ^ 32 → t.lzw.ncodes.toNat = s.lzw.ncodes.toNat + 1)) ∧
      ∃ u, exec .lzwFlush t = .next u ∧ u.lzw = t.lzw ∧ u.bp = t.bp ∧ u.obuf = t.obuf

/-- R114, R145: on any readable input, with a policy other than REJECT and an output window of ⌈WIDTH·IN_LEN/8⌉ bytes,
LZW_ENCODE completes without error: the stream is LZW_NCODES codes of WIDTH bits and PAD_BITS zero bits. -/
def Obligations.LzwEncodeCompletes : Prop :=
  ∀ (s : State) (bs : List Byte), ConfigInv s → s.cfg.lzwCfg.policy ≠ .reject →
    s.cfg.inBase.toNat + s.cfg.inLen.toNat ≤ s.ibufSize → s.cfg.outBase.toNat + s.cfg.outCap.toNat ≤ s.obufSize →
    s.inputIs bs → s.cfg.lzwCfg.width.toNat * s.cfg.inLen.toNat ≤ 8 * s.cfg.outCap.toNat →
    ∃ (t : State) (codes : List Nat), exec .lzwEncode s = .next t ∧ s.completed t ∧ t.lzw.act = s.cfg.lzwCfg ∧ t.lzw.cur = lzwEmpty ∧
      t.lzw.ncodes.toNat = codes.length ∧ codes.length ≤ bs.length ∧ (∀ c ∈ codes, c < t.lzw.cap) ∧
      t.streamBits = codes.flatMap (bitsOf t.lzw.act.width.toNat) ++ List.replicate t.bp.padBits.toNat false ∧
      t.bp.cnt = 0 ∧ t.res.orig = s.cfg.inLen ∧ t.res.comp = t.bp.outLen

/-- 95_test_vectors.md 4.3, R115: whenever LZW_ENCODE completes without error, under any policy, its stream is
LZW_NCODES codes of WIDTH bits and the padding, and those codes decode to the input bytes. -/
def Obligations.LzwStreamDecodesToTheInput : Prop :=
  ∀ (s t : State) (bs : List Byte), ConfigInv s → s.inputIs bs → exec .lzwEncode s = .next t → t.status.err = false →
    ∃ codes : List Nat, t.streamBits = codes.flatMap (bitsOf t.lzw.act.width.toNat) ++
        List.replicate t.bp.padBits.toNat false ∧
      codes.length = t.lzw.ncodes.toNat ∧ (∀ c ∈ codes, c < t.lzw.cap) ∧
      lzwDecode t.lzw.cap t.lzw.act.policy codes = bs

/-! ## BitPacker -/

/-- R118, R65: with room, BP_PUT appends the low N bits of BITS, most significant first; the bits of BITS at and above
bit N do not matter. -/
def Obligations.BpPutAppendsTheLowBits : Prop :=
  ∀ (s : State) (n : Byte) (bits : BitVec 16), n.toNat ≤ 16 → s.bp.acc.toNat < 2 ^ s.bp.cnt.toNat →
    s.cfg.outBase.toNat + s.cfg.outCap.toNat ≤ s.obufSize →
    s.bp.outLen.toNat + (s.bp.cnt.toNat + n.toNat) / 8 ≤ s.cfg.outCap.toNat →
    ∃ t l, exec (.bpPut n bits) s = .next t ∧ s.completed t ∧ t.streamBits = s.streamBits ++ l ∧
      l.length = n.toNat ∧ (∀ j, j < n.toNat → l[j]? = some (bits.getLsbD (n.toNat - 1 - j))) ∧
      t.bp.bitLen = s.bp.bitLen + BitVec.ofNat 32 n.toNat ∧
      8 * t.bp.outLen.toNat + t.bp.cnt.toNat = 8 * s.bp.outLen.toNat + s.bp.cnt.toNat + n.toNat ∧
      t.bp.padBits = s.bp.padBits

/-- R119: with room, BP_PAD appends the fewest zero bits that complete a byte, and PAD_BITS holds their number; a
second BP_PAD appends nothing and sets PAD_BITS to 0. -/
def Obligations.BpPadCompletesTheByte : Prop :=
  ∀ s : State, s.bp.acc.toNat < 2 ^ s.bp.cnt.toNat → s.cfg.outBase.toNat + s.cfg.outCap.toNat ≤ s.obufSize →
    s.bp.outLen.toNat + (s.bp.cnt.toNat + 7) / 8 ≤ s.cfg.outCap.toNat →
    ∃ t, exec .bpPad s = .next t ∧ s.completed t ∧ t.bp.cnt = 0 ∧ (s.bp.cnt.toNat + t.bp.padBits.toNat) % 8 = 0 ∧
      t.streamBits = s.streamBits ++ List.replicate t.bp.padBits.toNat false ∧
      ∃ u, exec .bpPad t = .next u ∧ u.streamBits = t.streamBits ∧ u.bp = { t.bp with padBits := 0 }

/-- R120: of any strings appended from an empty stream into a window that holds them, the last append completing a
byte, byte j of the window is Σ s[8j + t]·2^(7−t), OUT_LEN is ‖s‖/8, CNT is 0 and BIT_LEN is ‖s‖. -/
def Obligations.PackedBytesAreTheStream : Prop :=
  ∀ (s : State) (strs : List (List Bool)), s.params.valid → s.cfg.outBase.toNat + s.cfg.outCap.toNat ≤ s.obufSize →
    strs.flatten.length % 8 = 0 → strs.flatten.length ≤ 8 * s.cfg.outCap.toNat →
    ∃ t, strs.foldl (fun r l => r.andThen (appendBits 0 l)) (CmdResult.ok (clearStream s)) = .ok t ∧
      t.bp.bitLen.toNat = strs.flatten.length ∧ t.bp.outLen.toNat = strs.flatten.length / 8 ∧ t.bp.cnt = 0 ∧
      ∀ j, j < t.bp.outLen.toNat → ∃ b, t.obuf.read (s.cfg.outBase.toNat + j) = some b ∧
        b.toNat = ((List.range 8).map fun k => (strs.flatten.getD (8 * j + k) false).toNat * 2 ^ (7 - k)).sum

/-! ## Invariants of every step -/

/-- Every instance parameter and LZW_CFG.WIDTH stay legal (R6, R28); both buffers keep their canonical form and hold only
offsets that exist (R48, R49, R62); BIT_LEN = 8·OUT_LEN + CNT at all times and ACC holds CNT bits (R34, R120). -/
def Obligations.StepKeepsConfigurationBuffersAndStream : Prop :=
  ∀ s t : State, ConfigInv s → step s = .next t →
    ConfigInv t ∧ (BuffersInv s → BuffersInv t) ∧ (StreamInv s → StreamInv t)

/-- R86: FREQ_TOTAL is the sum of the counts and FREQ_NSYM the number of present symbols, at all times. -/
def Obligations.StepKeepsTheFrequencyTotals : Prop :=
  ∀ s t : State, ConfigInv s → FreqInv s → step s = .next t → FreqInv t

/-- R100: while ARI_V = 1, 0 ≤ L < H ≤ D < 2^W and D = T^ARI_K; while ARI_TBL_V = 1, CUM_LO holds the running sums. -/
def Obligations.StepKeepsTheIntervalExact : Prop :=
  ∀ s t : State, ConfigInv s → FreqInv s → ArithInv s → step s = .next t → ArithInv t

/-- R115: while LZW_V = 1, 256 ≤ LZW_NEXT ≤ cap, LZW_CUR is EMPTY or below LZW_NEXT, PREFIX[e] < e, and no pair is
stored twice. -/
def Obligations.StepKeepsTheDictionarySound : Prop :=
  ∀ s t : State, ConfigInv s → LzwInv s → step s = .next t → LzwInv t

/-- R92: from HUF_INIT on the arena is a forest whose leaves are the present symbols and whose weights add up to
FREQ_TOTAL, and once HUF_STAGE ≥ 2 it is one tree with HUF_ROOT its last node. -/
def Obligations.StepKeepsTheTree : Prop :=
  ∀ s t : State, ConfigInv s → FreqInv s → HuffmanInv s → step s = .next t → HuffmanInv t

/-- R92: in every state that meets the invariant of the Huffman unit, once HUF_STAGE ≥ 2 and k = FREQ_NSYM ≥ 1, the
arena has 2k − 1 nodes, the root is node 2k − 2 and the only live one, its FREQ is FREQ_TOTAL, an internal node's FREQ is
the sum of its children's, and every leaf is reachable along exactly one path. -/
def Obligations.CompleteTreeIsAsRuled : Prop :=
  ∀ s : State, FreqInv s → HuffmanInv s → 2 ≤ s.stage.hufStage.toNat → 1 ≤ s.freq.nsym.toNat →
    s.huf.nnodes.toNat = 2 * s.freq.nsym.toNat - 1 ∧ s.huf.root.toNat = 2 * s.freq.nsym.toNat - 2 ∧
    (∀ i nd, s.huf.arena[i]? = some nd → (nd.live = true ↔ i = s.huf.root.toNat)) ∧
    nodeFreq s.huf.arena s.huf.root.toNat = s.freq.total ∧
    (∀ (i : Nat) (nd : Node), s.huf.arena[i]? = some nd → nd.leaf = false →
      nd.freq.toNat = (nodeFreq s.huf.arena nd.left.toNat).toNat + (nodeFreq s.huf.arena nd.right.toNat).toNat) ∧
    (∀ (i : Nat) (nd : Node), s.huf.arena[i]? = some nd → nd.leaf = true →
      ∃! path, follow s.huf.arena s.huf.root.toNat path = some i)

/-- R115: while the dictionary's invariant holds, the strings of the codes below LZW_NEXT are pairwise distinct. -/
def Obligations.DictionaryStringsAreDistinct : Prop :=
  ∀ s : State, LzwInv s → s.stage.lzwV = true →
    ∀ e f, e < s.lzw.next.toNat → f < s.lzw.next.toNat → s.lzw.str e = s.lzw.str f → e = f

/-- The state after hardware reset meets every invariant. The instance it has is the model's choice (log 1). -/
def Obligations.ResetMeetsTheInvariants : Prop :=
  Inv State.reset
end

