-- ==== Sys2Proof/Laws/Memory.lean ====
section
/-! SUPPORT. The laws of the buffers and the symbol tables: a read after a write, what a write leaves alone, and
that every memory operation keeps the canonical form. -/

namespace Sys2Proof.Machine

/-! Buffers. -/

theorem memory_write_head_le (m : Memory) (a : Nat) (v : Byte) :
    ∀ c ∈ Memory.write m a v, c = (a, v) ∨ c ∈ m := by
  induction m with
  | nil => intro c h; simp_all [Memory.write]
  | cons x m ih =>
    obtain ⟨k, b⟩ := x
    intro c h
    unfold Memory.write at h
    split at h
    · simpa using h
    · split at h
      · rcases List.mem_cons.1 h with h | h
        · exact .inl h
        · exact .inr (List.mem_cons_of_mem _ h)
      · rcases List.mem_cons.1 h with h | h
        · exact .inr (by simp [h])
        · rcases ih c h with h | h
          · exact .inl h
          · exact .inr (List.mem_cons_of_mem _ h)

/-- A write keeps the canonical form. -/
theorem memory_write_wf {m : Memory} (h : m.wf) (a : Nat) (v : Byte) : (m.write a v).wf := by
  induction m with
  | nil => simp [Memory.write, Memory.wf]
  | cons x m ih =>
    obtain ⟨k, b⟩ := x
    have hx := List.pairwise_cons.1 h
    unfold Memory.write
    split
    · refine List.pairwise_cons.2 ⟨?_, h⟩
      intro c hc
      rcases List.mem_cons.1 hc with rfl | hc
      · assumption
      · have := hx.1 c hc
        simp at this ⊢; omega
    · split
      · subst_vars
        exact List.pairwise_cons.2 ⟨hx.1, hx.2⟩
      · refine List.pairwise_cons.2 ⟨?_, ih hx.2⟩
        intro c hc
        rcases memory_write_head_le m a v c hc with rfl | hc
        · simp; omega
        · exact hx.1 c hc

theorem memory_write_bound {m : Memory} {n : Nat} (h : ∀ c ∈ m, c.1 < n) {a : Nat} (ha : a < n) (v : Byte) :
    ∀ c ∈ m.write a v, c.1 < n := by
  intro c hc
  rcases memory_write_head_le m a v c hc with rfl | hc
  · exact ha
  · exact h c hc

/-- In canonical form, no address below the first listed one has a value. -/
theorem memory_read_below {m : Memory} {a : Nat} (h : ∀ c ∈ m, a < c.1) : m.read a = none := by
  induction m with
  | nil => rfl
  | cons x m ih =>
    obtain ⟨k, b⟩ := x
    have := h (k, b) (by simp)
    simp only [Memory.read]
    rw [if_neg (by simp at this; omega)]
    exact ih fun c hc => h c (List.mem_cons_of_mem _ hc)

/-- A byte reads as it was last written (R62). -/
theorem memory_read_write_same (m : Memory) (a : Nat) (v : Byte) : (m.write a v).read a = some v := by
  induction m with
  | nil => simp [Memory.write, Memory.read]
  | cons x m ih =>
    obtain ⟨k, b⟩ := x
    unfold Memory.write
    split
    · simp [Memory.read]
    · split
      · simp [Memory.read]
      · rw [Memory.read, if_neg (by omega)]
        exact ih

/-- A write leaves every other byte alone (R62). -/
theorem memory_read_write_other (m : Memory) {a x : Nat} (v : Byte) (h : x ≠ a) :
    (m.write a v).read x = m.read x := by
  induction m with
  | nil => simp [Memory.write, Memory.read]; omega
  | cons y m ih =>
    obtain ⟨k, b⟩ := y
    unfold Memory.write
    split
    · rw [Memory.read, if_neg (by omega)]
    · split
      · subst_vars
        simp only [Memory.read, if_neg (Ne.symm h)]
      · simp only [Memory.read, ih]

/-! Tables. -/

@[simp] theorem table_at_put_same {α : Type} (t : Table α) (s : Byte) (v : α) : (t.put s v).at s = v := by
  simp [Table.at, Table.put]

theorem table_at_put_other {α : Type} (t : Table α) {s x : Byte} (v : α) (h : x ≠ s) :
    (t.put s v).at x = t.at x := by
  have : s.toNat ≠ x.toNat := fun e => h (BitVec.eq_of_toNat_eq e.symm)
  simp [Table.at, Table.put, this]

theorem table_at_put {α : Type} (t : Table α) (s x : Byte) (v : α) :
    (t.put s v).at x = if x = s then v else t.at x := by
  split
  · subst_vars; simp
  · exact table_at_put_other t v ‹_›

@[simp] theorem table_at_replicate {α : Type} (v : α) (s : Byte) :
    Table.at (Vector.replicate 256 v : Table α) s = v := by
  simp [Table.at]

/-- Two tables with the same entries are equal. -/
theorem table_ext {α : Type} {t u : Table α} (h : ∀ s, t.at s = u.at s) : t = u := by
  apply Vector.ext
  intro i hi
  have := h (BitVec.ofNat 8 i)
  simpa [Table.at, Nat.mod_eq_of_lt hi] using this

theorem mem_allSyms (s : Byte) : s ∈ allSyms := by
  refine List.mem_map.2 ⟨s.toNat, by simpa using s.isLt, ?_⟩
  simp

theorem allSyms_nodup : allSyms.Nodup := by
  refine List.Nodup.map_on ?_ List.nodup_range
  intro a ha b hb h
  have := congrArg BitVec.toNat h
  simp at ha hb this
  omega

@[simp] theorem allSyms_length : allSyms.length = 256 := by simp [allSyms]

end Sys2Proof.Machine
end

