-- ==== Sys2Proof/Laws/State.lean ====
section
/-! SUPPORT. One lemma per field and update: what each named update of the state leaves as it was. All are true by
computation and in the simp set, so that no later proof unfolds a record update. -/

namespace Sys2Proof.Machine

section
variable (s : State)
@[simp] theorem retire_params : (State.retire s).params = s.params := rfl
@[simp] theorem retire_ctrl : (State.retire s).ctrl = s.ctrl := rfl
@[simp] theorem retire_cmd : (State.retire s).cmd = s.cmd := rfl
@[simp] theorem retire_cfg : (State.retire s).cfg = s.cfg := rfl
@[simp] theorem retire_err : (State.retire s).err = s.err := rfl
@[simp] theorem retire_stage : (State.retire s).stage = s.stage := rfl
@[simp] theorem retire_inPos : (State.retire s).inPos = s.inPos := rfl
@[simp] theorem retire_res : (State.retire s).res = s.res := rfl
@[simp] theorem retire_bp : (State.retire s).bp = s.bp := rfl
@[simp] theorem retire_freq : (State.retire s).freq = s.freq := rfl
@[simp] theorem retire_huf : (State.retire s).huf = s.huf := rfl
@[simp] theorem retire_ari : (State.retire s).ari = s.ari := rfl
@[simp] theorem retire_lzw : (State.retire s).lzw = s.lzw := rfl
@[simp] theorem retire_ibuf : (State.retire s).ibuf = s.ibuf := rfl
@[simp] theorem retire_obuf : (State.retire s).obuf = s.obuf := rfl
@[simp] theorem retire_inbox : (State.retire s).inbox = s.inbox := rfl
@[simp] theorem retire_resp : (State.retire s).resp = s.resp := rfl
@[simp] theorem retire_engineWait : (State.retire s).engineWait = s.engineWait := rfl
@[simp] theorem retire_epoch : (State.retire s).epoch = s.epoch := rfl
end

section
variable (s : State)
@[simp] theorem complete_params : (State.complete s).params = s.params := rfl
@[simp] theorem complete_ctrl : (State.complete s).ctrl = s.ctrl := rfl
@[simp] theorem complete_cmd : (State.complete s).cmd = s.cmd := rfl
@[simp] theorem complete_cfg : (State.complete s).cfg = s.cfg := rfl
@[simp] theorem complete_err : (State.complete s).err = s.err := rfl
@[simp] theorem complete_stage : (State.complete s).stage = s.stage := rfl
@[simp] theorem complete_inPos : (State.complete s).inPos = s.inPos := rfl
@[simp] theorem complete_res : (State.complete s).res = s.res := rfl
@[simp] theorem complete_bp : (State.complete s).bp = s.bp := rfl
@[simp] theorem complete_freq : (State.complete s).freq = s.freq := rfl
@[simp] theorem complete_huf : (State.complete s).huf = s.huf := rfl
@[simp] theorem complete_ari : (State.complete s).ari = s.ari := rfl
@[simp] theorem complete_lzw : (State.complete s).lzw = s.lzw := rfl
@[simp] theorem complete_ibuf : (State.complete s).ibuf = s.ibuf := rfl
@[simp] theorem complete_obuf : (State.complete s).obuf = s.obuf := rfl
@[simp] theorem complete_inbox : (State.complete s).inbox = s.inbox := rfl
@[simp] theorem complete_resp : (State.complete s).resp = s.resp := rfl
@[simp] theorem complete_engineWait : (State.complete s).engineWait = s.engineWait := rfl
@[simp] theorem complete_epoch : (State.complete s).epoch = s.epoch := rfl
end

section
variable (s : State) (c : ErrCode) (i : Word)
@[simp] theorem raiseError_params : (State.raiseError s c i).params = s.params := rfl
@[simp] theorem raiseError_ctrl : (State.raiseError s c i).ctrl = s.ctrl := rfl
@[simp] theorem raiseError_cmd : (State.raiseError s c i).cmd = s.cmd := rfl
@[simp] theorem raiseError_cfg : (State.raiseError s c i).cfg = s.cfg := rfl
@[simp] theorem raiseError_stage : (State.raiseError s c i).stage = s.stage := rfl
@[simp] theorem raiseError_inPos : (State.raiseError s c i).inPos = s.inPos := rfl
@[simp] theorem raiseError_res : (State.raiseError s c i).res = s.res := rfl
@[simp] theorem raiseError_bp : (State.raiseError s c i).bp = s.bp := rfl
@[simp] theorem raiseError_freq : (State.raiseError s c i).freq = s.freq := rfl
@[simp] theorem raiseError_huf : (State.raiseError s c i).huf = s.huf := rfl
@[simp] theorem raiseError_ari : (State.raiseError s c i).ari = s.ari := rfl
@[simp] theorem raiseError_lzw : (State.raiseError s c i).lzw = s.lzw := rfl
@[simp] theorem raiseError_ibuf : (State.raiseError s c i).ibuf = s.ibuf := rfl
@[simp] theorem raiseError_obuf : (State.raiseError s c i).obuf = s.obuf := rfl
@[simp] theorem raiseError_inbox : (State.raiseError s c i).inbox = s.inbox := rfl
@[simp] theorem raiseError_resp : (State.raiseError s c i).resp = s.resp := rfl
@[simp] theorem raiseError_engineWait : (State.raiseError s c i).engineWait = s.engineWait := rfl
@[simp] theorem raiseError_epoch : (State.raiseError s c i).epoch = s.epoch := rfl
end

section
variable (s : State) (w : Word)
@[simp] theorem accept_params : (State.accept s w).params = s.params := rfl
@[simp] theorem accept_ctrl : (State.accept s w).ctrl = s.ctrl := rfl
@[simp] theorem accept_cfg : (State.accept s w).cfg = s.cfg := rfl
@[simp] theorem accept_err : (State.accept s w).err = s.err := rfl
@[simp] theorem accept_stage : (State.accept s w).stage = s.stage := rfl
@[simp] theorem accept_inPos : (State.accept s w).inPos = s.inPos := rfl
@[simp] theorem accept_res : (State.accept s w).res = s.res := rfl
@[simp] theorem accept_bp : (State.accept s w).bp = s.bp := rfl
@[simp] theorem accept_freq : (State.accept s w).freq = s.freq := rfl
@[simp] theorem accept_huf : (State.accept s w).huf = s.huf := rfl
@[simp] theorem accept_ari : (State.accept s w).ari = s.ari := rfl
@[simp] theorem accept_lzw : (State.accept s w).lzw = s.lzw := rfl
@[simp] theorem accept_ibuf : (State.accept s w).ibuf = s.ibuf := rfl
@[simp] theorem accept_obuf : (State.accept s w).obuf = s.obuf := rfl
@[simp] theorem accept_inbox : (State.accept s w).inbox = s.inbox := rfl
@[simp] theorem accept_resp : (State.accept s w).resp = s.resp := rfl
@[simp] theorem accept_epoch : (State.accept s w).epoch = s.epoch := rfl
end

section
variable (s : State)
@[simp] theorem clearErrors_params : (State.clearErrors s).params = s.params := rfl
@[simp] theorem clearErrors_ctrl : (State.clearErrors s).ctrl = s.ctrl := rfl
@[simp] theorem clearErrors_cmd : (State.clearErrors s).cmd = s.cmd := rfl
@[simp] theorem clearErrors_cfg : (State.clearErrors s).cfg = s.cfg := rfl
@[simp] theorem clearErrors_cycles : (State.clearErrors s).cycles = s.cycles := rfl
@[simp] theorem clearErrors_stage : (State.clearErrors s).stage = s.stage := rfl
@[simp] theorem clearErrors_inPos : (State.clearErrors s).inPos = s.inPos := rfl
@[simp] theorem clearErrors_res : (State.clearErrors s).res = s.res := rfl
@[simp] theorem clearErrors_bp : (State.clearErrors s).bp = s.bp := rfl
@[simp] theorem clearErrors_freq : (State.clearErrors s).freq = s.freq := rfl
@[simp] theorem clearErrors_huf : (State.clearErrors s).huf = s.huf := rfl
@[simp] theorem clearErrors_ari : (State.clearErrors s).ari = s.ari := rfl
@[simp] theorem clearErrors_lzw : (State.clearErrors s).lzw = s.lzw := rfl
@[simp] theorem clearErrors_ibuf : (State.clearErrors s).ibuf = s.ibuf := rfl
@[simp] theorem clearErrors_obuf : (State.clearErrors s).obuf = s.obuf := rfl
@[simp] theorem clearErrors_inbox : (State.clearErrors s).inbox = s.inbox := rfl
@[simp] theorem clearErrors_resp : (State.clearErrors s).resp = s.resp := rfl
@[simp] theorem clearErrors_engineWait : (State.clearErrors s).engineWait = s.engineWait := rfl
@[simp] theorem clearErrors_draws : (State.clearErrors s).draws = s.draws := rfl
@[simp] theorem clearErrors_epoch : (State.clearErrors s).epoch = s.epoch := rfl
end

section
variable (s : State) (w : Word)
@[simp] theorem writeStatus_params : (State.writeStatus s w).params = s.params := rfl
@[simp] theorem writeStatus_ctrl : (State.writeStatus s w).ctrl = s.ctrl := rfl
@[simp] theorem writeStatus_cmd : (State.writeStatus s w).cmd = s.cmd := rfl
@[simp] theorem writeStatus_cfg : (State.writeStatus s w).cfg = s.cfg := rfl
@[simp] theorem writeStatus_err : (State.writeStatus s w).err = s.err := rfl
@[simp] theorem writeStatus_cycles : (State.writeStatus s w).cycles = s.cycles := rfl
@[simp] theorem writeStatus_stage : (State.writeStatus s w).stage = s.stage := rfl
@[simp] theorem writeStatus_inPos : (State.writeStatus s w).inPos = s.inPos := rfl
@[simp] theorem writeStatus_res : (State.writeStatus s w).res = s.res := rfl
@[simp] theorem writeStatus_bp : (State.writeStatus s w).bp = s.bp := rfl
@[simp] theorem writeStatus_freq : (State.writeStatus s w).freq = s.freq := rfl
@[simp] theorem writeStatus_huf : (State.writeStatus s w).huf = s.huf := rfl
@[simp] theorem writeStatus_ari : (State.writeStatus s w).ari = s.ari := rfl
@[simp] theorem writeStatus_lzw : (State.writeStatus s w).lzw = s.lzw := rfl
@[simp] theorem writeStatus_ibuf : (State.writeStatus s w).ibuf = s.ibuf := rfl
@[simp] theorem writeStatus_obuf : (State.writeStatus s w).obuf = s.obuf := rfl
@[simp] theorem writeStatus_inbox : (State.writeStatus s w).inbox = s.inbox := rfl
@[simp] theorem writeStatus_resp : (State.writeStatus s w).resp = s.resp := rfl
@[simp] theorem writeStatus_engineWait : (State.writeStatus s w).engineWait = s.engineWait := rfl
@[simp] theorem writeStatus_draws : (State.writeStatus s w).draws = s.draws := rfl
@[simp] theorem writeStatus_epoch : (State.writeStatus s w).epoch = s.epoch := rfl
end

section
variable (s : State)
@[simp] theorem clearFreq_params : (clearFreq s).params = s.params := rfl
@[simp] theorem clearFreq_ctrl : (clearFreq s).ctrl = s.ctrl := rfl
@[simp] theorem clearFreq_status : (clearFreq s).status = s.status := rfl
@[simp] theorem clearFreq_cmd : (clearFreq s).cmd = s.cmd := rfl
@[simp] theorem clearFreq_cfg : (clearFreq s).cfg = s.cfg := rfl
@[simp] theorem clearFreq_err : (clearFreq s).err = s.err := rfl
@[simp] theorem clearFreq_cycles : (clearFreq s).cycles = s.cycles := rfl
@[simp] theorem clearFreq_stage : (clearFreq s).stage = s.stage := rfl
@[simp] theorem clearFreq_inPos : (clearFreq s).inPos = s.inPos := rfl
@[simp] theorem clearFreq_res : (clearFreq s).res = s.res := rfl
@[simp] theorem clearFreq_bp : (clearFreq s).bp = s.bp := rfl
@[simp] theorem clearFreq_huf : (clearFreq s).huf = s.huf := rfl
@[simp] theorem clearFreq_ari : (clearFreq s).ari = s.ari := rfl
@[simp] theorem clearFreq_lzw : (clearFreq s).lzw = s.lzw := rfl
@[simp] theorem clearFreq_ibuf : (clearFreq s).ibuf = s.ibuf := rfl
@[simp] theorem clearFreq_obuf : (clearFreq s).obuf = s.obuf := rfl
@[simp] theorem clearFreq_inbox : (clearFreq s).inbox = s.inbox := rfl
@[simp] theorem clearFreq_resp : (clearFreq s).resp = s.resp := rfl
@[simp] theorem clearFreq_engineWait : (clearFreq s).engineWait = s.engineWait := rfl
@[simp] theorem clearFreq_draws : (clearFreq s).draws = s.draws := rfl
@[simp] theorem clearFreq_epoch : (clearFreq s).epoch = s.epoch := rfl
end

section
variable (s : State)
@[simp] theorem closeFreq_params : (closeFreq s).params = s.params := rfl
@[simp] theorem closeFreq_ctrl : (closeFreq s).ctrl = s.ctrl := rfl
@[simp] theorem closeFreq_status : (closeFreq s).status = s.status := rfl
@[simp] theorem closeFreq_cmd : (closeFreq s).cmd = s.cmd := rfl
@[simp] theorem closeFreq_cfg : (closeFreq s).cfg = s.cfg := rfl
@[simp] theorem closeFreq_err : (closeFreq s).err = s.err := rfl
@[simp] theorem closeFreq_cycles : (closeFreq s).cycles = s.cycles := rfl
@[simp] theorem closeFreq_inPos : (closeFreq s).inPos = s.inPos := rfl
@[simp] theorem closeFreq_res : (closeFreq s).res = s.res := rfl
@[simp] theorem closeFreq_bp : (closeFreq s).bp = s.bp := rfl
@[simp] theorem closeFreq_huf : (closeFreq s).huf = s.huf := rfl
@[simp] theorem closeFreq_ari : (closeFreq s).ari = s.ari := rfl
@[simp] theorem closeFreq_lzw : (closeFreq s).lzw = s.lzw := rfl
@[simp] theorem closeFreq_ibuf : (closeFreq s).ibuf = s.ibuf := rfl
@[simp] theorem closeFreq_obuf : (closeFreq s).obuf = s.obuf := rfl
@[simp] theorem closeFreq_inbox : (closeFreq s).inbox = s.inbox := rfl
@[simp] theorem closeFreq_resp : (closeFreq s).resp = s.resp := rfl
@[simp] theorem closeFreq_engineWait : (closeFreq s).engineWait = s.engineWait := rfl
@[simp] theorem closeFreq_draws : (closeFreq s).draws = s.draws := rfl
@[simp] theorem closeFreq_epoch : (closeFreq s).epoch = s.epoch := rfl
end

section
variable (s : State)
@[simp] theorem clearStream_params : (clearStream s).params = s.params := rfl
@[simp] theorem clearStream_ctrl : (clearStream s).ctrl = s.ctrl := rfl
@[simp] theorem clearStream_status : (clearStream s).status = s.status := rfl
@[simp] theorem clearStream_cmd : (clearStream s).cmd = s.cmd := rfl
@[simp] theorem clearStream_cfg : (clearStream s).cfg = s.cfg := rfl
@[simp] theorem clearStream_err : (clearStream s).err = s.err := rfl
@[simp] theorem clearStream_cycles : (clearStream s).cycles = s.cycles := rfl
@[simp] theorem clearStream_stage : (clearStream s).stage = s.stage := rfl
@[simp] theorem clearStream_inPos : (clearStream s).inPos = s.inPos := rfl
@[simp] theorem clearStream_res : (clearStream s).res = s.res := rfl
@[simp] theorem clearStream_freq : (clearStream s).freq = s.freq := rfl
@[simp] theorem clearStream_huf : (clearStream s).huf = s.huf := rfl
@[simp] theorem clearStream_ari : (clearStream s).ari = s.ari := rfl
@[simp] theorem clearStream_lzw : (clearStream s).lzw = s.lzw := rfl
@[simp] theorem clearStream_ibuf : (clearStream s).ibuf = s.ibuf := rfl
@[simp] theorem clearStream_obuf : (clearStream s).obuf = s.obuf := rfl
@[simp] theorem clearStream_inbox : (clearStream s).inbox = s.inbox := rfl
@[simp] theorem clearStream_resp : (clearStream s).resp = s.resp := rfl
@[simp] theorem clearStream_engineWait : (clearStream s).engineWait = s.engineWait := rfl
@[simp] theorem clearStream_draws : (clearStream s).draws = s.draws := rfl
@[simp] theorem clearStream_epoch : (clearStream s).epoch = s.epoch := rfl
end

section
variable (s : State)
@[simp] theorem plantLeaves_params : (plantLeaves s).params = s.params := rfl
@[simp] theorem plantLeaves_ctrl : (plantLeaves s).ctrl = s.ctrl := rfl
@[simp] theorem plantLeaves_status : (plantLeaves s).status = s.status := rfl
@[simp] theorem plantLeaves_cmd : (plantLeaves s).cmd = s.cmd := rfl
@[simp] theorem plantLeaves_cfg : (plantLeaves s).cfg = s.cfg := rfl
@[simp] theorem plantLeaves_err : (plantLeaves s).err = s.err := rfl
@[simp] theorem plantLeaves_cycles : (plantLeaves s).cycles = s.cycles := rfl
@[simp] theorem plantLeaves_inPos : (plantLeaves s).inPos = s.inPos := rfl
@[simp] theorem plantLeaves_res : (plantLeaves s).res = s.res := rfl
@[simp] theorem plantLeaves_bp : (plantLeaves s).bp = s.bp := rfl
@[simp] theorem plantLeaves_freq : (plantLeaves s).freq = s.freq := rfl
@[simp] theorem plantLeaves_ari : (plantLeaves s).ari = s.ari := rfl
@[simp] theorem plantLeaves_lzw : (plantLeaves s).lzw = s.lzw := rfl
@[simp] theorem plantLeaves_ibuf : (plantLeaves s).ibuf = s.ibuf := rfl
@[simp] theorem plantLeaves_obuf : (plantLeaves s).obuf = s.obuf := rfl
@[simp] theorem plantLeaves_inbox : (plantLeaves s).inbox = s.inbox := rfl
@[simp] theorem plantLeaves_resp : (plantLeaves s).resp = s.resp := rfl
@[simp] theorem plantLeaves_engineWait : (plantLeaves s).engineWait = s.engineWait := rfl
@[simp] theorem plantLeaves_draws : (plantLeaves s).draws = s.draws := rfl
@[simp] theorem plantLeaves_epoch : (plantLeaves s).epoch = s.epoch := rfl
end

section
variable (s : State)
@[simp] theorem extractCodes_params : (extractCodes s).params = s.params := rfl
@[simp] theorem extractCodes_ctrl : (extractCodes s).ctrl = s.ctrl := rfl
@[simp] theorem extractCodes_status : (extractCodes s).status = s.status := rfl
@[simp] theorem extractCodes_cmd : (extractCodes s).cmd = s.cmd := rfl
@[simp] theorem extractCodes_cfg : (extractCodes s).cfg = s.cfg := rfl
@[simp] theorem extractCodes_err : (extractCodes s).err = s.err := rfl
@[simp] theorem extractCodes_cycles : (extractCodes s).cycles = s.cycles := rfl
@[simp] theorem extractCodes_inPos : (extractCodes s).inPos = s.inPos := rfl
@[simp] theorem extractCodes_res : (extractCodes s).res = s.res := rfl
@[simp] theorem extractCodes_bp : (extractCodes s).bp = s.bp := rfl
@[simp] theorem extractCodes_freq : (extractCodes s).freq = s.freq := rfl
@[simp] theorem extractCodes_ari : (extractCodes s).ari = s.ari := rfl
@[simp] theorem extractCodes_lzw : (extractCodes s).lzw = s.lzw := rfl
@[simp] theorem extractCodes_ibuf : (extractCodes s).ibuf = s.ibuf := rfl
@[simp] theorem extractCodes_obuf : (extractCodes s).obuf = s.obuf := rfl
@[simp] theorem extractCodes_inbox : (extractCodes s).inbox = s.inbox := rfl
@[simp] theorem extractCodes_resp : (extractCodes s).resp = s.resp := rfl
@[simp] theorem extractCodes_engineWait : (extractCodes s).engineWait = s.engineWait := rfl
@[simp] theorem extractCodes_draws : (extractCodes s).draws = s.draws := rfl
@[simp] theorem extractCodes_epoch : (extractCodes s).epoch = s.epoch := rfl
end

section
variable (s : State)
@[simp] theorem renumberCodes_params : (renumberCodes s).params = s.params := rfl
@[simp] theorem renumberCodes_ctrl : (renumberCodes s).ctrl = s.ctrl := rfl
@[simp] theorem renumberCodes_status : (renumberCodes s).status = s.status := rfl
@[simp] theorem renumberCodes_cmd : (renumberCodes s).cmd = s.cmd := rfl
@[simp] theorem renumberCodes_cfg : (renumberCodes s).cfg = s.cfg := rfl
@[simp] theorem renumberCodes_err : (renumberCodes s).err = s.err := rfl
@[simp] theorem renumberCodes_cycles : (renumberCodes s).cycles = s.cycles := rfl
@[simp] theorem renumberCodes_inPos : (renumberCodes s).inPos = s.inPos := rfl
@[simp] theorem renumberCodes_res : (renumberCodes s).res = s.res := rfl
@[simp] theorem renumberCodes_bp : (renumberCodes s).bp = s.bp := rfl
@[simp] theorem renumberCodes_freq : (renumberCodes s).freq = s.freq := rfl
@[simp] theorem renumberCodes_ari : (renumberCodes s).ari = s.ari := rfl
@[simp] theorem renumberCodes_lzw : (renumberCodes s).lzw = s.lzw := rfl
@[simp] theorem renumberCodes_ibuf : (renumberCodes s).ibuf = s.ibuf := rfl
@[simp] theorem renumberCodes_obuf : (renumberCodes s).obuf = s.obuf := rfl
@[simp] theorem renumberCodes_inbox : (renumberCodes s).inbox = s.inbox := rfl
@[simp] theorem renumberCodes_resp : (renumberCodes s).resp = s.resp := rfl
@[simp] theorem renumberCodes_engineWait : (renumberCodes s).engineWait = s.engineWait := rfl
@[simp] theorem renumberCodes_draws : (renumberCodes s).draws = s.draws := rfl
@[simp] theorem renumberCodes_epoch : (renumberCodes s).epoch = s.epoch := rfl
end

section
variable (s : State)
@[simp] theorem buildIntervals_params : (buildIntervals s).params = s.params := rfl
@[simp] theorem buildIntervals_ctrl : (buildIntervals s).ctrl = s.ctrl := rfl
@[simp] theorem buildIntervals_status : (buildIntervals s).status = s.status := rfl
@[simp] theorem buildIntervals_cmd : (buildIntervals s).cmd = s.cmd := rfl
@[simp] theorem buildIntervals_cfg : (buildIntervals s).cfg = s.cfg := rfl
@[simp] theorem buildIntervals_err : (buildIntervals s).err = s.err := rfl
@[simp] theorem buildIntervals_cycles : (buildIntervals s).cycles = s.cycles := rfl
@[simp] theorem buildIntervals_inPos : (buildIntervals s).inPos = s.inPos := rfl
@[simp] theorem buildIntervals_res : (buildIntervals s).res = s.res := rfl
@[simp] theorem buildIntervals_bp : (buildIntervals s).bp = s.bp := rfl
@[simp] theorem buildIntervals_freq : (buildIntervals s).freq = s.freq := rfl
@[simp] theorem buildIntervals_huf : (buildIntervals s).huf = s.huf := rfl
@[simp] theorem buildIntervals_lzw : (buildIntervals s).lzw = s.lzw := rfl
@[simp] theorem buildIntervals_ibuf : (buildIntervals s).ibuf = s.ibuf := rfl
@[simp] theorem buildIntervals_obuf : (buildIntervals s).obuf = s.obuf := rfl
@[simp] theorem buildIntervals_inbox : (buildIntervals s).inbox = s.inbox := rfl
@[simp] theorem buildIntervals_resp : (buildIntervals s).resp = s.resp := rfl
@[simp] theorem buildIntervals_engineWait : (buildIntervals s).engineWait = s.engineWait := rfl
@[simp] theorem buildIntervals_draws : (buildIntervals s).draws = s.draws := rfl
@[simp] theorem buildIntervals_epoch : (buildIntervals s).epoch = s.epoch := rfl
end

section
variable (s : State)
@[simp] theorem openInterval_params : (openInterval s).params = s.params := rfl
@[simp] theorem openInterval_ctrl : (openInterval s).ctrl = s.ctrl := rfl
@[simp] theorem openInterval_status : (openInterval s).status = s.status := rfl
@[simp] theorem openInterval_cmd : (openInterval s).cmd = s.cmd := rfl
@[simp] theorem openInterval_cfg : (openInterval s).cfg = s.cfg := rfl
@[simp] theorem openInterval_err : (openInterval s).err = s.err := rfl
@[simp] theorem openInterval_cycles : (openInterval s).cycles = s.cycles := rfl
@[simp] theorem openInterval_inPos : (openInterval s).inPos = s.inPos := rfl
@[simp] theorem openInterval_res : (openInterval s).res = s.res := rfl
@[simp] theorem openInterval_bp : (openInterval s).bp = s.bp := rfl
@[simp] theorem openInterval_freq : (openInterval s).freq = s.freq := rfl
@[simp] theorem openInterval_huf : (openInterval s).huf = s.huf := rfl
@[simp] theorem openInterval_lzw : (openInterval s).lzw = s.lzw := rfl
@[simp] theorem openInterval_ibuf : (openInterval s).ibuf = s.ibuf := rfl
@[simp] theorem openInterval_obuf : (openInterval s).obuf = s.obuf := rfl
@[simp] theorem openInterval_inbox : (openInterval s).inbox = s.inbox := rfl
@[simp] theorem openInterval_resp : (openInterval s).resp = s.resp := rfl
@[simp] theorem openInterval_engineWait : (openInterval s).engineWait = s.engineWait := rfl
@[simp] theorem openInterval_draws : (openInterval s).draws = s.draws := rfl
@[simp] theorem openInterval_epoch : (openInterval s).epoch = s.epoch := rfl
end

section
variable (s : State) (b : Byte)
@[simp] theorem narrowBy_params : (narrowBy s b).params = s.params := rfl
@[simp] theorem narrowBy_ctrl : (narrowBy s b).ctrl = s.ctrl := rfl
@[simp] theorem narrowBy_status : (narrowBy s b).status = s.status := rfl
@[simp] theorem narrowBy_cmd : (narrowBy s b).cmd = s.cmd := rfl
@[simp] theorem narrowBy_cfg : (narrowBy s b).cfg = s.cfg := rfl
@[simp] theorem narrowBy_err : (narrowBy s b).err = s.err := rfl
@[simp] theorem narrowBy_cycles : (narrowBy s b).cycles = s.cycles := rfl
@[simp] theorem narrowBy_stage : (narrowBy s b).stage = s.stage := rfl
@[simp] theorem narrowBy_inPos : (narrowBy s b).inPos = s.inPos := rfl
@[simp] theorem narrowBy_res : (narrowBy s b).res = s.res := rfl
@[simp] theorem narrowBy_bp : (narrowBy s b).bp = s.bp := rfl
@[simp] theorem narrowBy_freq : (narrowBy s b).freq = s.freq := rfl
@[simp] theorem narrowBy_huf : (narrowBy s b).huf = s.huf := rfl
@[simp] theorem narrowBy_lzw : (narrowBy s b).lzw = s.lzw := rfl
@[simp] theorem narrowBy_ibuf : (narrowBy s b).ibuf = s.ibuf := rfl
@[simp] theorem narrowBy_obuf : (narrowBy s b).obuf = s.obuf := rfl
@[simp] theorem narrowBy_inbox : (narrowBy s b).inbox = s.inbox := rfl
@[simp] theorem narrowBy_resp : (narrowBy s b).resp = s.resp := rfl
@[simp] theorem narrowBy_engineWait : (narrowBy s b).engineWait = s.engineWait := rfl
@[simp] theorem narrowBy_epoch : (narrowBy s b).epoch = s.epoch := rfl
end

section
variable (s : State)
@[simp] theorem seedDict_params : (seedDict s).params = s.params := rfl
@[simp] theorem seedDict_ctrl : (seedDict s).ctrl = s.ctrl := rfl
@[simp] theorem seedDict_status : (seedDict s).status = s.status := rfl
@[simp] theorem seedDict_cmd : (seedDict s).cmd = s.cmd := rfl
@[simp] theorem seedDict_cfg : (seedDict s).cfg = s.cfg := rfl
@[simp] theorem seedDict_err : (seedDict s).err = s.err := rfl
@[simp] theorem seedDict_cycles : (seedDict s).cycles = s.cycles := rfl
@[simp] theorem seedDict_inPos : (seedDict s).inPos = s.inPos := rfl
@[simp] theorem seedDict_res : (seedDict s).res = s.res := rfl
@[simp] theorem seedDict_bp : (seedDict s).bp = s.bp := rfl
@[simp] theorem seedDict_freq : (seedDict s).freq = s.freq := rfl
@[simp] theorem seedDict_huf : (seedDict s).huf = s.huf := rfl
@[simp] theorem seedDict_ari : (seedDict s).ari = s.ari := rfl
@[simp] theorem seedDict_ibuf : (seedDict s).ibuf = s.ibuf := rfl
@[simp] theorem seedDict_obuf : (seedDict s).obuf = s.obuf := rfl
@[simp] theorem seedDict_inbox : (seedDict s).inbox = s.inbox := rfl
@[simp] theorem seedDict_resp : (seedDict s).resp = s.resp := rfl
@[simp] theorem seedDict_engineWait : (seedDict s).engineWait = s.engineWait := rfl
@[simp] theorem seedDict_draws : (seedDict s).draws = s.draws := rfl
@[simp] theorem seedDict_epoch : (seedDict s).epoch = s.epoch := rfl
end

section
variable (s : State) (c : BitVec 17)
@[simp] theorem setCur_params : (setCur s c).params = s.params := rfl
@[simp] theorem setCur_ctrl : (setCur s c).ctrl = s.ctrl := rfl
@[simp] theorem setCur_status : (setCur s c).status = s.status := rfl
@[simp] theorem setCur_cmd : (setCur s c).cmd = s.cmd := rfl
@[simp] theorem setCur_cfg : (setCur s c).cfg = s.cfg := rfl
@[simp] theorem setCur_err : (setCur s c).err = s.err := rfl
@[simp] theorem setCur_cycles : (setCur s c).cycles = s.cycles := rfl
@[simp] theorem setCur_inPos : (setCur s c).inPos = s.inPos := rfl
@[simp] theorem setCur_res : (setCur s c).res = s.res := rfl
@[simp] theorem setCur_bp : (setCur s c).bp = s.bp := rfl
@[simp] theorem setCur_freq : (setCur s c).freq = s.freq := rfl
@[simp] theorem setCur_huf : (setCur s c).huf = s.huf := rfl
@[simp] theorem setCur_ari : (setCur s c).ari = s.ari := rfl
@[simp] theorem setCur_ibuf : (setCur s c).ibuf = s.ibuf := rfl
@[simp] theorem setCur_obuf : (setCur s c).obuf = s.obuf := rfl
@[simp] theorem setCur_inbox : (setCur s c).inbox = s.inbox := rfl
@[simp] theorem setCur_resp : (setCur s c).resp = s.resp := rfl
@[simp] theorem setCur_engineWait : (setCur s c).engineWait = s.engineWait := rfl
@[simp] theorem setCur_draws : (setCur s c).draws = s.draws := rfl
@[simp] theorem setCur_epoch : (setCur s c).epoch = s.epoch := rfl
end

section
variable (s : State)
@[simp] theorem countCode_params : (countCode s).params = s.params := rfl
@[simp] theorem countCode_ctrl : (countCode s).ctrl = s.ctrl := rfl
@[simp] theorem countCode_status : (countCode s).status = s.status := rfl
@[simp] theorem countCode_cmd : (countCode s).cmd = s.cmd := rfl
@[simp] theorem countCode_cfg : (countCode s).cfg = s.cfg := rfl
@[simp] theorem countCode_err : (countCode s).err = s.err := rfl
@[simp] theorem countCode_cycles : (countCode s).cycles = s.cycles := rfl
@[simp] theorem countCode_stage : (countCode s).stage = s.stage := rfl
@[simp] theorem countCode_inPos : (countCode s).inPos = s.inPos := rfl
@[simp] theorem countCode_res : (countCode s).res = s.res := rfl
@[simp] theorem countCode_bp : (countCode s).bp = s.bp := rfl
@[simp] theorem countCode_freq : (countCode s).freq = s.freq := rfl
@[simp] theorem countCode_huf : (countCode s).huf = s.huf := rfl
@[simp] theorem countCode_ari : (countCode s).ari = s.ari := rfl
@[simp] theorem countCode_ibuf : (countCode s).ibuf = s.ibuf := rfl
@[simp] theorem countCode_obuf : (countCode s).obuf = s.obuf := rfl
@[simp] theorem countCode_inbox : (countCode s).inbox = s.inbox := rfl
@[simp] theorem countCode_resp : (countCode s).resp = s.resp := rfl
@[simp] theorem countCode_engineWait : (countCode s).engineWait = s.engineWait := rfl
@[simp] theorem countCode_epoch : (countCode s).epoch = s.epoch := rfl
end

section
variable (s : State) (b : Byte)
@[simp] theorem restartAt_params : (restartAt s b).params = s.params := rfl
@[simp] theorem restartAt_ctrl : (restartAt s b).ctrl = s.ctrl := rfl
@[simp] theorem restartAt_status : (restartAt s b).status = s.status := rfl
@[simp] theorem restartAt_cmd : (restartAt s b).cmd = s.cmd := rfl
@[simp] theorem restartAt_cfg : (restartAt s b).cfg = s.cfg := rfl
@[simp] theorem restartAt_err : (restartAt s b).err = s.err := rfl
@[simp] theorem restartAt_cycles : (restartAt s b).cycles = s.cycles := rfl
@[simp] theorem restartAt_inPos : (restartAt s b).inPos = s.inPos := rfl
@[simp] theorem restartAt_res : (restartAt s b).res = s.res := rfl
@[simp] theorem restartAt_bp : (restartAt s b).bp = s.bp := rfl
@[simp] theorem restartAt_freq : (restartAt s b).freq = s.freq := rfl
@[simp] theorem restartAt_huf : (restartAt s b).huf = s.huf := rfl
@[simp] theorem restartAt_ari : (restartAt s b).ari = s.ari := rfl
@[simp] theorem restartAt_ibuf : (restartAt s b).ibuf = s.ibuf := rfl
@[simp] theorem restartAt_obuf : (restartAt s b).obuf = s.obuf := rfl
@[simp] theorem restartAt_inbox : (restartAt s b).inbox = s.inbox := rfl
@[simp] theorem restartAt_resp : (restartAt s b).resp = s.resp := rfl
@[simp] theorem restartAt_engineWait : (restartAt s b).engineWait = s.engineWait := rfl
@[simp] theorem restartAt_epoch : (restartAt s b).epoch = s.epoch := rfl
end

section
variable (s : State)
@[simp] theorem emptyMatch_params : (emptyMatch s).params = s.params := rfl
@[simp] theorem emptyMatch_ctrl : (emptyMatch s).ctrl = s.ctrl := rfl
@[simp] theorem emptyMatch_status : (emptyMatch s).status = s.status := rfl
@[simp] theorem emptyMatch_cmd : (emptyMatch s).cmd = s.cmd := rfl
@[simp] theorem emptyMatch_cfg : (emptyMatch s).cfg = s.cfg := rfl
@[simp] theorem emptyMatch_err : (emptyMatch s).err = s.err := rfl
@[simp] theorem emptyMatch_cycles : (emptyMatch s).cycles = s.cycles := rfl
@[simp] theorem emptyMatch_stage : (emptyMatch s).stage = s.stage := rfl
@[simp] theorem emptyMatch_inPos : (emptyMatch s).inPos = s.inPos := rfl
@[simp] theorem emptyMatch_res : (emptyMatch s).res = s.res := rfl
@[simp] theorem emptyMatch_bp : (emptyMatch s).bp = s.bp := rfl
@[simp] theorem emptyMatch_freq : (emptyMatch s).freq = s.freq := rfl
@[simp] theorem emptyMatch_huf : (emptyMatch s).huf = s.huf := rfl
@[simp] theorem emptyMatch_ari : (emptyMatch s).ari = s.ari := rfl
@[simp] theorem emptyMatch_ibuf : (emptyMatch s).ibuf = s.ibuf := rfl
@[simp] theorem emptyMatch_obuf : (emptyMatch s).obuf = s.obuf := rfl
@[simp] theorem emptyMatch_inbox : (emptyMatch s).inbox = s.inbox := rfl
@[simp] theorem emptyMatch_resp : (emptyMatch s).resp = s.resp := rfl
@[simp] theorem emptyMatch_engineWait : (emptyMatch s).engineWait = s.engineWait := rfl
@[simp] theorem emptyMatch_epoch : (emptyMatch s).epoch = s.epoch := rfl
end

section
variable (s : State)
@[simp] theorem latchResult_params : (latchResult s).params = s.params := rfl
@[simp] theorem latchResult_ctrl : (latchResult s).ctrl = s.ctrl := rfl
@[simp] theorem latchResult_status : (latchResult s).status = s.status := rfl
@[simp] theorem latchResult_cmd : (latchResult s).cmd = s.cmd := rfl
@[simp] theorem latchResult_cfg : (latchResult s).cfg = s.cfg := rfl
@[simp] theorem latchResult_err : (latchResult s).err = s.err := rfl
@[simp] theorem latchResult_cycles : (latchResult s).cycles = s.cycles := rfl
@[simp] theorem latchResult_stage : (latchResult s).stage = s.stage := rfl
@[simp] theorem latchResult_inPos : (latchResult s).inPos = s.inPos := rfl
@[simp] theorem latchResult_bp : (latchResult s).bp = s.bp := rfl
@[simp] theorem latchResult_freq : (latchResult s).freq = s.freq := rfl
@[simp] theorem latchResult_huf : (latchResult s).huf = s.huf := rfl
@[simp] theorem latchResult_ari : (latchResult s).ari = s.ari := rfl
@[simp] theorem latchResult_lzw : (latchResult s).lzw = s.lzw := rfl
@[simp] theorem latchResult_ibuf : (latchResult s).ibuf = s.ibuf := rfl
@[simp] theorem latchResult_obuf : (latchResult s).obuf = s.obuf := rfl
@[simp] theorem latchResult_inbox : (latchResult s).inbox = s.inbox := rfl
@[simp] theorem latchResult_resp : (latchResult s).resp = s.resp := rfl
@[simp] theorem latchResult_engineWait : (latchResult s).engineWait = s.engineWait := rfl
@[simp] theorem latchResult_draws : (latchResult s).draws = s.draws := rfl
@[simp] theorem latchResult_epoch : (latchResult s).epoch = s.epoch := rfl
end

section
variable (s : State)
@[simp] theorem softReset_params : (softReset s).params = s.params := rfl
@[simp] theorem softReset_ctrl : (softReset s).ctrl = s.ctrl := rfl
@[simp] theorem softReset_cmd : (softReset s).cmd = s.cmd := rfl
@[simp] theorem softReset_cfg : (softReset s).cfg = s.cfg := rfl
@[simp] theorem softReset_cycles : (softReset s).cycles = s.cycles := rfl
@[simp] theorem softReset_ibuf : (softReset s).ibuf = s.ibuf := rfl
@[simp] theorem softReset_obuf : (softReset s).obuf = s.obuf := rfl
@[simp] theorem softReset_inbox : (softReset s).inbox = s.inbox := rfl
@[simp] theorem softReset_resp : (softReset s).resp = s.resp := rfl
@[simp] theorem softReset_engineWait : (softReset s).engineWait = s.engineWait := rfl
@[simp] theorem softReset_draws : (softReset s).draws = s.draws := rfl
@[simp] theorem softReset_epoch : (softReset s).epoch = s.epoch := rfl
end

section
variable (s : State) (l : List HostEvent)
@[simp] theorem takeEvent_params : (takeEvent s l).params = s.params := rfl
@[simp] theorem takeEvent_ctrl : (takeEvent s l).ctrl = s.ctrl := rfl
@[simp] theorem takeEvent_status : (takeEvent s l).status = s.status := rfl
@[simp] theorem takeEvent_cmd : (takeEvent s l).cmd = s.cmd := rfl
@[simp] theorem takeEvent_cfg : (takeEvent s l).cfg = s.cfg := rfl
@[simp] theorem takeEvent_err : (takeEvent s l).err = s.err := rfl
@[simp] theorem takeEvent_cycles : (takeEvent s l).cycles = s.cycles := rfl
@[simp] theorem takeEvent_stage : (takeEvent s l).stage = s.stage := rfl
@[simp] theorem takeEvent_inPos : (takeEvent s l).inPos = s.inPos := rfl
@[simp] theorem takeEvent_res : (takeEvent s l).res = s.res := rfl
@[simp] theorem takeEvent_bp : (takeEvent s l).bp = s.bp := rfl
@[simp] theorem takeEvent_freq : (takeEvent s l).freq = s.freq := rfl
@[simp] theorem takeEvent_huf : (takeEvent s l).huf = s.huf := rfl
@[simp] theorem takeEvent_ari : (takeEvent s l).ari = s.ari := rfl
@[simp] theorem takeEvent_lzw : (takeEvent s l).lzw = s.lzw := rfl
@[simp] theorem takeEvent_ibuf : (takeEvent s l).ibuf = s.ibuf := rfl
@[simp] theorem takeEvent_obuf : (takeEvent s l).obuf = s.obuf := rfl
@[simp] theorem takeEvent_resp : (takeEvent s l).resp = s.resp := rfl
@[simp] theorem takeEvent_draws : (takeEvent s l).draws = s.draws := rfl
@[simp] theorem takeEvent_epoch : (takeEvent s l).epoch = s.epoch := rfl
end

/-! What the completing updates write (R75, R122). -/
section
variable (s : State) (c : ErrCode) (i w : Word)
@[simp] theorem retire_status : s.retire.status = { s.status with busy := false, done := true } := rfl
@[simp] theorem complete_status : s.complete.status = { s.status with busy := false, done := true } := rfl
@[simp] theorem raiseError_status :
    (s.raiseError c i).status = { s.status with busy := false, done := true, err := true } := rfl
@[simp] theorem raiseError_err : (s.raiseError c i).err = ⟨c, i, s.cmd⟩ := rfl
@[simp] theorem accept_cmd : (s.accept w).cmd = w := rfl
@[simp] theorem accept_status : (s.accept w).status = { s.status with busy := true, done := false } := rfl
@[simp] theorem accept_cycles : (s.accept w).cycles = 0 := rfl
@[simp] theorem clearStream_bp : (clearStream s).bp = ⟨0, 0, 0, 0, 0⟩ := rfl
@[simp] theorem latchResult_res : (latchResult s).res = ⟨s.cfg.inLen, s.bp.outLen⟩ := rfl
@[simp] theorem setCur_cur (d : BitVec 17) : (setCur s d).lzw.cur = d := rfl
@[simp] theorem openInterval_stage : (openInterval s).stage = { s.stage with ariV := true } := rfl
@[simp] theorem seedDict_lzw : (seedDict s).lzw = ⟨[], 256, lzwEmpty, 0, s.cfg.lzwCfg⟩ := rfl
end

/-! What a bit and an Append leave as it was (R116). -/

@[simp] theorem pushBit_params (s : State) (x : Bool) : (pushBit s x).params = s.params := by
  unfold pushBit; split <;> rfl
@[simp] theorem pushBit_ctrl (s : State) (x : Bool) : (pushBit s x).ctrl = s.ctrl := by
  unfold pushBit; split <;> rfl
@[simp] theorem pushBit_status (s : State) (x : Bool) : (pushBit s x).status = s.status := by
  unfold pushBit; split <;> rfl
@[simp] theorem pushBit_cmd (s : State) (x : Bool) : (pushBit s x).cmd = s.cmd := by
  unfold pushBit; split <;> rfl
@[simp] theorem pushBit_cfg (s : State) (x : Bool) : (pushBit s x).cfg = s.cfg := by
  unfold pushBit; split <;> rfl
@[simp] theorem pushBit_err (s : State) (x : Bool) : (pushBit s x).err = s.err := by
  unfold pushBit; split <;> rfl
@[simp] theorem pushBit_cycles (s : State) (x : Bool) : (pushBit s x).cycles = s.cycles := by
  unfold pushBit; split <;> rfl
@[simp] theorem pushBit_stage (s : State) (x : Bool) : (pushBit s x).stage = s.stage := by
  unfold pushBit; split <;> rfl
@[simp] theorem pushBit_inPos (s : State) (x : Bool) : (pushBit s x).inPos = s.inPos := by
  unfold pushBit; split <;> rfl
@[simp] theorem pushBit_res (s : State) (x : Bool) : (pushBit s x).res = s.res := by
  unfold pushBit; split <;> rfl
@[simp] theorem pushBit_freq (s : State) (x : Bool) : (pushBit s x).freq = s.freq := by
  unfold pushBit; split <;> rfl
@[simp] theorem pushBit_huf (s : State) (x : Bool) : (pushBit s x).huf = s.huf := by
  unfold pushBit; split <;> rfl
@[simp] theorem pushBit_ari (s : State) (x : Bool) : (pushBit s x).ari = s.ari := by
  unfold pushBit; split <;> rfl
@[simp] theorem pushBit_lzw (s : State) (x : Bool) : (pushBit s x).lzw = s.lzw := by
  unfold pushBit; split <;> rfl
@[simp] theorem pushBit_ibuf (s : State) (x : Bool) : (pushBit s x).ibuf = s.ibuf := by
  unfold pushBit; split <;> rfl
@[simp] theorem pushBit_inbox (s : State) (x : Bool) : (pushBit s x).inbox = s.inbox := by
  unfold pushBit; split <;> rfl
@[simp] theorem pushBit_resp (s : State) (x : Bool) : (pushBit s x).resp = s.resp := by
  unfold pushBit; split <;> rfl
@[simp] theorem pushBit_engineWait (s : State) (x : Bool) : (pushBit s x).engineWait = s.engineWait := by
  unfold pushBit; split <;> rfl
@[simp] theorem pushBit_draws (s : State) (x : Bool) : (pushBit s x).draws = s.draws := by
  unfold pushBit; split <;> rfl
@[simp] theorem pushBit_epoch (s : State) (x : Bool) : (pushBit s x).epoch = s.epoch := by
  unfold pushBit; split <;> rfl
@[simp] theorem pushBits_params (l : List Bool) : ∀ s : State, (pushBits s l).params = s.params := by
  induction l with
  | nil => intro s; rfl
  | cons x l ih => intro s; exact (ih (pushBit s x)).trans (pushBit_params s x)
@[simp] theorem pushBits_ctrl (l : List Bool) : ∀ s : State, (pushBits s l).ctrl = s.ctrl := by
  induction l with
  | nil => intro s; rfl
  | cons x l ih => intro s; exact (ih (pushBit s x)).trans (pushBit_ctrl s x)
@[simp] theorem pushBits_status (l : List Bool) : ∀ s : State, (pushBits s l).status = s.status := by
  induction l with
  | nil => intro s; rfl
  | cons x l ih => intro s; exact (ih (pushBit s x)).trans (pushBit_status s x)
@[simp] theorem pushBits_cmd (l : List Bool) : ∀ s : State, (pushBits s l).cmd = s.cmd := by
  induction l with
  | nil => intro s; rfl
  | cons x l ih => intro s; exact (ih (pushBit s x)).trans (pushBit_cmd s x)
@[simp] theorem pushBits_cfg (l : List Bool) : ∀ s : State, (pushBits s l).cfg = s.cfg := by
  induction l with
  | nil => intro s; rfl
  | cons x l ih => intro s; exact (ih (pushBit s x)).trans (pushBit_cfg s x)
@[simp] theorem pushBits_err (l : List Bool) : ∀ s : State, (pushBits s l).err = s.err := by
  induction l with
  | nil => intro s; rfl
  | cons x l ih => intro s; exact (ih (pushBit s x)).trans (pushBit_err s x)
@[simp] theorem pushBits_cycles (l : List Bool) : ∀ s : State, (pushBits s l).cycles = s.cycles := by
  induction l with
  | nil => intro s; rfl
  | cons x l ih => intro s; exact (ih (pushBit s x)).trans (pushBit_cycles s x)
@[simp] theorem pushBits_stage (l : List Bool) : ∀ s : State, (pushBits s l).stage = s.stage := by
  induction l with
  | nil => intro s; rfl
  | cons x l ih => intro s; exact (ih (pushBit s x)).trans (pushBit_stage s x)
@[simp] theorem pushBits_inPos (l : List Bool) : ∀ s : State, (pushBits s l).inPos = s.inPos := by
  induction l with
  | nil => intro s; rfl
  | cons x l ih => intro s; exact (ih (pushBit s x)).trans (pushBit_inPos s x)
@[simp] theorem pushBits_res (l : List Bool) : ∀ s : State, (pushBits s l).res = s.res := by
  induction l with
  | nil => intro s; rfl
  | cons x l ih => intro s; exact (ih (pushBit s x)).trans (pushBit_res s x)
@[simp] theorem pushBits_freq (l : List Bool) : ∀ s : State, (pushBits s l).freq = s.freq := by
  induction l with
  | nil => intro s; rfl
  | cons x l ih => intro s; exact (ih (pushBit s x)).trans (pushBit_freq s x)
@[simp] theorem pushBits_huf (l : List Bool) : ∀ s : State, (pushBits s l).huf = s.huf := by
  induction l with
  | nil => intro s; rfl
  | cons x l ih => intro s; exact (ih (pushBit s x)).trans (pushBit_huf s x)
@[simp] theorem pushBits_ari (l : List Bool) : ∀ s : State, (pushBits s l).ari = s.ari := by
  induction l with
  | nil => intro s; rfl
  | cons x l ih => intro s; exact (ih (pushBit s x)).trans (pushBit_ari s x)
@[simp] theorem pushBits_lzw (l : List Bool) : ∀ s : State, (pushBits s l).lzw = s.lzw := by
  induction l with
  | nil => intro s; rfl
  | cons x l ih => intro s; exact (ih (pushBit s x)).trans (pushBit_lzw s x)
@[simp] theorem pushBits_ibuf (l : List Bool) : ∀ s : State, (pushBits s l).ibuf = s.ibuf := by
  induction l with
  | nil => intro s; rfl
  | cons x l ih => intro s; exact (ih (pushBit s x)).trans (pushBit_ibuf s x)
@[simp] theorem pushBits_inbox (l : List Bool) : ∀ s : State, (pushBits s l).inbox = s.inbox := by
  induction l with
  | nil => intro s; rfl
  | cons x l ih => intro s; exact (ih (pushBit s x)).trans (pushBit_inbox s x)
@[simp] theorem pushBits_resp (l : List Bool) : ∀ s : State, (pushBits s l).resp = s.resp := by
  induction l with
  | nil => intro s; rfl
  | cons x l ih => intro s; exact (ih (pushBit s x)).trans (pushBit_resp s x)
@[simp] theorem pushBits_engineWait (l : List Bool) : ∀ s : State, (pushBits s l).engineWait = s.engineWait := by
  induction l with
  | nil => intro s; rfl
  | cons x l ih => intro s; exact (ih (pushBit s x)).trans (pushBit_engineWait s x)
@[simp] theorem pushBits_draws (l : List Bool) : ∀ s : State, (pushBits s l).draws = s.draws := by
  induction l with
  | nil => intro s; rfl
  | cons x l ih => intro s; exact (ih (pushBit s x)).trans (pushBit_draws s x)
@[simp] theorem pushBits_epoch (l : List Bool) : ∀ s : State, (pushBits s l).epoch = s.epoch := by
  induction l with
  | nil => intro s; rfl
  | cons x l ih => intro s; exact (ih (pushBit s x)).trans (pushBit_epoch s x)
@[simp] theorem appended_params (s : State) (l : List Bool) : (s.appended l).params = s.params := by
  simp [State.appended]
@[simp] theorem appended_ctrl (s : State) (l : List Bool) : (s.appended l).ctrl = s.ctrl := by
  simp [State.appended]
@[simp] theorem appended_status (s : State) (l : List Bool) : (s.appended l).status = s.status := by
  simp [State.appended]
@[simp] theorem appended_cmd (s : State) (l : List Bool) : (s.appended l).cmd = s.cmd := by
  simp [State.appended]
@[simp] theorem appended_cfg (s : State) (l : List Bool) : (s.appended l).cfg = s.cfg := by
  simp [State.appended]
@[simp] theorem appended_err (s : State) (l : List Bool) : (s.appended l).err = s.err := by
  simp [State.appended]
@[simp] theorem appended_cycles (s : State) (l : List Bool) : (s.appended l).cycles = s.cycles := by
  simp [State.appended]
@[simp] theorem appended_stage (s : State) (l : List Bool) : (s.appended l).stage = s.stage := by
  simp [State.appended]
@[simp] theorem appended_inPos (s : State) (l : List Bool) : (s.appended l).inPos = s.inPos := by
  simp [State.appended]
@[simp] theorem appended_res (s : State) (l : List Bool) : (s.appended l).res = s.res := by
  simp [State.appended]
@[simp] theorem appended_freq (s : State) (l : List Bool) : (s.appended l).freq = s.freq := by
  simp [State.appended]
@[simp] theorem appended_huf (s : State) (l : List Bool) : (s.appended l).huf = s.huf := by
  simp [State.appended]
@[simp] theorem appended_ari (s : State) (l : List Bool) : (s.appended l).ari = s.ari := by
  simp [State.appended]
@[simp] theorem appended_lzw (s : State) (l : List Bool) : (s.appended l).lzw = s.lzw := by
  simp [State.appended]
@[simp] theorem appended_ibuf (s : State) (l : List Bool) : (s.appended l).ibuf = s.ibuf := by
  simp [State.appended]
@[simp] theorem appended_inbox (s : State) (l : List Bool) : (s.appended l).inbox = s.inbox := by
  simp [State.appended]
@[simp] theorem appended_resp (s : State) (l : List Bool) : (s.appended l).resp = s.resp := by
  simp [State.appended]
@[simp] theorem appended_engineWait (s : State) (l : List Bool) : (s.appended l).engineWait = s.engineWait := by
  simp [State.appended]
@[simp] theorem appended_draws (s : State) (l : List Bool) : (s.appended l).draws = s.draws := by
  simp [State.appended]
@[simp] theorem appended_epoch (s : State) (l : List Bool) : (s.appended l).epoch = s.epoch := by
  simp [State.appended]

@[simp] theorem appended_obuf (s : State) (l : List Bool) : (s.appended l).obuf = (pushBits s l).obuf := rfl

@[simp] theorem pushBit_padBits (s : State) (x : Bool) : (pushBit s x).bp.padBits = s.bp.padBits := by
  unfold pushBit; split <;> rfl

@[simp] theorem pushBits_padBits (l : List Bool) : ∀ s : State, (pushBits s l).bp.padBits = s.bp.padBits := by
  induction l with
  | nil => intro s; rfl
  | cons x l ih => intro s; exact (ih (pushBit s x)).trans (pushBit_padBits s x)

@[simp] theorem appended_padBits (s : State) (l : List Bool) : (s.appended l).bp.padBits = s.bp.padBits := by
  simp [State.appended]

/-! What a merge leaves as it was (R90). -/

@[simp] theorem mergeStep_params (s : State) : (mergeStep s).params = s.params := by
  unfold mergeStep settleRoot; split <;> split <;> rfl
@[simp] theorem mergeStep_ctrl (s : State) : (mergeStep s).ctrl = s.ctrl := by
  unfold mergeStep settleRoot; split <;> split <;> rfl
@[simp] theorem mergeStep_status (s : State) : (mergeStep s).status = s.status := by
  unfold mergeStep settleRoot; split <;> split <;> rfl
@[simp] theorem mergeStep_cmd (s : State) : (mergeStep s).cmd = s.cmd := by
  unfold mergeStep settleRoot; split <;> split <;> rfl
@[simp] theorem mergeStep_cfg (s : State) : (mergeStep s).cfg = s.cfg := by
  unfold mergeStep settleRoot; split <;> split <;> rfl
@[simp] theorem mergeStep_err (s : State) : (mergeStep s).err = s.err := by
  unfold mergeStep settleRoot; split <;> split <;> rfl
@[simp] theorem mergeStep_cycles (s : State) : (mergeStep s).cycles = s.cycles := by
  unfold mergeStep settleRoot; split <;> split <;> rfl
@[simp] theorem mergeStep_inPos (s : State) : (mergeStep s).inPos = s.inPos := by
  unfold mergeStep settleRoot; split <;> split <;> rfl
@[simp] theorem mergeStep_res (s : State) : (mergeStep s).res = s.res := by
  unfold mergeStep settleRoot; split <;> split <;> rfl
@[simp] theorem mergeStep_bp (s : State) : (mergeStep s).bp = s.bp := by
  unfold mergeStep settleRoot; split <;> split <;> rfl
@[simp] theorem mergeStep_freq (s : State) : (mergeStep s).freq = s.freq := by
  unfold mergeStep settleRoot; split <;> split <;> rfl
@[simp] theorem mergeStep_ari (s : State) : (mergeStep s).ari = s.ari := by
  unfold mergeStep settleRoot; split <;> split <;> rfl
@[simp] theorem mergeStep_lzw (s : State) : (mergeStep s).lzw = s.lzw := by
  unfold mergeStep settleRoot; split <;> split <;> rfl
@[simp] theorem mergeStep_ibuf (s : State) : (mergeStep s).ibuf = s.ibuf := by
  unfold mergeStep settleRoot; split <;> split <;> rfl
@[simp] theorem mergeStep_obuf (s : State) : (mergeStep s).obuf = s.obuf := by
  unfold mergeStep settleRoot; split <;> split <;> rfl
@[simp] theorem mergeStep_inbox (s : State) : (mergeStep s).inbox = s.inbox := by
  unfold mergeStep settleRoot; split <;> split <;> rfl
@[simp] theorem mergeStep_resp (s : State) : (mergeStep s).resp = s.resp := by
  unfold mergeStep settleRoot; split <;> split <;> rfl
@[simp] theorem mergeStep_engineWait (s : State) : (mergeStep s).engineWait = s.engineWait := by
  unfold mergeStep settleRoot; split <;> split <;> rfl
@[simp] theorem mergeStep_draws (s : State) : (mergeStep s).draws = s.draws := by
  unfold mergeStep settleRoot; split <;> split <;> rfl
@[simp] theorem mergeStep_epoch (s : State) : (mergeStep s).epoch = s.epoch := by
  unfold mergeStep settleRoot; split <;> split <;> rfl

end Sys2Proof.Machine
end

