-- ==== Sys2Proof/Laws/Body.lean ====
section
/-! SUPPORT. What a command's body can do: the ways `andThen`, `require`, `finish`, Append and the pass over the
input range end, said once, and the rule that carries a property through a body. -/

namespace Sys2Proof.Machine

/-! Sequencing. -/

@[simp] theorem andThen_ok (s : State) (f : State → CmdResult) : (CmdResult.ok s).andThen f = f s := rfl
@[simp] theorem andThen_error (s : State) (c : ErrCode) (i : Word) (f : State → CmdResult) :
    (CmdResult.error s c i).andThen f = .error s c i := rfl
@[simp] theorem andThen_fault (x : Fault) (f : State → CmdResult) :
    (CmdResult.fault x).andThen f = .fault x := rfl

@[simp] theorem finish_ok (s : State) : finish (.ok s) = .next s.complete := rfl
@[simp] theorem finish_error (s : State) (c : ErrCode) (i : Word) :
    finish (.error s c i) = .next (s.raiseError c i) := rfl
@[simp] theorem finish_fault (x : Fault) : finish (.fault x) = .fault x := rfl

/-- The two ways a command answers a next state. -/
theorem finish_next {r : CmdResult} {t : State} (h : finish r = .next t) :
    (∃ s, r = .ok s ∧ t = s.complete) ∨ ∃ s c i, r = .error s c i ∧ t = s.raiseError c i := by
  cases r with
  | ok s => exact .inl ⟨s, rfl, by simpa using h.symm⟩
  | error s c i => exact .inr ⟨s, c, i, rfl, by simpa using h.symm⟩
  | fault x => simp at h

/-- A command never refuses. -/
theorem finish_not_refused (r : CmdResult) (x : Refusal) : finish r ≠ .refused x := by
  cases r <;> simp [finish]

theorem require_true (c : ErrCode) (i : Word) (s : State) : require true c i s = .ok s := rfl
theorem require_false (c : ErrCode) (i : Word) (s : State) : require false c i s = .error s c i := rfl

@[simp] theorem checkStage_ok {i : Instr} {s : State} (h : stageReady i s = true) : checkStage i s = .ok s := by
  simp [checkStage, require, h]
@[simp] theorem checkStage_fail {i : Instr} {s : State} (h : stageReady i s = false) :
    checkStage i s = .error s .sequence s.stage.word := by
  simp [checkStage, require, h]
@[simp] theorem inCheck_ok {s : State} (h : s.inRangeOk = true) : inCheck s = .ok s := by
  simp [inCheck, require, h]
@[simp] theorem inCheck_fail {s : State} (h : s.inRangeOk = false) : inCheck s = .error s .inRange 0 := by
  simp [inCheck, require, h]
@[simp] theorem outCheck_ok {s : State} (h : s.outRangeOk = true) : outCheck s = .ok s := by
  simp [outCheck, require, h]
@[simp] theorem outCheck_fail {s : State} (h : s.outRangeOk = false) : outCheck s = .error s .outRange 0 := by
  simp [outCheck, require, h]
@[simp] theorem appendBits_ok {info : Word} {l : List Bool} {s : State} (h : s.roomFor l.length = true) :
    appendBits info l s = .ok (s.appended l) := by
  simp [appendBits, h]
@[simp] theorem appendBits_full {info : Word} {l : List Bool} {s : State} (h : s.roomFor l.length = false) :
    appendBits info l s = .error s .outOverflow info := by
  simp [appendBits, h]

/-! A property of the states a body ends in. -/

/-- `P` holds of the state a body ends in, whether it ends normally or by an error. -/
def CmdResult.Ends (P : State → Prop) : CmdResult → Prop
  | .ok s => P s
  | .error s _ _ => P s
  | .fault _ => True

theorem ends_require {P : State → Prop} {b : Bool} {c : ErrCode} {i : Word} {s : State} (h : P s) :
    (require b c i s).Ends P := by
  cases b <;> exact h

theorem ends_andThen {P : State → Prop} {r : CmdResult} {f : State → CmdResult} (hr : r.Ends P)
    (hf : ∀ s, r = .ok s → P s → (f s).Ends P) : (r.andThen f).Ends P := by
  cases r with
  | ok s => exact hf s rfl hr
  | error s c i => exact hr
  | fault x => trivial

theorem ends_appendBits {P : State → Prop} {info : Word} {l : List Bool} {s : State} (h : P s)
    (h' : s.roomFor l.length = true → P (s.appended l)) : (appendBits info l s).Ends P := by
  unfold appendBits
  split
  · exact h' ‹_›
  · exact h

/-- A property every input byte's step keeps, and that does not speak of IN_POS, holds after the pass. -/
theorem ends_streamFrom {P : State → Prop} {body : Nat → Byte → State → CmdResult}
    (hpos : ∀ s (p : Word), P s → P { s with inPos := p })
    (hbody : ∀ i b s, P s → (body i b s).Ends P) :
    ∀ n i s, P s → (streamFrom body n i s).Ends P := by
  intro n
  induction n with
  | zero => intro i s h; exact h
  | succ n ih =>
    intro i s h
    unfold streamFrom
    split
    · trivial
    · exact ends_andThen (hbody _ _ _ h) fun s' _ h' => ih _ _ (hpos _ _ h')

theorem ends_stream {P : State → Prop} {body : Nat → Byte → State → CmdResult}
    (hpos : ∀ s (p : Word), P s → P { s with inPos := p })
    (hbody : ∀ i b s, P s → (body i b s).Ends P) {s : State} (h : P s) : (stream body s).Ends P :=
  ends_streamFrom hpos hbody _ _ _ (hpos _ _ h)

theorem ends_checkStage {P : State → Prop} {i : Instr} {s : State} (h : P s) : (checkStage i s).Ends P :=
  ends_require h
theorem ends_inCheck {P : State → Prop} {s : State} (h : P s) : (inCheck s).Ends P := ends_require h
theorem ends_outCheck {P : State → Prop} {s : State} (h : P s) : (outCheck s).Ends P := ends_require h

/-- What the state after a command has, if its body's last state has it and retirement keeps it. -/
theorem ends_finish {P Q : State → Prop} {r : CmdResult} {t : State} (h : r.Ends P) (ht : finish r = .next t)
    (hok : ∀ s, P s → Q s.complete) (herr : ∀ s c i, P s → Q (s.raiseError c i)) : Q t := by
  rcases finish_next ht with ⟨s, rfl, rfl⟩ | ⟨s, c, i, rfl, rfl⟩
  · exact hok s h
  · exact herr s c i h

/-- The pass over an input range whose bytes are known: the steps in order, IN_POS counting them. -/
theorem streamFrom_known {body : Nat → Byte → State → CmdResult} {n i : Nat} {s : State} {b : Byte}
    (h : s.ibuf.read (s.cfg.inBase.toNat + i) = some b) :
    streamFrom body (n + 1) i s =
      (body i b s).andThen fun t => streamFrom body n (i + 1) { t with inPos := BitVec.ofNat 32 (i + 1) } := by
  rw [streamFrom, h]

end Sys2Proof.Machine
end

