-- ==== Sys2Proof/Laws/Append.lean ====
section
/-! SUPPORT. Everything an Append does (45_bitpacker.md R116, R120): the counters, the window bytes it writes, and
that the bit stream grows by exactly the string. -/

namespace Sys2Proof.Machine

/-! Bit strings (00_scope.md R11). -/

@[simp] theorem bitsOf_length (n v : Nat) : (bitsOf n v).length = n := by
  induction n with
  | zero => rfl
  | succ n ih => simp [bitsOf, ih]

/-- One more, less significant, bit at the end. -/
theorem bitsOf_snoc (n v : Nat) (x : Bool) : bitsOf (n + 1) (2 * v + x.toNat) = bitsOf n v ++ [x] := by
  induction n with
  | zero => cases x <;> simp [bitsOf]
  | succ n ih =>
    rw [bitsOf, ih, bitsOf]
    have : (2 * v + x.toNat).testBit (n + 1) = v.testBit n := by
      rw [Nat.testBit_succ]; congr 1; cases x <;> (simp; try omega)
    simp [this]

/-- The value of a bit string, first bit most significant. -/
def bitsVal : List Bool → Nat
  | [] => 0
  | x :: l => x.toNat * 2 ^ l.length + bitsVal l

theorem bitsVal_bitsOf (n v : Nat) : bitsVal (bitsOf n v) = v % 2 ^ n := by
  induction n with
  | zero => simp [bitsOf, bitsVal, Nat.mod_one]
  | succ n ih =>
    rw [bitsOf, bitsVal, ih, bitsOf_length, Nat.pow_succ, Nat.mod_mul, Nat.testBit_eq_decide_div_mod_eq]
    rcases Nat.mod_two_eq_zero_or_one (v / 2 ^ n) with h | h <;> simp [h] <;> omega

/-- A string is the bits of its value. -/
theorem bitsOf_bitsVal (p : List Bool) : bitsOf p.length (bitsVal p) = p := by
  induction p with
  | nil => rfl
  | cons x p ih =>
    have hlt : ∀ q : List Bool, bitsVal q < 2 ^ q.length := by
      intro q; induction q with
      | nil => simp [bitsVal]
      | cons y q ih => cases y <;> simp [bitsVal, Nat.pow_succ] <;> omega
    simp only [List.length_cons, bitsOf, bitsVal]
    have h1 : (x.toNat * 2 ^ p.length + bitsVal p).testBit p.length = x := by
      rw [Nat.testBit_eq_decide_div_mod_eq, Nat.mul_comm, Nat.mul_add_div (Nat.two_pow_pos _), Nat.div_eq_of_lt (hlt p)]
      cases x <;> simp
    have h2 : ∀ n v w, v % 2^n = w % 2^n → bitsOf n v = bitsOf n w := by
      intro n v w h
      have key : ∀ n v, bitsOf n v = bitsOf n (v % 2^n) := by
        intro n
        have : ∀ m v, m ≤ n → bitsOf m v = bitsOf m (v % 2^n) := by
          intro m v hm
          induction m with
          | zero => rfl
          | succ m ihm => simp [bitsOf, ihm (by omega), Nat.testBit_mod_two_pow]; omega
        exact fun v => this n v le_rfl
      rw [key n v, key n w, h]
    rw [h1, h2 _ _ (bitsVal p) (by simp [Nat.add_mod, Nat.mul_mod_left]), ih]

theorem bitsVal_snoc (p : List Bool) (x : Bool) : bitsVal (p ++ [x]) = 2 * bitsVal p + x.toNat := by
  induction p with
  | nil => cases x <;> rfl
  | cons y p ih => simp [bitsVal, ih, Nat.pow_succ]; ring
theorem bitsVal_lt (q : List Bool) : bitsVal q < 2 ^ q.length := by
  induction q with
  | nil => simp [bitsVal]
  | cons y q ih => cases y <;> simp [bitsVal, Nat.pow_succ] <;> omega

/-- A bit string of a value that fits determines it. -/
theorem bitsOf_injective {n v w : Nat} (hv : v < 2 ^ n) (hw : w < 2 ^ n) (h : bitsOf n v = bitsOf n w) : v = w := by
  have := congrArg bitsVal h
  rwa [bitsVal_bitsOf, bitsVal_bitsOf, Nat.mod_eq_of_lt hv, Nat.mod_eq_of_lt hw] at this

/-! One bit. -/

theorem shiftIn_toNat {acc : Byte} {x : Bool} (h : acc.toNat < 128) :
    ((acc <<< 1) ||| (BitVec.ofBool x).setWidth 8).toNat = 2 * acc.toNat + x.toNat := by
  have h1 : (acc <<< 1 : Byte).toNat = 2 * acc.toNat := by
    rw [BitVec.toNat_shiftLeft, Nat.shiftLeft_eq]; omega
  rw [BitVec.toNat_or, h1]
  cases x
  · simp
  · have : ((BitVec.ofBool true).setWidth 8).toNat = 1 := rfl
    rw [this]
    rw [show 2 * acc.toNat = acc.toNat <<< 1 by rw [Nat.shiftLeft_eq]; omega]
    rw [Nat.shiftLeft_add_eq_or_of_lt (by simp : true.toNat < 2 ^ 1)]
    rfl

theorem acc_lt_of_cnt {b : BitPacker} (h : b.acc.toNat < 2 ^ b.cnt.toNat) (h7 : b.cnt.toNat ≤ 7) :
    b.acc.toNat < 128 :=
  lt_of_lt_of_le h (le_trans (Nat.pow_le_pow_right (by omega) h7) (by norm_num))

theorem pushBit_fill {s : State} {x : Bool} (h : s.bp.cnt = 7) :
    pushBit s x = { s with
      obuf := s.obuf.write (s.cfg.outBase.toNat + s.bp.outLen.toNat)
        ((s.bp.acc <<< 1) ||| (BitVec.ofBool x).setWidth 8)
      bp.outLen := s.bp.outLen + 1, bp.acc := 0, bp.cnt := 0 } := if_pos h

theorem pushBit_hold {s : State} {x : Bool} (h : s.bp.cnt ≠ 7) :
    pushBit s x = { s with
      bp.acc := (s.bp.acc <<< 1) ||| (BitVec.ofBool x).setWidth 8, bp.cnt := s.bp.cnt + 1 } := if_neg h

@[simp] theorem pushBit_bitLen (s : State) (x : Bool) : (pushBit s x).bp.bitLen = s.bp.bitLen := by
  unfold pushBit; split <;> rfl

@[simp] theorem pushBits_bitLen (l : List Bool) : ∀ s : State, (pushBits s l).bp.bitLen = s.bp.bitLen := by
  induction l with
  | nil => intro s; rfl
  | cons x l ih => intro s; exact (ih (pushBit s x)).trans (pushBit_bitLen s x)

theorem pushBits_nil (s : State) : pushBits s [] = s := rfl
theorem pushBits_cons (s : State) (x : Bool) (l : List Bool) : pushBits s (x :: l) = pushBits (pushBit s x) l := rfl
theorem pushBits_append (s : State) (l m : List Bool) : pushBits s (l ++ m) = pushBits (pushBits s l) m := by
  simp [pushBits, List.foldl_append]

theorem cnt_ne_seven {c : BitVec 3} (h : c ≠ 7) : c.toNat < 7 := by
  have : c.toNat ≠ 7 := fun e => h (BitVec.eq_of_toNat_eq e)
  have := c.isLt
  omega

/-- The counters after a bit. -/
theorem pushBit_counts {s : State} {x : Bool} (h : s.bp.outLen.toNat + (s.bp.cnt.toNat + 1) / 8 < 2 ^ 32) :
    (pushBit s x).bp.outLen.toNat = s.bp.outLen.toNat + (s.bp.cnt.toNat + 1) / 8 ∧
      (pushBit s x).bp.cnt.toNat = (s.bp.cnt.toNat + 1) % 8 := by
  by_cases hc : s.bp.cnt = 7
  · rw [pushBit_fill hc]
    simp only [hc] at h ⊢
    simp at h ⊢
    omega
  · rw [pushBit_hold hc]
    have := cnt_ne_seven hc
    simp
    omega

/-- The counters after a string of bits (R116). -/
theorem pushBits_counts (l : List Bool) : ∀ {s : State},
    s.bp.outLen.toNat + (s.bp.cnt.toNat + l.length) / 8 < 2 ^ 32 →
    (pushBits s l).bp.outLen.toNat = s.bp.outLen.toNat + (s.bp.cnt.toNat + l.length) / 8 ∧
      (pushBits s l).bp.cnt.toNat = (s.bp.cnt.toNat + l.length) % 8 := by
  induction l with
  | nil => intro s _; have := s.bp.cnt.isLt; simp [pushBits_nil]; omega
  | cons x l ih =>
    intro s h
    simp only [List.length_cons] at h ⊢
    have hx := pushBit_counts (s := s) (x := x) (by omega)
    have := ih (s := pushBit s x) (by omega)
    rw [pushBits_cons]
    omega

/-- ACC keeps holding CNT bits. -/
theorem pushBit_acc {s : State} (x : Bool) (h : s.bp.acc.toNat < 2 ^ s.bp.cnt.toNat) :
    (pushBit s x).bp.acc.toNat < 2 ^ (pushBit s x).bp.cnt.toNat := by
  by_cases hc : s.bp.cnt = 7
  · rw [pushBit_fill hc]; simp
  · rw [pushBit_hold hc]
    have hlt := cnt_ne_seven hc
    have ha := acc_lt_of_cnt h (by omega)
    simp only
    rw [shiftIn_toNat ha]
    have : (s.bp.cnt + 1).toNat = s.bp.cnt.toNat + 1 := by simp; omega
    rw [this, Nat.pow_succ]
    have := Bool.toNat_le x
    omega

theorem pushBits_acc (l : List Bool) : ∀ {s : State}, s.bp.acc.toNat < 2 ^ s.bp.cnt.toNat →
    (pushBits s l).bp.acc.toNat < 2 ^ (pushBits s l).bp.cnt.toNat := by
  induction l with
  | nil => intro s h; exact h
  | cons x l ih => intro s h; exact ih (pushBit_acc x h)

/-- A byte of OBUF outside the window bytes a bit completes reads as before. -/
theorem pushBit_obuf_frame (s : State) (x : Bool) {a : Nat}
    (h : a ≠ s.cfg.outBase.toNat + s.bp.outLen.toNat) : (pushBit s x).obuf.read a = s.obuf.read a := by
  by_cases hc : s.bp.cnt = 7
  · rw [pushBit_fill hc]; exact memory_read_write_other _ _ h
  · rw [pushBit_hold hc]

/-- Append writes only the bytes it completes (R116). -/
theorem pushBits_obuf_frame (l : List Bool) : ∀ {s : State} {a : Nat},
    s.bp.outLen.toNat + (s.bp.cnt.toNat + l.length) / 8 < 2 ^ 32 →
    (a < s.cfg.outBase.toNat + s.bp.outLen.toNat ∨
      s.cfg.outBase.toNat + s.bp.outLen.toNat + (s.bp.cnt.toNat + l.length) / 8 ≤ a) →
    (pushBits s l).obuf.read a = s.obuf.read a := by
  induction l with
  | nil => intro s a _ _; rfl
  | cons x l ih =>
    intro s a h ha
    simp only [List.length_cons] at h ha
    have hx := pushBit_counts (s := s) (x := x) (by omega)
    rw [pushBits_cons, ih (by omega) (by simp only [pushBit_cfg]; omega)]
    by_cases hc : s.bp.cnt = 7
    · apply pushBit_obuf_frame
      simp [hc] at ha
      omega
    · rw [pushBit_hold hc]

/-- The bits of the window's bytes before offset n. -/
theorem streamBits_congr {s t : State} (hb : t.cfg = s.cfg) (hl : t.bp.outLen = s.bp.outLen)
    (ho : ∀ j, j < s.bp.outLen.toNat →
      t.obuf.read (s.cfg.outBase.toNat + j) = s.obuf.read (s.cfg.outBase.toNat + j))
    (hc : t.bp.cnt = s.bp.cnt) (ha : t.bp.acc = s.bp.acc) : t.streamBits = s.streamBits := by
  unfold State.streamBits
  rw [hb, hl, hc, ha]
  congr 1
  apply List.flatMap_congr
  intro j hj
  rw [ho j (List.mem_range.1 hj)]

/-- One bit more in the stream. -/
theorem pushBit_streamBits {s : State} (x : Bool) (hacc : s.bp.acc.toNat < 2 ^ s.bp.cnt.toNat)
    (h : s.bp.outLen.toNat + (s.bp.cnt.toNat + 1) / 8 < 2 ^ 32) :
    (pushBit s x).streamBits = s.streamBits ++ [x] := by
  by_cases hc : s.bp.cnt = 7
  · have ha := acc_lt_of_cnt hacc (by simp [hc])
    have hl := (pushBit_counts (x := x) h).1
    have h1 : (s.bp.cnt.toNat + 1) / 8 = 1 := by simp [hc]
    rw [h1] at hl
    unfold State.streamBits
    rw [hl, List.range_succ, List.flatMap_append]
    rw [pushBit_fill hc]
    simp only [hc]
    have hbyte := bitsOf_snoc 7 s.bp.acc.toNat x
    rw [List.append_assoc, List.append_assoc]
    congr 1
    · apply List.flatMap_congr
      intro j hj
      have := List.mem_range.1 hj
      rw [memory_read_write_other _ _ (by omega)]
    · simp only [List.flatMap_cons, List.flatMap_nil, List.append_nil, memory_read_write_same,
        Option.getD_some, byteBits, shiftIn_toNat ha]
      exact (List.append_nil _).trans hbyte
  · have hlt := cnt_ne_seven hc
    have ha := acc_lt_of_cnt hacc (by omega)
    rw [pushBit_hold hc]
    unfold State.streamBits
    simp only
    rw [shiftIn_toNat ha, show (s.bp.cnt + 1).toNat = s.bp.cnt.toNat + 1 by simp; omega, bitsOf_snoc]
    simp

/-- The stream grows by exactly the string (R116, R120). -/
theorem pushBits_streamBits (l : List Bool) : ∀ {s : State}, s.bp.acc.toNat < 2 ^ s.bp.cnt.toNat →
    s.bp.outLen.toNat + (s.bp.cnt.toNat + l.length) / 8 < 2 ^ 32 →
    (pushBits s l).streamBits = s.streamBits ++ l := by
  induction l with
  | nil => intro s _ _; simp [pushBits_nil]
  | cons x l ih =>
    intro s hacc h
    simp only [List.length_cons] at h
    have hx := pushBit_counts (s := s) (x := x) (by omega)
    rw [pushBits_cons, ih (pushBit_acc x hacc) (by omega), pushBit_streamBits x hacc (by omega)]
    simp

theorem pushBits_obuf_wf (l : List Bool) : ∀ {s : State}, s.obuf.wf → (pushBits s l).obuf.wf := by
  induction l with
  | nil => intro s h; exact h
  | cons x l ih =>
    intro s h
    refine ih ?_
    by_cases hc : s.bp.cnt = 7
    · rw [pushBit_fill hc]; exact memory_write_wf h _ _
    · rw [pushBit_hold hc]; exact h

theorem pushBits_obuf_bound (l : List Bool) {n : Nat} : ∀ {s : State},
    (∀ c ∈ s.obuf, c.1 < n) →
    s.bp.outLen.toNat + (s.bp.cnt.toNat + l.length) / 8 < 2 ^ 32 →
    s.cfg.outBase.toNat + s.bp.outLen.toNat + (s.bp.cnt.toNat + l.length) / 8 ≤ n →
    ∀ c ∈ (pushBits s l).obuf, c.1 < n := by
  induction l with
  | nil => intro s h _ _; exact h
  | cons x l ih =>
    intro s h h32 hn
    simp only [List.length_cons] at h32 hn
    have hx := pushBit_counts (s := s) (x := x) (by omega)
    refine ih ?_ (by omega) (by simp only [pushBit_cfg]; omega)
    by_cases hc : s.bp.cnt = 7
    · have : s.bp.cnt.toNat = 7 := by simp [hc]
      rw [pushBit_fill hc]; exact memory_write_bound h (by omega) _
    · rw [pushBit_hold hc]; exact h

/-! The whole Append. -/

/-- Room in a window of 32-bit capacity leaves OUT_LEN within 32 bits. -/
theorem room_lt {s : State} {n : Nat} (h : s.roomFor n = true) :
    s.bp.outLen.toNat + (s.bp.cnt.toNat + n) / 8 < 2 ^ 32 := by
  have := of_decide_eq_true h
  have := s.cfg.outCap.isLt
  omega

theorem appended_bp (s : State) (l : List Bool) :
    (s.appended l).bp.outLen = (pushBits s l).bp.outLen ∧ (s.appended l).bp.cnt = (pushBits s l).bp.cnt ∧
      (s.appended l).bp.acc = (pushBits s l).bp.acc ∧
      (s.appended l).bp.bitLen = s.bp.bitLen + BitVec.ofNat 32 l.length := ⟨rfl, rfl, rfl, rfl⟩

/-- OUT_LEN and CNT after an Append that has room (R116). -/
theorem appended_counts {s : State} {l : List Bool} (h : s.roomFor l.length = true) :
    (s.appended l).bp.outLen.toNat = s.bp.outLen.toNat + (s.bp.cnt.toNat + l.length) / 8 ∧
      (s.appended l).bp.cnt.toNat = (s.bp.cnt.toNat + l.length) % 8 :=
  pushBits_counts l (room_lt h)

/-- The stream after an Append that has room is the stream before and the string (R116, R120). -/
theorem appended_streamBits {s : State} {l : List Bool} (hacc : s.bp.acc.toNat < 2 ^ s.bp.cnt.toNat)
    (h : s.roomFor l.length = true) : (s.appended l).streamBits = s.streamBits ++ l := by
  rw [← pushBits_streamBits l hacc (room_lt h)]
  exact streamBits_congr (by simp) rfl (fun _ _ => rfl) rfl rfl

theorem appended_acc {s : State} {l : List Bool} (hacc : s.bp.acc.toNat < 2 ^ s.bp.cnt.toNat) :
    (s.appended l).bp.acc.toNat < 2 ^ (s.appended l).bp.cnt.toNat := pushBits_acc l hacc

/-- What an Append may write: the window bytes from OUT_LEN before to OUT_LEN after (R116). -/
theorem appended_obuf_frame {s : State} {l : List Bool} (h : s.roomFor l.length = true) {a : Nat}
    (ha : a < s.cfg.outBase.toNat + s.bp.outLen.toNat ∨
      s.cfg.outBase.toNat + (s.appended l).bp.outLen.toNat ≤ a) :
    (s.appended l).obuf.read a = s.obuf.read a := by
  refine pushBits_obuf_frame l (room_lt h) ?_
  rw [(appended_counts h).1] at ha
  omega

theorem appended_nil (s : State) : s.appended [] = s := by
  simp [State.appended, pushBits_nil]

end Sys2Proof.Machine
end

