-- ==== Sys2Proof/Laws/Tree.lean ====
section
/-! SUPPORT. The node arena as a tree: what following a path reaches, that every node has exactly one path from the root,
and that `visit` sets each leaf's code to its path (42_huffman.md R87, R92, R93, R95). -/

namespace Sys2Proof.Machine

/-- The shape of an arena (R87, R88, R90): the first k nodes are leaves, and every later one is internal with its children
before it. -/
structure Forest (ar : List Node) (k : Nat) : Prop where
  leaf : ∀ i nd, ar[i]? = some nd → i < k → nd.leaf = true
  inner : ∀ i nd, ar[i]? = some nd → k ≤ i → nd.leaf = false ∧ nd.left.toNat < i ∧ nd.right.toNat < i

/-- Following a path that goes on (R93). -/
theorem follow_append (ar : List Node) : ∀ (p : List Bool) (i j : Nat) (q : List Bool),
    follow ar i p = some j → follow ar i (p ++ q) = follow ar j q := by
  intro p
  induction p with
  | nil => intro i j q h; simp only [follow] at h; split at h <;> simp at h; subst h; rfl
  | cons x p ih =>
    intro i j q h
    simp only [follow, List.cons_append] at h ⊢
    split at h
    · simp at h
    · split at h
      · simp at h
      · rename_i hl; rw [if_neg hl]; exact ih _ _ _ h

/-- The leaves below node i in the order `visit` meets them, each with its symbol and its path from the root, `p` being the
path to node i. -/
def leafPaths (ar : List Node) : Nat → Nat → List Bool → List (Nat × Byte × List Bool)
  | 0, _, _ => []
  | fuel + 1, i, p =>
    match ar[i]? with
    | none => []
    | some nd => if nd.leaf then [(i, nd.sym, p)] else
      leafPaths ar fuel nd.left.toNat (p ++ [false]) ++ leafPaths ar fuel nd.right.toNat (p ++ [true])

/-- The code of one leaf set from its path (R93). -/
def setPath (t : CodeTables) (x : Nat × Byte × List Bool) : CodeTables := setCode t x.2.1 x.2.2.length (bitsVal x.2.2)

/-- `Visit` sets the codes of the leaves it meets, in order (R93). -/
theorem visit_eq (ar : List Node) : ∀ fuel i p t,
    visit ar fuel i p.length (bitsVal p) t = (leafPaths ar fuel i p).foldl setPath t := by
  intro fuel
  induction fuel with
  | zero => intros; rfl
  | succ fuel ih =>
    intro i p t
    simp only [visit, leafPaths]
    cases hnd : ar[i]? with
    | none => rfl
    | some nd =>
      simp only
      by_cases hl : nd.leaf = true
      · rw [if_pos hl, if_pos hl]; rfl
      · rw [if_neg hl, if_neg hl]
        have e1 := ih nd.left.toNat (p ++ [false]) t
        have e2 := ih nd.right.toNat (p ++ [true]) (visit ar fuel nd.left.toNat (p.length+1) (2 * bitsVal p) t)
        simp only [List.length_append, List.length_singleton, bitsVal_snoc, Bool.toNat_false, Nat.add_zero, Bool.toNat_true] at e1 e2
        rw [e2, e1, List.foldl_append]

/-- Every leaf met is at the end of its path, and its path goes on from `p`. -/
theorem leafPaths_follow {ar : List Node} : ∀ fuel r i p x, follow ar r p = some i → x ∈ leafPaths ar fuel i p →
    follow ar r x.2.2 = some x.1 ∧ (∃ nd, ar[x.1]? = some nd ∧ nd.leaf = true ∧ nd.sym = x.2.1) ∧ p <+: x.2.2 := by
  intro fuel
  induction fuel with
  | zero => intro _ _ _ _ _ h; simp [leafPaths] at h
  | succ fuel ih =>
    intro r i p x hf hx
    simp only [leafPaths] at hx
    split at hx
    · simp at hx
    · rename_i nd hnd
      split at hx
      · simp at hx; subst hx; exact ⟨hf, ⟨nd, hnd, by assumption, rfl⟩, List.prefix_refl _⟩
      · rename_i hl
        have hstep : ∀ b c, c < ar.length → (if b then nd.right.toNat else nd.left.toNat) = c → follow ar r (p ++ [b]) = some c := by
          intro b c hc hb
          rw [follow_append ar p r i [b] hf]
          simp [follow, hnd, hl, hb, hc]
        have hin : ∀ fuel c q, x ∈ leafPaths ar fuel c q → c < ar.length := by
          intro fuel c q h
          cases fuel with
          | zero => simp [leafPaths] at h
          | succ f =>
            simp only [leafPaths] at h
            split at h
            · simp at h
            · rename_i h'; exact (List.getElem?_eq_some_iff.1 h').1
        rcases List.mem_append.1 hx with hx | hx
        · have := ih r _ _ x (hstep false _ (hin _ _ _ hx) rfl) hx
          exact ⟨this.1, this.2.1, (List.prefix_append p [false]).trans this.2.2⟩
        · have := ih r _ _ x (hstep true _ (hin _ _ _ hx) rfl) hx
          exact ⟨this.1, this.2.1, (List.prefix_append p [true]).trans this.2.2⟩

theorem leafPaths_len {ar : List Node} {k : Nat} (hs : Forest ar k) : ∀ fuel i p x, x ∈ leafPaths ar fuel i p →
    x.2.2.length ≤ p.length + (i + 1 - k) := by
  intro fuel
  induction fuel with
  | zero => intro _ _ _ h; simp [leafPaths] at h
  | succ fuel ih =>
    intro i p x hx
    simp only [leafPaths] at hx
    split at hx
    · simp at hx
    · rename_i nd hnd
      split at hx
      · simp at hx; subst hx; simp
      · rename_i hl
        have hk : k ≤ i := by
          by_contra hc
          exact hl (hs.leaf i nd hnd (by omega))
        obtain ⟨_, h1, h2⟩ := hs.inner i nd hnd hk
        rcases List.mem_append.1 hx with hx | hx
        · have := ih _ _ _ hx; simp at this; omega
        · have := ih _ _ _ hx; simp at this; omega

/-- Every leaf a path reaches is met. -/
theorem follow_leafPaths {ar : List Node} {k : Nat} (hs : Forest ar k) : ∀ (q : List Bool) fuel i p j nd, i < fuel →
    follow ar i q = some j → ar[j]? = some nd → nd.leaf = true → (j, nd.sym, p ++ q) ∈ leafPaths ar fuel i p := by
  intro q
  induction q with
  | nil =>
    intro fuel i p j nd hf h hj hl
    simp only [follow] at h; split at h <;> simp at h; subst h
    cases fuel with
    | zero => omega
    | succ f => simp [leafPaths, hj, hl]
  | cons x q ih =>
    intro fuel i p j nd hf h hj hl
    simp only [follow] at h
    cases fuel with
    | zero => omega
    | succ f =>
      split at h
      · simp at h
      · rename_i md hmd
        split at h
        · simp at h
        · rename_i hml
          have hk : k ≤ i := by
            by_contra hc
            exact hml (hs.leaf i md hmd (by omega))
          obtain ⟨_, h1, h2⟩ := hs.inner i md hmd hk
          simp only [leafPaths, hmd, hml]
          simp only [Bool.false_eq_true, if_false]
          cases x
          · apply List.mem_append_left
            have := ih f md.left.toNat (p ++ [false]) j nd (by omega) (by simpa using h) hj hl
            simpa using this
          · apply List.mem_append_right
            have := ih f md.right.toNat (p ++ [true]) j nd (by omega) (by simpa using h) hj hl
            simpa using this

/-- The leaves below a node fill its share of the code space (R95). -/
theorem leafPaths_kraft {ar : List Node} {k : Nat} (hs : Forest ar k) : ∀ fuel i p, i < fuel → i < ar.length →
    p.length + (i + 1 - k) ≤ 256 →
    ((leafPaths ar fuel i p).map fun x => 2 ^ (256 - x.2.2.length)).sum = 2 ^ (256 - p.length) := by
  intro fuel
  induction fuel with
  | zero => intros; omega
  | succ fuel ih =>
    intro i p hf hi hp
    obtain ⟨nd, hnd⟩ : ∃ nd, ar[i]? = some nd := ⟨ar[i], List.getElem?_eq_getElem hi⟩
    simp only [leafPaths, hnd]
    by_cases hl : nd.leaf = true
    · simp [hl]
    · have hk : k ≤ i := by
        by_contra hc
        exact hl (hs.leaf i nd hnd (by omega))
      obtain ⟨_, h1, h2⟩ := hs.inner i nd hnd hk
      rw [if_neg hl, List.map_append, List.sum_append, ih _ _ (by omega) (by omega) (by simp; omega),
        ih _ _ (by omega) (by omega) (by simp; omega)]
      simp only [List.length_append, List.length_singleton]
      rw [show 256 - p.length = (256 - (p.length + 1)) + 1 by omega, Nat.pow_succ]; ring

/-- An arena that is one tree with root r (R92): no node is twice a child, and every node but r is one. -/
structure TreeAt (ar : List Node) (k r : Nat) : Prop extends Forest ar k where
  nodup : (childrenOf ar).Nodup
  root : r + 1 = ar.length
  par : ∀ i nd, ar[i]? = some nd → (i ∈ childrenOf ar ↔ i ≠ r)

theorem mem_children {ar : List Node} {c : Nat} : c ∈ childrenOf ar ↔ ∃ (i : Nat) (nd : Node), ar[i]? = some nd ∧ nd.leaf = false ∧ (nd.left.toNat = c ∨ nd.right.toNat = c) := by
  simp only [childrenOf, List.mem_flatMap]
  constructor
  · rintro ⟨nd, hm, hc⟩
    obtain ⟨i, hi⟩ := List.mem_iff_getElem?.1 hm
    cases h : nd.leaf
    · simp [h] at hc; exact ⟨i, nd, hi, h, hc.imp Eq.symm Eq.symm⟩
    · simp [h] at hc
  · rintro ⟨i, nd, hi, hl, hc⟩
    exact ⟨nd, List.mem_of_getElem? hi, by simp [hl]; exact hc.imp Eq.symm Eq.symm⟩

theorem child_unique {ar : List Node} (hn : (childrenOf ar).Nodup) : ∀ {a b : Nat} {x y : Bool} {na nb : Node}, ar[a]? = some na → ar[b]? = some nb →
    na.leaf = false → nb.leaf = false → (if x then na.right.toNat else na.left.toNat) = (if y then nb.right.toNat else nb.left.toNat) → a = b ∧ x = y := by
  induction ar with
  | nil => intro a b x y na nb h; simp at h
  | cons n ar ih =>
    intro a b x y na nb ha hb hla hlb he
    simp only [childrenOf, List.flatMap_cons] at hn
    obtain ⟨h1, h2, h3⟩ := List.nodup_append.1 hn
    have memc : ∀ (c : Nat) (z : Bool) (nc : Node), ar[c]? = some nc → nc.leaf = false → (if z then nc.right.toNat else nc.left.toNat) ∈ childrenOf ar := by
      intro c z nc hc hl
      exact mem_children.2 ⟨c, nc, hc, hl, by cases z <;> simp⟩
    have meml : ∀ (z : Bool) (nc : Node), nc.leaf = false → (if z then nc.right.toNat else nc.left.toNat) ∈ (if nc.leaf then [] else [nc.left.toNat, nc.right.toNat]) := by
      intro z nc hl; simp [hl]; cases z <;> simp
    cases a with
    | zero =>
      simp at ha; subst ha
      cases b with
      | zero =>
        simp at hb; subst hb
        rw [if_neg (by simp [hla])] at h1
        have h1' : n.left.toNat ≠ n.right.toNat := by
          intro e; rw [e] at h1; simp at h1
        refine ⟨rfl, ?_⟩
        cases x <;> cases y
        · rfl
        · exact absurd he h1'
        · exact absurd he.symm h1'
        · rfl
      | succ b =>
        simp at hb
        exact absurd he (h3 _ (meml x n hla) _ (memc b y nb hb hlb))
    | succ a =>
      simp at ha
      cases b with
      | zero =>
        simp at hb; subst hb
        exact absurd he.symm (h3 _ (meml y n hlb) _ (memc a x na ha hla))
      | succ b =>
        simp at hb
        have := ih h2 ha hb hla hlb he
        exact ⟨by omega, this.2⟩

theorem follow_snoc {ar : List Node} : ∀ (p : List Bool) (i j : Nat) (x : Bool), follow ar i (p ++ [x]) = some j →
    ∃ a na, follow ar i p = some a ∧ ar[a]? = some na ∧ na.leaf = false ∧ (if x then na.right.toNat else na.left.toNat) = j := by
  intro p
  induction p with
  | nil =>
    intro i j x h
    simp only [List.nil_append, follow] at h
    split at h
    · simp at h
    · rename_i nd hnd
      have hi := (List.getElem?_eq_some_iff.1 hnd).1
      split at h
      · simp at h
      · rename_i hl
        refine ⟨i, nd, by simp [follow, hi], hnd, by simpa using hl, ?_⟩
        cases x <;> simp at h <;> simpa using h.2
  | cons y p ih =>
    intro i j x h
    simp only [List.cons_append, follow] at h ⊢
    split at h
    · simp at h
    · rename_i nd hnd
      split at h
      · simp at h
      · rename_i hl
        rw [if_neg hl]
        exact ih _ _ _ h

theorem follow_lt {ar : List Node} : ∀ (p : List Bool) (i j : Nat), follow ar i p = some j → j < ar.length := by
  intro p
  induction p with
  | nil => intro i j h; simp only [follow] at h; split at h <;> simp at h; omega
  | cons y p ih =>
    intro i j h
    simp only [follow] at h
    split at h
    · simp at h
    · split at h
      · simp at h
      · exact ih _ _ h

theorem follow_unique {ar : List Node} {k r : Nat} (ht : TreeAt ar k r) : ∀ (p q : List Bool) (j : Nat), follow ar r p = some j → follow ar r q = some j → p = q := by
  intro p
  induction p using List.reverseRecOn with
  | nil =>
    intro q j hp hq
    simp only [follow] at hp; split at hp <;> simp at hp; subst hp
    rcases List.eq_nil_or_concat q with rfl | ⟨q', x, rfl⟩
    · rfl
    · simp only [List.concat_eq_append] at hq
      obtain ⟨a, na, _, ha, hl, hc⟩ := follow_snoc q' r r x hq
      have hm : r ∈ childrenOf ar := mem_children.2 ⟨a, na, ha, hl, by cases x <;> simp_all⟩
      obtain ⟨nr, hr⟩ : ∃ nr, ar[r]? = some nr := ⟨ar[r], List.getElem?_eq_getElem (by omega)⟩
      exact absurd rfl ((ht.par r nr hr).1 hm)
  | append_singleton p x ih =>
    intro q j hp hq
    obtain ⟨a, na, hfa, ha, hl, hc⟩ := follow_snoc p r j x hp
    rcases List.eq_nil_or_concat q with rfl | ⟨q', y, rfl⟩
    · simp only [follow] at hq; split at hq <;> simp at hq; subst hq
      have hm : r ∈ childrenOf ar := mem_children.2 ⟨a, na, ha, hl, by cases x <;> simp_all⟩
      obtain ⟨nr, hr⟩ : ∃ nr, ar[r]? = some nr := ⟨ar[r], List.getElem?_eq_getElem (by omega)⟩
      exact absurd rfl ((ht.par r nr hr).1 hm)
    · simp only [List.concat_eq_append] at hq ⊢
      obtain ⟨b, nb, hfb, hb, hlb, hcb⟩ := follow_snoc q' r j y hq
      obtain ⟨rfl, rfl⟩ := child_unique ht.nodup ha hb hl hlb (hc.trans hcb.symm)
      rw [ih q' a hfa hfb]

theorem follow_exists {ar : List Node} {k r : Nat} (ht : TreeAt ar k r) : ∀ n j, ar.length - j ≤ n → j < ar.length → ∃ p, follow ar r p = some j := by
  intro n
  induction n with
  | zero => intros; omega
  | succ n ih =>
    intro j hn hj
    by_cases hr : j = r
    · exact ⟨[], by subst hr; simp [follow]; exact hj⟩
    · have hm : j ∈ childrenOf ar := (ht.par j _ (List.getElem?_eq_getElem hj)).2 hr
      obtain ⟨a, na, ha, hl, hc⟩ := mem_children.1 hm
      have hka : k ≤ a := by by_contra h; have := ht.leaf a na ha (by omega); simp [this] at hl
      obtain ⟨_, h1, h2⟩ := ht.inner a na ha hka
      have hal := (List.getElem?_eq_some_iff.1 ha).1
      obtain ⟨p, hp⟩ := ih a (by omega) hal
      rcases hc with hc | hc
      · exact ⟨p ++ [false], by rw [follow_append ar p r a _ hp]; simp [follow, ha, hl, hc, hj]⟩
      · exact ⟨p ++ [true], by rw [follow_append ar p r a _ hp]; simp [follow, ha, hl, hc, hj]⟩

theorem leafPaths_nodup {ar : List Node} {k r : Nat} (ht : TreeAt ar k r) : ∀ fuel i p, follow ar r p = some i → 
   ((leafPaths ar fuel i p).map (·.1)).Nodup := by
  intro fuel
  induction fuel with
  | zero => intros; simp [leafPaths]
  | succ fuel ih =>
    intro i p hf
    simp only [leafPaths]
    cases hnd : ar[i]? with
    | none => simp
    | some nd =>
      simp only
      by_cases hl : nd.leaf = true
      · simp [hl]
      · rw [if_neg hl]
        have hk : k ≤ i := by
          by_contra hc
          exact hl (ht.leaf i nd hnd (by omega))
        obtain ⟨_, h1, h2⟩ := ht.inner i nd hnd hk
        have hi := (List.getElem?_eq_some_iff.1 hnd).1
        have f1 : follow ar r (p ++ [false]) = some nd.left.toNat := by
          rw [follow_append ar p r i _ hf]; simp [follow, hnd, hl]; omega
        have f2 : follow ar r (p ++ [true]) = some nd.right.toNat := by
          rw [follow_append ar p r i _ hf]; simp [follow, hnd, hl]; omega
        rw [List.map_append]
        refine List.nodup_append.2 ⟨ih _ _ f1, ih _ _ f2, ?_⟩
        intro a ha b hb hab
        obtain ⟨x, hx, rfl⟩ := List.mem_map.1 ha
        obtain ⟨y, hy, rfl⟩ := List.mem_map.1 hb
        have hx' := leafPaths_follow _ r _ _ x f1 hx
        have hy' := leafPaths_follow _ r _ _ y f2 hy
        have e := follow_unique ht _ _ _ hx'.1 (hab ▸ hy'.1)
        obtain ⟨u, hu⟩ := hx'.2.2
        obtain ⟨v, hv⟩ := hy'.2.2
        rw [← hu, ← hv] at e
        simp at e

end Sys2Proof.Machine
end

