-- ==== Sys2Proof/Laws/Merge.lean ====
section
/-! SUPPORT. Building the tree: what `ExtractMin` and the merge of the two lowest nodes do, said once, and that the arena's
invariant survives a merge (42_huffman.md R88-R92). -/

namespace Sys2Proof.Machine

/-! ## ExtractMin (R89) -/

/-- The order of R89 on (FREQ, index). -/
def keyLe (f i g j : Nat) : Prop := f < g ∨ (f = g ∧ i ≤ j)

/-- What the scan from index i on answers: the best so far, if no live node of the list beats it, or the first least live
node. -/
def ScanAnswer (l : List Node) (i : Nat) (best : Option (Nat × Nat)) : Option (Nat × Nat) → Prop
  | none => best = none ∧ ∀ nd ∈ l, nd.live = false
  | some (f, j) =>
    (best = some (f, j) ∧ ∀ nd ∈ l, nd.live = true → f ≤ nd.freq.toNat) ∨
    ∃ c nd, l[c]? = some nd ∧ nd.live = true ∧ j = i + c ∧ f = nd.freq.toNat ∧
      (∀ g k, best = some (g, k) → f < g) ∧
      ∀ c' z, l[c']? = some z → z.live = true → keyLe f c z.freq.toNat c'

theorem leastLiveFrom_spec : ∀ (l : List Node) (i : Nat) (best : Option (Nat × Nat)),
    ScanAnswer l i best (leastLiveFrom l i best) := by
  intro l
  induction l with
  | nil =>
    intro i best
    cases best with
    | none => simp [leastLiveFrom, ScanAnswer]
    | some p => simp [leastLiveFrom, ScanAnswer]
  | cons nd l ih =>
    intro i best
    by_cases hl : nd.live = true
    · -- the head competes
      have key : ∀ best', leastLiveFrom (nd :: l) i best = leastLiveFrom l (i + 1) best' →
          ((best' = some (nd.freq.toNat, i) ∧ ∀ g k, best = some (g, k) → nd.freq.toNat < g) ∨
            (best' = best ∧ ∃ g k, best = some (g, k) ∧ g ≤ nd.freq.toNat)) →
          ScanAnswer (nd :: l) i best (leastLiveFrom (nd :: l) i best) := ?_
      · cases hb : best with
        | none =>
          exact hb ▸ key (some (nd.freq.toNat, i)) (by simp [leastLiveFrom, hl, hb]) (.inl ⟨rfl, by simp [hb]⟩)
        | some p =>
          obtain ⟨g, k⟩ := p
          by_cases hlt : nd.freq.toNat < g
          · exact hb ▸ key (some (nd.freq.toNat, i)) (by simp [leastLiveFrom, hl, hb, hlt])
              (.inl ⟨rfl, by intro g' k' e; simp [hb] at e; omega⟩)
          · exact hb ▸ key (some (g, k)) (by simp [leastLiveFrom, hl, hb, hlt])
              (.inr ⟨hb.symm, g, k, hb, by omega⟩)
      · intro best' he hcase
        rw [he]
        have := ih (i + 1) best'
        revert this
        cases hr : leastLiveFrom l (i + 1) best' with
        | none =>
          rintro ⟨hn, -⟩
          rcases hcase with ⟨h, -⟩ | ⟨h, g, k, hg, -⟩
          · simp [h] at hn
          · rw [h, hg] at hn; simp at hn
        | some p =>
          obtain ⟨f, j⟩ := p
          rintro (⟨hb', hall⟩ | ⟨c, x, hc, hx, hj, hf, hlt, hmin⟩)
          · rcases hcase with ⟨h, h2⟩ | ⟨h, g, k, hg, hle⟩
            · rw [hb'] at h
              simp only [Option.some.injEq, Prod.mk.injEq] at h
              obtain ⟨rfl, rfl⟩ := h
              right
              refine ⟨0, nd, rfl, hl, rfl, rfl, h2, ?_⟩
              intro c' z hz hzl
              cases c' with
              | zero => simp at hz; subst hz; exact .inr ⟨rfl, le_rfl⟩
              | succ c' =>
                have := hall z (List.mem_of_getElem? (by simpa using hz)) hzl
                rcases Nat.lt_or_ge nd.freq.toNat z.freq.toNat with h | h
                · exact .inl h
                · exact .inr ⟨by omega, by omega⟩
            · left
              rw [hb'] at h
              refine ⟨h.symm, ?_⟩
              rw [hg] at h
              simp only [Option.some.injEq, Prod.mk.injEq] at h
              obtain ⟨rfl, rfl⟩ := h
              intro z hz hzl
              rcases List.mem_cons.1 hz with rfl | hz
              · exact hle
              · exact hall z hz hzl
          · right
            refine ⟨c + 1, x, by simpa using hc, hx, by omega, hf, ?_, ?_⟩
            · rcases hcase with ⟨h, h2⟩ | ⟨h, g, k, hg, hle⟩
              · intro g k hgk
                have := h2 g k hgk
                have := hlt _ _ h
                omega
              · intro g' k' hgk
                exact hlt g' k' (h.trans hgk)
            · intro c' z hz hzl
              cases c' with
              | zero =>
                simp at hz; subst hz
                rcases hcase with ⟨h, h2⟩ | ⟨h, g, k, hg, hle⟩
                · exact .inl (hlt _ _ h)
                · have := hlt g k (h.trans hg)
                  exact .inl (by omega)
              | succ c' =>
                rcases hmin c' z (by simpa using hz) hzl with h | h
                · exact .inl h
                · exact .inr ⟨h.1, by omega⟩
    · have he : leastLiveFrom (nd :: l) i best = leastLiveFrom l (i + 1) best := by simp [leastLiveFrom, hl]
      rw [he]
      have := ih (i + 1) best
      revert this
      cases hr : leastLiveFrom l (i + 1) best with
      | none =>
        rintro ⟨h1, h2⟩
        refine ⟨h1, ?_⟩
        intro z hz
        rcases List.mem_cons.1 hz with rfl | hz
        · simpa using hl
        · exact h2 z hz
      | some p =>
        obtain ⟨f, j⟩ := p
        rintro (⟨hb', hall⟩ | ⟨c, x, hc, hx, hj, hf, hlt, hmin⟩)
        · left
          refine ⟨hb', ?_⟩
          intro z hz hzl
          rcases List.mem_cons.1 hz with rfl | hz
          · exact absurd hzl hl
          · exact hall z hz hzl
        · right
          refine ⟨c + 1, x, by simpa using hc, hx, by omega, hf, hlt, ?_⟩
          intro c' z hz hzl
          cases c' with
          | zero => simp at hz; subst hz; exact absurd hzl hl
          | succ c' =>
            rcases hmin c' z (by simpa using hz) hzl with h | h
            · exact .inl h
            · exact .inr ⟨h.1, by omega⟩

/-- With no live node, `ExtractMin` has nothing to return. -/
theorem leastLive_none {ar : List Node} (h : leastLive ar = none) : ∀ nd ∈ ar, nd.live = false := by
  unfold leastLive at h
  have := leastLiveFrom_spec ar 0 none
  revert this
  cases hr : leastLiveFrom ar 0 none with
  | none => exact fun h => h.2
  | some p => simp [hr] at h

/-- The node `ExtractMin` returns is the first live node in the order (FREQ, index) (R89). -/
theorem leastLive_some {ar : List Node} {i : Nat} (h : leastLive ar = some i) :
    ∃ nd, ar[i]? = some nd ∧ nd.live = true ∧
      ∀ c z, ar[c]? = some z → z.live = true → keyLe nd.freq.toNat i z.freq.toNat c := by
  unfold leastLive at h
  have := leastLiveFrom_spec ar 0 none
  revert this
  cases hr : leastLiveFrom ar 0 none with
  | none => simp [hr] at h
  | some p =>
    obtain ⟨f, j⟩ := p
    simp [hr] at h
    rintro (⟨h1, -⟩ | ⟨c, nd, hc, hl, hj, hf, -, hmin⟩)
    · simp at h1
    · have : c = i := by omega
      subst this
      exact ⟨nd, hc, hl, by subst hf; exact hmin⟩

theorem killNode_set {ar : List Node} {i : Nat} {nd : Node} (h : ar[i]? = some nd) :
    killNode ar i = ar.set i { nd with live := false } := by
  apply List.ext_getElem?
  intro j
  obtain ⟨hi, he⟩ := List.getElem?_eq_some_iff.1 h
  rw [killNode, List.getElem?_modify, List.getElem?_set]
  by_cases hij : i = j
  · subst hij; simp [he, hi]
  · simp [hij]

/-- Losing one live node lowers the count of live nodes by one. -/
theorem countP_kill {ar : List Node} {i : Nat} {nd : Node} (h : ar[i]? = some nd) (hl : nd.live = true) :
    (ar.set i { nd with live := false }).countP (·.live) + 1 = ar.countP (·.live) := by
  induction ar generalizing i with
  | nil => simp at h
  | cons x ar ih =>
    cases i with
    | zero => simp at h; subst h; simp [hl]
    | succ i =>
      have := ih (i := i) (by simpa using h)
      simp only [List.set_cons_succ, List.countP_cons]
      omega

/-- What `ExtractMin` removes from the weight of the live nodes. -/
theorem liveWeight_kill {ar : List Node} {i : Nat} {nd : Node} (h : ar[i]? = some nd) (hl : nd.live = true) :
    liveWeight (ar.set i { nd with live := false }) + nd.freq.toNat = liveWeight ar := by
  induction ar generalizing i with
  | nil => simp at h
  | cons x ar ih =>
    cases i with
    | zero => simp at h; subst h; simp [liveWeight, hl]; omega
    | succ i =>
      have := ih (i := i) (by simpa using h)
      simp only [liveWeight, List.set_cons_succ] at this ⊢
      by_cases hx : x.live = true
      · simp only [List.filter_cons, hx, if_true, List.map_cons, List.sum_cons]; omega
      · simp only [List.filter_cons, hx, Bool.false_eq_true, if_false]; omega

theorem exists_live {ar : List Node} (h : 0 < ar.countP (·.live)) : ∃ i, leastLive ar = some i := by
  cases hl : leastLive ar with
  | some i => exact ⟨i, rfl⟩
  | none =>
    have := leastLive_none hl
    rw [List.countP_pos_iff] at h
    obtain ⟨nd, hm, hn⟩ := h
    simp [this nd hm] at hn

/-! ## The merge (R90) -/

/-- What a merge of two live nodes does: a and b are the first and the second live node in the order (FREQ, index). -/
theorem mergeTwo_spec {h : Huffman} (h2 : 2 ≤ h.arena.countP (·.live)) :
    ∃ a b x y, h.arena[a]? = some x ∧ h.arena[b]? = some y ∧ x.live = true ∧ y.live = true ∧ a ≠ b ∧
      keyLe x.freq.toNat a y.freq.toNat b ∧
      (∀ c z, h.arena[c]? = some z → z.live = true → c ≠ a → keyLe y.freq.toNat b z.freq.toNat c) ∧
      mergeTwo h = { h with
        arena := (h.arena.set a { x with live := false }).set b { y with live := false } ++
          [⟨x.freq + y.freq, false, 0, BitVec.ofNat 9 a, BitVec.ofNat 9 b, true⟩]
        nnodes := h.nnodes + 1
        live := h.live - 1 - 1 + 1 } := by
  obtain ⟨a, ha⟩ := exists_live (ar := h.arena) (by omega)
  obtain ⟨x, hx, hxl, hxmin⟩ := leastLive_some ha
  have hc := countP_kill hx hxl
  have hkill := killNode_set hx
  obtain ⟨b, hb⟩ := exists_live (ar := h.arena.set a { x with live := false }) (by omega)
  obtain ⟨y, hy, hyl, hymin⟩ := leastLive_some hb
  have hab : a ≠ b := by
    rintro rfl
    have hlt := (List.getElem?_eq_some_iff.1 hx).1
    rw [List.getElem?_set] at hy
    simp only [hlt, if_true, Option.some.injEq] at hy
    subst hy
    simp at hyl
  have hy' : h.arena[b]? = some y := by
    rw [List.getElem?_set] at hy
    rwa [if_neg hab] at hy
  refine ⟨a, b, x, y, hx, hy', hxl, hyl, hab, hxmin b y hy' hyl, ?_, ?_⟩
  · intro c z hz hzl hca
    apply hymin c z _ hzl
    rw [List.getElem?_set, if_neg (fun e => hca e.symm)]
    exact hz
  · have hk2 : killNode (h.arena.set a { x with live := false }) b =
        (h.arena.set a { x with live := false }).set b { y with live := false } := killNode_set hy
    have hlt := (List.getElem?_eq_some_iff.1 hx).1
    have hltb := (List.getElem?_eq_some_iff.1 hy').1
    have fa : nodeFreq ((h.arena.set a { x with live := false }).set b { y with live := false }) a = x.freq := by
      simp [nodeFreq, hab.symm, hlt]
    have fb : nodeFreq ((h.arena.set a { x with live := false }).set b { y with live := false }) b = y.freq := by
      simp [nodeFreq, hltb]
    simp [mergeTwo, extractMin, ha, hkill, hb, hk2, mergedNode, fa, fb]

end Sys2Proof.Machine
end

