-- ==== Sys2Proof/Laws/Arena.lean ====
section
/-! SUPPORT. The arena's invariant (42_huffman.md R87-R92): HUF_INIT establishes it, a merge keeps it, and with one live
node it is the one tree R92 describes. -/

namespace Sys2Proof.Machine

/-! ## The leaves (R88) -/

theorem leavesOf_length (t : Table Word) : (leavesOf t).length = presentCount t := by
  unfold leavesOf presentCount
  induction allSyms with
  | nil => rfl
  | cons s l ih =>
    by_cases h : t.at s = 0
    · simp only [List.filterMap_cons, List.countP_cons, h, if_true, ih]; rfl
    · have hb : (t.at s != 0) = true := bne_iff_ne.2 h
      simp only [List.filterMap_cons, List.countP_cons, h, if_false, hb, if_true, List.length_cons, ih]

theorem leavesOf_syms (t : Table Word) : (leavesOf t).map (·.sym) = allSyms.filter fun s => t.at s != 0 := by
  unfold leavesOf
  induction allSyms with
  | nil => rfl
  | cons s l ih =>
    by_cases h : t.at s = 0
    · simp only [List.filterMap_cons, List.filter_cons, h, if_true, ih]; rfl
    · have hb : (t.at s != 0) = true := bne_iff_ne.2 h
      simp only [List.filterMap_cons, List.filter_cons, h, if_false, hb, if_true, List.map_cons, ih]; rfl

theorem mem_leavesOf {t : Table Word} {nd : Node} :
    nd ∈ leavesOf t ↔ ∃ s, t.at s ≠ 0 ∧ nd = leafNode (t.at s) s := by
  unfold leavesOf
  simp only [List.mem_filterMap]
  constructor
  · rintro ⟨s, -, h⟩
    split at h
    · simp at h
    · exact ⟨s, ‹_›, by simpa using h.symm⟩
  · rintro ⟨s, h, rfl⟩
    exact ⟨s, mem_allSyms s, if_neg h⟩

theorem presentCount_le (t : Table Word) : presentCount t ≤ 256 := by
  have := List.countP_le_length (p := fun s => t.at s != 0) (l := allSyms)
  simpa [presentCount] using this

theorem liveWeight_append (l m : List Node) : liveWeight (l ++ m) = liveWeight l + liveWeight m := by
  simp [liveWeight]

/-- The leaves' weights add up to the total of the table. -/
theorem liveWeight_leavesOf (t : Table Word) : liveWeight (leavesOf t) = countBelow t 256 := by
  have key : ∀ l : List Byte, liveWeight (l.filterMap fun s => if t.at s = 0 then none else some (leafNode (t.at s) s))
      = (l.map fun s => (t.at s).toNat).sum := by
    intro l
    induction l with
    | nil => rfl
    | cons s l ih =>
      by_cases h : t.at s = 0
      · simp only [List.filterMap_cons, h, if_true, ih, List.map_cons, List.sum_cons]; simp
      · simp only [List.filterMap_cons, h, if_false, List.map_cons, List.sum_cons, ← ih]
        simp [liveWeight, leafNode]
  rw [leavesOf, key, countBelow, allSyms, List.map_map]
  rfl

/-! ## What a merge leaves of an arena's parts -/

/-- Taking a node out of the priority structure changes only its LIVE bit. -/
theorem getElem?_kill {ar : List Node} {a : Nat} {x : Node} (h : ar[a]? = some x) (i : Nat) :
    (ar.set a { x with live := false })[i]? =
      (ar[i]?).map fun nd => if i = a then { nd with live := false } else nd := by
  obtain ⟨ha, he⟩ := List.getElem?_eq_some_iff.1 h
  rw [List.getElem?_set]
  by_cases hi : a = i
  · subst hi; simp [ha, he]
  · simp only [hi, if_false]
    cases ar[i]? with
    | none => rfl
    | some nd => simp; intro e; exact absurd e.symm hi

theorem childrenOf_kill {ar : List Node} {a : Nat} {x : Node} (h : ar[a]? = some x) :
    childrenOf (ar.set a { x with live := false }) = childrenOf ar := by
  induction ar generalizing a with
  | nil => simp at h
  | cons y ar ih =>
    cases a with
    | zero => simp at h; subst h; rfl
    | succ a =>
      have := ih (a := a) (by simpa using h)
      simp only [childrenOf, List.set_cons_succ, List.flatMap_cons] at this ⊢
      rw [this]

theorem childrenOf_append (l m : List Node) : childrenOf (l ++ m) = childrenOf l ++ childrenOf m := by
  simp [childrenOf]

theorem nodeFreq_kill {ar : List Node} {a : Nat} {x : Node} (h : ar[a]? = some x) (i : Nat) :
    nodeFreq (ar.set a { x with live := false }) i = nodeFreq ar i := by
  unfold nodeFreq
  rw [getElem?_kill h]
  cases ar[i]? with
  | none => rfl
  | some nd => by_cases hi : i = a <;> simp [hi]

theorem nodeFreq_append {ar : List Node} {i : Nat} (h : i < ar.length) (m : List Node) :
    nodeFreq (ar ++ m) i = nodeFreq ar i := by
  unfold nodeFreq
  rw [List.getElem?_append_left h]

theorem take_kill {ar : List Node} {a : Nat} {x : Node} (h : ar[a]? = some x) (k : Nat) :
    ((ar.set a { x with live := false }).take k).map (fun nd => { nd with live := true }) =
      (ar.take k).map fun nd => { nd with live := true } := by
  apply List.ext_getElem?
  intro i
  simp only [List.getElem?_map, List.getElem?_take]
  split
  · rw [getElem?_kill h]
    cases ar[i]? with
    | none => rfl
    | some nd => by_cases hi : i = a <;> simp [hi]
  · rfl

/-! ## Consequences of the invariant -/

section
variable {h : Huffman} {f : FreqModel}

/-- Each of the first k nodes is the leaf of a present symbol, but for its LIVE bit. -/
theorem arena_leaf (hi : ArenaInv h f) {i : Nat} {nd : Node} (hn : h.arena[i]? = some nd)
    (hk : i < presentCount f.count) :
    f.count.at nd.sym ≠ 0 ∧ { nd with live := true } = leafNode (f.count.at nd.sym) nd.sym ∧ nd.leaf = true := by
  have h1 : ((h.arena.take (presentCount f.count)).map (fun nd => { nd with live := true }))[i]? =
      some { nd with live := true } := by
    simp [hk, hn]
  rw [hi.leaves] at h1
  obtain ⟨s, hs, he⟩ := mem_leavesOf.1 (List.mem_of_getElem? h1)
  have hsym : nd.sym = s := congrArg Node.sym he
  have hleaf : nd.leaf = true := congrArg Node.leaf he
  exact ⟨hsym ▸ hs, hsym ▸ he, hleaf⟩

theorem arena_forest (hi : ArenaInv h f) : Forest h.arena (presentCount f.count) where
  leaf := fun _ _ hn hk => (arena_leaf hi hn hk).2.2
  inner := fun i nd hn hk => ⟨(hi.inner i nd hn hk).1, (hi.inner i nd hn hk).2.1, (hi.inner i nd hn hk).2.2.1⟩

/-- A child's index is below some internal node's. -/
theorem child_lt (hi : ArenaInv h f) {c : Nat} (hc : c ∈ childrenOf h.arena) : c + 1 < h.arena.length := by
  obtain ⟨i, nd, hn, hl, hc⟩ := mem_children.1 hc
  have hlt := (List.getElem?_eq_some_iff.1 hn).1
  have hk : presentCount f.count ≤ i := by
    by_contra hk
    have := (arena_leaf hi hn (by omega)).2.2
    simp [hl] at this
  obtain ⟨-, h1, h2, -⟩ := hi.inner i nd hn hk
  rcases hc with rfl | rfl <;> omega

/-- The newest node is live: it is no node's child. -/
theorem last_live (hi : ArenaInv h f) {nd : Node} (hn : h.arena[h.arena.length - 1]? = some nd) : nd.live = true := by
  have hlt := (List.getElem?_eq_some_iff.1 hn).1
  by_contra hl
  have := child_lt hi ((hi.parents.2 _ nd hn).2 (by simpa using hl))
  omega

theorem live_pos (hi : ArenaInv h f) (hne : h.arena.length ≠ 0) : 0 < h.arena.countP (·.live) := by
  have hlt : h.arena.length - 1 < h.arena.length := by omega
  have := last_live hi (List.getElem?_eq_getElem hlt)
  exact List.countP_pos_iff.2 ⟨_, List.getElem_mem hlt, this⟩

theorem arena_length_le (hi : ArenaInv h f) : h.arena.length ≤ 2 * presentCount f.count - 1 := by
  have hb := hi.balance
  rw [hi.liveCount] at hb
  rcases Nat.eq_zero_or_pos h.arena.length with h0 | h0
  · omega
  · have := live_pos hi (by omega); omega

theorem leaves_le (hi : ArenaInv h f) : presentCount f.count ≤ h.arena.length := by
  have := congrArg List.length hi.leaves
  rw [leavesOf_length] at this
  simp at this
  omega

theorem two_live_ne {ar : List Node} : ∀ {a b : Nat} {x y : Node}, ar[a]? = some x → ar[b]? = some y →
    x.live = true → y.live = true → a ≠ b → 2 ≤ ar.countP (·.live) := by
  intro a b x y hx hy hxl hyl hab
  have h1 := countP_kill hx hxl
  have h2 : 0 < (ar.set a { x with live := false }).countP (·.live) := by
    refine List.countP_pos_iff.2 ⟨y, List.mem_of_getElem? (i := b) ?_, hyl⟩
    rw [getElem?_kill hx, hy]
    simp [hab.symm]
  omega

/-- With one live node, it is the last one. -/
theorem soleLive_last (hi : ArenaInv h f) (h1 : h.arena.countP (·.live) = 1) :
    (soleLive h.arena).toNat = h.arena.length - 1 := by
  have hne : h.arena.length ≠ 0 := by
    intro h0
    rw [List.length_eq_zero_iff.1 h0] at h1
    simp at h1
  have hlt : h.arena.length - 1 < h.arena.length := by omega
  have hl := last_live hi (List.getElem?_eq_getElem hlt)
  have : h.arena.findIdx (·.live) = h.arena.length - 1 := by
    rw [List.findIdx_eq hlt]
    refine ⟨hl, ?_⟩
    intro j hj
    by_contra hc
    have hc' : (h.arena[j]).live = true := by simpa using hc
    have := two_live_ne (List.getElem?_eq_getElem (by omega : j < h.arena.length)) (List.getElem?_eq_getElem hlt) hc' hl
      (by omega)
    omega
  have hk := presentCount_le f.count
  have hle := arena_length_le hi
  rw [soleLive, this]
  simp
  omega

/-- With one live node the arena is one tree whose root is the last node (R92). -/
theorem arena_tree (hi : ArenaInv h f) (h1 : h.arena.countP (·.live) = 1) :
    TreeAt h.arena (presentCount f.count) (h.arena.length - 1) where
  toForest := arena_forest hi
  nodup := hi.parents.1
  root := by
    have : h.arena.length ≠ 0 := by
      intro h0
      rw [List.length_eq_zero_iff.1 h0] at h1
      simp at h1
    omega
  par := by
    intro i nd hn
    rw [hi.parents.2 i nd hn]
    have hne := (List.getElem?_eq_some_iff.1 hn).1
    have hlt : h.arena.length - 1 < h.arena.length := by omega
    constructor
    · rintro hl rfl
      have := last_live hi hn
      simp [hl] at this
    · intro hne'
      by_contra hc
      have := two_live_ne hn (List.getElem?_eq_getElem hlt) (by simpa using hc)
        (last_live hi (List.getElem?_eq_getElem hlt)) hne'
      omega

end

/-! ## HUF_INIT establishes the invariant (R88) -/

theorem plantLeaves_arena {s : State} (hf : s.freq.total.toNat = countBelow s.freq.count 256) :
    ArenaInv (plantLeaves s).huf (plantLeaves s).freq := by
  have hlen := leavesOf_length s.freq.count
  have hk := presentCount_le s.freq.count
  have hleaf : ∀ {i : Nat} {nd : Node}, (leavesOf s.freq.count)[i]? = some nd → nd.leaf = true ∧ nd.live = true := by
    intro i nd h
    obtain ⟨x, -, rfl⟩ := mem_leavesOf.1 (List.mem_of_getElem? h)
    exact ⟨rfl, rfl⟩
  have hcount : (leavesOf s.freq.count).countP (·.live) = (leavesOf s.freq.count).length := by
    rw [List.countP_eq_length]
    intro nd hm
    obtain ⟨x, -, rfl⟩ := mem_leavesOf.1 hm
    rfl
  have hch : childrenOf (leavesOf s.freq.count) = [] := by
    rw [childrenOf, List.flatMap_eq_nil_iff]
    intro nd hm
    obtain ⟨x, -, rfl⟩ := mem_leavesOf.1 hm
    rfl
  constructor
  · show (BitVec.ofNat 10 (leavesOf s.freq.count).length).toNat = _
    simp [plantLeaves]; omega
  · show (BitVec.ofNat 10 (leavesOf s.freq.count).length).toNat = (leavesOf s.freq.count).countP (·.live)
    rw [hcount]; simp; omega
  · show (leavesOf s.freq.count).length + (BitVec.ofNat 10 (leavesOf s.freq.count).length).toNat = _
    simp [plantLeaves]; omega
  · show ((leavesOf s.freq.count).take (presentCount s.freq.count)).map _ = leavesOf s.freq.count
    rw [List.take_of_length_le (by omega)]
    conv_rhs => rw [← List.map_id (leavesOf s.freq.count)]
    apply List.map_congr_left
    intro nd hm
    obtain ⟨x, -, rfl⟩ := mem_leavesOf.1 hm
    rfl
  · intro i nd hn hge
    have := (List.getElem?_eq_some_iff.1 hn).1
    change i < (leavesOf s.freq.count).length at this
    change presentCount s.freq.count ≤ i at hge
    omega
  · show (childrenOf (leavesOf s.freq.count)).Nodup ∧ _
    refine ⟨by simp [hch], ?_⟩
    intro i nd hn
    have := hleaf hn
    change i ∈ childrenOf (leavesOf s.freq.count) ↔ _
    simp [hch, this.2]
  · show liveWeight (leavesOf s.freq.count) = s.freq.total.toNat
    rw [liveWeight_leavesOf, hf]

/-! ## A merge keeps the invariant (R90) -/

theorem mergeTwo_arena {h : Huffman} {f : FreqModel} (hi : ArenaInv h f) (h2 : 2 ≤ h.live.toNat) :
    ArenaInv (mergeTwo h) f ∧ (mergeTwo h).live.toNat + 1 = h.live.toNat := by
  have h0 := h2
  rw [hi.liveCount] at h2
  obtain ⟨a, b, x, y, hx, hy, hxl, hyl, hab, hle, hmin, he⟩ := mergeTwo_spec h2
  rw [he]
  have hk := presentCount_le f.count
  have hlen := arena_length_le hi
  have hkl := leaves_le hi
  have hlive := hi.liveCount
  have hal := (List.getElem?_eq_some_iff.1 hx).1
  have hbl := (List.getElem?_eq_some_iff.1 hy).1
  have hy1 : (h.arena.set a { x with live := false })[b]? = some y := by
    rw [getElem?_kill hx, hy]; simp [hab.symm]
  have hc1 := countP_kill hx hxl
  have hc2 := countP_kill hy1 hyl
  have hw1 := liveWeight_kill hx hxl
  have hw2 := liveWeight_kill hy1 hyl
  have hw := hi.weight
  have hT := f.total.isLt
  have hn9 : ∀ c, c < h.arena.length → (BitVec.ofNat 9 c).toNat = c := by
    intro c hc; simp; omega
  have hlv : (h.live - 1 - 1 + 1).toNat + 1 = h.live.toNat := by
    have := h.live.isLt
    bv_omega
  have hget : ∀ i, i < h.arena.length →
      (((h.arena.set a { x with live := false }).set b { y with live := false }) ++
          [⟨x.freq + y.freq, false, 0, BitVec.ofNat 9 a, BitVec.ofNat 9 b, true⟩])[i]? =
        (h.arena[i]?).map fun nd => if i = a ∨ i = b then { nd with live := false } else nd := by
    intro i hi'
    rw [List.getElem?_append_left (by simpa using hi'), getElem?_kill hy1, getElem?_kill hx]
    cases h.arena[i]? with
    | none => rfl
    | some nd =>
      by_cases ha : i = a
      · subst ha; simp [hab]
      · by_cases hb : i = b
        · subst hb; simp [ha]
        · simp [ha, hb]
  have hgetn : (((h.arena.set a { x with live := false }).set b { y with live := false }) ++
          [(⟨x.freq + y.freq, false, 0, BitVec.ofNat 9 a, BitVec.ofNat 9 b, true⟩ : Node)])[h.arena.length]? =
        some ⟨x.freq + y.freq, false, 0, BitVec.ofNat 9 a, BitVec.ofNat 9 b, true⟩ := by
    rw [List.getElem?_append_right (by simp)]; simp
  have hfreq : ∀ i, i < h.arena.length →
      nodeFreq (((h.arena.set a { x with live := false }).set b { y with live := false }) ++
          [⟨x.freq + y.freq, false, 0, BitVec.ofNat 9 a, BitVec.ofNat 9 b, true⟩]) i = nodeFreq h.arena i := by
    intro i hi'
    rw [nodeFreq_append (by simpa using hi'), nodeFreq_kill hy1, nodeFreq_kill hx]
  have hch : childrenOf (((h.arena.set a { x with live := false }).set b { y with live := false }) ++
          [(⟨x.freq + y.freq, false, 0, BitVec.ofNat 9 a, BitVec.ofNat 9 b, true⟩ : Node)]) =
        childrenOf h.arena ++ [a, b] := by
    rw [childrenOf_append, childrenOf_kill hy1, childrenOf_kill hx]
    simp only [childrenOf, List.flatMap_cons, List.flatMap_nil, Bool.false_eq_true, if_false, hn9 a hal, hn9 b hbl]
    simp
  have hna : a ∉ childrenOf h.arena := fun hm => by
    have := (hi.parents.2 a x hx).1 hm; simp [hxl] at this
  have hnb : b ∉ childrenOf h.arena := fun hm => by
    have := (hi.parents.2 b y hy).1 hm; simp [hyl] at this
  have hnf : ∀ {i nd}, h.arena[i]? = some nd → nodeFreq h.arena i = nd.freq := by
    intro i nd hn; simp [nodeFreq, hn]
  refine ⟨⟨?_, ?_, ?_, ?_, ?_, ⟨?_, ?_⟩, ?_⟩, hlv⟩
  · have := hi.nnodes
    simp only [List.length_append, List.length_set, List.length_singleton]
    have h10 := h.nnodes.isLt
    bv_omega
  · simp only [List.countP_append]
    simp only [List.countP_cons, List.countP_nil, if_true]
    omega
  · have := hi.balance
    simp only [List.length_append, List.length_set, List.length_singleton]
    omega
  · rw [List.take_append_of_le_length (by simpa using hkl), take_kill hy1, take_kill hx]
    exact hi.leaves
  · intro i nd hn hge
    rcases Nat.lt_or_ge i h.arena.length with hlt | hge'
    · rw [hget i hlt] at hn
      obtain ⟨md, hm, rfl⟩ := Option.map_eq_some_iff.1 hn
      obtain ⟨h1, h2', h3, h4⟩ := hi.inner i md hm hge
      have hl : md.left.toNat < h.arena.length := by omega
      have hr : md.right.toNat < h.arena.length := by omega
      by_cases hiab : i = a ∨ i = b
      · simp only [hiab, if_true]
        exact ⟨h1, h2', h3, by rw [hfreq _ hl, hfreq _ hr]; exact h4⟩
      · simp only [hiab, if_false]
        exact ⟨h1, h2', h3, by rw [hfreq _ hl, hfreq _ hr]; exact h4⟩
    · have hile : i = h.arena.length := by
        have := (List.getElem?_eq_some_iff.1 hn).1
        simp at this; omega
      subst hile
      rw [hgetn] at hn
      simp only [Option.some.injEq] at hn
      subst hn
      refine ⟨rfl, by rw [hn9 a hal]; exact hal, by rw [hn9 b hbl]; exact hbl, ?_⟩
      simp only [hn9 a hal, hn9 b hbl]
      rw [hfreq a hal, hfreq b hbl, hnf hx, hnf hy, BitVec.toNat_add, Nat.mod_eq_of_lt]
      omega
  · rw [hch]
    refine List.nodup_append.2 ⟨hi.parents.1, by simp [hab], ?_⟩
    intro c hc d hd
    simp at hd
    rcases hd with rfl | rfl
    · rintro rfl; exact hna hc
    · rintro rfl; exact hnb hc
  · intro i nd hn
    rw [hch]
    rcases Nat.lt_or_ge i h.arena.length with hlt | hge'
    · rw [hget i hlt] at hn
      obtain ⟨md, hm, rfl⟩ := Option.map_eq_some_iff.1 hn
      have := hi.parents.2 i md hm
      by_cases hiab : i = a ∨ i = b
      · simp [hiab]
      · have h1 : ¬ i = a := fun e => hiab (.inl e)
        have h2 : ¬ i = b := fun e => hiab (.inr e)
        simp [h1, h2, this]
    · have hile : i = h.arena.length := by
        have := (List.getElem?_eq_some_iff.1 hn).1
        simp at this; omega
      subst hile
      rw [hgetn] at hn
      simp only [Option.some.injEq] at hn
      subst hn
      constructor
      · intro hm
        rcases List.mem_append.1 hm with hm | hm
        · have := child_lt hi hm; omega
        · simp at hm; omega
      · intro hm; simp at hm
  · rw [liveWeight_append]
    have : liveWeight [(⟨x.freq + y.freq, false, 0, BitVec.ofNat 9 a, BitVec.ofNat 9 b, true⟩ : Node)] =
        x.freq.toNat + y.freq.toNat := by
      simp only [liveWeight, List.filter_cons, if_true, List.filter_nil, List.map_cons, List.map_nil, List.sum_cons,
        List.sum_nil, Nat.add_zero]
      rw [BitVec.toNat_add, Nat.mod_eq_of_lt]
      omega
    omega

end Sys2Proof.Machine
end

