-- ==== Sys2Proof/Laws/Arith.lean ====
section
/-! SUPPORT. The arithmetic unit's operations (43_arithmetic.md R99-R105): the cumulative table, the bit bound, the
rounded-up quotient, the trailing zeros, and what one narrowing does. -/

namespace Sys2Proof.Machine

theorem countBelow_succ (t : Table Word) (n : Nat) :
    countBelow t (n + 1) = countBelow t n + (t.at (BitVec.ofNat 8 n)).toNat := by
  simp [countBelow, List.range_succ]

theorem countBelow_mono (t : Table Word) {m n : Nat} (h : m ≤ n) : countBelow t m ≤ countBelow t n := by
  induction n with
  | zero => rw [Nat.le_zero.1 h]
  | succ n ih =>
    rcases Nat.lt_or_ge m (n + 1) with h' | h'
    · rw [countBelow_succ]
      exact le_trans (ih (by omega)) (Nat.le_add_right _ _)
    · rw [Nat.le_antisymm h h']

/-- The occurrences below a symbol and its own are those below the next. -/
theorem countBelow_sym (t : Table Word) (b : Byte) :
    countBelow t (b.toNat + 1) = countBelow t b.toNat + (t.at b).toNat := by
  rw [countBelow_succ]; simp

theorem countBelow_le_total (t : Table Word) (b : Byte) :
    countBelow t b.toNat + (t.at b).toNat ≤ countBelow t 256 := by
  rw [← countBelow_sym]
  exact countBelow_mono t (by have := b.isLt; omega)

theorem sumsFrom_getElem? (fs : List Word) : ∀ (c : Word) (i : Nat), i < fs.length →
    (sumsFrom c fs)[i]? = some (c + BitVec.ofNat 32 ((fs.take i).map (·.toNat)).sum) := by
  induction fs with
  | nil => intro c i h; simp at h
  | cons f fs ih =>
    intro c i h
    cases i with
    | zero => simp [sumsFrom]
    | succ i =>
      rw [sumsFrom, List.getElem?_cons_succ, ih _ _ (by simpa using h)]
      simp only [List.take_succ_cons, List.map_cons, List.sum_cons, Option.some.injEq]
      apply BitVec.eq_of_toNat_eq
      simp [BitVec.toNat_add, Nat.add_assoc]

/-- CUM_LO[b] is the number of occurrences below b (R99), as long as the whole count fits. -/
theorem cumTable_at (t : Table Word) (h : countBelow t 256 < 2 ^ 32) (b : Byte) :
    ((cumTable t).at b).toNat = countBelow t b.toNat := by
  have hb := b.isLt
  have h1 : ((sumsFrom 0 t.toList)[b.toNat]?) = some ((cumTable t).at b) := by
    rw [List.getElem?_eq_getElem (by simp [sumsFrom_length]; omega)]
    rfl
  rw [sumsFrom_getElem? _ _ _ (by simp; omega)] at h1
  have h2 : ((t.toList.take b.toNat).map (·.toNat)) =
      (List.range b.toNat).map fun c => (t.at (BitVec.ofNat 8 c)).toNat := by
    apply List.ext_getElem?
    intro i
    simp only [List.getElem?_map, List.getElem?_take]
    rcases Nat.lt_or_ge i b.toNat with hi | hi
    · have hi' : i < 256 := by omega
      rw [if_pos hi, List.getElem?_range hi]
      have : t.toList[i]? = some (t.at (BitVec.ofNat 8 i)) := by
        rw [List.getElem?_eq_getElem (by simpa using hi')]
        simp [Table.at, Nat.mod_eq_of_lt hi']
      rw [this]; rfl
    · rw [if_neg (by omega), List.getElem?_eq_none (by simpa using hi)]; rfl
  have h3 : countBelow t b.toNat < 2 ^ 32 :=
    lt_of_le_of_lt (countBelow_mono t (by omega : b.toNat ≤ 256)) h
  rw [h2] at h1
  rw [← Option.some.inj h1]
  unfold countBelow at h3 ⊢
  rw [BitVec.toNat_add, BitVec.toNat_ofNat, Nat.mod_eq_of_lt h3]
  simpa using h3

/-- The bit bound (R104) is the least b with width·2^b ≥ d, if there is one within the fuel. -/
theorem bitBound_spec : ∀ (fuel width d : Nat), d ≤ width * 2 ^ fuel →
    bitBound fuel width d ≤ fuel ∧ d ≤ width * 2 ^ bitBound fuel width d ∧
      ∀ c, c < bitBound fuel width d → width * 2 ^ c < d := by
  intro fuel
  induction fuel with
  | zero => intro width d h; exact ⟨le_rfl, h, by intro c hc; simp [bitBound] at hc⟩
  | succ fuel ih =>
    intro width d h
    unfold bitBound
    split
    · exact ⟨by omega, by simpa, by intro c hc; omega⟩
    · rename_i hlt
      obtain ⟨h1, h2, h3⟩ := ih (2 * width) d (by rw [Nat.pow_succ] at h; linarith)
      refine ⟨by omega, ?_, ?_⟩
      · rw [Nat.add_comm, Nat.pow_succ]; linarith
      · intro c hc
        cases c with
        | zero => simpa using hlt
        | succ c =>
          have := h3 c (by omega)
          rw [Nat.pow_succ]; linarith

/-- `ceil_div` (00_scope.md R10) is the least quotient that is not below. -/
theorem ceilDiv_spec {a b : Nat} (hb : 0 < b) :
    a ≤ ceilDiv a b * b ∧ ceilDiv a b * b < a + b ∧ ∀ m, a ≤ m * b → ceilDiv a b ≤ m := by
  unfold ceilDiv
  have h1 := Nat.div_add_mod (a + (b - 1)) b
  have h2 := Nat.mod_lt (a + (b - 1)) hb
  have h3 : (a + (b - 1)) / b * b = b * ((a + (b - 1)) / b) := Nat.mul_comm _ _
  refine ⟨by omega, by omega, ?_⟩
  intro m hm
  have : (a + (b - 1)) / b < m + 1 := by
    rw [Nat.div_lt_iff_lt_mul hb, Nat.add_mul]
    omega
  omega

/-- `tz` (R10): the odd part is what is left. -/
theorem trailingZeros_spec : ∀ (fuel n : Nat), 0 < n → n < 2 ^ fuel →
    ∃ z, n = z * 2 ^ trailingZeros fuel n ∧ z % 2 = 1 ∧ trailingZeros fuel n < fuel := by
  intro fuel
  induction fuel with
  | zero => intro n h0 h; simp at h; omega
  | succ fuel ih =>
    intro n h0 h
    unfold trailingZeros
    split
    · exact ⟨n, by simp, by assumption, by omega⟩
    · rename_i hodd
      obtain ⟨z, h1, h2, h3⟩ := ih (n / 2) (by omega) (by rw [Nat.pow_succ] at h; omega)
      refine ⟨z, ?_, h2, by omega⟩
      rw [Nat.add_comm, Nat.pow_succ]
      calc n = 2 * (n / 2) := by omega
        _ = 2 * (z * 2 ^ trailingZeros fuel (n / 2)) := by rw [← h1]
        _ = z * (2 ^ trailingZeros fuel (n / 2) * 2) := by ring

/-- A counter that has not reached 2^32 − 1 counts. -/
theorem bumpCount_toNat {c : Word} (d : Nat) (h : c.toNat + 1 < 2 ^ 32) : (bumpCount c d).toNat = c.toNat + 1 := by
  unfold bumpCount
  have hne : c ≠ BitVec.allOnes 32 := by
    rintro rfl
    simp at h
  rw [if_neg hne, BitVec.toNat_add]
  simp
  omega

/-- The interval a narrowing leaves (R102). -/
theorem narrowBy_width (s : State) (b : Byte) :
    (narrowBy s b).ari.h - (narrowBy s b).ari.l = (s.ari.h - s.ari.l) * (s.freq.count.at b).toNat := by
  simp only [narrowBy]
  rw [Nat.mul_add]
  omega

end Sys2Proof.Machine
end

