-- ==== Sys2Proof/Laws/Build.lean ====
section
/-! SUPPORT. HUF_MERGE and HUF_BUILD over the Huffman unit's invariant (42_huffman.md R90-R92): what one merge step and
the whole build leave. -/

namespace Sys2Proof.Machine

/-- What HUF_STAGE ≥ 1 says of the tree and HUF_ROOT: the part of the Huffman unit's invariant a merge step works on. -/
structure TreeInv (s : State) : Prop where
  begun : 1 ≤ s.stage.hufStage.toNat
  arena : ArenaInv s.huf s.freq
  merging : s.stage.hufStage = 1 → 2 ≤ s.huf.live.toNat
  complete : 2 ≤ s.stage.hufStage.toNat → s.huf.live.toNat ≤ 1
  root : 2 ≤ s.stage.hufStage.toNat →
    s.huf.root.toNat = if s.huf.arena.length = 0 then 0x1FF else s.huf.arena.length - 1

theorem stage_one {g : BitVec 2} : g = 1 ↔ g.toNat = 1 :=
  ⟨fun h => by rw [h]; rfl, fun h => BitVec.eq_of_toNat_eq h⟩

theorem live_one {l : BitVec 10} : l = 1 ↔ l.toNat = 1 :=
  ⟨fun h => by rw [h]; rfl, fun h => BitVec.eq_of_toNat_eq h⟩

/-- The unit's invariant is the tree's and the code table's (R88-R93). -/
theorem treeInv_of {s : State} (h : HuffmanInv s) (hs : 1 ≤ s.stage.hufStage.toNat) : TreeInv s where
  begun := hs
  arena := h.arena (by rintro e; rw [e] at hs; simp at hs)
  merging := h.merging
  complete := h.complete
  root := h.root

/-- With at most one live node, a merge step changes nothing once the tree is complete (R90: "a no-op, even at
HUF_STAGE = 3"). -/
theorem mergeStep_complete {s : State} (h : TreeInv s) (hs : 2 ≤ s.stage.hufStage.toNat) : mergeStep s = s := by
  have hl := h.complete hs
  have hb := h.arena.balance
  unfold mergeStep
  rw [if_neg (by omega)]
  unfold settleRoot
  split
  · rename_i h1
    have hc : s.huf.arena.countP (·.live) = 1 := by rw [← h.arena.liveCount, live_one.1 h1]
    have hlast := soleLive_last h.arena hc
    have hne : s.huf.arena.length ≠ 0 := by
      intro h0; rw [List.length_eq_zero_iff.1 h0] at hc; simp at hc
    have hr := h.root hs
    rw [if_neg hne] at hr
    have hroot : soleLive s.huf.arena = s.huf.root := BitVec.eq_of_toNat_eq (hlast.trans hr.symm)
    rw [hroot, if_neg (by intro e; rw [e] at hs; simp at hs)]
  · rfl

/-- While the tree is being merged, a merge step joins two nodes, and completes the tree when one is left (R90). -/
theorem mergeStep_merging {s : State} (h : TreeInv s) (hs : s.stage.hufStage = 1) :
    TreeInv (mergeStep s) ∧ (mergeStep s).huf.live.toNat + 1 = s.huf.live.toNat ∧
      (mergeStep s).stage = { s.stage with hufStage := if (mergeStep s).huf.live = 1 then 2 else 1 } := by
  have hl := h.merging hs
  obtain ⟨hm, hlive⟩ := mergeTwo_arena h.arena hl
  have he : mergeStep s = settleRoot { s with huf := mergeTwo s.huf } := by
    unfold mergeStep; rw [if_pos hl]
  rw [he]
  unfold settleRoot
  by_cases h1 : (mergeTwo s.huf).live = 1
  · rw [if_pos h1]
    have hc : (mergeTwo s.huf).arena.countP (·.live) = 1 := by rw [← hm.liveCount, live_one.1 h1]
    have hne : (mergeTwo s.huf).arena.length ≠ 0 := by
      intro h0; rw [List.length_eq_zero_iff.1 h0] at hc; simp at hc
    refine ⟨⟨?_, ?_, ?_, ?_, ?_⟩, ?_, ?_⟩
    · simp [hs]
    · exact ⟨hm.nnodes, hm.liveCount, hm.balance, hm.leaves, hm.inner, hm.parents, hm.weight⟩
    · simp [hs]
    · intro _; show (mergeTwo s.huf).live.toNat ≤ 1; rw [h1]; decide
    · intro _
      show (soleLive (mergeTwo s.huf).arena).toNat = if (mergeTwo s.huf).arena.length = 0 then _ else _
      rw [if_neg hne]; exact soleLive_last hm hc
    · exact hlive
    · show ({ s.stage with hufStage := _ } : Stage) = { s.stage with hufStage := if (mergeTwo s.huf).live = 1 then 2 else 1 }
      rw [if_pos h1, if_pos hs]
  · rw [if_neg h1]
    refine ⟨⟨h.begun, hm, ?_, ?_, ?_⟩, hlive, ?_⟩
    · intro _
      show 2 ≤ (mergeTwo s.huf).live.toNat
      have : (mergeTwo s.huf).live.toNat ≠ 1 := fun e => h1 (live_one.2 e)
      omega
    · intro h2
      have : s.stage.hufStage.toNat = 1 := stage_one.1 hs
      change 2 ≤ s.stage.hufStage.toNat at h2
      omega
    · intro h2
      have : s.stage.hufStage.toNat = 1 := stage_one.1 hs
      change 2 ≤ s.stage.hufStage.toNat at h2
      omega
    · show s.stage = { s.stage with hufStage := if (mergeTwo s.huf).live = 1 then 2 else 1 }
      rw [if_neg h1, ← hs]

/-- What a merge step never changes. -/
theorem mergeTwo_codes (h : Huffman) :
    (mergeTwo h).codeLen = h.codeLen ∧ (mergeTwo h).codeVal = h.codeVal ∧ (mergeTwo h).maxLen = h.maxLen := by
  unfold mergeTwo extractMin
  cases leastLive h.arena with
  | none => exact ⟨rfl, rfl, rfl⟩
  | some a =>
    simp only [Option.map_some]
    cases leastLive (killNode h.arena a) with
    | none => exact ⟨rfl, rfl, rfl⟩
    | some b => exact ⟨rfl, rfl, rfl⟩

/-- The whole of a state but the Huffman unit's arena registers and HUF_STAGE. -/
def sameButTree (s t : State) : Prop :=
  t = { s with huf := t.huf, stage := { s.stage with hufStage := t.stage.hufStage } } ∧
    t.huf.codeLen = s.huf.codeLen ∧ t.huf.codeVal = s.huf.codeVal ∧ t.huf.maxLen = s.huf.maxLen

theorem sameButTree_refl (s : State) : sameButTree s s := ⟨rfl, rfl, rfl, rfl⟩

theorem sameButTree_trans {s t u : State} (h : sameButTree s t) (h' : sameButTree t u) : sameButTree s u := by
  obtain ⟨h1, h2, h3, h4⟩ := h
  obtain ⟨g1, g2, g3, g4⟩ := h'
  refine ⟨?_, g2.trans h2, g3.trans h3, g4.trans h4⟩
  rw [g1, h1]

theorem sameButTree_settleRoot (s : State) : sameButTree s (settleRoot s) := by
  unfold settleRoot
  split <;> exact ⟨rfl, rfl, rfl, rfl⟩

theorem sameButTree_mergeStep (s : State) : sameButTree s (mergeStep s) := by
  unfold mergeStep
  split
  · have h : sameButTree s { s with huf := mergeTwo s.huf } := ⟨rfl, mergeTwo_codes s.huf⟩
    exact sameButTree_trans h (sameButTree_settleRoot _)
  · exact sameButTree_settleRoot s

theorem sameButTree_mergeUntilOne : ∀ (n : Nat) (s : State), sameButTree s (mergeUntilOne n s) := by
  intro n
  induction n with
  | zero => exact sameButTree_refl
  | succ n ih =>
    intro s
    unfold mergeUntilOne
    split
    · exact sameButTree_refl s
    · exact sameButTree_trans (sameButTree_mergeStep s) (ih _)

theorem sameButTree_buildTree (s : State) : sameButTree s (buildTree s) :=
  sameButTree_trans (sameButTree_mergeStep s) (sameButTree_mergeUntilOne _ _)

theorem mergeStep_inv {s : State} (h : TreeInv s) : TreeInv (mergeStep s) := by
  rcases Nat.lt_or_ge s.stage.hufStage.toNat 2 with hs | hs
  · exact (mergeStep_merging h (stage_one.2 (by have := h.begun; omega))).1
  · rw [mergeStep_complete h hs]; exact h

theorem mergeUntilOne_inv : ∀ (n : Nat) {s : State}, TreeInv s → s.huf.live.toNat ≤ n →
    TreeInv (mergeUntilOne n s) ∧ 2 ≤ (mergeUntilOne n s).stage.hufStage.toNat ∧
      ((mergeUntilOne n s).stage.hufStage = if s.stage.hufStage = 1 then 2 else s.stage.hufStage) := by
  intro n
  induction n with
  | zero =>
    intro s h hn
    have hb := h.begun
    have h1 : s.stage.hufStage ≠ 1 := by intro e; have := h.merging e; omega
    have h1' : s.stage.hufStage.toNat ≠ 1 := fun e => h1 (stage_one.2 e)
    exact ⟨h, by unfold mergeUntilOne; omega, by unfold mergeUntilOne; rw [if_neg h1]⟩
  | succ n ih =>
    intro s h hn
    unfold mergeUntilOne
    by_cases hl : s.huf.live.toNat ≤ 1
    · rw [if_pos hl]
      have hb := h.begun
      have h1 : s.stage.hufStage ≠ 1 := by intro e; have := h.merging e; omega
      have h1' : s.stage.hufStage.toNat ≠ 1 := fun e => h1 (stage_one.2 e)
      exact ⟨h, by omega, by rw [if_neg h1]⟩
    · rw [if_neg hl]
      have hs1 : s.stage.hufStage = 1 := by
        apply stage_one.2
        have hb := h.begun
        by_contra hc
        have := h.complete (by omega)
        omega
      obtain ⟨hi, hlive, hst⟩ := mergeStep_merging h hs1
      obtain ⟨h1, h2, h3⟩ := ih hi (by omega)
      refine ⟨h1, h2, ?_⟩
      rw [h3, if_pos hs1, hst]
      by_cases hone : (mergeStep s).huf.live = 1
      · simp
      · simp

/-- HUF_BUILD completes the tree (R91). -/
theorem buildTree_inv {s : State} (h : TreeInv s) :
    TreeInv (buildTree s) ∧ 2 ≤ (buildTree s).stage.hufStage.toNat ∧
      (buildTree s).stage.hufStage = if s.stage.hufStage = 1 then 2 else s.stage.hufStage := by
  obtain ⟨h1, h2, h3⟩ := mergeUntilOne_inv _ (mergeStep_inv h) (le_refl _)
  refine ⟨h1, h2, ?_⟩
  show (mergeUntilOne _ _).stage.hufStage = _
  rw [h3]
  by_cases hs : s.stage.hufStage = 1
  · obtain ⟨-, -, hst⟩ := mergeStep_merging h hs
    rw [hst, if_pos hs]
    by_cases hone : (mergeStep s).huf.live = 1
    · simp
    · simp
  · have hb := h.begun
    have : 2 ≤ s.stage.hufStage.toNat := by
      have : s.stage.hufStage.toNat ≠ 1 := fun e => hs (stage_one.2 e)
      omega
    rw [mergeStep_complete h this]

/-- HUF_INIT leaves the tree's invariant (R88). -/
theorem plantLeaves_inv {s : State} (hf : s.freq.total.toNat = countBelow s.freq.count 256) :
    TreeInv (plantLeaves s) := by
  have hlen := leavesOf_length s.freq.count
  have hk := presentCount_le s.freq.count
  have hlive : (plantLeaves s).huf.live.toNat = (leavesOf s.freq.count).length := by
    show (BitVec.ofNat 10 (leavesOf s.freq.count).length).toNat = _
    simp; omega
  have hst : (plantLeaves s).stage.hufStage = if (leavesOf s.freq.count).length ≤ 1 then 2 else 1 := rfl
  refine ⟨?_, plantLeaves_arena hf, ?_, ?_, ?_⟩
  · rw [hst]; split <;> decide
  · rw [hst, hlive]; split
    · intro h; exact absurd h (by decide)
    · intro _; omega
  · rw [hst, hlive]; split
    · intro _; assumption
    · intro h; exact absurd h (by decide)
  · rw [hst]; split
    · intro _
      show (if (leavesOf s.freq.count).length = 1 then (0 : BitVec 9) else nodeNone).toNat =
        if (leavesOf s.freq.count).length = 0 then 0x1FF else (leavesOf s.freq.count).length - 1
      have : (leavesOf s.freq.count).length = 0 ∨ (leavesOf s.freq.count).length = 1 := by omega
      rcases this with h | h <;> simp [h, nodeNone]
    · intro h; exact absurd h (by decide)

end Sys2Proof.Machine
end

