-- ==== Sys2Proof/Laws/Bus.lean ====
section
/-! SUPPORT. The host's accesses: where an access lands (20_memory.md R50), and the bytes of a buffer access in
little-endian order (R52). -/

namespace Sys2Proof.Machine

/-! Where an access lands. -/

theorem target_reg {s : State} {off : Word} {r : Reg} (hlt : off.toNat < 0x100) (h4 : off.toNat % 4 = 0)
    (h : regsInOrder[off.toNat / 4]? = some r) : target s .w32 off = some (.reg r) := by
  simp only [target, AccessWidth.bytes]
  rw [if_neg (by omega), if_neg (by omega), if_neg (by omega), if_pos trivial, if_pos hlt, h]; rfl

/-- The table windows of R50 are the offsets `windowWord` answers at. -/
theorem windowWord_some (s : State) {off : Nat} (h : inTableWindow off) : ∃ v, windowWord s off = some v := by
  unfold windowWord inTableWindow at *
  repeat' split
  all_goals first | exact ⟨_, rfl⟩ | omega

theorem target_window (s : State) {off : Nat} (h4 : off % 4 = 0) (h : inTableWindow off) :
    ∃ v, windowWord s off = some v ∧ target s .w32 (BitVec.ofNat 32 off) = some (.window v) := by
  obtain ⟨v, hv⟩ := windowWord_some s h
  refine ⟨v, hv, ?_⟩
  unfold inTableWindow at h
  have e : (BitVec.ofNat 32 off).toNat = off := by simp; omega
  simp only [target, AccessWidth.bytes, e]
  rw [if_neg (by omega), if_neg (by omega), if_neg (by omega), if_pos trivial, if_neg (by omega), hv]; rfl

theorem bytes_pos (w : AccessWidth) : 0 < w.bytes := by cases w <;> decide

theorem ibufSize_le {s : State} (h : s.params.valid) : s.ibufSize ≤ 2 ^ 24 :=
  Nat.pow_le_pow_right (by decide) h.1.2
theorem obufSize_le {s : State} (h : s.params.valid) : s.obufSize ≤ 2 ^ 24 :=
  Nat.pow_le_pow_right (by decide) h.2.1.2

theorem base_mod (w : AccessWidth) (a b : Nat) (hb : b % 4 = 0) : (b + a) % w.bytes = a % w.bytes := by
  cases w <;> simp only [AccessWidth.bytes] <;> omega

theorem target_ibuf {s : State} (hv : s.params.valid) {w : AccessWidth} {a : Nat} (ha : a % w.bytes = 0)
    (hlt : a < s.ibufSize) : target s w (BitVec.ofNat 32 (0x1000000 + a)) = some (.ibuf a) := by
  have hsz := ibufSize_le hv
  have e : (BitVec.ofNat 32 (0x1000000 + a)).toNat = 0x1000000 + a := by simp; omega
  have := base_mod w a 0x1000000 rfl
  simp only [target, e]
  rw [if_neg (by omega), if_pos (by omega)]
  simp

theorem target_obuf {s : State} (hv : s.params.valid) {w : AccessWidth} {a : Nat} (ha : a % w.bytes = 0)
    (hlt : a < s.obufSize) : target s w (BitVec.ofNat 32 (0x2000000 + a)) = some (.obuf a) := by
  have h1 := ibufSize_le hv
  have h2 := obufSize_le hv
  have e : (BitVec.ofNat 32 (0x2000000 + a)).toNat = 0x2000000 + a := by simp; omega
  have := base_mod w a 0x2000000 rfl
  simp only [target, e]
  rw [if_neg (by omega), if_neg (by omega), if_pos (by omega)]
  simp

/-! The bytes of an access. -/

theorem scatterBytes_other : ∀ (n a : Nat) (v : Word) (m : Memory) (x : Nat), (x < a ∨ a + n ≤ x) →
    (scatterBytes n a v m).read x = m.read x := by
  intro n
  induction n with
  | zero => intros; rfl
  | succ n ih =>
    intro a v m x h
    rw [scatterBytes, ih _ _ _ _ (by omega), memory_read_write_other _ _ (by omega)]

theorem scatterBytes_at : ∀ (n a : Nat) (v : Word) (m : Memory) (j : Nat), j < n →
    (scatterBytes n a v m).read (a + j) = some (v.extractLsb' (8 * j) 8) := by
  intro n
  induction n with
  | zero => intros; omega
  | succ n ih =>
    intro a v m j h
    rw [scatterBytes]
    cases j with
    | zero =>
      rw [scatterBytes_other _ _ _ _ _ (by omega), Nat.add_zero, memory_read_write_same]
      congr 1
    | succ j =>
      rw [show a + (j + 1) = a + 1 + j by omega, ih _ _ _ _ (by omega)]
      congr 1
      ext i hi
      simp
      congr 1
      omega

theorem gatherBytes_at (f : Nat → Byte) : ∀ (n a : Nat), n ≤ 4 → ∀ j, j < n →
    (gatherBytes f n a).extractLsb' (8 * j) 8 = f (a + j) := by
  intro n
  induction n with
  | zero => intros; omega
  | succ n ih =>
    intro a hn j h
    rw [gatherBytes]
    cases j with
    | zero =>
      ext i hi
      simp [hi]
      omega
    | succ j =>
      rw [show a + (j + 1) = a + 1 + j by omega, ← ih (a + 1) (by omega) j (by omega)]
      ext i hi
      simp
      have h2 : ¬ (8 * (j + 1) + i < 8) := by omega
      have h3 : 8 * (j + 1) + i - 8 = 8 * j + i := by omega
      have h4 : 8 * (j + 1) + i < 32 := by omega
      simp [h3, h4, h2, BitVec.getLsbD_of_ge (f a) (8 * (j + 1) + i) (by omega)]

/-! The fields of a register word, as a sum. -/

theorem or_shift_toNat {k : Nat} {hi lo : Word} (h : lo.toNat < 2 ^ k) (hh : hi.toNat * 2 ^ k < 2 ^ 32) :
    (lo ||| (hi <<< k)).toNat = lo.toNat + 2 ^ k * hi.toNat := by
  have : (hi <<< k).toNat = 2 ^ k * hi.toNat := by
    rw [BitVec.toNat_shiftLeft, Nat.shiftLeft_eq, Nat.mod_eq_of_lt hh, Nat.mul_comm]
  rw [BitVec.toNat_or, this, Nat.or_comm, Nat.add_comm, Nat.two_pow_add_eq_or_of_lt h]

theorem or_bitAt_toNat {k : Nat} {lo : Word} (x : Bool) (h : lo.toNat < 2 ^ k) (hk : k < 32) :
    (lo ||| bitAt k x).toNat = lo.toNat + 2 ^ k * x.toNat := by
  have e : ((BitVec.ofBool x).setWidth 32 : Word).toNat = x.toNat := by cases x <;> rfl
  have h2 : 2 ^ k < 2 ^ 32 := Nat.pow_lt_pow_right (by decide) hk
  unfold bitAt
  rw [or_shift_toNat h (by rw [e]; cases x <;> simp; omega), e]

end Sys2Proof.Machine
end

