-- ==== Sys2Proof/Laws/Codes.lean ====
section
/-! SUPPORT. The code table (42_huffman.md R93-R96): HUF_CODES gives every present symbol its leaf's path, the lengths
fill the code space, and HUF_CANON gives the codes whose values are the running sums of the shares before them. -/

namespace Sys2Proof.Machine

/-! ## Bit strings -/

/-- A string that another begins with has that one's leading bits as its value. -/
theorem bitsVal_append (p q : List Bool) : bitsVal (p ++ q) = bitsVal p * 2 ^ q.length + bitsVal q := by
  induction p with
  | nil => simp [bitsVal]
  | cons x p ih => simp only [List.cons_append, bitsVal, ih, List.length_append, Nat.pow_add]; ring

/-! ## The codes of a tree (R93) -/

section
variable (s : State)
@[simp] theorem extractCodes_arena : (extractCodes s).huf.arena = s.huf.arena := by simp [extractCodes]
@[simp] theorem extractCodes_root : (extractCodes s).huf.root = s.huf.root := by simp [extractCodes]
@[simp] theorem extractCodes_nnodes : (extractCodes s).huf.nnodes = s.huf.nnodes := by simp [extractCodes]
@[simp] theorem extractCodes_live : (extractCodes s).huf.live = s.huf.live := by simp [extractCodes]
@[simp] theorem extractCodes_codeLen : (extractCodes s).huf.codeLen = (treeCodes s.huf).1 := by simp [extractCodes]
@[simp] theorem extractCodes_codeVal : (extractCodes s).huf.codeVal = (treeCodes s.huf).2 := by simp [extractCodes]
@[simp] theorem extractCodes_stage :
    (extractCodes s).stage = { s.stage with hufStage := 3, hufCanon := false } := by simp [extractCodes]
end

theorem setCode_fst (t : CodeTables) (s x : Byte) (len val : Nat) :
    (setCode t s len val).1.at x = if x = s then BitVec.ofNat 9 len else t.1.at x := table_at_put _ _ _ _

theorem setCode_snd (t : CodeTables) (s x : Byte) (len val : Nat) :
    (setCode t s len val).2.at x = if x = s then BitVec.ofNat 256 val else t.2.at x := table_at_put _ _ _ _

/-- A symbol no path belongs to keeps its code. -/
theorem foldl_setPath_other : ∀ (l : List (Nat × Byte × List Bool)) (t : CodeTables) (s : Byte),
    s ∉ l.map (·.2.1) → (l.foldl setPath t).1.at s = t.1.at s ∧ (l.foldl setPath t).2.at s = t.2.at s := by
  intro l
  induction l with
  | nil => intro t s _; exact ⟨rfl, rfl⟩
  | cons x l ih =>
    intro t s hs
    simp only [List.map_cons, List.mem_cons, not_or] at hs
    obtain ⟨h1, h2⟩ := ih (setPath t x) s hs.2
    rw [List.foldl_cons, h1, h2, setPath, setCode_fst, setCode_snd, if_neg hs.1, if_neg hs.1]
    exact ⟨rfl, rfl⟩

/-- A symbol of exactly one path gets that path's code. -/
theorem foldl_setPath_mem : ∀ (l : List (Nat × Byte × List Bool)) (t : CodeTables) (x : Nat × Byte × List Bool),
    (l.map (·.2.1)).Nodup → x ∈ l →
    (l.foldl setPath t).1.at x.2.1 = BitVec.ofNat 9 x.2.2.length ∧
      (l.foldl setPath t).2.at x.2.1 = BitVec.ofNat 256 (bitsVal x.2.2) := by
  intro l
  induction l with
  | nil => intro t x _ h; simp at h
  | cons y l ih =>
    intro t x hn hx
    simp only [List.map_cons, List.nodup_cons] at hn
    rcases List.mem_cons.1 hx with rfl | hx
    · obtain ⟨h1, h2⟩ := foldl_setPath_other l (setPath t x) x.2.1 hn.1
      rw [List.foldl_cons, h1, h2, setPath, setCode_fst, setCode_snd, if_pos rfl, if_pos rfl]
      exact ⟨rfl, rfl⟩
    · exact ih _ x hn.2 hx

section
variable {h : Huffman} {f : FreqModel}

/-- The symbol of a leaf determines the leaf (R88: one leaf per symbol). -/
theorem leaf_sym_inj (hi : ArenaInv h f) {i j : Nat} {x y : Node} (hx : h.arena[i]? = some x) (hy : h.arena[j]? = some y)
    (hik : i < presentCount f.count) (hjk : j < presentCount f.count) (hs : x.sym = y.sym) : i = j := by
  have hm : ((h.arena.take (presentCount f.count)).map (fun nd => nd.sym)) = allSyms.filter fun s => f.count.at s != 0 := by
    rw [← leavesOf_syms, ← hi.leaves, List.map_map]; rfl
  have hn : ((h.arena.take (presentCount f.count)).map (fun nd => nd.sym)).Nodup := by
    rw [hm]; exact allSyms_nodup.filter _
  refine (List.getElem?_inj (l := (h.arena.take (presentCount f.count)).map (fun nd => nd.sym)) ?_ hn).1 ?_
  · have := (List.getElem?_eq_some_iff.1 hx).1; simp; omega
  · simp [hik, hjk, hx, hy, hs]

/-- Every present symbol has its leaf. -/
theorem leaf_of_present (hi : ArenaInv h f) {s : Byte} (hs : f.count.at s ≠ 0) :
    ∃ i nd, h.arena[i]? = some nd ∧ i < presentCount f.count ∧ nd.sym = s := by
  have hm : ((h.arena.take (presentCount f.count)).map (fun nd => nd.sym)) = allSyms.filter fun s => f.count.at s != 0 := by
    rw [← leavesOf_syms, ← hi.leaves, List.map_map]; rfl
  have : s ∈ ((h.arena.take (presentCount f.count)).map (fun nd => nd.sym)) := by
    rw [hm]; exact List.mem_filter.2 ⟨mem_allSyms s, bne_iff_ne.2 hs⟩
  obtain ⟨nd, hnd, rfl⟩ := List.mem_map.1 this
  obtain ⟨i, hi'⟩ := List.mem_iff_getElem?.1 hnd
  rw [List.getElem?_take] at hi'
  split at hi'
  · exact ⟨i, nd, hi', ‹_›, rfl⟩
  · simp at hi'

/-- A leaf is one of the first k nodes. -/
theorem leaf_lt (hi : ArenaInv h f) {i : Nat} {nd : Node} (hn : h.arena[i]? = some nd) (hl : nd.leaf = true) :
    i < presentCount f.count := by
  by_contra hk
  have := (hi.inner i nd hn (by omega)).1
  simp [hl] at this

/-- The code table HUF_CODES extracts from a tree of two symbols or more (R93, R95). -/
theorem treeCodes_paths (hi : ArenaInv h f) (h1 : h.arena.countP (·.live) = 1)
    (hr : h.root.toNat = h.arena.length - 1) (hk : 2 ≤ presentCount f.count) :
    (∀ s, f.count.at s = 0 → (treeCodes h).1.at s = 0 ∧ (treeCodes h).2.at s = 0) ∧
    (∀ s, f.count.at s ≠ 0 → ∃ p n nd, follow h.arena h.root.toNat p = some n ∧ h.arena[n]? = some nd ∧
      nd.leaf = true ∧ nd.sym = s ∧ 1 ≤ p.length ∧ p.length ≤ 255 ∧
      ((treeCodes h).1.at s).toNat = p.length ∧ ((treeCodes h).2.at s).toNat = bitsVal p) ∧
    ((allSyms.filter fun b => (treeCodes h).1.at b != 0).map fun b => 2 ^ (256 - ((treeCodes h).1.at b).toNat)).sum
      = 2 ^ 256 := by
  have hb := hi.balance
  rw [hi.liveCount, h1] at hb
  have hk256 := presentCount_le f.count
  have ht := arena_tree hi h1
  have hlt : h.arena.length - 1 < h.arena.length := by omega
  have hroot : h.root ≠ nodeNone := by
    intro e; rw [e] at hr; simp [nodeNone] at hr; omega
  have hnl : (h.arena[h.arena.length - 1]).leaf = false :=
    (hi.inner _ _ (List.getElem?_eq_getElem hlt) (by omega)).1
  have he : treeCodes h = (leafPaths h.arena h.arena.length (h.arena.length - 1) []).foldl setPath
      (Vector.replicate 256 0, Vector.replicate 256 0) := by
    unfold treeCodes
    simp only [hroot, if_false, hr, List.getElem?_eq_getElem hlt, hnl, Bool.false_eq_true]
    exact visit_eq h.arena h.arena.length (h.arena.length - 1) [] _
  have hf0 : follow h.arena (h.arena.length - 1) [] = some (h.arena.length - 1) := by
    simp only [follow, if_pos hlt]
  have hpath := fun x hx => leafPaths_follow h.arena.length (h.arena.length - 1) (h.arena.length - 1) [] x hf0 hx
  have hlen := fun x hx => leafPaths_len (arena_forest hi) h.arena.length (h.arena.length - 1) [] x hx
  have hnodup : ((leafPaths h.arena h.arena.length (h.arena.length - 1) []).map (·.2.1)).Nodup := by
    have hn := leafPaths_nodup ht h.arena.length (h.arena.length - 1) [] hf0
    have hinj : ∀ x ∈ leafPaths h.arena h.arena.length (h.arena.length - 1) [],
        ∀ y ∈ leafPaths h.arena h.arena.length (h.arena.length - 1) [], x.2.1 = y.2.1 → x.1 = y.1 := by
      intro x hx y hy hxy
      obtain ⟨-, ⟨nx, hnx, hlx, hsx⟩, -⟩ := hpath x hx
      obtain ⟨-, ⟨ny, hny, hly, hsy⟩, -⟩ := hpath y hy
      exact leaf_sym_inj hi hnx hny (leaf_lt hi hnx hlx) (leaf_lt hi hny hly) (by rw [hsx, hsy, hxy])
    have hn' : (leafPaths h.arena h.arena.length (h.arena.length - 1) []).Nodup := List.Nodup.of_map _ hn
    refine (List.nodup_map_iff_inj_on hn').2 ?_
    intro x hx y hy hxy
    exact (List.inj_on_of_nodup_map hn) hx hy (hinj x hx y hy hxy)
  have hsome : ∀ s, f.count.at s ≠ 0 → ∃ x ∈ leafPaths h.arena h.arena.length (h.arena.length - 1) [], x.2.1 = s := by
    intro s hs
    obtain ⟨i, nd, hnd, hik, rfl⟩ := leaf_of_present hi hs
    obtain ⟨p, hp⟩ := follow_exists ht _ i (le_refl _) (List.getElem?_eq_some_iff.1 hnd).1
    have := follow_leafPaths (arena_forest hi) p h.arena.length (h.arena.length - 1) [] i nd (by omega) hp hnd
      (arena_leaf hi hnd hik).2.2
    exact ⟨_, this, rfl⟩
  have hpres : ∀ x ∈ leafPaths h.arena h.arena.length (h.arena.length - 1) [], f.count.at x.2.1 ≠ 0 := by
    intro x hx
    obtain ⟨-, ⟨nd, hnd, hl, hs⟩, -⟩ := hpath x hx
    exact hs ▸ (arena_leaf hi hnd (leaf_lt hi hnd hl)).1
  have hlen1 : ∀ x ∈ leafPaths h.arena h.arena.length (h.arena.length - 1) [], 1 ≤ x.2.2.length ∧ x.2.2.length ≤ 255 := by
    intro x hx
    refine ⟨?_, by have := hlen x hx; simp at this; omega⟩
    by_contra h0
    have hnil : x.2.2 = [] := List.length_eq_zero_iff.1 (by omega)
    obtain ⟨hf, ⟨nd, hnd, hl, -⟩, -⟩ := hpath x hx
    rw [hnil, hf0] at hf
    have : x.1 = h.arena.length - 1 := by simpa using hf.symm
    have := leaf_lt hi hnd hl
    omega
  have hval : ∀ x ∈ leafPaths h.arena h.arena.length (h.arena.length - 1) [],
      ((treeCodes h).1.at x.2.1).toNat = x.2.2.length ∧ ((treeCodes h).2.at x.2.1).toNat = bitsVal x.2.2 := by
    intro x hx
    obtain ⟨e1, e2⟩ := foldl_setPath_mem _ (Vector.replicate 256 0, Vector.replicate 256 0) x hnodup hx
    have h255 := (hlen1 x hx).2
    rw [he, e1, e2]
    refine ⟨by simp; omega, ?_⟩
    simp only [BitVec.toNat_ofNat]
    exact Nat.mod_eq_of_lt (lt_of_lt_of_le (bitsVal_lt _) (Nat.pow_le_pow_right (by norm_num) (by omega)))
  refine ⟨?_, ?_, ?_⟩
  · intro s hs
    have : s ∉ (leafPaths h.arena h.arena.length (h.arena.length - 1) []).map (·.2.1) := by
      intro hm
      obtain ⟨x, hx, rfl⟩ := List.mem_map.1 hm
      exact hpres x hx hs
    obtain ⟨e1, e2⟩ := foldl_setPath_other _ (Vector.replicate 256 0, Vector.replicate 256 0) s this
    rw [he, e1, e2]
    simp
  · intro s hs
    obtain ⟨x, hx, rfl⟩ := hsome s hs
    obtain ⟨hf, ⟨nd, hnd, hl, hsym⟩, -⟩ := hpath x hx
    exact ⟨x.2.2, x.1, nd, by rw [hr]; exact hf, hnd, hl, hsym, (hlen1 x hx).1, (hlen1 x hx).2, hval x hx⟩
  · have hperm : (allSyms.filter fun b => (treeCodes h).1.at b != 0).Perm
        ((leafPaths h.arena h.arena.length (h.arena.length - 1) []).map (·.2.1)) := by
      refine (List.perm_ext_iff_of_nodup (allSyms_nodup.filter _) hnodup).2 ?_
      intro s
      constructor
      · intro hm
        have hne := bne_iff_ne.1 (List.mem_filter.1 hm).2
        by_cases hs : f.count.at s = 0
        · have hnot : s ∉ (leafPaths h.arena h.arena.length (h.arena.length - 1) []).map (·.2.1) := by
            intro hm
            obtain ⟨x, hx, rfl⟩ := List.mem_map.1 hm
            exact hpres x hx hs
          have := (foldl_setPath_other _ (Vector.replicate 256 0, Vector.replicate 256 0) s hnot).1
          rw [he, this] at hne
          simp at hne
        · obtain ⟨x, hx, hxs⟩ := hsome s hs
          exact List.mem_map.2 ⟨x, hx, hxs⟩
      · intro hm
        obtain ⟨x, hx, rfl⟩ := List.mem_map.1 hm
        refine List.mem_filter.2 ⟨mem_allSyms _, bne_iff_ne.2 ?_⟩
        intro e
        have h1 := (hval x hx).1
        have h2 := (hlen1 x hx).1
        rw [e] at h1
        simp at h1
        omega
    rw [(hperm.map _).sum_eq, List.map_map]
    have := leafPaths_kraft (arena_forest hi) h.arena.length (h.arena.length - 1) [] (by omega) hlt (by simp; omega)
    simp only [List.length_nil, Nat.sub_zero] at this
    rw [← this]
    congr 1
    apply List.map_congr_left
    intro x hx
    simp only [Function.comp_apply, (hval x hx).1]

/-- The code of a single symbol is "0" (R94). -/
theorem treeCodes_single (hi : ArenaInv h f) (hr : h.root.toNat = h.arena.length - 1)
    (hlen : h.arena.length = 1) (hk : presentCount f.count = 1) :
    ∃ x, f.count.at x ≠ 0 ∧ (∀ s, f.count.at s ≠ 0 → s = x) ∧
      ∀ s, (treeCodes h).1.at s = (if s = x then 1 else 0) ∧ (treeCodes h).2.at s = 0 := by
  have hlt : 0 < h.arena.length := by omega
  have hn := List.getElem?_eq_getElem hlt
  obtain ⟨h1, h2, h3⟩ := arena_leaf hi hn (by omega)
  have hroot : h.root ≠ nodeNone := by
    intro e; rw [e] at hr; simp [nodeNone] at hr; omega
  have hr0 : h.root.toNat = 0 := by omega
  refine ⟨(h.arena[0]).sym, h1, ?_, ?_⟩
  · intro s hs
    obtain ⟨i, nd, hnd, hik, rfl⟩ := leaf_of_present hi hs
    have : i = 0 := by omega
    subst this
    rw [hn] at hnd
    simp only [Option.some.injEq] at hnd
    rw [hnd]
  · intro s
    have he : treeCodes h = setCode (Vector.replicate 256 0, Vector.replicate 256 0) (h.arena[0]).sym 1 0 := by
      unfold treeCodes
      simp only [hroot, if_false, hr0, hn, h3, if_true]
    rw [he, setCode_fst, setCode_snd]
    constructor
    · split <;> simp
    · split <;> simp

/-- With no symbol there is no code (R93). -/
theorem treeCodes_empty (hr : h.root = nodeNone) (s : Byte) :
    (treeCodes h).1.at s = 0 ∧ (treeCodes h).2.at s = 0 := by
  unfold treeCodes
  simp [hr]

end

/-! ## The canonical codes (R96) -/

/-- The share of the code space a symbol's code takes, in units of 2^-256. -/
def share (lens : Table (BitVec 9)) (s : Byte) : Nat := 2 ^ (256 - (lens.at s).toNat)

theorem canonFrom_other (lens : Table (BitVec 9)) : ∀ (l : List Byte) (code len : Nat) (t : Table (BitVec 256)) (s : Byte),
    s ∉ l → (canonFrom lens l code len t).at s = t.at s := by
  intro l
  induction l with
  | nil => intros; rfl
  | cons x l ih =>
    intro code len t s hs
    simp only [List.mem_cons, not_or] at hs
    rw [canonFrom, ih _ _ _ _ hs.2, table_at_put_other _ _ hs.1]

/-- From a code on, each further code is the sum of the shares before it, in units of its own share. -/
theorem canonFrom_sums (lens : Table (BitVec 9)) : ∀ (l : List Byte) (code len : Nat) (t : Table (BitVec 256)),
    len ≤ 255 → (∀ s ∈ l, len ≤ (lens.at s).toNat ∧ (lens.at s).toNat ≤ 255) →
    l.Pairwise (fun a b => (lens.at a).toNat ≤ (lens.at b).toNat) → l.Nodup →
    (code + 1) * 2 ^ (256 - len) + (l.map (share lens)).sum ≤ 2 ^ 256 →
    ∀ pre s post, l = pre ++ s :: post →
      ((canonFrom lens l code len t).at s).toNat * share lens s = (code + 1) * 2 ^ (256 - len) + (pre.map (share lens)).sum := by
  intro l
  induction l with
  | nil => intro _ _ _ _ _ _ _ _ pre s post h; simp at h
  | cons x l ih =>
    intro code len t hlen hall hpw hnd hsum pre s post hl
    obtain ⟨hx1, hx2⟩ := hall x (by simp)
    have hnext : ((code + 1) <<< ((lens.at x).toNat - len)) * 2 ^ (256 - (lens.at x).toNat) = (code + 1) * 2 ^ (256 - len) := by
      rw [Nat.shiftLeft_eq, Nat.mul_assoc, ← Nat.pow_add]
      congr 2
      omega
    simp only [List.map_cons, List.sum_cons] at hsum
    have hpos : 0 < 2 ^ (256 - (lens.at x).toNat) := Nat.two_pow_pos _
    cases pre with
    | nil =>
      simp only [List.nil_append, List.cons.injEq] at hl
      obtain ⟨rfl, rfl⟩ := hl
      rw [canonFrom, canonFrom_other _ _ _ _ _ _ (List.nodup_cons.1 hnd).1, table_at_put_same]
      simp only [List.map_nil, List.sum_nil, Nat.add_zero, share]
      rw [BitVec.toNat_ofNat, Nat.mod_eq_of_lt, hnext]
      by_contra hc
      have : 2 ^ 256 * 1 ≤ (code + 1) <<< ((lens.at x).toNat - len) * 2 ^ (256 - (lens.at x).toNat) :=
        Nat.mul_le_mul (by omega) hpos
      rw [hnext] at this
      have hs : 0 < share lens x := hpos
      omega
    | cons y pre =>
      simp only [List.cons_append, List.cons.injEq] at hl
      obtain ⟨rfl, rfl⟩ := hl
      rw [canonFrom]
      have := ih ((code + 1) <<< ((lens.at x).toNat - len)) (lens.at x).toNat
        (t.put x (BitVec.ofNat 256 ((code + 1) <<< ((lens.at x).toNat - len)))) hx2
        (fun s hs => ⟨(List.pairwise_cons.1 hpw).1 s hs, (hall s (by simp [hs])).2⟩)
        (List.pairwise_cons.1 hpw).2 (List.nodup_cons.1 hnd).2
        (by rw [Nat.add_mul, hnext, Nat.one_mul]; simp only [share] at hsum ⊢; omega) pre s post rfl
      rw [this, Nat.add_mul, hnext, Nat.one_mul]
      simp only [List.map_cons, List.sum_cons, share]
      omega

theorem canonLe_total (lens : Table (BitVec 9)) (a b : Byte) : canonLe lens a b ∨ canonLe lens b a := by
  unfold canonLe; omega

theorem canonLe_trans {lens : Table (BitVec 9)} {a b c : Byte} (h : canonLe lens a b) (h' : canonLe lens b c) :
    canonLe lens a c := by
  unfold canonLe at *; omega

theorem canonLe_antisymm {lens : Table (BitVec 9)} {a b : Byte} (h : canonLe lens a b) (h' : canonLe lens b a) :
    a = b := by
  unfold canonLe at *
  exact BitVec.eq_of_toNat_eq (by omega)

/-- The list of R96 is sorted, has no symbol twice and holds the coded symbols. -/
theorem canonList_spec (lens : Table (BitVec 9)) :
    (canonList lens).Pairwise (canonLe lens) ∧ (canonList lens).Nodup ∧ ∀ s, s ∈ canonList lens ↔ lens.at s ≠ 0 := by
  have hp := List.perm_insertionSort (canonLe lens) (allSyms.filter fun s => lens.at s != 0)
  refine ⟨?_, ?_, ?_⟩
  · have : Std.Total (canonLe lens) := ⟨canonLe_total lens⟩
    have : IsTrans Byte (canonLe lens) := ⟨fun _ _ _ => canonLe_trans⟩
    exact List.pairwise_insertionSort (canonLe lens) _
  · exact hp.nodup_iff.2 (allSyms_nodup.filter _)
  · intro s
    unfold canonList
    rw [hp.mem_iff, List.mem_filter]
    exact ⟨fun h => bne_iff_ne.1 h.2, fun h => ⟨mem_allSyms s, bne_iff_ne.2 h⟩⟩

theorem canonVals_other (lens : Table (BitVec 9)) (vals : Table (BitVec 256)) {s : Byte} (hs : lens.at s = 0) :
    (canonVals lens vals).at s = vals.at s := by
  have hn : s ∉ canonList lens := fun hm => ((canonList_spec lens).2.2 s).1 hm hs
  unfold canonVals
  cases hl : canonList lens with
  | nil => rfl
  | cons x rest =>
    rw [hl] at hn
    simp only [List.mem_cons, not_or] at hn
    simp only
    rw [canonFrom_other _ _ _ _ _ _ hn.2, table_at_put_other _ _ hn.1]

/-- Each canonical code, in units of its own share, is the sum of the shares before it in the list of R96. -/
theorem canonVals_sums {lens : Table (BitVec 9)} (vals : Table (BitVec 256)) (hlen : ∀ s, (lens.at s).toNat ≤ 255)
    (hsum : ((canonList lens).map (share lens)).sum ≤ 2 ^ 256) {pre post : List Byte} {s : Byte}
    (hl : canonList lens = pre ++ s :: post) :
    ((canonVals lens vals).at s).toNat * share lens s = (pre.map (share lens)).sum := by
  obtain ⟨hpw, hnd, hmem⟩ := canonList_spec lens
  unfold canonVals
  cases hc : canonList lens with
  | nil => rw [hc] at hl; simp at hl
  | cons x rest =>
    rw [hc] at hl hpw hnd hsum
    simp only
    have hr := (List.nodup_cons.1 hnd).1
    cases pre with
    | nil =>
      simp only [List.nil_append, List.cons.injEq] at hl
      obtain ⟨rfl, rfl⟩ := hl
      rw [canonFrom_other _ _ _ _ _ _ hr, table_at_put_same]
      simp
    | cons y pre =>
      simp only [List.cons_append, List.cons.injEq] at hl
      obtain ⟨rfl, rfl⟩ := hl
      simp only [List.map_cons, List.sum_cons] at hsum ⊢
      have hle : ∀ {a b}, canonLe lens a b → (lens.at a).toNat ≤ (lens.at b).toNat := by
        intro a b h; unfold canonLe at h; omega
      have := canonFrom_sums lens (pre ++ s :: post) 0 (lens.at x).toNat (vals.put x 0) (hlen x)
        (fun s hs => ⟨hle ((List.pairwise_cons.1 hpw).1 s hs), hlen s⟩)
        ((List.pairwise_cons.1 hpw).2.imp hle) (List.nodup_cons.1 hnd).2
        (by simpa [share] using hsum) pre s post rfl
      rw [this]
      simp [share]

/-- Canonical codes are prefix-free: no code's value, cut to a shorter length, is another's (R95). -/
theorem canonVals_separate {lens : Table (BitVec 9)} (vals : Table (BitVec 256)) (hlen : ∀ s, (lens.at s).toNat ≤ 255)
    (hsum : ((canonList lens).map (share lens)).sum ≤ 2 ^ 256) :
    (∀ s, lens.at s ≠ 0 → ((canonVals lens vals).at s).toNat < 2 ^ (lens.at s).toNat) ∧
    ∀ x y, x ≠ y → lens.at x ≠ 0 → lens.at y ≠ 0 →
      ∀ r, r < 2 ^ ((lens.at y).toNat - (lens.at x).toNat) → (lens.at x).toNat ≤ (lens.at y).toNat →
        ((canonVals lens vals).at y).toNat ≠
          ((canonVals lens vals).at x).toNat * 2 ^ ((lens.at y).toNat - (lens.at x).toNat) + r := by
  obtain ⟨hpw, hnd, hmem⟩ := canonList_spec lens
  have hshare : ∀ s, share lens s * 2 ^ (lens.at s).toNat = 2 ^ 256 := by
    intro s
    have := hlen s
    rw [share, ← Nat.pow_add]; congr 1; omega
  have hspos : ∀ s, 0 < share lens s := fun s => Nat.two_pow_pos _
  refine ⟨?_, ?_⟩
  · intro s hs
    obtain ⟨pre, post, hl⟩ := List.append_of_mem ((hmem s).2 hs)
    have h1 := canonVals_sums vals hlen hsum hl
    rw [hl, List.map_append, List.sum_append, List.map_cons, List.sum_cons] at hsum
    by_contra hc
    have h2 : 2 ^ (lens.at s).toNat * share lens s ≤ ((canonVals lens vals).at s).toNat * share lens s :=
      Nat.mul_le_mul_right _ (by omega)
    have := hshare s
    have := hspos s
    rw [Nat.mul_comm] at h2
    omega
  · intro x y hxy hx hy r hr hle heq
    obtain ⟨pre, post, hl⟩ := List.append_of_mem ((hmem x).2 hx)
    have hX := canonVals_sums vals hlen hsum hl
    have hym : y ∈ pre ++ x :: post := hl ▸ (hmem y).2 hy
    have hsh : share lens x = 2 ^ ((lens.at y).toNat - (lens.at x).toNat) * share lens y := by
      have := hlen y
      rw [share, share, ← Nat.pow_add]; congr 1; omega
    -- the value of y, in units of 2^-256
    have hY : ((canonVals lens vals).at y).toNat * share lens y =
        ((canonVals lens vals).at x).toNat * share lens x + r * share lens y := by
      rw [heq, hsh]; ring
    have hrs : r * share lens y < share lens x := by
      rw [hsh]; exact Nat.mul_lt_mul_of_pos_right hr (hspos y)
    rcases List.mem_append.1 hym with hyp | hyp
    · -- y before x
      obtain ⟨p, q, hp⟩ := List.append_of_mem hyp
      have hl2 : canonList lens = p ++ y :: (q ++ x :: post) := by rw [hl, hp]; simp
      have hY2 := canonVals_sums vals hlen hsum hl2
      rw [hp, List.map_append, List.sum_append, List.map_cons, List.sum_cons] at hX
      have := hspos y
      omega
    · rcases List.mem_cons.1 hyp with rfl | hyp
      · exact hxy rfl
      · obtain ⟨p, q, hp⟩ := List.append_of_mem hyp
        have hl2 : canonList lens = (pre ++ x :: p) ++ y :: q := by rw [hl, hp]; simp
        have hY2 := canonVals_sums vals hlen hsum hl2
        rw [List.map_append, List.sum_append, List.map_cons, List.sum_cons] at hY2
        omega

/-! ## The unit after HUF_INIT, HUF_BUILD and HUF_CODES -/

/-- The arena's invariant speaks of no code and no root. -/
theorem arenaInv_congr {h h' : Huffman} {f : FreqModel} (h1 : h'.nnodes = h.nnodes) (h2 : h'.live = h.live)
    (h3 : h'.arena = h.arena) (hi : ArenaInv h f) : ArenaInv h' f := by
  obtain ⟨a, b, c, d, e, k, g⟩ := hi
  constructor
  · rw [h1, h3]; exact a
  · rw [h2, h3]; exact b
  · rw [h2, h3]; exact c
  · rw [h3]; exact d
  · rw [h3]; exact e
  · rw [h3]; exact k
  · rw [h3]; exact g

/-- A table, a whole build and its codes: the Huffman unit's invariant (R92). -/
theorem huffmanInv_build {s : State} (h : FreqInv s) : HuffmanInv (extractCodes (buildTree (plantLeaves s))) ∧
    (extractCodes (buildTree (plantLeaves s))).freq = s.freq := by
  obtain ⟨ht, h2, -⟩ := buildTree_inv (plantLeaves_inv h.total)
  have hb : (buildTree (plantLeaves s)).freq = s.freq := by rw [(sameButTree_buildTree _).1]; rfl
  generalize buildTree (plantLeaves s) = u at *
  refine ⟨⟨?_, ?_, ?_, ?_, ?_, ?_⟩, hb⟩
  · intro _
    rw [extractCodes_freq]
    exact arenaInv_congr (by simp) (by simp) (by simp) ht.arena
  · intro h; simp at h
  · intro _; rw [extractCodes_live]; exact ht.complete h2
  · intro _; rw [extractCodes_root, extractCodes_arena]; exact ht.root h2
  · intro _
    have h1 : treeCodes (extractCodes u).huf = treeCodes u.huf := by simp [treeCodes]
    rw [h1]
    simp
  · intro h; simp at h

end Sys2Proof.Machine
end

