-- ==== Sys2Proof/Laws/Encoding.lean ====
section
/-! SUPPORT. The fields of a packed command word, the word of its fields, and what a table row admits. -/

namespace Sys2Proof

@[simp] theorem opcOf_packWord (o m : Byte) (l : BitVec 16) : opcOf (packWord o m l) = o := by
  apply BitVec.eq_of_getLsbD_eq
  intro i hi
  simp only [opcOf, packWord, BitVec.getLsbD_extractLsb', BitVec.getLsbD_append]
  rw [show 24 + i - 16 = 8 + i by omega]
  have : ¬ 24 + i < 16 := by omega
  simp [hi, this]

@[simp] theorem midOf_packWord (o m : Byte) (l : BitVec 16) : midOf (packWord o m l) = m := by
  apply BitVec.eq_of_getLsbD_eq
  intro i hi
  simp only [midOf, packWord, BitVec.getLsbD_extractLsb', BitVec.getLsbD_append]
  simp [hi]

@[simp] theorem lowOf_packWord (o m : Byte) (l : BitVec 16) : lowOf (packWord o m l) = l := by
  apply BitVec.eq_of_getLsbD_eq
  intro i hi
  simp only [lowOf, packWord, BitVec.getLsbD_extractLsb', BitVec.getLsbD_append]
  simp [hi]

/-- Every word is made of its three fields (R64). -/
theorem packWord_fields (w : Word) : packWord (opcOf w) (midOf w) (lowOf w) = w := by
  apply BitVec.eq_of_getLsbD_eq
  intro i hi
  simp only [opcOf, midOf, lowOf, packWord, BitVec.getLsbD_extractLsb', BitVec.getLsbD_append]
  by_cases h : i < 16
  · simp [h]
  · by_cases h2 : i - 16 < 8
    · simp [h, h2]; rw [show 16 + (i - 16) = i by omega]
    · simp [h, h2]; rw [show 24 + (i - 16 - 8) = i by omega]; simp; intro _; omega

theorem packWord_inj {a b c d : Byte} {e f : BitVec 16} :
    packWord a c e = packWord b d f ↔ a = b ∧ c = d ∧ e = f := by
  constructor
  · intro h
    exact ⟨by simpa using congrArg opcOf h, by simpa using congrArg midOf h, by simpa using congrArg lowOf h⟩
  · rintro ⟨rfl, rfl, rfl⟩; rfl

/-- The match column of R66. -/
theorem shifted_opcode (o : Byte) : (o.setWidth 32 <<< 24 : Word) = packWord o 0 0 := by
  apply BitVec.eq_of_getLsbD_eq
  intro i hi
  simp only [packWord, BitVec.getLsbD_append, BitVec.getLsbD_shiftLeft, BitVec.getLsbD_setWidth]
  by_cases h : i < 16
  · simp [h]; omega
  · by_cases h2 : i - 16 < 8
    · simp [h, h2]; omega
    · simp [h, h2, show ¬ i < 24 by omega, hi, show i - 16 - 8 = i - 24 by omega]; intros; omega

/-- A mask acts on each field. -/
theorem packWord_and (a c a' c' : Byte) (e e' : BitVec 16) :
    packWord a c e &&& packWord a' c' e' = packWord (a &&& a') (c &&& c') (e &&& e') := by
  apply BitVec.eq_of_getLsbD_eq
  intro i hi
  simp only [packWord, BitVec.getLsbD_and, BitVec.getLsbD_append]
  split <;> [rfl; (split <;> rfl)]

theorem byte_and_mask (a : Byte) : a &&& 255#8 = a := by
  rw [show (255#8 : Byte) = BitVec.allOnes 8 by decide, BitVec.and_allOnes]

theorem low_and_mask (a : BitVec 16) : a &&& 65535#16 = a := by
  rw [show (65535#16) = BitVec.allOnes 16 by decide, BitVec.and_allOnes]

/-! What the rows of each format admit (R66). -/

theorem rowN_admits (m : String) (o : Byte) (w : Word) :
    (rowN m o).admits w = true ↔ opcOf w = o ∧ midOf w = 0 ∧ lowOf w = 0 := by
  conv_lhs => rw [← packWord_fields w]
  simp only [OpcodeRow.admits, rowN, shifted_opcode]
  rw [show (0xFFFFFFFF : Word) = packWord 0xFF 0xFF 0xFFFF by decide, packWord_and]
  simp only [beq_iff_eq, Bool.and_eq_true, Bool.not_false, Bool.true_or, and_true, packWord_inj]
  simp [byte_and_mask, low_and_mask]

theorem rowS_admits (m : String) (o : Byte) (w : Word) :
    (rowS m o).admits w = true ↔ opcOf w = o ∧ lowOf w = 0 := by
  conv_lhs => rw [← packWord_fields w]
  simp only [OpcodeRow.admits, rowS, shifted_opcode]
  rw [show (0xFF00FFFF : Word) = packWord 0xFF 0x00 0xFFFF by decide, packWord_and]
  simp only [beq_iff_eq, Bool.and_eq_true, Bool.not_false, Bool.true_or, and_true, packWord_inj]
  simp [byte_and_mask, low_and_mask]

theorem rowP_admits (m : String) (o : Byte) (w : Word) :
    (rowP m o).admits w = true ↔ opcOf w = o ∧ (midOf w).toNat ≤ 16 := by
  conv_lhs => rw [← packWord_fields w]
  simp only [OpcodeRow.admits, rowP, shifted_opcode]
  rw [show (0xFF000000 : Word) = packWord 0xFF 0x00 0 by decide, packWord_and]
  simp only [beq_iff_eq, Bool.and_eq_true, packWord_inj]
  simp [byte_and_mask]

theorem rowF_admits (m : String) (o : Byte) (w : Word) :
    (rowF m o).admits w = true ↔ opcOf w = o ∧ midOf w = 0 ∧ (lowOf w).extractLsb' 1 15 = 0 := by
  conv_lhs => rw [← packWord_fields w]
  simp only [OpcodeRow.admits, rowF, shifted_opcode]
  rw [show (0xFFFFFFFE : Word) = packWord 0xFF 0xFF 0xFFFE by decide, packWord_and]
  simp only [beq_iff_eq, Bool.and_eq_true, Bool.not_false, Bool.true_or, and_true, packWord_inj]
  have low : lowOf w &&& 65534#16 = 0 ↔ (lowOf w).extractLsb' 1 15 = 0 := by
    have split : (lowOf w &&& 65534#16) = (lowOf w).extractLsb' 1 15 ++ (0#1) := by
      apply BitVec.eq_of_getLsbD_eq
      intro i hi
      have hm : (0xFFFE#16).getLsbD i = decide (1 ≤ i) := by interval_cases i <;> decide
      rw [BitVec.getLsbD_and, hm, BitVec.getLsbD_append]
      rcases Nat.eq_zero_or_pos i with rfl | hp
      · simp
      · simp [show ¬ i < 1 by omega, show 1 + (i - 1) = i by omega, show i - 1 < 15 by omega,
          show 1 ≤ i by omega]
    constructor
    · intro h
      rw [split] at h
      apply BitVec.eq_of_getLsbD_eq; intro i hi
      have := congrArg (fun v => BitVec.getLsbD v (i + 1)) h
      rw [BitVec.getLsbD_append] at this
      simpa using this
    · intro h; rw [split, h]; decide
  rw [← low]
  simp [byte_and_mask]

end Sys2Proof
end

