-- ==== Sys2Proof/Laws/Stream.lean ====
section
/-! SUPPORT. The pass over an input range whose bytes are known (10_state.md R26, R32): the rule by which a claim about
the whole range follows from one about a byte. -/

namespace Sys2Proof.Machine

/-- The byte of a known input at a position. -/
theorem inputIs_read {s : State} {bs : List Byte} (h : s.inputIs bs) {i : Nat} {b : Byte} (hb : bs[i]? = some b) :
    s.ibuf.read (s.cfg.inBase.toNat + i) = some b := by
  have hi : i < bs.length := by
    rcases Nat.lt_or_ge i bs.length with h | h
    · exact h
    · simp [List.getElem?_eq_none h] at hb
  have := congrArg (fun l => l[i]?) h.2
  simpa [hi, (List.getElem?_eq_some_iff.1 hb).2] using this

/-- From byte i on: if every byte's step completes, keeps the input as it is and carries `R` on, the pass completes
with `R` of the whole range. -/
theorem streamFrom_completes {body : Nat → Byte → State → CmdResult} {R : List Byte → State → Prop} {ib : Memory}
    {cf : HostCfg} {bs : List Byte}
    (hread : ∀ i b, bs[i]? = some b → ib.read (cf.inBase.toNat + i) = some b)
    (hstep : ∀ pre b post t, bs = pre ++ b :: post → R pre t → t.ibuf = ib → t.cfg = cf →
      ∃ u, body pre.length b t = .ok u ∧ u.ibuf = ib ∧ u.cfg = cf ∧
        R (pre ++ [b]) { u with inPos := BitVec.ofNat 32 (pre.length + 1) }) :
    ∀ post pre t, bs = pre ++ post → R pre t → t.ibuf = ib → t.cfg = cf →
      ∃ u, streamFrom body post.length pre.length t = .ok u ∧ R bs u ∧ u.ibuf = ib ∧ u.cfg = cf := by
  intro post
  induction post with
  | nil =>
    intro pre t hbs hR hi hc
    exact ⟨t, rfl, by simpa [hbs] using hR, hi, hc⟩
  | cons b post ih =>
    intro pre t hbs hR hi hc
    obtain ⟨u, hu, hui, huc, huR⟩ := hstep pre b post t hbs hR hi hc
    have hb : bs[pre.length]? = some b := by simp [hbs]
    have := ih (pre ++ [b]) { u with inPos := BitVec.ofNat 32 (pre.length + 1) } (by simp [hbs]) huR hui huc
    obtain ⟨v, hv, hrest⟩ := this
    refine ⟨v, ?_, hrest⟩
    rw [List.length_cons, streamFrom_known (by rw [hi, hc]; exact hread _ _ hb), hu]
    simpa using hv

/-- The pass over the whole input range. -/
theorem stream_completes {body : Nat → Byte → State → CmdResult} {R : List Byte → State → Prop} {s : State}
    {bs : List Byte} (hin : s.inputIs bs) (h0 : R [] { s with inPos := 0 })
    (hstep : ∀ pre b post t, bs = pre ++ b :: post → R pre t → t.ibuf = s.ibuf → t.cfg = s.cfg →
      ∃ u, body pre.length b t = .ok u ∧ u.ibuf = s.ibuf ∧ u.cfg = s.cfg ∧
        R (pre ++ [b]) { u with inPos := BitVec.ofNat 32 (pre.length + 1) }) :
    ∃ u, stream body s = .ok u ∧ R bs u ∧ u.ibuf = s.ibuf ∧ u.cfg = s.cfg := by
  have := streamFrom_completes (ib := s.ibuf) (cf := s.cfg) (bs := bs) (fun i b hb => inputIs_read hin hb) hstep bs []
    { s with inPos := 0 } rfl h0 rfl rfl
  rwa [hin.1] at this

/-- The other direction, from byte i on: of a pass that completes, `R` holds of the whole range if every byte's step that
completes carries it on. -/
theorem streamFrom_ok {body : Nat → Byte → State → CmdResult} {R : List Byte → State → Prop} {ib : Memory}
    {cf : HostCfg} {bs : List Byte}
    (hread : ∀ i b, bs[i]? = some b → ib.read (cf.inBase.toNat + i) = some b)
    (hstep : ∀ pre b post t u, bs = pre ++ b :: post → R pre t → t.ibuf = ib → t.cfg = cf →
      body pre.length b t = .ok u → u.ibuf = ib ∧ u.cfg = cf ∧
        R (pre ++ [b]) { u with inPos := BitVec.ofNat 32 (pre.length + 1) }) :
    ∀ post pre t u, bs = pre ++ post → R pre t → t.ibuf = ib → t.cfg = cf →
      streamFrom body post.length pre.length t = .ok u → R bs u ∧ u.ibuf = ib ∧ u.cfg = cf := by
  intro post
  induction post with
  | nil =>
    intro pre t u hbs hR hi hc h
    simp only [List.length_nil, streamFrom, CmdResult.ok.injEq] at h
    subst h
    exact ⟨by simpa [hbs] using hR, hi, hc⟩
  | cons b post ih =>
    intro pre t u hbs hR hi hc h
    have hb : bs[pre.length]? = some b := by simp [hbs]
    rw [List.length_cons, streamFrom_known (by rw [hi, hc]; exact hread _ _ hb)] at h
    cases hx : body pre.length b t with
    | error e c i => rw [hx] at h; simp at h
    | fault x => rw [hx] at h; simp at h
    | ok v =>
      rw [hx, andThen_ok] at h
      obtain ⟨h1, h2, h3⟩ := hstep pre b post t v hbs hR hi hc hx
      refine ih (pre ++ [b]) { v with inPos := BitVec.ofNat 32 (pre.length + 1) } u (by simp [hbs]) h3 h1 h2 ?_
      simpa using h

/-- Of a pass over the whole input range that completes, what every byte's step carries on holds. -/
theorem stream_ok {body : Nat → Byte → State → CmdResult} {R : List Byte → State → Prop} {s u : State}
    {bs : List Byte} (hin : s.inputIs bs) (h0 : R [] { s with inPos := 0 })
    (hstep : ∀ pre b post t u, bs = pre ++ b :: post → R pre t → t.ibuf = s.ibuf → t.cfg = s.cfg →
      body pre.length b t = .ok u → u.ibuf = s.ibuf ∧ u.cfg = s.cfg ∧
        R (pre ++ [b]) { u with inPos := BitVec.ofNat 32 (pre.length + 1) })
    (h : stream body s = .ok u) : R bs u ∧ u.ibuf = s.ibuf ∧ u.cfg = s.cfg := by
  refine streamFrom_ok (ib := s.ibuf) (cf := s.cfg) (bs := bs) (fun i b hb => inputIs_read hin hb) hstep bs []
    { s with inPos := 0 } u rfl h0 rfl rfl ?_
  rw [hin.1]; exact h

/-- A pass that completes, or fails by an error, has read every byte up to there; one that completes has read the whole
input range. -/
theorem stream_ok_input {body : Nat → Byte → State → CmdResult}
    (hkeep : ∀ i b t u, body i b t = .ok u → u.ibuf = t.ibuf ∧ u.cfg = t.cfg) {s u : State}
    (h : stream body s = .ok u) : ∃ bs, s.inputIs bs := by
  have key : ∀ n i t, streamFrom body n i t = .ok u → ∃ bs : List Byte, bs.length = n ∧
      ∀ j, j < n → t.ibuf.read (t.cfg.inBase.toNat + (i + j)) = bs[j]? := by
    intro n
    induction n with
    | zero => intro i t _; exact ⟨[], rfl, by intro j hj; omega⟩
    | succ n ih =>
      intro i t h
      rw [streamFrom] at h
      split at h
      · simp at h
      · rename_i b hb
        cases hx : body i b t with
        | error e c k => rw [hx] at h; simp at h
        | fault x => rw [hx] at h; simp at h
        | ok v =>
          rw [hx, andThen_ok] at h
          obtain ⟨bs, hlen, hbs⟩ := ih _ _ h
          obtain ⟨h1, h2⟩ := hkeep _ _ _ _ hx
          refine ⟨b :: bs, by simp [hlen], ?_⟩
          intro j hj
          cases j with
          | zero => simpa using hb
          | succ j =>
            have := hbs j (by omega)
            simp only [h1, h2] at this
            rw [show i + (j + 1) = i + 1 + j by omega, this]
            simp
  obtain ⟨bs, hlen, hbs⟩ := key _ _ _ h
  refine ⟨bs, hlen, ?_⟩
  apply List.ext_getElem?
  intro j
  rw [List.getElem?_map, List.getElem?_map]
  rcases Nat.lt_or_ge j bs.length with hj | hj
  · have h1 := hbs j (by omega)
    simp only [Nat.zero_add] at h1
    rw [List.getElem?_range hj, Option.map_some, h1, List.getElem?_eq_getElem hj]
    rfl
  · rw [List.getElem?_eq_none (by simpa using hj), List.getElem?_eq_none hj]
    rfl

/-- A pass over m + n bytes is a pass over the first m and then one over the n after them. -/
theorem streamFrom_add (body : Nat → Byte → State → CmdResult) (n : Nat) : ∀ (m i : Nat) (s : State),
    streamFrom body (m + n) i s = (streamFrom body m i s).andThen (streamFrom body n (i + m)) := by
  intro m
  induction m with
  | zero => intro i s; simp [streamFrom]
  | succ m ih =>
    intro i s
    rw [show m + 1 + n = m + n + 1 by omega, streamFrom, streamFrom]
    split
    · rfl
    · rename_i b _
      cases body i b s with
      | ok t => rw [andThen_ok, andThen_ok, ih, show i + 1 + m = i + (m + 1) by omega]
      | error t c k => rfl
      | fault x => rfl

/-- A pass that ends by an error does so in the step of one byte, after a pass over the bytes before it. -/
theorem streamFrom_error {body : Nat → Byte → State → CmdResult} {t : State} {c : ErrCode} {k : Word} :
    ∀ (n i : Nat) (s : State), streamFrom body n i s = .error t c k →
      ∃ j u b, j < n ∧ streamFrom body j i s = .ok u ∧ u.ibuf.read (u.cfg.inBase.toNat + (i + j)) = some b ∧
        body (i + j) b u = .error t c k := by
  intro n
  induction n with
  | zero => intro i s h; simp [streamFrom] at h
  | succ n ih =>
    intro i s h
    rw [streamFrom] at h
    split at h
    · simp at h
    · rename_i b hb
      cases hx : body i b s with
      | fault x => rw [hx] at h; simp at h
      | error t' c' k' =>
        rw [hx, andThen_error, CmdResult.error.injEq] at h
        obtain ⟨rfl, rfl, rfl⟩ := h
        exact ⟨0, s, b, by omega, rfl, hb, hx⟩
      | ok v =>
        rw [hx, andThen_ok] at h
        obtain ⟨j, u, b', hj, hu, hr, he⟩ := ih _ _ h
        refine ⟨j + 1, u, b', by omega, ?_, ?_, ?_⟩
        · rw [streamFrom_known hb, hx, andThen_ok, hu]
        · rw [show i + (j + 1) = i + 1 + j by omega]; exact hr
        · rw [show i + (j + 1) = i + 1 + j by omega]; exact he

/-- `InCheck` and `OutCheck` as the rules write them (R77, R78). -/
theorem inRangeOk_iff (s : State) : s.inRangeOk = true ↔ s.cfg.inBase.toNat + s.cfg.inLen.toNat ≤ s.ibufSize :=
  decide_eq_true_iff
theorem outRangeOk_iff (s : State) : s.outRangeOk = true ↔ s.cfg.outBase.toNat + s.cfg.outCap.toNat ≤ s.obufSize :=
  decide_eq_true_iff
theorem roomFor_iff (s : State) (n : Nat) :
    s.roomFor n = true ↔ s.bp.outLen.toNat + (s.bp.cnt.toNat + n) / 8 ≤ s.cfg.outCap.toNat := decide_eq_true_iff

end Sys2Proof.Machine
end

