-- ==== Sys2Proof/Laws/Frames.lean ====
section
/-! SUPPORT. What the body of each command may change, whether it ends normally or by an error: the state it ends in is the
state it began in but for the named parts. -/

namespace Sys2Proof.Machine

/-! ## The parts of the state the bodies change -/

/-- Append changes the bit stream and OBUF, and not PAD_BITS (R116). -/
def streamOnly (s t : State) : Prop := t = { s with bp := t.bp, obuf := t.obuf } ∧ t.bp.padBits = s.bp.padBits

/-- The streaming commands that append: also IN_POS. -/
def emitOnly (s t : State) : Prop :=
  t = { s with bp := t.bp, obuf := t.obuf, inPos := t.inPos } ∧ t.bp.padBits = s.bp.padBits

/-- FREQ: the table, its totals, IN_POS, and STAGE bits 0 to 5 (R85). -/
def freqOnly (s t : State) : Prop :=
  t = { s with freq := t.freq, inPos := t.inPos, stage := t.stage } ∧ t.stage.lzwV = s.stage.lzwV ∧
    t.stage.lzwFull = s.stage.lzwFull

/-- The Huffman table commands (R88-R96). -/
def hufOnly (s t : State) : Prop :=
  t = { s with huf := t.huf, stage := { s.stage with hufStage := t.stage.hufStage, hufCanon := t.stage.hufCanon } }

/-- The narrowing commands: the accumulators, ARI_K and IN_POS (R102, R103). -/
def narrowOnly (s t : State) : Prop :=
  t = { s with ari := t.ari, inPos := t.inPos, draws := t.draws } ∧ t.ari.cumLo = s.ari.cumLo ∧ t.ari.b = s.ari.b ∧
    t.ari.bits = s.ari.bits

/-- The LZW steps (R110, R113): the dictionary and its registers but LZW_ACT, the bit stream, and LZW_FULL. -/
def lzwOnly (s t : State) : Prop :=
  t = { s with
    lzw := t.lzw, bp := t.bp, obuf := t.obuf, inPos := t.inPos, draws := t.draws
    stage := { s.stage with lzwFull := t.stage.lzwFull } } ∧
    t.lzw.act = s.lzw.act ∧ t.bp.padBits = s.bp.padBits

theorem pushBits_only (l : List Bool) : ∀ s : State, streamOnly s (pushBits s l) := by
  induction l with
  | nil => intro s; exact ⟨rfl, rfl⟩
  | cons x l ih =>
    intro s
    have h1 : streamOnly s (pushBit s x) := by unfold pushBit; split <;> exact ⟨rfl, rfl⟩
    obtain ⟨h2, h3⟩ := ih (pushBit s x)
    refine ⟨?_, h3.trans h1.2⟩
    obtain ⟨h1, -⟩ := h1
    rw [pushBits_cons, h2]
    generalize (pushBit s x).bp = x0 at h1; generalize (pushBit s x).obuf = x1 at h1
    rw [h1]

theorem appended_only (s : State) (l : List Bool) : streamOnly s (s.appended l) := by
  obtain ⟨h1, h2⟩ := pushBits_only l s
  refine ⟨?_, h2⟩
  unfold State.appended
  generalize pushBits s l = t at *
  generalize t.bp = x0 at h1; generalize t.obuf = x1 at h1; subst h1
  rfl

theorem appendBits_only (info : Word) (l : List Bool) (s : State) : (appendBits info l s).Ends (streamOnly s) :=
  ends_appendBits ⟨rfl, rfl⟩ fun _ => appended_only s l

/-! ## The bodies -/

/-- A check changes nothing. -/
theorem ends_check {b : Bool} {c : ErrCode} {i : Word} {s : State} {f : State → CmdResult} {P : State → Prop}
    (h0 : P s) (h : b = true → (f s).Ends P) : ((require b c i s).andThen f).Ends P := by
  cases b with
  | true => exact h rfl
  | false => exact h0

theorem resultBody_only (s : State) : (resultBody s).Ends fun t => t = { s with res := t.res } :=
  ends_check rfl fun _ => rfl

theorem streamFrom_only {body : Nat → Byte → State → CmdResult} {P : State → Prop}
    (hpos : ∀ t (p : Word), P t → P { t with inPos := p }) (hbody : ∀ i b t, P t → (body i b t).Ends P) {s : State}
    (h : P s) : (stream body s).Ends P := ends_stream hpos hbody h

theorem freqBody_only (s : State) : (freqBody s).Ends (freqOnly s) := by
  refine ends_check ⟨rfl, rfl, rfl⟩ fun _ => ?_
  have h := ends_stream (body := countByte) (P := freqOnly s) (s := clearFreq s) ?_ ?_ ⟨rfl, rfl, rfl⟩
  · refine ends_andThen h ?_
    rintro t - ⟨h1, h2, h3⟩
    generalize t.freq = x0 at h1; generalize t.inPos = x1 at h1; generalize t.stage = x2 at h1; subst h1
    exact ⟨rfl, h2, h3⟩
  · rintro t p ⟨h1, h2, h3⟩
    generalize t.freq = x0 at h1; generalize t.inPos = x1 at h1; generalize t.stage = x2 at h1; subst h1
    exact ⟨rfl, h2, h3⟩
  · rintro i b t ⟨h1, h2, h3⟩
    generalize t.freq = x0 at h1; generalize t.inPos = x1 at h1; generalize t.stage = x2 at h1; subst h1
    exact ⟨rfl, h2, h3⟩

theorem settleRoot_only (s : State) : hufOnly s (settleRoot s) := by
  unfold settleRoot; split <;> rfl

theorem hufOnly_trans {s t u : State} (h : hufOnly s t) (h' : hufOnly t u) : hufOnly s u := by
  unfold hufOnly at *
  generalize u.huf = x0 at h'; generalize u.stage.hufStage = x1 at h'; generalize u.stage.hufCanon = x2 at h'; subst h'
  generalize t.huf = y0 at h; generalize t.stage.hufStage = y1 at h; generalize t.stage.hufCanon = y2 at h; subst h
  rfl

theorem mergeStep_only (s : State) : hufOnly s (mergeStep s) := by
  unfold mergeStep
  split
  · exact hufOnly_trans (t := { s with huf := mergeTwo s.huf }) rfl (settleRoot_only _)
  · exact settleRoot_only s

theorem mergeUntilOne_only : ∀ (n : Nat) (s : State), hufOnly s (mergeUntilOne n s) := by
  intro n
  induction n with
  | zero => intro s; rfl
  | succ n ih =>
    intro s
    unfold mergeUntilOne
    split
    · rfl
    · exact hufOnly_trans (mergeStep_only s) (ih _)

theorem hufInitBody_only (s : State) : (hufInitBody s).Ends (hufOnly s) := ends_check rfl fun _ => rfl
theorem hufMergeBody_only (s : State) : (hufMergeBody s).Ends (hufOnly s) :=
  ends_check rfl fun _ => mergeStep_only s
theorem hufBuildBody_only (s : State) : (hufBuildBody s).Ends (hufOnly s) :=
  ends_check rfl fun _ => hufOnly_trans (mergeStep_only s) (mergeUntilOne_only _ _)
theorem hufCodesBody_only (s : State) : (hufCodesBody s).Ends (hufOnly s) := ends_check rfl fun _ => rfl
theorem hufCanonBody_only (s : State) : (hufCanonBody s).Ends (hufOnly s) := ends_check rfl fun _ => rfl

theorem emitOnly_of_stream {s t u : State} (h : emitOnly s t) (h' : streamOnly t u) : emitOnly s u := by
  obtain ⟨h1, h2⟩ := h
  obtain ⟨g1, g2⟩ := h'
  generalize u.bp = x0 at g1; generalize u.obuf = x1 at g1; subst g1
  generalize t.bp = y0 at h1; generalize t.obuf = y1 at h1; generalize t.inPos = y2 at h1; subst h1
  exact ⟨rfl, g2.trans h2⟩

theorem ends_imp {P Q : State → Prop} {r : CmdResult} (h : r.Ends P) (hpq : ∀ t, P t → Q t) : r.Ends Q := by
  cases r with
  | ok s => exact hpq _ h
  | error s c i => exact hpq _ h
  | fault x => trivial

theorem hufEmitBody_only (s : State) : (hufEmitBody s).Ends (emitOnly s) := by
  refine ends_check ⟨rfl, rfl⟩ fun _ => ends_check ⟨rfl, rfl⟩ fun _ => ends_check ⟨rfl, rfl⟩ fun _ => ?_
  refine ends_stream ?_ ?_ ⟨rfl, rfl⟩
  · rintro t p ⟨h1, h2⟩
    generalize t.bp = x0 at h1; generalize t.obuf = x1 at h1; generalize t.inPos = x2 at h1; subst h1
    exact ⟨rfl, h2⟩
  · rintro i b t h
    unfold emitByte
    split
    · exact h
    · exact ends_imp (appendBits_only _ _ t) fun u hu => emitOnly_of_stream h hu

theorem bpPutBody_only (n : Byte) (bits : BitVec 16) (s : State) : (bpPutBody n bits s).Ends (streamOnly s) :=
  ends_check ⟨rfl, rfl⟩ fun _ => appendBits_only _ _ s

theorem bpPadBody_only (s : State) : (bpPadBody s).Ends fun t => t = { s with bp := t.bp, obuf := t.obuf } := by
  refine ends_check rfl fun _ => ends_andThen (ends_imp (appendBits_only _ _ s) fun t h => h.1) ?_
  intro t _ h
  generalize t.bp = x0 at h; generalize t.obuf = x1 at h; subst h
  rfl

theorem ariTableBody_only (s : State) : (ariTableBody s).Ends fun t =>
    t = { s with ari.cumLo := t.ari.cumLo, stage := { s.stage with ariTblV := t.stage.ariTblV, ariV := t.stage.ariV } } :=
  ends_check rfl fun _ => rfl

theorem ariStepAt_only (pos : Nat) (b : Byte) {s t : State} (h : narrowOnly s t) :
    (ariStepAt pos b t).Ends (narrowOnly s) := by
  unfold ariStepAt
  split
  · exact h
  · split
    · exact h
    · obtain ⟨h1, h2⟩ := h
      generalize t.ari = x0 at h1; generalize t.inPos = x1 at h1; generalize t.draws = x2 at h1; subst h1
      exact ⟨rfl, h2⟩

theorem ariStepBody_only (b : Byte) (s : State) : (ariStepBody b s).Ends (narrowOnly s) :=
  ends_check ⟨rfl, rfl, rfl, rfl⟩ fun _ => ariStepAt_only 0 b ⟨rfl, rfl, rfl, rfl⟩

theorem ariNarrowBody_only (s : State) : (ariNarrowBody s).Ends (narrowOnly s) := by
  refine ends_check ⟨rfl, rfl, rfl, rfl⟩ fun _ => ends_check ⟨rfl, rfl, rfl, rfl⟩ fun _ => ?_
  refine ends_stream ?_ (fun i b t h => ariStepAt_only i b h) ⟨rfl, rfl, rfl, rfl⟩
  rintro t p ⟨h1, h2⟩
  generalize t.ari = x0 at h1; generalize t.inPos = x1 at h1; generalize t.draws = x2 at h1; subst h1
  exact ⟨rfl, h2⟩

theorem ariFinalBody_only (s : State) : (ariFinalBody s).Ends fun t =>
    t = { s with bp := t.bp, obuf := t.obuf, ari := { s.ari with b := t.ari.b, bits := t.ari.bits } } ∧
      t.bp.padBits = s.bp.padBits := by
  refine ends_check ⟨rfl, rfl⟩ fun _ => ends_check ⟨rfl, rfl⟩ fun _ => ?_
  have h := appendBits_only 0 s.finalBits s
  cases hr : appendBits 0 s.finalBits s with
  | fault x => trivial
  | error t c i =>
    rw [hr] at h
    obtain ⟨h1, h2⟩ := h
    generalize t.bp = x0 at h1; generalize t.obuf = x1 at h1; subst h1
    exact ⟨rfl, h2⟩
  | ok t =>
    rw [hr] at h
    obtain ⟨h1, h2⟩ := h
    generalize t.bp = x0 at h1; generalize t.obuf = x1 at h1; subst h1
    exact ⟨rfl, h2⟩

theorem lzwOnly_refl (s : State) : lzwOnly s s := ⟨rfl, rfl, rfl⟩

theorem lzwOnly_stream {s t u : State} (h : lzwOnly s t) (h' : streamOnly t u) : lzwOnly s u := by
  obtain ⟨h1, h2, h3⟩ := h
  obtain ⟨g1, g2⟩ := h'
  generalize u.bp = x0 at g1; generalize u.obuf = x1 at g1; subst g1
  generalize t.lzw = y0 at h1; generalize t.bp = y1 at h1; generalize t.obuf = y2 at h1; generalize t.inPos = y3 at h1; generalize t.draws = y4 at h1; generalize t.stage.lzwFull = y5 at h1; subst h1
  exact ⟨rfl, h2, g2.trans h3⟩

theorem lzwOnly_setCur {s t : State} (h : lzwOnly s t) (c : BitVec 17) : lzwOnly s (setCur t c) := by
  obtain ⟨h1, h2, h3⟩ := h
  generalize t.lzw = x0 at h1; generalize t.bp = x1 at h1; generalize t.obuf = x2 at h1; generalize t.inPos = x3 at h1; generalize t.draws = x4 at h1; generalize t.stage.lzwFull = x5 at h1; subst h1
  exact ⟨rfl, h2, h3⟩

theorem learn_act (z : Lzw) (b : Byte) : (z.learn b).act = z.act := by
  unfold Lzw.learn; split
  · rfl
  · split <;> rfl

theorem lzwOnly_restart {s t : State} (h : lzwOnly s t) (b : Byte) : lzwOnly s (restartAt t b) := by
  unfold restartAt
  apply lzwOnly_setCur
  obtain ⟨h1, h2, h3⟩ := h
  generalize t.lzw = x0 at h1; generalize t.bp = x1 at h1; generalize t.obuf = x2 at h1; generalize t.inPos = x3 at h1; generalize t.draws = x4 at h1; generalize t.stage.lzwFull = x5 at h1; subst h1
  exact ⟨rfl, (learn_act _ b).trans h2, h3⟩

theorem lzwStepAt_only (pos : Nat) (b : Byte) {s t : State} (h : lzwOnly s t) :
    (lzwStepAt pos b t).Ends (lzwOnly s) := by
  unfold lzwStepAt
  split
  · exact lzwOnly_setCur h _
  · split
    · exact lzwOnly_setCur h _
    · split
      · exact h
      · refine ends_andThen (ends_imp (appendBits_only _ _ t) fun u hu => lzwOnly_stream h hu) ?_
        intro u _ hu
        exact lzwOnly_restart hu b

theorem lzwStepBody_only (b : Byte) (s : State) : (lzwStepBody b s).Ends (lzwOnly s) :=
  ends_check (lzwOnly_refl s) fun _ => ends_check (lzwOnly_refl s) fun _ => lzwStepAt_only 0 b (lzwOnly_refl s)

theorem lzwStepBody_inPos (b : Byte) (s : State) : (lzwStepBody b s).Ends fun t => t.inPos = s.inPos := by
  refine ends_check rfl fun _ => ends_check rfl fun _ => ?_
  unfold lzwStepAt
  split
  · rfl
  · split
    · rfl
    · split
      · rfl
      · refine ends_andThen (ends_imp (appendBits_only _ _ s) fun u hu => (by rw [hu.1] : u.inPos = s.inPos)) ?_
        intro u _ hu
        exact hu

theorem lzwRunBody_only (s : State) : (lzwRunBody s).Ends (lzwOnly s) := by
  refine ends_check (lzwOnly_refl s) fun _ => ends_check (lzwOnly_refl s) fun _ =>
    ends_check (lzwOnly_refl s) fun _ => ends_stream ?_ (fun i b t h => lzwStepAt_only i b h) (lzwOnly_refl s)
  rintro t p ⟨h1, h2⟩
  generalize t.lzw = x0 at h1; generalize t.bp = x1 at h1; generalize t.obuf = x2 at h1; generalize t.inPos = x3 at h1; generalize t.draws = x4 at h1; generalize t.stage.lzwFull = x5 at h1; subst h1
  exact ⟨rfl, h2⟩

/-- LZW_FLUSH changes the stream, LZW_NCODES and LZW_CUR (R113). -/
def flushOnly (s t : State) : Prop :=
  t = { s with
    lzw := { s.lzw with cur := t.lzw.cur, ncodes := t.lzw.ncodes }
    bp := t.bp, obuf := t.obuf, draws := t.draws } ∧ t.bp.padBits = s.bp.padBits

theorem lzwFlushBody_only (s : State) : (lzwFlushBody s).Ends (flushOnly s) := by
  have h0 : flushOnly s s := ⟨rfl, rfl⟩
  refine ends_check h0 fun _ => ends_check h0 fun _ => ?_
  split
  · exact h0
  · refine ends_andThen (ends_imp (appendBits_only _ _ s) fun u hu => ?_) ?_
    · obtain ⟨h1, h2⟩ := hu
      generalize u.bp = x0 at h1; generalize u.obuf = x1 at h1; subst h1
      exact ⟨rfl, h2⟩
    · rintro u - ⟨h1, h2⟩
      generalize u.lzw.cur = x0 at h1; generalize u.lzw.ncodes = x1 at h1; generalize u.bp = x2 at h1; generalize u.obuf = x3 at h1; generalize u.draws = x4 at h1; subst h1
      exact ⟨rfl, h2⟩

/-! ## The fused commands (R98, R106, R114) -/

/-- HUF_ENCODE changes what its phases write. -/
def hufEncodeOnly (s t : State) : Prop :=
  t = { s with
    bp := t.bp, obuf := t.obuf, freq := t.freq, inPos := t.inPos, huf := t.huf, stage := t.stage, res := t.res } ∧
    t.stage.lzwV = s.stage.lzwV ∧ t.stage.lzwFull = s.stage.lzwFull

/-- ARI_ENCODE changes what its phases write. -/
def ariEncodeOnly (s t : State) : Prop :=
  t = { s with
    bp := t.bp, obuf := t.obuf, freq := t.freq, inPos := t.inPos, ari := t.ari, stage := t.stage, res := t.res
    draws := t.draws } ∧
    t.stage.lzwV = s.stage.lzwV ∧ t.stage.lzwFull = s.stage.lzwFull

/-- LZW_ENCODE changes what its phases write. -/
def lzwEncodeOnly (s t : State) : Prop :=
  t = { s with
    bp := t.bp, obuf := t.obuf, lzw := t.lzw, inPos := t.inPos
    stage := { s.stage with lzwV := t.stage.lzwV, lzwFull := t.stage.lzwFull }, res := t.res, draws := t.draws }

theorem hufEncode_freq {s t u : State} (h : hufEncodeOnly s t) (h' : freqOnly t u) : hufEncodeOnly s u := by
  obtain ⟨g1, gs⟩ := h'
  obtain ⟨h1, h2, h3⟩ := h
  generalize u.freq = x0 at g1; generalize u.inPos = x1 at g1; generalize u.stage = x2 at g1; subst g1
  generalize t.bp = y0 at h1; generalize t.obuf = y1 at h1; generalize t.freq = y2 at h1; generalize t.inPos = y3 at h1; generalize t.huf = y4 at h1; generalize t.stage = y5 at h1; generalize t.res = y6 at h1; subst h1
  exact ⟨rfl, gs.1.trans h2, gs.2.trans h3⟩

theorem hufEncode_huf {s t u : State} (h : hufEncodeOnly s t) (h' : hufOnly t u) : hufEncodeOnly s u := by
  have g1 := h'
  unfold hufOnly at g1
  obtain ⟨h1, h2, h3⟩ := h
  generalize u.huf = x0 at g1; generalize u.stage.hufStage = x1 at g1; generalize u.stage.hufCanon = x2 at g1; subst g1
  generalize t.bp = y0 at h1; generalize t.obuf = y1 at h1; generalize t.freq = y2 at h1; generalize t.inPos = y3 at h1; generalize t.huf = y4 at h1; generalize t.stage = y5 at h1; generalize t.res = y6 at h1; subst h1
  exact ⟨rfl, h2, h3⟩

theorem hufEncode_emit {s t u : State} (h : hufEncodeOnly s t) (h' : emitOnly t u) : hufEncodeOnly s u := by
  obtain ⟨g1, gs⟩ := h'
  obtain ⟨h1, h2, h3⟩ := h
  generalize u.bp = x0 at g1; generalize u.obuf = x1 at g1; generalize u.inPos = x2 at g1; subst g1
  generalize t.bp = y0 at h1; generalize t.obuf = y1 at h1; generalize t.freq = y2 at h1; generalize t.inPos = y3 at h1; generalize t.huf = y4 at h1; generalize t.stage = y5 at h1; generalize t.res = y6 at h1; subst h1
  exact ⟨rfl, h2, h3⟩

theorem hufEncode_pad {s t u : State} (h : hufEncodeOnly s t) (h' : u = { t with bp := u.bp, obuf := u.obuf }) : hufEncodeOnly s u := by
  have g1 := h'
  obtain ⟨h1, h2, h3⟩ := h
  generalize u.bp = x0 at g1; generalize u.obuf = x1 at g1; subst g1
  generalize t.bp = y0 at h1; generalize t.obuf = y1 at h1; generalize t.freq = y2 at h1; generalize t.inPos = y3 at h1; generalize t.huf = y4 at h1; generalize t.stage = y5 at h1; generalize t.res = y6 at h1; subst h1
  exact ⟨rfl, h2, h3⟩

theorem hufEncode_result {s t u : State} (h : hufEncodeOnly s t) (h' : u = { t with res := u.res }) : hufEncodeOnly s u := by
  have g1 := h'
  obtain ⟨h1, h2, h3⟩ := h
  generalize u.res = x0 at g1; subst g1
  generalize t.bp = y0 at h1; generalize t.obuf = y1 at h1; generalize t.freq = y2 at h1; generalize t.inPos = y3 at h1; generalize t.huf = y4 at h1; generalize t.stage = y5 at h1; generalize t.res = y6 at h1; subst h1
  exact ⟨rfl, h2, h3⟩

theorem ariEncode_freq {s t u : State} (h : ariEncodeOnly s t) (h' : freqOnly t u) : ariEncodeOnly s u := by
  obtain ⟨g1, gs⟩ := h'
  obtain ⟨h1, h2, h3⟩ := h
  generalize u.freq = x0 at g1; generalize u.inPos = x1 at g1; generalize u.stage = x2 at g1; subst g1
  generalize t.bp = y0 at h1; generalize t.obuf = y1 at h1; generalize t.freq = y2 at h1; generalize t.inPos = y3 at h1; generalize t.ari = y4 at h1; generalize t.stage = y5 at h1; generalize t.res = y6 at h1; generalize t.draws = y7 at h1; subst h1
  exact ⟨rfl, gs.1.trans h2, gs.2.trans h3⟩

theorem ariEncode_table {s t u : State} (h : ariEncodeOnly s t) (h' : u = { t with ari.cumLo := u.ari.cumLo, stage := { t.stage with ariTblV := u.stage.ariTblV, ariV := u.stage.ariV } }) : ariEncodeOnly s u := by
  have g1 := h'
  obtain ⟨h1, h2, h3⟩ := h
  generalize u.ari.cumLo = x0 at g1; generalize u.stage.ariTblV = x1 at g1; generalize u.stage.ariV = x2 at g1; subst g1
  generalize t.bp = y0 at h1; generalize t.obuf = y1 at h1; generalize t.freq = y2 at h1; generalize t.inPos = y3 at h1; generalize t.ari = y4 at h1; generalize t.stage = y5 at h1; generalize t.res = y6 at h1; generalize t.draws = y7 at h1; subst h1
  exact ⟨rfl, h2, h3⟩

theorem ariEncode_narrow {s t u : State} (h : ariEncodeOnly s t) (h' : narrowOnly t u) : ariEncodeOnly s u := by
  obtain ⟨g1, gs⟩ := h'
  obtain ⟨h1, h2, h3⟩ := h
  generalize u.ari = x0 at g1; generalize u.inPos = x1 at g1; generalize u.draws = x2 at g1; subst g1
  generalize t.bp = y0 at h1; generalize t.obuf = y1 at h1; generalize t.freq = y2 at h1; generalize t.inPos = y3 at h1; generalize t.ari = y4 at h1; generalize t.stage = y5 at h1; generalize t.res = y6 at h1; generalize t.draws = y7 at h1; subst h1
  exact ⟨rfl, h2, h3⟩

theorem ariEncode_final {s t u : State} (h : ariEncodeOnly s t) (h' : u = { t with bp := u.bp, obuf := u.obuf, ari := { t.ari with b := u.ari.b, bits := u.ari.bits } } ∧
      u.bp.padBits = t.bp.padBits) : ariEncodeOnly s u := by
  obtain ⟨g1, gs⟩ := h'
  obtain ⟨h1, h2, h3⟩ := h
  generalize u.bp = x0 at g1; generalize u.obuf = x1 at g1; generalize u.ari.b = x2 at g1; generalize u.ari.bits = x3 at g1; subst g1
  generalize t.bp = y0 at h1; generalize t.obuf = y1 at h1; generalize t.freq = y2 at h1; generalize t.inPos = y3 at h1; generalize t.ari = y4 at h1; generalize t.stage = y5 at h1; generalize t.res = y6 at h1; generalize t.draws = y7 at h1; subst h1
  exact ⟨rfl, h2, h3⟩

theorem ariEncode_pad {s t u : State} (h : ariEncodeOnly s t) (h' : u = { t with bp := u.bp, obuf := u.obuf }) : ariEncodeOnly s u := by
  have g1 := h'
  obtain ⟨h1, h2, h3⟩ := h
  generalize u.bp = x0 at g1; generalize u.obuf = x1 at g1; subst g1
  generalize t.bp = y0 at h1; generalize t.obuf = y1 at h1; generalize t.freq = y2 at h1; generalize t.inPos = y3 at h1; generalize t.ari = y4 at h1; generalize t.stage = y5 at h1; generalize t.res = y6 at h1; generalize t.draws = y7 at h1; subst h1
  exact ⟨rfl, h2, h3⟩

theorem ariEncode_result {s t u : State} (h : ariEncodeOnly s t) (h' : u = { t with res := u.res }) : ariEncodeOnly s u := by
  have g1 := h'
  obtain ⟨h1, h2, h3⟩ := h
  generalize u.res = x0 at g1; subst g1
  generalize t.bp = y0 at h1; generalize t.obuf = y1 at h1; generalize t.freq = y2 at h1; generalize t.inPos = y3 at h1; generalize t.ari = y4 at h1; generalize t.stage = y5 at h1; generalize t.res = y6 at h1; generalize t.draws = y7 at h1; subst h1
  exact ⟨rfl, h2, h3⟩

theorem lzwEncode_run {s t u : State} (h : lzwEncodeOnly s t) (h' : lzwOnly t u) : lzwEncodeOnly s u := by
  obtain ⟨g1, gs⟩ := h'
  have h1 := h
  unfold lzwEncodeOnly at h1 ⊢
  generalize u.lzw = x0 at g1; generalize u.bp = x1 at g1; generalize u.obuf = x2 at g1; generalize u.inPos = x3 at g1; generalize u.draws = x4 at g1; generalize u.stage.lzwFull = x5 at g1; subst g1
  generalize t.bp = y0 at h1; generalize t.obuf = y1 at h1; generalize t.lzw = y2 at h1; generalize t.inPos = y3 at h1; generalize t.stage.lzwV = y4 at h1; generalize t.stage.lzwFull = y5 at h1; generalize t.res = y6 at h1; generalize t.draws = y7 at h1; subst h1
  rfl

theorem lzwEncode_flush {s t u : State} (h : lzwEncodeOnly s t) (h' : flushOnly t u) : lzwEncodeOnly s u := by
  obtain ⟨g1, gs⟩ := h'
  have h1 := h
  unfold lzwEncodeOnly at h1 ⊢
  generalize u.lzw.cur = x0 at g1; generalize u.lzw.ncodes = x1 at g1; generalize u.bp = x2 at g1; generalize u.obuf = x3 at g1; generalize u.draws = x4 at g1; subst g1
  generalize t.bp = y0 at h1; generalize t.obuf = y1 at h1; generalize t.lzw = y2 at h1; generalize t.inPos = y3 at h1; generalize t.stage.lzwV = y4 at h1; generalize t.stage.lzwFull = y5 at h1; generalize t.res = y6 at h1; generalize t.draws = y7 at h1; subst h1
  rfl

theorem lzwEncode_pad {s t u : State} (h : lzwEncodeOnly s t) (h' : u = { t with bp := u.bp, obuf := u.obuf }) : lzwEncodeOnly s u := by
  have g1 := h'
  have h1 := h
  unfold lzwEncodeOnly at h1 ⊢
  generalize u.bp = x0 at g1; generalize u.obuf = x1 at g1; subst g1
  generalize t.bp = y0 at h1; generalize t.obuf = y1 at h1; generalize t.lzw = y2 at h1; generalize t.inPos = y3 at h1; generalize t.stage.lzwV = y4 at h1; generalize t.stage.lzwFull = y5 at h1; generalize t.res = y6 at h1; generalize t.draws = y7 at h1; subst h1
  rfl

theorem lzwEncode_result {s t u : State} (h : lzwEncodeOnly s t) (h' : u = { t with res := u.res }) : lzwEncodeOnly s u := by
  have g1 := h'
  have h1 := h
  unfold lzwEncodeOnly at h1 ⊢
  generalize u.res = x0 at g1; subst g1
  generalize t.bp = y0 at h1; generalize t.obuf = y1 at h1; generalize t.lzw = y2 at h1; generalize t.inPos = y3 at h1; generalize t.stage.lzwV = y4 at h1; generalize t.stage.lzwFull = y5 at h1; generalize t.res = y6 at h1; generalize t.draws = y7 at h1; subst h1
  rfl

theorem hufEncodeBody_only (c : Bool) (s : State) : (hufEncodeBody c s).Ends (hufEncodeOnly s) := by
  have h0 : hufEncodeOnly s s := ⟨rfl, rfl, rfl⟩
  have h1 : hufEncodeOnly s (clearStream s) := ⟨rfl, rfl, rfl⟩
  refine ends_check h0 fun _ => ends_check h0 fun _ =>
    ends_andThen (ends_imp (freqBody_only _) fun _ h => hufEncode_freq h1 h) fun t _ ht =>
    ends_andThen (ends_imp (hufInitBody_only _) fun _ h => hufEncode_huf ht h) fun t _ ht =>
    ends_andThen (ends_imp (hufBuildBody_only _) fun _ h => hufEncode_huf ht h) fun t _ ht =>
    ends_andThen (ends_imp (hufCodesBody_only _) fun _ h => hufEncode_huf ht h) fun t _ ht =>
    ends_andThen (?_ : CmdResult.Ends (hufEncodeOnly s) _) fun t _ ht =>
    ends_andThen (ends_imp (hufEmitBody_only _) fun _ h => hufEncode_emit ht h) fun t _ ht =>
    ends_andThen (ends_imp (bpPadBody_only _) fun _ h => hufEncode_pad ht h) fun t _ ht =>
    ends_imp (resultBody_only _) fun _ h => hufEncode_result ht h
  split
  · exact ends_imp (hufCanonBody_only _) fun _ h => hufEncode_huf ht h
  · exact ht

theorem ariEncodeBody_only (s : State) : (ariEncodeBody s).Ends (ariEncodeOnly s) := by
  have h0 : ariEncodeOnly s s := ⟨rfl, rfl, rfl⟩
  have h1 : ariEncodeOnly s (clearStream s) := ⟨rfl, rfl, rfl⟩
  refine ends_check h0 fun _ => ends_check h0 fun _ =>
    ends_andThen (ends_imp (freqBody_only _) fun _ h => ariEncode_freq h1 h) fun t _ ht =>
    ends_andThen (ends_imp (ariTableBody_only _) fun _ h => ariEncode_table ht h) fun t _ ht =>
    ends_andThen (ends_imp (ariNarrowBody_only _) fun _ h => ariEncode_narrow (t := openInterval t) ?_ h) fun t _ ht =>
    ends_andThen (ends_imp (ariFinalBody_only _) fun _ h => ariEncode_final ht h) fun t _ ht =>
    ends_andThen (ends_imp (bpPadBody_only _) fun _ h => ariEncode_pad ht h) fun t _ ht =>
    ends_imp (resultBody_only _) fun _ h => ariEncode_result ht h
  obtain ⟨g1, g2, g3⟩ := ht
  generalize t.bp = x0 at g1; generalize t.obuf = x1 at g1; generalize t.freq = x2 at g1; generalize t.inPos = x3 at g1; generalize t.ari = x4 at g1; generalize t.stage = x5 at g1; generalize t.res = x6 at g1; generalize t.draws = x7 at g1; subst g1
  exact ⟨rfl, g2, g3⟩

theorem lzwEncodeBody_only (s : State) : (lzwEncodeBody s).Ends (lzwEncodeOnly s) := by
  have h0 : lzwEncodeOnly s s := rfl
  have h1 : lzwEncodeOnly s (seedDict (clearStream s)) := rfl
  exact ends_check h0 fun _ => ends_check h0 fun _ =>
    ends_andThen (ends_imp (lzwRunBody_only _) fun _ h => lzwEncode_run h1 h) fun t _ ht =>
    ends_andThen (ends_imp (lzwFlushBody_only _) fun _ h => lzwEncode_flush ht h) fun t _ ht =>
    ends_andThen (ends_imp (bpPadBody_only _) fun _ h => lzwEncode_pad ht h) fun t _ ht =>
    ends_imp (resultBody_only _) fun _ h => lzwEncode_result ht h

end Sys2Proof.Machine
end

