-- ==== Sys2Proof/Laws/Frequency.lean ====
section
/-! SUPPORT. FREQ (41_frequency.md R85, R86): what the pass over the input range leaves in the table and its totals. -/

namespace Sys2Proof.Machine

/-- Changing one entry changes the sum of the entries by the difference. -/
theorem countBelow_put (t : Table Word) (b : Byte) (v : Word) : ∀ n, n ≤ 256 →
    countBelow (t.put b v) n + (if b.toNat < n then (t.at b).toNat else 0) =
      countBelow t n + (if b.toNat < n then v.toNat else 0) := by
  intro n
  induction n with
  | zero => intro _; rfl
  | succ n ih =>
    intro hn
    have := ih (by omega)
    have hs : ∀ u : Table Word, countBelow u (n + 1) = countBelow u n + (u.at (BitVec.ofNat 8 n)).toNat := by
      intro u; simp [countBelow, List.range_succ]
    rw [hs, hs, table_at_put]
    have hbn : (BitVec.ofNat 8 n).toNat = n := by simp; omega
    by_cases hb : b.toNat = n
    · have he : BitVec.ofNat 8 n = b := BitVec.eq_of_toNat_eq (by rw [hbn, hb])
      rw [if_pos he, he]
      simp only [hb, Nat.lt_irrefl, if_false, Nat.lt_succ_self, if_true] at *
      omega
    · have he : BitVec.ofNat 8 n ≠ b := fun e => hb (by rw [← e, hbn])
      rw [if_neg he]
      by_cases h1 : b.toNat < n
      · rw [if_pos h1, if_pos h1] at this
        rw [if_pos (by omega), if_pos (by omega)]
        omega
      · rw [if_neg h1, if_neg h1] at this
        rw [if_neg (by omega), if_neg (by omega)]
        omega

theorem countBelow_zero (n : Nat) : countBelow (Vector.replicate 256 0) n = 0 := by
  unfold countBelow
  rw [List.sum_eq_zero]
  intro x hx
  obtain ⟨c, -, rfl⟩ := List.mem_map.1 hx
  rw [table_at_replicate]; rfl

/-- After the bytes `pre`, each entry is the number of its occurrences, and IN_POS their number. -/
def Counted (s : State) (pre : List Byte) (t : State) : Prop :=
  (∀ b, (t.freq.count.at b).toNat = pre.count b) ∧ countBelow t.freq.count 256 = pre.length ∧
    t.inPos.toNat = pre.length ∧
    t = { s with freq.count := t.freq.count, inPos := t.inPos }

/-- The counting pass over a known input range (R85). -/
theorem stream_countByte {s : State} {bs : List Byte} (hin : s.inputIs bs) :
    ∃ u, stream countByte (clearFreq s) = .ok u ∧ Counted (clearFreq s) bs u := by
  have hlen : bs.length < 2 ^ 32 := by rw [hin.1]; exact s.cfg.inLen.isLt
  have := stream_completes (body := countByte) (R := Counted (clearFreq s)) (s := clearFreq s) (bs := bs) hin ?_ ?_
  · obtain ⟨u, h1, h2, -⟩ := this; exact ⟨u, h1, h2⟩
  · refine ⟨?_, countBelow_zero 256, rfl, rfl⟩
    intro b
    show (Table.at (Vector.replicate 256 (0 : Word)) b).toNat = _
    rw [table_at_replicate]; rfl
  · intro pre b post t hbs ⟨h1, h2, h3, h4⟩ hi hc
    have hpl : pre.length + 1 < 2 ^ 32 := by
      have := congrArg List.length hbs; simp at this; omega
    refine ⟨_, rfl, hi, hc, ?_, ?_, ?_, ?_⟩
    · intro x
      show ((t.freq.count.put b (t.freq.count.at b + 1)).at x).toNat = _
      rw [table_at_put]
      have hle := List.count_le_length (a := b) (l := pre)
      by_cases hx : x = b
      · subst hx
        rw [if_pos rfl, BitVec.toNat_add, h1 x]
        simp
        omega
      · rw [if_neg hx, h1 x]; simp [Ne.symm hx]
    · show countBelow (t.freq.count.put b (t.freq.count.at b + 1)) 256 = _
      have := countBelow_put t.freq.count b (t.freq.count.at b + 1) 256 le_rfl
      have hb := b.isLt
      have hle := List.count_le_length (a := b) (l := pre)
      rw [if_pos hb, if_pos hb, BitVec.toNat_add, h1 b] at this
      simp at this ⊢
      omega
    · show (BitVec.ofNat 32 (pre.length + 1)).toNat = _
      simp; omega
    · conv_lhs => rw [h4]

/-- The number of present symbols of counted bytes (R85, R86). -/
theorem presentCount_counted {t : Table Word} {bs : List Byte} (h : ∀ b, (t.at b).toNat = bs.count b) :
    presentCount t = bs.toFinset.card := by
  have h1 : presentCount t = (allSyms.filter fun s => t.at s != 0).length := by
    rw [presentCount, List.countP_eq_length_filter]
  have h2 : (allSyms.filter fun s => t.at s != 0).toFinset = bs.toFinset := by
    ext b
    rw [List.mem_toFinset, List.mem_toFinset, List.mem_filter, bne_iff_ne]
    have : t.at b ≠ 0 ↔ (t.at b).toNat ≠ 0 := by
      constructor
      · intro h e; exact h (BitVec.eq_of_toNat_eq e)
      · intro h e; rw [e] at h; exact h rfl
    rw [this, h b]
    have hm := mem_allSyms b
    have hc : b ∈ bs ↔ 0 < bs.count b := List.count_pos_iff.symm
    rw [hc, Nat.pos_iff_ne_zero]
    exact ⟨fun h => h.2, fun h => ⟨hm, h⟩⟩
  rw [h1, ← List.toFinset_card_of_nodup (allSyms_nodup.filter _), h2]

/-- FREQ over a known input range (R85, R86). -/
theorem freqBody_counts {s : State} {bs : List Byte} (hok : s.inRangeOk = true) (hin : s.inputIs bs) :
    ∃ t, freqBody s = .ok t ∧ (∀ b, (t.freq.count.at b).toNat = bs.count b) ∧
      t.freq.total = s.cfg.inLen ∧ t.freq.nsym.toNat = presentCount t.freq.count ∧ t.inPos = s.cfg.inLen ∧
      countBelow t.freq.count 256 = bs.length ∧
      t.stage = { s.stage with freqV := true, hufStage := 0, hufCanon := false, ariTblV := false, ariV := false } ∧
      t = { s with freq := t.freq, inPos := t.inPos, stage := t.stage } := by
  obtain ⟨u, hu, h1, h2, h3, h4⟩ := stream_countByte hin
  refine ⟨closeFreq u, ?_, h1, ?_, ?_, ?_, h2, ?_, ?_⟩
  · unfold freqBody
    rw [inCheck_ok hok, andThen_ok, hu, andThen_ok]
  · rw [h4]; rfl
  · show (BitVec.ofNat 9 (presentCount u.freq.count)).toNat = presentCount u.freq.count
    have hle : presentCount u.freq.count ≤ 256 := by
      have := List.countP_le_length (p := fun s => u.freq.count.at s != 0) (l := allSyms)
      simpa [presentCount] using this
    simp; omega
  · refine BitVec.eq_of_toNat_eq ?_
    show u.inPos.toNat = _
    rw [h3, hin.1]
  · rw [h4]; rfl
  · rw [h4]; rfl

/-- FREQ completes only on an input range whose every byte is written (R56). -/
theorem freqBody_ok_input {s t : State} (h : freqBody s = .ok t) : s.inRangeOk = true ∧ ∃ bs, s.inputIs bs := by
  unfold freqBody at h
  cases hc : s.inRangeOk with
  | false => rw [inCheck_fail hc] at h; simp at h
  | true =>
    rw [inCheck_ok hc, andThen_ok] at h
    cases hx : stream countByte (clearFreq s) with
    | error e c k => rw [hx] at h; simp at h
    | fault x => rw [hx] at h; simp at h
    | ok v =>
      refine ⟨rfl, ?_⟩
      exact stream_ok_input (s := clearFreq s) (fun i b t u h => by
        simp only [countByte, CmdResult.ok.injEq] at h; subst h; exact ⟨rfl, rfl⟩) hx

/-- FREQ has no error but IN_RANGE, before any change (R85). -/
theorem freqBody_error {s t : State} {c : ErrCode} {i : Word} (h : freqBody s = .error t c i) :
    t = s ∧ c = .inRange ∧ i = 0 := by
  unfold freqBody at h
  cases hc : s.inRangeOk with
  | false => rw [inCheck_fail hc] at h; simp at h; exact ⟨h.1.symm, h.2.1.symm, h.2.2.symm⟩
  | true =>
    rw [inCheck_ok hc, andThen_ok] at h
    exfalso
    have key : ∀ n i s c k v, streamFrom countByte n i s ≠ .error v c k := by
      intro n
      induction n with
      | zero => intro i s c k v h; simp [streamFrom] at h
      | succ n ih =>
        intro i s c k v h
        rw [streamFrom] at h
        split at h
        · simp at h
        · exact ih _ _ _ _ _ h
    cases hx : stream countByte (clearFreq s) with
    | error v c k => exact key _ _ _ _ _ _ hx
    | fault x => rw [hx] at h; simp at h
    | ok v => rw [hx] at h; simp at h

/-- The totals agree with the table after FREQ (R86). -/
theorem freqBody_inv {s t : State} (h : freqBody s = .ok t) :
    FreqInv t ∧ t.stage = { s.stage with freqV := true, hufStage := 0, hufCanon := false, ariTblV := false, ariV := false } ∧
      t = { s with freq := t.freq, inPos := t.inPos, stage := t.stage } := by
  obtain ⟨hok, bs, hin⟩ := freqBody_ok_input h
  obtain ⟨u, hu, h1, h2, h3, h4, h5, h6, h7⟩ := freqBody_counts hok hin
  rw [h] at hu
  simp only [CmdResult.ok.injEq] at hu
  subst hu
  refine ⟨⟨?_, ?_, h3⟩, h6, h7⟩
  · rw [h5, h2, hin.1]
  · rw [h2, show t.ibufSize = s.ibufSize by rw [h7]; rfl]
    have := of_decide_eq_true hok
    omega

end Sys2Proof.Machine
end

