-- ==== Sys2Proof/Laws/LzwDict.lean ====
section
/-! SUPPORT. The LZW dictionary (44_lzw.md R108-R115): what `Find` answers, what a step does to the dictionary, that the
dictionary stays sound, and the strings its codes stand for. -/

namespace Sys2Proof.Machine

/-! ## Find (R109) -/

theorem dictFind_spec (c : Nat) (b : Byte) : ∀ (l : List DictEntry) (e0 : Nat),
    (∀ e, dictFind c b l e0 = some e → e0 ≤ e ∧ ∃ x, l[e - e0]? = some x ∧ x.pre.toNat = c ∧ x.byte = b) ∧
    (dictFind c b l e0 = none → ∀ x ∈ l, ¬ (x.pre.toNat = c ∧ x.byte = b)) := by
  intro l
  induction l with
  | nil => intro e0; simp [dictFind]
  | cons y l ih =>
    intro e0
    unfold dictFind
    split
    · rename_i h
      refine ⟨?_, by simp⟩
      intro e he
      simp only [Option.some.injEq] at he
      subst he
      exact ⟨le_rfl, y, by simp, h⟩
    · rename_i h
      obtain ⟨h1, h2⟩ := ih (e0 + 1)
      refine ⟨?_, ?_⟩
      · intro e he
        obtain ⟨hle, x, hx, hh⟩ := h1 e he
        refine ⟨by omega, x, ?_, hh⟩
        rw [show e - e0 = (e - (e0 + 1)) + 1 by omega]
        simpa using hx
      · intro hn x hx
        rcases List.mem_cons.1 hx with rfl | hx
        · exact h
        · exact h2 hn x hx

theorem find_some {z : Lzw} {b : Byte} {e : Nat} (h : z.find z.cur b = some e) : z.holds z.cur.toNat b e := by
  obtain ⟨h1, x, hx, h2, h3⟩ := (dictFind_spec z.cur.toNat b z.dict 256).1 e h
  exact ⟨h1, x, hx, h2, h3⟩

theorem find_none {z : Lzw} {b : Byte} (h : z.find z.cur b = none) (e : Nat) : ¬ z.holds z.cur.toNat b e := by
  rintro ⟨h1, x, hx, h2, h3⟩
  exact (dictFind_spec z.cur.toNat b z.dict 256).2 h x (List.mem_of_getElem? hx) ⟨h2, h3⟩

/-- "At most one such e exists" (R109). -/
theorem holds_unique {z : Lzw} (hn : z.dict.Nodup) {c : Nat} {b : Byte} {e f : Nat} (h : z.holds c b e)
    (h' : z.holds c b f) : e = f := by
  obtain ⟨h1, x, hx, h2, h3⟩ := h
  obtain ⟨g1, y, hy, g2, g3⟩ := h'
  have : x = y := by
    cases x; cases y; simp only at *; subst h3 g3; congr; exact BitVec.eq_of_toNat_eq (by omega)
  subst this
  have hi := List.getElem?_eq_some_iff.1 hx
  have hj := List.getElem?_eq_some_iff.1 hy
  have := (List.Nodup.getElem_inj_iff hn (hi := hi.1) (hj := hj.1)).1 (hi.2.trans hj.2.symm)
  omega

theorem find_of_holds {z : Lzw} (hn : z.dict.Nodup) {b : Byte} {e : Nat} (h : z.holds z.cur.toNat b e) :
    z.find z.cur b = some e := by
  cases hf : z.find z.cur b with
  | none => exact absurd h (find_none hf e)
  | some f => rw [holds_unique hn h (find_some hf)]

theorem find_of_none {z : Lzw} {b : Byte} (h : ∀ e, ¬ z.holds z.cur.toNat b e) : z.find z.cur b = none := by
  cases hf : z.find z.cur b with
  | none => rfl
  | some f => exact absurd (find_some hf) (h f)

/-! ## Learn and restart (R110, R111) -/

theorem learn_insert {z : Lzw} (b : Byte) (h : z.next.toNat < z.cap) :
    z.learn b = { z with dict := z.dict ++ [⟨z.cur.setWidth 16, b⟩], next := z.next + 1 } := if_pos h

theorem learn_reset {z : Lzw} (b : Byte) (h : ¬ z.next.toNat < z.cap) (hp : z.act.policy = .reset) :
    z.learn b = { z with dict := [], next := 256 } := by
  unfold Lzw.learn; rw [if_neg h, if_pos hp]

theorem learn_keep {z : Lzw} (b : Byte) (h : ¬ z.next.toNat < z.cap) (hp : z.act.policy ≠ .reset) : z.learn b = z := by
  unfold Lzw.learn; rw [if_neg h, if_neg hp]

/-- The end of a step that emitted, whole. -/
theorem restartAt_eq (s : State) (b : Byte) :
    restartAt s b = { s with
      lzw := { ({ s.lzw with ncodes := bumpCount s.lzw.ncodes s.draws } : Lzw).learn b with cur := b.setWidth 17 }
      draws := s.draws + 1
      stage := { s.stage with
        lzwFull := (({ s.lzw with ncodes := bumpCount s.lzw.ncodes s.draws } : Lzw).learn b).full } } := rfl

/-- What a step of R110 does when it completes: the first byte, a longer match, or an emission. -/
theorem lzwStepAt_ok {pos : Nat} {b : Byte} {s t : State} (h : lzwStepAt pos b s = .ok t) :
    (s.lzw.cur = lzwEmpty ∧ t = setCur s (b.setWidth 17)) ∨
    (s.lzw.cur ≠ lzwEmpty ∧ ∃ e, s.lzw.find s.lzw.cur b = some e ∧ t = setCur s (BitVec.ofNat 17 e)) ∨
    (s.lzw.cur ≠ lzwEmpty ∧ s.lzw.find s.lzw.cur b = none ∧
      ¬ (s.lzw.next.toNat = s.lzw.cap ∧ s.lzw.act.policy = .reject) ∧ s.roomFor s.lzw.curBits.length = true ∧
      t = restartAt (s.appended s.lzw.curBits) b) := by
  unfold lzwStepAt at h
  split at h
  · exact .inl ⟨‹_›, by simpa using h.symm⟩
  · split at h
    · exact .inr (.inl ⟨‹_›, _, ‹_›, by simpa using h.symm⟩)
    · split at h
      · simp at h
      · refine .inr (.inr ⟨‹_›, ‹_›, ‹_›, ?_⟩)
        cases hr : s.roomFor s.lzw.curBits.length with
        | false => rw [appendBits_full hr] at h; simp at h
        | true => rw [appendBits_ok hr, andThen_ok] at h; exact ⟨rfl, by simpa using h.symm⟩

/-- A step of R110 that fails has changed nothing. -/
theorem lzwStepAt_error {pos : Nat} {b : Byte} {s t : State} {c : ErrCode} {i : Word}
    (h : lzwStepAt pos b s = .error t c i) : t = s ∧ i = byteInfo pos b := by
  unfold lzwStepAt at h
  split at h
  · simp at h
  · split at h
    · simp at h
    · split at h
      · simp only [CmdResult.error.injEq] at h; exact ⟨h.1.symm, h.2.2.symm⟩
      · cases hr : s.roomFor s.lzw.curBits.length with
        | false =>
          rw [appendBits_full hr] at h
          simp only [andThen_error, CmdResult.error.injEq] at h
          exact ⟨h.1.symm, h.2.2.symm⟩
        | true => rw [appendBits_ok hr, andThen_ok] at h; simp at h

/-! ## The dictionary stays sound (R115) -/

/-- `LzwInv` of an initialised unit, but for STAGE. -/
structure DictInv (z : Lzw) : Prop where
  width : 8 ≤ z.act.width.toNat ∧ z.act.width.toNat ≤ 16
  next : 256 ≤ z.next.toNat ∧ z.next.toNat ≤ z.cap
  size : z.next.toNat = 256 + z.dict.length
  cur : z.cur = lzwEmpty ∨ z.cur.toNat < z.next.toNat
  lower : ∀ (n : Nat) (x : DictEntry), z.dict[n]? = some x → x.pre.toNat < 256 + n
  distinct : z.dict.Nodup

theorem lzwInv_dict {s : State} (h : LzwInv s) (hv : s.stage.lzwV = true) : DictInv s.lzw :=
  ⟨h.width hv, h.next hv, h.size hv, h.cur hv, h.lower hv, h.distinct hv⟩

theorem dict_lzwInv {s : State} (h : DictInv s.lzw) (hv : s.stage.lzwV = true) (hf : s.stage.lzwFull = s.lzw.full) :
    LzwInv s where
  width := fun _ => h.width
  next := fun _ => h.next
  size := fun _ => h.size
  cur := fun _ => h.cur
  lower := fun _ => h.lower
  distinct := fun _ => h.distinct
  full := fun _ => hf
  absent := fun h0 => by simp [hv] at h0

theorem DictInv.cap_le {z : Lzw} (h : DictInv z) : z.cap ≤ 65536 :=
  le_trans (Nat.pow_le_pow_right (by omega) h.width.2) (by norm_num)

/-- The count of emitted codes is no part of the invariant. -/
theorem DictInv.count {z : Lzw} (h : DictInv z) (n : Word) : DictInv { z with ncodes := n } :=
  ⟨h.width, h.next, h.size, h.cur, h.lower, h.distinct⟩

theorem DictInv.restart {z : Lzw} (h : DictInv z) (b : Byte) : DictInv { z with cur := b.setWidth 17 } := by
  refine ⟨h.width, h.next, h.size, .inr ?_, h.lower, h.distinct⟩
  have := b.isLt
  have := h.next.1
  simp only [BitVec.toNat_setWidth]
  omega

theorem DictInv.empty {z : Lzw} (h : DictInv z) : DictInv { z with cur := lzwEmpty } :=
  ⟨h.width, h.next, h.size, .inl rfl, h.lower, h.distinct⟩

/-- A stored code is below LZW_NEXT. -/
theorem DictInv.holds_lt {z : Lzw} (h : DictInv z) {c : Nat} {b : Byte} {e : Nat} (he : z.holds c b e) :
    e < z.next.toNat := by
  obtain ⟨h1, x, hx, -⟩ := he
  have := (List.getElem?_eq_some_iff.1 hx).1
  have := h.size
  omega

theorem DictInv.extend {z : Lzw} (h : DictInv z) {b : Byte} {e : Nat} (he : z.find z.cur b = some e) :
    DictInv { z with cur := BitVec.ofNat 17 e } := by
  have hlt := h.holds_lt (find_some he)
  have hn := h.next.2
  have hc := h.cap_le
  refine ⟨h.width, h.next, h.size, .inr ?_, h.lower, h.distinct⟩
  simp only [BitVec.toNat_ofNat]
  omega

theorem DictInv.learn {z : Lzw} (h : DictInv z) {b : Byte} (hc : z.cur ≠ lzwEmpty) (hf : z.find z.cur b = none) :
    DictInv { z.learn b with cur := b.setWidth 17 } := by
  have hcur := h.cur.resolve_left hc
  have hcap := h.cap_le
  have hn := h.next
  by_cases hlt : z.next.toNat < z.cap
  · rw [learn_insert b hlt]
    have hnext : (z.next + 1).toNat = z.next.toNat + 1 := by
      rw [BitVec.toNat_add]; simp; omega
    have hb := b.isLt
    refine ⟨h.width, ?_, ?_, .inr ?_, ?_, ?_⟩
    · show 256 ≤ (z.next + 1).toNat ∧ (z.next + 1).toNat ≤ z.cap
      omega
    · show (z.next + 1).toNat = 256 + (z.dict ++ [_]).length
      rw [hnext, h.size]; simp; omega
    · show (b.setWidth 17).toNat < (z.next + 1).toNat
      rw [hnext]; simp only [BitVec.toNat_setWidth]; omega
    · intro n x hx
      rcases Nat.lt_or_ge n z.dict.length with hn' | hn'
      · rw [List.getElem?_append_left hn'] at hx
        exact h.lower n x hx
      · rw [List.getElem?_append_right hn'] at hx
        have hn0 : n - z.dict.length = 0 := by
          by_contra h0
          rw [List.getElem?_eq_none (by simp; omega)] at hx
          simp at hx
        rw [hn0] at hx
        simp only [List.getElem?_cons_zero, Option.some.injEq] at hx
        subst hx
        have := h.size
        simp only [BitVec.toNat_setWidth]
        omega
    · refine List.nodup_append.2 ⟨h.distinct, by simp, ?_⟩
      intro x hx y hy hxy
      simp only [List.mem_singleton] at hy
      subst hxy
      obtain ⟨i, hi⟩ := List.getElem?_of_mem hx
      refine find_none hf (256 + i) ⟨by omega, x, by simpa using hi, ?_, by rw [hy]⟩
      rw [hy]
      simp only [BitVec.toNat_setWidth]
      omega
  · by_cases hp : z.act.policy = .reset
    · rw [learn_reset b hlt hp]
      have hb := b.isLt
      refine ⟨h.width, ⟨by simp, ?_⟩, rfl, .inr ?_, by intro n x hx; simp at hx, List.nodup_nil⟩
      · show (256 : BitVec 17).toNat ≤ z.cap
        have : (256 : BitVec 17).toNat = 256 := rfl
        omega
      · show (b.setWidth 17).toNat < (256 : BitVec 17).toNat
        have : (256 : BitVec 17).toNat = 256 := rfl
        simp only [BitVec.toNat_setWidth]
        omega
    · rw [learn_keep b hlt hp]
      exact h.restart b

theorem full_cur (z : Lzw) (c : BitVec 17) : ({ z with cur := c } : Lzw).full = z.full := rfl

/-- A step of R110 keeps the dictionary sound, whether it completes or fails. -/
theorem lzwStepAt_inv {s : State} (pos : Nat) (b : Byte) (h : LzwInv s) (hv : s.stage.lzwV = true) :
    (lzwStepAt pos b s).Ends fun t => LzwInv t ∧ t.stage.lzwV = true := by
  have hd := lzwInv_dict h hv
  cases hr : lzwStepAt pos b s with
  | fault x => trivial
  | error t c i => obtain ⟨rfl, -⟩ := lzwStepAt_error hr; exact ⟨h, hv⟩
  | ok t =>
    rcases lzwStepAt_ok hr with ⟨hc, rfl⟩ | ⟨hc, e, he, rfl⟩ | ⟨hc, hf, -, -, rfl⟩
    · exact ⟨dict_lzwInv (hd.restart b) hv rfl, hv⟩
    · exact ⟨dict_lzwInv (hd.extend he) hv rfl, hv⟩
    · have hl : (s.appended s.lzw.curBits).lzw = s.lzw := appended_lzw s _
      have hst : (s.appended s.lzw.curBits).stage = s.stage := by rw [(appended_only s s.lzw.curBits).1]
      generalize s.appended s.lzw.curBits = u at *
      rw [restartAt_eq]
      refine ⟨dict_lzwInv ?_ (by rw [hst]; exact hv) rfl, by rw [hst]; exact hv⟩
      rw [hl]
      exact (hd.count (bumpCount s.lzw.ncodes u.draws)).learn hc hf

/-! ## The strings (10_state.md R44) -/

/-- More fuel changes nothing, and neither do entries above the code. -/
theorem dictStr_append {dict : List DictEntry} (hl : ∀ (n : Nat) (x : DictEntry), dict[n]? = some x → x.pre.toNat < 256 + n)
    (tail : List DictEntry) : ∀ (e : Nat), e < 256 + dict.length → ∀ (f g : Nat), e < f → e < g →
      dictStr (dict ++ tail) f e = dictStr dict g e := by
  intro e
  induction e using Nat.strong_induction_on with
  | _ e ih =>
    intro he f g hf hg
    obtain ⟨f, rfl⟩ : ∃ n, f = n + 1 := ⟨f - 1, by omega⟩
    obtain ⟨g, rfl⟩ : ∃ n, g = n + 1 := ⟨g - 1, by omega⟩
    unfold dictStr
    split
    · rfl
    · have hlt : e - 256 < dict.length := by omega
      rw [List.getElem?_append_left hlt, List.getElem?_eq_getElem hlt]
      have := hl (e - 256) _ (List.getElem?_eq_getElem hlt)
      simp only
      rw [ih _ (by omega) (by omega) f g (by omega) (by omega)]

theorem dictStr_fuel {dict : List DictEntry} (hl : ∀ (n : Nat) (x : DictEntry), dict[n]? = some x → x.pre.toNat < 256 + n)
    {e f g : Nat} (he : e < 256 + dict.length) (hf : e < f) (hg : e < g) : dictStr dict f e = dictStr dict g e := by
  have := dictStr_append hl [] e he f g hf hg
  rwa [List.append_nil] at this

/-- `str(e)` of a stored entry (R44). -/
theorem dictStr_entry {dict : List DictEntry} (hl : ∀ (n : Nat) (x : DictEntry), dict[n]? = some x → x.pre.toNat < 256 + n)
    {n : Nat} {x : DictEntry} (hx : dict[n]? = some x) :
    dictStr dict (256 + n + 1) (256 + n) = dictStr dict (x.pre.toNat + 1) x.pre.toNat ++ [x.byte] := by
  rw [dictStr, if_neg (by omega), show 256 + n - 256 = n by omega, hx]
  have h1 := hl n x hx
  have h2 := (List.getElem?_eq_some_iff.1 hx).1
  simp only
  rw [dictStr_fuel hl (by omega) (by omega) (Nat.lt_succ_self _)]

theorem dictStr_byte (dict : List DictEntry) {e f : Nat} (he : e < 256) (hf : 0 < f) :
    dictStr dict f e = [BitVec.ofNat 8 e] := by
  obtain ⟨f, rfl⟩ : ∃ n, f = n + 1 := ⟨f - 1, by omega⟩
  rw [dictStr, if_pos he]

/-- No code stands for the empty string. -/
theorem dictStr_ne_nil {dict : List DictEntry} (hl : ∀ (n : Nat) (x : DictEntry), dict[n]? = some x → x.pre.toNat < 256 + n)
    {e : Nat} (he : e < 256 + dict.length) : dictStr dict (e + 1) e ≠ [] := by
  rcases Nat.lt_or_ge e 256 with h | h
  · rw [dictStr_byte dict h (by omega)]; simp
  · have hlt : e - 256 < dict.length := by omega
    have := dictStr_entry hl (List.getElem?_eq_getElem hlt)
    rw [show 256 + (e - 256) = e by omega] at this
    rw [this]; simp

end Sys2Proof.Machine
end

