-- ==== Sys2Proof/Laws/PerInstr.lean ====
section
/-! SUPPORT. One lemma per constructor: the word the encoder gives a well-formed instruction is admitted by the row of
the opcode table that carries the instruction's mnemonic (30_encoding.md R66). -/

namespace Sys2Proof

/-- The row of this mnemonic is in the table, and it admits the instruction's word. -/
def Laws.RowOf.Statement (i : Instr) : Prop :=
  ∃ r ∈ opcodeTable, r.mnemonic = i.mnemonic ∧ (i.wellFormed = true → r.admits (encode i) = true)

namespace Laws.RowOf

theorem nop : Statement .nop :=
  ⟨rowN "NOP" 0x00, by decide, rfl, by decide⟩

theorem sreset : Statement .sreset :=
  ⟨rowN "SRESET" 0x01, by decide, rfl, by decide⟩

theorem result : Statement .result :=
  ⟨rowN "RESULT" 0x02, by decide, rfl, by decide⟩

theorem freq : Statement .freq :=
  ⟨rowN "FREQ" 0x10, by decide, rfl, by decide⟩

theorem hufInit : Statement .hufInit :=
  ⟨rowN "HUF_INIT" 0x20, by decide, rfl, by decide⟩

theorem hufMerge : Statement .hufMerge :=
  ⟨rowN "HUF_MERGE" 0x21, by decide, rfl, by decide⟩

theorem hufBuild : Statement .hufBuild :=
  ⟨rowN "HUF_BUILD" 0x22, by decide, rfl, by decide⟩

theorem hufCodes : Statement .hufCodes :=
  ⟨rowN "HUF_CODES" 0x23, by decide, rfl, by decide⟩

theorem hufCanon : Statement .hufCanon :=
  ⟨rowN "HUF_CANON" 0x24, by decide, rfl, by decide⟩

theorem hufEmit : Statement .hufEmit :=
  ⟨rowN "HUF_EMIT" 0x25, by decide, rfl, by decide⟩

theorem hufEncode (canon : Bool) : Statement (.hufEncode canon) :=
  ⟨rowF "HUF_ENCODE" 0x2F, by decide, rfl, by cases canon <;> decide⟩

theorem ariTable : Statement .ariTable :=
  ⟨rowN "ARI_TABLE" 0x30, by decide, rfl, by decide⟩

theorem ariInit : Statement .ariInit :=
  ⟨rowN "ARI_INIT" 0x31, by decide, rfl, by decide⟩

theorem ariStep (sym : Byte) : Statement (.ariStep sym) :=
  ⟨rowS "ARI_STEP" 0x32, by decide, rfl, fun _ => (rowS_admits _ _ _).2 (by simp [encode])⟩

theorem ariNarrow : Statement .ariNarrow :=
  ⟨rowN "ARI_NARROW" 0x33, by decide, rfl, by decide⟩

theorem ariFinal : Statement .ariFinal :=
  ⟨rowN "ARI_FINAL" 0x34, by decide, rfl, by decide⟩

theorem ariEncode : Statement .ariEncode :=
  ⟨rowN "ARI_ENCODE" 0x3F, by decide, rfl, by decide⟩

theorem lzwInit : Statement .lzwInit :=
  ⟨rowN "LZW_INIT" 0x40, by decide, rfl, by decide⟩

theorem lzwStep (sym : Byte) : Statement (.lzwStep sym) :=
  ⟨rowS "LZW_STEP" 0x41, by decide, rfl, fun _ => (rowS_admits _ _ _).2 (by simp [encode])⟩

theorem lzwRun : Statement .lzwRun :=
  ⟨rowN "LZW_RUN" 0x42, by decide, rfl, by decide⟩

theorem lzwFlush : Statement .lzwFlush :=
  ⟨rowN "LZW_FLUSH" 0x43, by decide, rfl, by decide⟩

theorem lzwEncode : Statement .lzwEncode :=
  ⟨rowN "LZW_ENCODE" 0x4F, by decide, rfl, by decide⟩

theorem bpClear : Statement .bpClear :=
  ⟨rowN "BP_CLEAR" 0x50, by decide, rfl, by decide⟩

theorem bpPut (n : Byte) (bits : BitVec 16) : Statement (.bpPut n bits) :=
  ⟨rowP "BP_PUT" 0x51, by decide, rfl, fun h => (rowP_admits _ _ _).2 (by simpa [encode, Instr.wellFormed] using h)⟩

theorem bpPad : Statement .bpPad :=
  ⟨rowN "BP_PAD" 0x52, by decide, rfl, by decide⟩

end Laws.RowOf

end Sys2Proof
end

