-- ==== Sys2Proof/Laws/Step.lean ====
section
/-! SUPPORT. What one step can do: the body each command runs, the cases of a step, and what a host event may change. -/

namespace Sys2Proof.Machine

/-- The body a command runs between acceptance and its end (40_control.md R83). -/
def bodyOf (i : Instr) (s : State) : CmdResult :=
  match i with
  | .nop => .ok s
  | .sreset => .ok (softReset s)
  | .result => resultBody s
  | .freq => freqBody s
  | .hufInit => hufInitBody s
  | .hufMerge => hufMergeBody s
  | .hufBuild => hufBuildBody s
  | .hufCodes => hufCodesBody s
  | .hufCanon => hufCanonBody s
  | .hufEmit => hufEmitBody s
  | .hufEncode canon => hufEncodeBody canon s
  | .ariTable => ariTableBody s
  | .ariInit => .ok (openInterval s)
  | .ariStep sym => ariStepBody sym s
  | .ariNarrow => ariNarrowBody s
  | .ariFinal => ariFinalBody s
  | .ariEncode => ariEncodeBody s
  | .lzwInit => .ok (seedDict s)
  | .lzwStep sym => lzwStepBody sym s
  | .lzwRun => lzwRunBody s
  | .lzwFlush => lzwFlushBody s
  | .lzwEncode => lzwEncodeBody s
  | .bpClear => .ok (clearStream s)
  | .bpPut n bits => bpPutBody n bits s
  | .bpPad => bpPadBody s

/-- Every command is its body and an end (R14, R74). -/
theorem exec_eq (i : Instr) (s : State) : exec i s = finish (bodyOf i s) := by cases i <;> rfl

/-- A step answers a next state in one of four ways (20_memory.md R57, 40_control.md R74, R75). -/
theorem step_next {s t : State} (h : step s = .next t) :
    (s.status.busy = false ∧ s.inbox = [] ∧ t = s) ∨
    (∃ i, s.status.busy = true ∧ decode s.cmd = .ok i ∧ exec i s = .next t) ∨
    (∃ e, s.status.busy = true ∧ decode s.cmd = .error e ∧
      t = s.raiseError .illegalCmd ((opcOf s.cmd).setWidth 32)) ∨
    (∃ e rest, s.inbox = e :: rest ∧ hostStep e (takeEvent s rest) = .next t) := by
  have engine : s.status.busy = true → engineStep s = .next t →
      (∃ i, s.status.busy = true ∧ decode s.cmd = .ok i ∧ exec i s = .next t) ∨
      (∃ e, s.status.busy = true ∧ decode s.cmd = .error e ∧
        t = s.raiseError .illegalCmd ((opcOf s.cmd).setWidth 32)) := by
    intro hb he
    unfold engineStep at he
    split at he
    · exact .inl ⟨_, hb, ‹_›, he⟩
    · exact .inr ⟨_, hb, ‹_›, by simpa using he.symm⟩
  unfold step at h
  split at h
  · rename_i hi
    split at h
    · rcases engine ‹_› h with h' | h'
      · exact .inr (.inl h')
      · exact .inr (.inr (.inl h'))
    · rename_i hb
      exact .inl ⟨by simpa using hb, hi, by simpa using h.symm⟩
  · rename_i e rest hi
    split at h
    · rename_i hb
      rcases engine hb.1 h with h' | h'
      · exact .inr (.inl h')
      · exact .inr (.inr (.inl h'))
    · exact .inr (.inr (.inr ⟨e, rest, hi, h⟩))

/-- A host access changes nothing the engine writes, but for OBUF (10_state.md R17, R46). -/
structure HostTouch (s t : State) : Prop where
  params : t.params = s.params
  err : t.err = s.err
  stage : t.stage = s.stage
  inPos : t.inPos = s.inPos
  res : t.res = s.res
  bp : t.bp = s.bp
  freq : t.freq = s.freq
  huf : t.huf = s.huf
  ari : t.ari = s.ari
  lzw : t.lzw = s.lzw

theorem hostTouch_refl (s : State) : HostTouch s s := ⟨rfl, rfl, rfl, rfl, rfl, rfl, rfl, rfl, rfl, rfl⟩

theorem hostTouch_writeTarget (s : State) (w : AccessWidth) (v : Word) (x : Target) :
    HostTouch s (writeTarget s w v x) := by
  have idle : ∀ t : State, HostTouch s t → HostTouch s (ifIdle s t) := by
    intro t h
    unfold ifIdle
    split
    · exact ⟨rfl, rfl, rfl, rfl, rfl, rfl, rfl, rfl, rfl, rfl⟩
    · exact h
  have plain : HostTouch s s := hostTouch_refl s
  cases x with
  | window _ => exact plain
  | ibuf a => exact idle _ ⟨rfl, rfl, rfl, rfl, rfl, rfl, rfl, rfl, rfl, rfl⟩
  | obuf a => exact idle _ ⟨rfl, rfl, rfl, rfl, rfl, rfl, rfl, rfl, rfl, rfl⟩
  | reg r =>
    cases r
    case cmd =>
      show HostTouch s (writeCmd s v)
      unfold writeCmd
      split <;> exact ⟨rfl, rfl, rfl, rfl, rfl, rfl, rfl, rfl, rfl, rfl⟩
    case status => exact ⟨rfl, rfl, rfl, rfl, rfl, rfl, rfl, rfl, rfl, rfl⟩
    case ctrl => exact ⟨rfl, rfl, rfl, rfl, rfl, rfl, rfl, rfl, rfl, rfl⟩
    case inBase => exact idle _ ⟨rfl, rfl, rfl, rfl, rfl, rfl, rfl, rfl, rfl, rfl⟩
    case inLen => exact idle _ ⟨rfl, rfl, rfl, rfl, rfl, rfl, rfl, rfl, rfl, rfl⟩
    case outBase => exact idle _ ⟨rfl, rfl, rfl, rfl, rfl, rfl, rfl, rfl, rfl, rfl⟩
    case outCap => exact idle _ ⟨rfl, rfl, rfl, rfl, rfl, rfl, rfl, rfl, rfl, rfl⟩
    case lzwCfg => exact idle _ ⟨rfl, rfl, rfl, rfl, rfl, rfl, rfl, rfl, rfl, rfl⟩
    all_goals exact plain

/-- A host event is a reset, a read, which changes nothing but the answer and the draws, or a write to a target. -/
theorem hostStep_next {e : HostEvent} {s t : State} (h : hostStep e s = .next t) :
    (e = .hwReset ∧ t = hwReset s) ∨
    (∃ w off, e = .read w off ∧ t = { s with resp := t.resp, draws := t.draws }) ∨
    (∃ w off v x, e = .write w off v ∧ target s w off = some x ∧ t = { writeTarget s w v x with resp := none }) := by
  cases e with
  | hwReset => exact .inl ⟨rfl, by simpa [hostStep] using h.symm⟩
  | read w off =>
    refine .inr (.inl ⟨w, off, rfl, ?_⟩)
    simp only [hostStep, hostRead] at h
    split at h
    · simp at h
    · split at h <;> (simp only [Host.Outcome.next.injEq] at h; subst h; rfl)
  | write w off v =>
    refine .inr (.inr ?_)
    simp only [hostStep, hostWrite] at h
    split at h
    · simp at h
    · rename_i x hx
      exact ⟨w, off, v, x, rfl, hx, by simpa using h.symm⟩

/-- What no host event but a reset changes. -/
theorem hostStep_touch {e : HostEvent} {s t : State} (h : hostStep e s = .next t) : t = hwReset s ∨ HostTouch s t := by
  rcases hostStep_next h with ⟨-, rfl⟩ | ⟨w, off, -, ht⟩ | ⟨w, off, v, x, -, -, rfl⟩
  · exact .inl rfl
  · right; rw [ht]; exact ⟨rfl, rfl, rfl, rfl, rfl, rfl, rfl, rfl, rfl, rfl⟩
  · right
    have := hostTouch_writeTarget s w v x
    exact ⟨this.params, this.err, this.stage, this.inPos, this.res, this.bp, this.freq, this.huf, this.ari, this.lzw⟩

/-- A property of what the engine writes (and the instance) that every body keeps holds after every step: for an
invariant that does not read the host's registers or the buffers. -/
theorem step_keeps {P : State → Prop} {s t : State} (hs : P s) (h : step s = .next t)
    (hbody : ∀ i, (bodyOf i s).Ends P)
    (hretire : ∀ u : State, P u → P u.complete)
    (hraise : ∀ (u : State) c i, P u → P (u.raiseError c i))
    (hreset : ∀ u : State, u.params = s.params → P (hwReset u))
    (htouch : ∀ u v : State, HostTouch u v → P u → P v) : P t := by
  rcases step_next h with ⟨-, -, rfl⟩ | ⟨i, -, -, hx⟩ | ⟨e, -, -, rfl⟩ | ⟨e, rest, -, hx⟩
  · exact hs
  · rw [exec_eq] at hx
    exact ends_finish (hbody i) hx hretire hraise
  · exact hraise _ _ _ hs
  · have ht : P (takeEvent s rest) := htouch s _ ⟨rfl, rfl, rfl, rfl, rfl, rfl, rfl, rfl, rfl, rfl⟩ hs
    rcases hostStep_touch hx with rfl | h'
    · exact hreset _ rfl
    · exact htouch _ _ h' ht

end Sys2Proof.Machine
end

