-- ==== Sys2Proof/Tests/Slice0.lean ====
section
/-! SUPPORT. Tests of the decoder, of single steps, and of the hypotheses of the statements. Every expected value is
taken from the spec: words from 30_encoding.md R64-R66, results from 95_test_vectors.md by the section each test
names. -/

namespace Sys2Proof.Tests

set_option Elab.async false

open Sys2Proof.Machine

/-! ## The smoke test of WellFormed -/

/-- R65: "values 17..255 are illegal". -/
theorem test_put_count_17_is_ill_formed : (Instr.bpPut 17 0).wellFormed = false := by decide

theorem test_put_count_255_is_ill_formed : (Instr.bpPut 255 0xFFFF).wellFormed = false := by decide

theorem test_put_count_16_is_well_formed : (Instr.bpPut 16 0xFFFF).wellFormed = true := by decide

/-! ## Words written out bit by bit from R64 and R66: opcode, [23:16], [15:0] -/

theorem test_decode_control :
    decode 0b00000000_00000000_0000000000000000 = .ok .nop ∧
    decode 0b00000001_00000000_0000000000000000 = .ok .sreset ∧
    decode 0b00000010_00000000_0000000000000000 = .ok .result ∧
    decode 0b00010000_00000000_0000000000000000 = .ok .freq := by decide

theorem test_decode_huffman :
    decode 0b00100000_00000000_0000000000000000 = .ok .hufInit ∧
    decode 0b00100001_00000000_0000000000000000 = .ok .hufMerge ∧
    decode 0b00100010_00000000_0000000000000000 = .ok .hufBuild ∧
    decode 0b00100011_00000000_0000000000000000 = .ok .hufCodes ∧
    decode 0b00100100_00000000_0000000000000000 = .ok .hufCanon ∧
    decode 0b00100101_00000000_0000000000000000 = .ok .hufEmit ∧
    decode 0b00101111_00000000_0000000000000000 = .ok (.hufEncode false) ∧
    decode 0b00101111_00000000_0000000000000001 = .ok (.hufEncode true) := by decide

theorem test_decode_arithmetic :
    decode 0b00110000_00000000_0000000000000000 = .ok .ariTable ∧
    decode 0b00110001_00000000_0000000000000000 = .ok .ariInit ∧
    decode 0b00110010_01000001_0000000000000000 = .ok (.ariStep 0x41) ∧
    decode 0b00110011_00000000_0000000000000000 = .ok .ariNarrow ∧
    decode 0b00110100_00000000_0000000000000000 = .ok .ariFinal ∧
    decode 0b00111111_00000000_0000000000000000 = .ok .ariEncode := by decide

theorem test_decode_lzw :
    decode 0b01000000_00000000_0000000000000000 = .ok .lzwInit ∧
    decode 0b01000001_11111111_0000000000000000 = .ok (.lzwStep 0xFF) ∧
    decode 0b01000010_00000000_0000000000000000 = .ok .lzwRun ∧
    decode 0b01000011_00000000_0000000000000000 = .ok .lzwFlush ∧
    decode 0b01001111_00000000_0000000000000000 = .ok .lzwEncode := by decide

theorem test_decode_bitpacker :
    decode 0b01010000_00000000_0000000000000000 = .ok .bpClear ∧
    decode 0b01010001_00000011_1111111111111101 = .ok (.bpPut 3 0xFFFD) ∧
    decode 0b01010010_00000000_0000000000000000 = .ok .bpPad := by decide

/-- 95_test_vectors.md 3.1: the illegal words. -/
theorem test_decode_illegal :
    decode 0x00000001 = .error .reservedBitSet ∧ decode 0x03000000 = .error .unlistedOpcode ∧
    decode 0x10010000 = .error .reservedBitSet ∧ decode 0x26000000 = .error .unlistedOpcode ∧
    decode 0x2F000002 = .error .reservedBitSet ∧ decode 0x32410001 = .error .reservedBitSet ∧
    decode 0x51110000 = .error .putCountTooLarge ∧ decode 0x52000100 = .error .reservedBitSet ∧
    decode 0xFF000000 = .error .unlistedOpcode := by decide

/-! ## Small states -/

/-- The conventions of 95_test_vectors.md section 1: the bytes in IBUF from offset 0 on, OUT_BASE 0. -/
def loaded (bytes : List Nat) (cap : Word) : State :=
  { State.reset with
    ibuf := bytes.zipIdx.map fun p => (p.2, BitVec.ofNat 8 p.1)
    cfg := ⟨0, BitVec.ofNat 32 bytes.length, 0, cap, ⟨12, .freeze⟩⟩ }

/-- The state a command ends in. -/
def after (s : State) (i : Instr) : State :=
  match exec i s with
  | .next t => t
  | .fault _ => s
  | .refused _ => s

/-- One command after another. -/
def afterAll (s : State) (l : List Instr) : State := l.foldl after s

/-- The bytes of OBUF. -/
def out (s : State) : List Nat := s.obuf.map fun c => c.2.toNat

/-- The frequency table of "AAAAABBBCC" (95_test_vectors.md 2.2). -/
def tableABC : State :=
  { loaded [] 64 with
    freq := ⟨(((Vector.replicate 256 0).set 0x41 5).set 0x42 3).set 0x43 2, 10, 3⟩
    stage.freqV := true }

/-- The frequency table of "AB". -/
def tableAB : State :=
  { loaded [0x41, 0x42] 64 with
    freq := ⟨((Vector.replicate 256 0).set 0x41 1).set 0x42 1, 2, 2⟩
    stage.freqV := true }

/-! ## Control, errors, the host -/

/-- 3.2: NOP ends with STATUS 0x02. -/
theorem test_nop : regValue (after State.reset .nop) .status = 0x02 := by decide +kernel

/-- The state one step after the engine is given a word. -/
def stepOn (w : Nat) : State :=
  match step (State.reset.withFetchWord 32 w) with
  | .next t => t
  | .fault _ => State.reset
  | .refused _ => State.reset

/-- 3.2: an illegal word: STATUS 0x06, ERR_INFO the opcode, ERR_CMD the word. -/
theorem test_illegal_word :
    regValue (stepOn 0x03000000) .status = 0x06 ∧ regValue (stepOn 0x03000000) .errCode = 1 ∧
    regValue (stepOn 0x03000000) .errInfo = 3 ∧ regValue (stepOn 0x03000000) .errCmd = 0x03000000 := by
  decide +kernel

/-- 3.2: in the error state NOP is dropped. -/
theorem test_nop_dropped_in_error :
    regValue (writeCmd (stepOn 0x03000000) 0) .status = 0x0E ∧
    regValue (writeCmd (stepOn 0x03000000) 0) .cmd = 0x03000000 := by decide +kernel

/-- 3.2: SRESET clears the errors, and ends with STATUS 0x02. -/
theorem test_sreset :
    let t := after (stepOn 0x03000000) .sreset
    regValue t .status = 0x02 ∧ regValue t .errCode = 0 ∧ regValue t .hufRoot = 0x1FF ∧
      regValue t .lzwCur = 0x1FFFF := by decide +kernel

/-- 3.2: RESULT on a reset block, and with CNT = 1. -/
theorem test_result :
    regValue (after State.reset .result) .status = 0x02 ∧
    regValue (afterAll (loaded [] 4) [.bpPut 1 1, .result]) .errCode = 2 ∧
    regValue (afterAll (loaded [0x41, 0x42] 4) [.bpPut 16 0, .result]) .resComp = 2 := by decide +kernel

/-- Section 1: PARAM0 and PARAM1 of the vectors' instance. -/
theorem test_params : regValue State.reset .param0 = 0x00100C0C ∧ regValue State.reset .param1 = 8 := by decide +kernel

/-- 3.2: after an error, with IE_ERR set, STATUS reads 0x26. -/
theorem test_irq_level :
    regValue { stepOn 0x03000000 with ctrl := Ctrl.ofWord 2 } .status = 0x26 := by decide +kernel

/-- P1: OBUF bytes 07 F4 read little-endian as 0xF407 in bits [15:0]. -/
theorem test_little_endian_read :
    ∃ t, hostStep (.read .w16 0x02000000) { State.reset with obuf := [(0, 0x07), (1, 0xF4)] } = .next t ∧
      t.resp = some 0xF407 := ⟨_, rfl, by decide +kernel⟩

/-! ## FREQ -/

/-- 3.4: "ZZZZ". -/
theorem test_freq :
    let t := after (loaded [0x5A, 0x5A, 0x5A, 0x5A] 64) .freq
    regValue t .freqTotal = 4 ∧ regValue t .freqNsym = 1 ∧ t.freq.count.at 0x5A = 4 ∧ regValue t .stage = 1 ∧
      regValue t .inPos = 4 := by decide +kernel

/-- 3.3: IN_BASE 0xFFFFFFFF, IN_LEN 2: IN_RANGE, no wrap. -/
theorem test_freq_in_range :
    let s := loaded [] 64
    regValue (after { s with cfg.inBase := 0xFFFFFFFF, cfg.inLen := 2 } .freq) .errCode = 3 := by decide +kernel

/-! ## Huffman (3.5, "AAAAABBBCC" step by step) -/

theorem test_huf_init :
    let t := after tableABC .hufInit
    t.huf.arena.map (fun nd => (nd.sym.toNat, nd.freq.toNat)) = [(0x41, 5), (0x42, 3), (0x43, 2)] ∧
      regValue t .hufLive = 3 ∧ regValue t .hufRoot = 0x1FF ∧ regValue t .stage = 3 := by decide +kernel

theorem test_huf_merge :
    let t := afterAll tableABC [.hufInit, .hufMerge]
    regValue t .hufLive = 2 ∧ regValue t .hufNnodes = 4 ∧ regValue t .hufRoot = 0x1FF ∧ regValue t .stage = 3 ∧
      t.huf.arena[3]? = some ⟨5, false, 0, 2, 1, true⟩ := by decide +kernel

/-- The NODE window after the build: node 4 and node 0. -/
theorem test_huf_build :
    let t := afterAll tableABC [.hufInit, .hufBuild]
    regValue t .hufNnodes = 5 ∧ regValue t .hufRoot = 4 ∧ regValue t .stage = 5 ∧
      windowWord t 0x4040 = some 0x0000000A ∧ windowWord t 0x4044 = some 0x00030000 ∧
      windowWord t 0x4048 = some 0x00000200 ∧ windowWord t 0x4004 = some 0x01FF01FF ∧
      windowWord t 0x4008 = some 0x00000141 := by decide +kernel

theorem test_huf_codes :
    let t := afterAll tableABC [.hufInit, .hufBuild, .hufCodes]
    t.huf.code 0x41 = [false] ∧ t.huf.code 0x43 = [true, false] ∧ t.huf.code 0x42 = [true, true] ∧
      regValue t .hufMaxlen = 2 ∧ regValue t .stage = 7 := by decide +kernel

theorem test_huf_canon :
    let t := afterAll tableABC [.hufInit, .hufBuild, .hufCodes, .hufCanon]
    t.huf.code 0x41 = [false] ∧ t.huf.code 0x42 = [true, false] ∧ t.huf.code 0x43 = [true, true] ∧
      regValue t .stage = 0x0F := by decide +kernel

/-- 3.5 NO_CODE: the table of "AAB" (A "1", B "0") over the bytes "AC". -/
theorem test_huf_emit_no_code :
    let s := { loaded [0x41, 0x43] 8 with
      huf.codeLen := ((Vector.replicate 256 0).set 0x41 1).set 0x42 1
      huf.codeVal := ((Vector.replicate 256 0).set 0x41 1).set 0x42 0
      stage.hufStage := 3 }
    let t := after s .hufEmit
    regValue t .errCode = 6 ∧ regValue t .errInfo = 0x143 ∧ regValue t .inPos = 1 ∧ regValue t .bitLen = 1 := by
  decide +kernel

/-- 3.5: "ABCD" gives 1B. -/
theorem test_huf_encode :
    let t := after (loaded [0x41, 0x42, 0x43, 0x44] 64) (.hufEncode false)
    out t = [0x1B] ∧ regValue t .padBits = 0 ∧ regValue t .resComp = 1 := by decide +kernel

/-- 2.3: "ZZZZ" gives 00 with four pad bits. -/
theorem test_huf_encode_single :
    let t := after (loaded [0x5A, 0x5A, 0x5A, 0x5A] 64) (.hufEncode true)
    out t = [0] ∧ regValue t .padBits = 4 ∧ regValue t .resOrig = 4 ∧ regValue t .hufNnodes = 1 := by decide +kernel

/-! ## Arithmetic -/

/-- 2.2: CUM_LO of "AAAAABBBCC". -/
theorem test_ari_table :
    let t := after tableABC .ariTable
    t.ari.cumLo.at 0x41 = 0 ∧ t.ari.cumLo.at 0x42 = 5 ∧ t.ari.cumLo.at 0x43 = 8 ∧ t.ari.cumLo.at 0x44 = 10 := by
  decide +kernel

/-- P2: L 0, H 1, D 1; then 'A': L 0, H 1, D 2; 'C' raises ARI_NO_SYM; 'B': L 1, H 2, D 4. -/
theorem test_ari_init :
    let t := after tableAB .ariInit
    t.ari.l = 0 ∧ t.ari.h = 1 ∧ t.ari.d = 1 ∧ regValue t .stage = 0x21 := by decide +kernel

theorem test_ari_step :
    let t := afterAll tableAB [.ariTable, .ariInit, .ariStep 0x41, .ariStep 0x42]
    t.ari.l = 1 ∧ t.ari.h = 2 ∧ t.ari.d = 4 ∧ regValue t .ariK = 2 := by decide +kernel

theorem test_ari_step_no_symbol :
    let t := afterAll tableAB [.ariTable, .ariInit, .ariStep 0x43]
    regValue t .errCode = 7 ∧ regValue t .errInfo = 0x43 ∧ t.ari.d = 1 := by decide +kernel

/-- 3.6: "AB" from its own table. -/
theorem test_ari_narrow :
    let t := afterAll tableAB [.ariTable, .ariInit, .ariNarrow]
    t.ari.l = 1 ∧ t.ari.h = 2 ∧ t.ari.d = 4 ∧ regValue t .inPos = 2 := by decide +kernel

/-- 2.2: B = 15, E = 15 and the bits of "AAAAABBBCC". -/
theorem test_ari_final :
    let t := after { tableABC with
      ari.l := 225287500, ari.h := 225625000, ari.d := 10000000000, stage.ariV := true } .ariFinal
    regValue t .ariB = 15 ∧ regValue t .ariBits = 15 ∧ regValue t .bitLen = 15 ∧ out t = [0x05] := by decide +kernel

/-- 3.6: "BA" stops early: B 2, E 1, the byte 80. -/
theorem test_ari_encode :
    let t := after (loaded [0x42, 0x41] 64) .ariEncode
    out t = [0x80] ∧ regValue t .ariB = 2 ∧ regValue t .ariBits = 1 ∧ regValue t .padBits = 7 := by decide +kernel

/-! ## LZW -/

/-- R108's example, and 3.7: WIDTH 8 is full from the start. -/
theorem test_lzw_init :
    let t := after (loaded [] 64) .lzwInit
    regValue t .lzwAct = 0x00C ∧ regValue t .lzwNext = 256 ∧ windowWord t 0x40104 = some 0x8041FFFF ∧
      windowWord t 0x40400 = some 0 ∧
      regValue (after { loaded [] 64 with cfg.lzwCfg := ⟨8, .freeze⟩ } .lzwInit) .stage = 0xC0 := by decide +kernel

/-- R110's example: a second 'A' emits 65 and inserts 256. -/
theorem test_lzw_step :
    let t := afterAll (loaded [] 64) [.lzwInit, .lzwStep 0x41, .lzwStep 0x41]
    regValue t .lzwNext = 257 ∧ regValue t .lzwCur = 65 ∧ regValue t .bitLen = 12 ∧
      t.lzw.dict = [⟨65, 0x41⟩] := by decide +kernel

/-- P3: "ABABABA" at WIDTH 9. -/
theorem test_lzw_run :
    let t := afterAll { loaded [0x41, 0x42, 0x41, 0x42, 0x41, 0x42, 0x41] 8 with cfg.lzwCfg := ⟨9, .freeze⟩ }
      [.lzwInit, .lzwRun]
    regValue t .lzwCur = 258 ∧ regValue t .lzwNext = 259 ∧ regValue t .bitLen = 27 ∧
      windowWord t 0x40408 = some 0x80410100 := by decide +kernel

theorem test_lzw_flush :
    let t := afterAll (loaded [] 64) [.lzwInit, .lzwStep 0x41, .lzwFlush]
    regValue t .lzwCur = 0x1FFFF ∧ regValue t .lzwNcodes = 1 ∧ regValue t .bitLen = 12 := by decide +kernel

/-- 3.7: "ABAB" at WIDTH 8 comes out as it went in. -/
theorem test_lzw_encode :
    let t := after { loaded [0x41, 0x42, 0x41, 0x42] 64 with cfg.lzwCfg := ⟨8, .freeze⟩ } .lzwEncode
    out t = [0x41, 0x42, 0x41, 0x42] ∧ regValue t .lzwNext = 256 ∧ regValue t .stage = 0xC0 := by decide +kernel

/-- 2.3: "ZZZZ", the KwKwK case: 05 A1 00 05 A0. -/
theorem test_lzw_encode_repeat :
    let t := after (loaded [0x5A, 0x5A, 0x5A, 0x5A] 64) .lzwEncode
    out t = [0x05, 0xA1, 0x00, 0x05, 0xA0] ∧ regValue t .lzwNcodes = 3 ∧ regValue t .padBits = 4 := by decide +kernel

/-! ## BitPacker (3.8) -/

theorem test_bp_put :
    let t := afterAll (loaded [] 8) [.bpClear, .bpPut 3 0xFFFD, .bpPut 0 0, .bpPut 16 0xABCD]
    out t = [0xB5, 0x79] ∧ regValue t .outLen = 2 ∧ regValue t .bitLen = 19 ∧ regValue t .bpState = 0x0503 := by
  decide +kernel

theorem test_bp_put_overflow :
    let t := afterAll (loaded [] 1) [.bpClear, .bpPut 16 0]
    regValue t .errCode = 5 ∧ regValue t .bitLen = 0 := by decide +kernel

theorem test_bp_pad :
    let t := afterAll (loaded [] 8) [.bpClear, .bpPut 3 0xFFFD, .bpPut 16 0xABCD, .bpPad]
    out t = [0xB5, 0x79, 0xA0] ∧ regValue t .outLen = 3 ∧ regValue t .padBits = 5 ∧ regValue t .bpState = 0 := by
  decide +kernel

theorem test_bp_clear :
    regValue (afterAll (loaded [] 8) [.bpPut 3 5, .bpClear]) .bpState = 0 ∧
    regValue (afterAll (loaded [] 8) [.bpPut 16 5, .bpClear]) .outLen = 0 := by decide +kernel

/-! ## Witnesses: states and operands that meet the hypotheses of each statement that has some -/

/-- Whether a command or a step answers a next state, and whether ERR is set in it. -/
def goesOn (r : Host.Outcome State Fault Refusal) (err : Bool) : Bool :=
  match r with
  | .next t => t.status.err == err
  | .fault _ => false
  | .refused _ => false

theorem goesOn_next {r : Host.Outcome State Fault Refusal} {err : Bool} (h : goesOn r err = true) :
    ∃ t, r = .next t ∧ t.status.err = err := by
  cases r with
  | next t => exact ⟨t, rfl, by simpa [goesOn] using h⟩
  | fault _ => simp [goesOn] at h
  | refused _ => simp [goesOn] at h

/-- The input "AB" and a window of 64 bytes. -/
def demo : State := loaded [0x41, 0x42] 64

/-- A reset block whose engine has just been given a word. -/
def given (w : Nat) : State := demo.withFetchWord 32 w

theorem freqInv_tableAB : FreqInv tableAB := ⟨by decide +kernel, by decide +kernel, by decide +kernel⟩

theorem configInv_demo : ConfigInv demo := ⟨by decide +kernel, by decide +kernel⟩

theorem witness_DecodeOfEncodeIsTheInstruction : ∃ i : Instr, i.wellFormed = true := ⟨.bpPut 16 0xFFFF, by decide⟩

theorem witness_LegalWordIsTheEncodingOfItsInstruction :
    ∃ (w : Word) (i : Instr), decode w = .ok i := ⟨0x5110FFFF, .bpPut 16 0xFFFF, by decide⟩

theorem witness_StepRunsTheDecodedCommand_engine :
    ∃ (s : State) (i : Instr), s.status.busy = true ∧ (s.inbox = [] ∨ s.engineWait = 0) ∧ decode s.cmd = .ok i :=
  ⟨given 0x10000000, .freq, rfl, .inl rfl, by decide +kernel⟩

theorem witness_StepRunsTheDecodedCommand_engine_before_host :
    ∃ (s : State) (i : Instr), s.inbox ≠ [] ∧ s.status.busy = true ∧ (s.inbox = [] ∨ s.engineWait = 0) ∧
      decode s.cmd = .ok i :=
  ⟨{ given 0x10000000 with inbox := [.read .w32 0x010] }, .freq, by simp, rfl, .inr rfl, by decide +kernel⟩

theorem witness_StepRunsTheDecodedCommand_host :
    (∃ (s : State) (e : HostEvent) (rest : List HostEvent), s.inbox = e :: rest ∧ s.status.busy = false) ∧
    ∃ (s : State) (e : HostEvent) (rest : List HostEvent), s.inbox = e :: rest ∧ s.status.busy = true ∧
      s.engineWait ≠ 0 :=
  ⟨⟨{ demo with inbox := [.write .w32 0x014 0] }, _, _, rfl, rfl⟩,
    ⟨{ given 0 with inbox := [.read .w32 0x010], engineWait := 1 }, _, _, rfl, rfl, by decide⟩⟩

theorem witness_StepRunsTheDecodedCommand_idle :
    ∃ s : State, s.status.busy = false ∧ s.inbox = [] := ⟨demo, rfl, rfl⟩

theorem witness_IllegalWordRaisesIllegalCmd :
    ∃ (s : State) (e : DecodeReject), s.status.busy = true ∧ (s.inbox = [] ∨ s.engineWait = 0) ∧
      decode s.cmd = .error e := ⟨given 0x51110000, .putCountTooLarge, rfl, .inl rfl, by decide +kernel⟩

theorem witness_StepStopsOnlyWhereTheSpecSays :
    (∃ s : State, step s = .fault (.busError 0x090)) ∧ ∃ s : State, step s = .fault (.ibufUnwritten 2) := by
  refine ⟨⟨{ demo with inbox := [.read .w32 0x090] }, rfl⟩, ⟨{ given 0x10000000 with cfg.inLen := 3 }, ?_⟩⟩
  have hd : decode ({ given 0x10000000 with cfg.inLen := 3 } : State).cmd = .ok .freq := by decide +kernel
  have he : freqBody { given 0x10000000 with cfg.inLen := 3 } = .fault (.ibufUnwritten 2) := by decide +kernel
  show engineStep { given 0x10000000 with cfg.inLen := 3 } = _
  unfold engineStep
  rw [hd]
  show finish (freqBody { given 0x10000000 with cfg.inLen := 3 }) = _
  rw [he, finish_fault]

theorem witness_CommandWriteIsAcceptedOrDropped :
    (∃ (s : State) (w : Word), s.status.busy = false ∧ s.status.err = false ∧ w ≠ 0x01000000) ∧
    (∃ (s : State) (w : Word), s.status.busy = false ∧ s.status.err = true ∧ w = 0x01000000) ∧
    (∃ s : State, s.status.busy = true) ∧
    ∃ (s : State) (w : Word), s.status.err = true ∧ w ≠ 0x01000000 :=
  ⟨⟨demo, 0, rfl, rfl, by decide⟩, ⟨stepOn 0x03000000, _, by decide +kernel, by decide +kernel, rfl⟩, ⟨given 0, rfl⟩,
    ⟨stepOn 0x03000000, 0, by decide +kernel, by decide⟩⟩

theorem witness_HostCannotDisturbARunningCommand :
    (given 0).status.busy = true ∧ target (given 0) .w32 0x018 = some (.reg .inBase) ∧
    target (given 0) .w32 0x01C = some (.reg .inLen) ∧ target (given 0) .w32 0x020 = some (.reg .outBase) ∧
    target (given 0) .w32 0x024 = some (.reg .outCap) ∧ target (given 0) .w32 0x028 = some (.reg .lzwCfg) ∧
    target (given 0) .w8 0x01000FFF = some (.ibuf 0xFFF) ∧ target (given 0) .w16 0x02000FFE = some (.obuf 0xFFE) ∧
    ∃ t, HostEvent.write .w32 0x014 0 ≠ .hwReset ∧ hostStep (.write .w32 0x014 0) (given 0) = .next t :=
  ⟨rfl, by decide +kernel, by decide +kernel, by decide +kernel, by decide +kernel, by decide +kernel, by decide +kernel,
    by decide +kernel, _, by simp, rfl⟩

/-- 10_state.md R46, 70_reset_and_hazards.md R147: while BUSY, LZW_CFG reads its value and CYCLES does not; the error
registers, on which the two differ, are left open. -/
theorem test_busy_reads_of_registers :
    visible (given 0) (.reg .lzwCfg) = true ∧ visible (given 0) (.reg .cycles) = false ∧
    visible (given 0) (.reg .errCode) = Config.errorRegsReadCurrent ∧
    visible (given 0) (.reg .errInfo) = Config.errorRegsReadCurrent ∧
    visible (given 0) (.reg .errCmd) = Config.errorRegsReadCurrent ∧ visible demo (.reg .errCode) = true :=
  ⟨rfl, rfl, rfl, rfl, rfl, rfl⟩

theorem witness_RegistersAndWindowsReadAsMapped_registers :
    demo.params.valid ∧ demo.status.busy = false ∧
    (given 0).status.busy = true ∧ (given 0).params.valid ∧ (0x028 : Nat) ≤ 0x028 := by decide +kernel

/-- The registers, windows and OBUF words that read as free values while BUSY, at the ends of their ranges. -/
theorem witness_RegistersAndWindowsReadAsMapped_busy :
    (given 0).status.busy = true ∧ (given 0).params.valid ∧
    (0x038 % 4 = 0 ∧ 0x08C % 4 = 0 ∧ 0x08C < 0x090) ∧
    (∀ off ∈ [0x1000, 0x1BFC, 0x2000, 0x5FFC, 0x10000, 0x1BFFC, 0x40000, 0x7FFFC], inTableWindow off ∧ off % 4 = 0) ∧
    (∀ off ∈ [0x0FFC, 0x1C00, 0x1FFC, 0x6000, 0xFFFC, 0x1C000, 0x3FFFC, 0x80000], ¬ inTableWindow off) ∧
    0x2000FFC < 0x2000000 + (given 0).obufSize := by decide +kernel

/-- One entry in the arena, one in the dictionary. -/
def oneEach : State :=
  { demo with
    huf.arena := [leafNode 4 0x5A]
    huf.nnodes := 1
    lzw := ⟨[⟨65, 0x41⟩], 257, 65, 1, ⟨9, .freeze⟩⟩
    stage.lzwV := true }

theorem witness_RegistersAndWindowsReadAsMapped_windows :
    oneEach.status.busy = false ∧ (0x13FC : Nat) = 0x1000 + 4 * (0xFF : Byte).toNat ∧
    (0x3FFC : Nat) = 0x2000 + 32 * (0xFF : Byte).toNat + 4 * 7 ∧ oneEach.huf.arena.length ≤ 511 ∧
    oneEach.huf.arena[0]? = some (leafNode 4 0x5A) ∧ (7 : Nat) < oneEach.params.ariWords ∧
    ¬ (8 : Nat) < oneEach.params.ariWords ∧ (255 : Nat) < 256 ∧ (256 : Nat) < oneEach.lzw.next.toNat ∧
    oneEach.lzw.dict[256 - 256]? = some ⟨65, 0x41⟩ ∧ oneEach.lzw.next.toNat ≤ 257 ∧ demo.stage.lzwV = false := by
  decide +kernel

theorem witness_ReadsHaveNoSideEffects :
    ∃ (s t : State) (w : AccessWidth) (off : Word), hostStep (.read w off) s = .next t ∧ s.status.busy = false :=
  ⟨demo, _, .w8, 0x01000001, rfl, rfl⟩

/-- Each clause at a boundary of its range. -/
theorem witness_IllegalAccessIsABusError :
    demo.params.valid ∧ (0x01000001 : Word).toNat % AccessWidth.w16.bytes ≠ 0 ∧
    ((0x0FFFFFF : Word).toNat < 0x1000000 ∧ AccessWidth.w8 ≠ .w32) ∧
    (0x090 ≤ (0x090 : Word).toNat ∧ (0x0FFC : Word).toNat < 0x1000) ∧
    (0x1C00 ≤ (0x1C00 : Word).toNat ∧ (0x1FFC : Word).toNat < 0x2000) ∧
    (0x6000 ≤ (0x6000 : Word).toNat ∧ (0xFFFC : Word).toNat < 0x10000) ∧
    (0x1C000 ≤ (0x1C000 : Word).toNat ∧ (0x3FFFC : Word).toNat < 0x40000) ∧
    (0x80000 ≤ (0x80000 : Word).toNat ∧ (0xFFFFFC : Word).toNat < 0x1000000) ∧
    (0x1000000 + demo.ibufSize ≤ (0x1001000 : Word).toNat ∧ (0x1FFFFFC : Word).toNat < 0x2000000) ∧
    0x2000000 + demo.obufSize ≤ (0x2001000 : Word).toNat := by decide +kernel

theorem witness_BufferAccessesAreLittleEndian (w : AccessWidth) (n : Nat)
    (h : (w, n) ∈ [(AccessWidth.w8, 1), (.w16, 2), (.w32, 4)]) :
    demo.params.valid ∧ demo.status.busy = false ∧ (4096 - n) % n = 0 ∧ 4096 - n < demo.ibufSize ∧
      4096 - n < demo.obufSize ∧ (4096 - n) + n = demo.ibufSize := by
  simp only [List.mem_cons, Prod.mk.injEq, List.not_mem_nil, or_false] at h
  rcases h with ⟨rfl, rfl⟩ | ⟨rfl, rfl⟩ | ⟨rfl, rfl⟩ <;> decide +kernel

/-- Reads of stored bytes: of IBUF while BUSY, of OBUF while idle. -/
theorem witness_BufferAccessesAreLittleEndian_reads :
    (∃ (s : State) (bytes : Nat → Byte), s.params.valid ∧ s.status.busy = true ∧ 0 < s.ibufSize ∧
      ∀ j, j < 2 → s.ibuf.read (0 + j) = some (bytes j)) ∧
    ∃ (s : State) (bytes : Nat → Byte), s.params.valid ∧ s.status.busy = false ∧ 4092 < s.obufSize ∧
      ∀ j, j < 4 → s.obuf.read (4092 + j) = some (bytes j) := by
  refine ⟨⟨given 0, fun j => if j = 0 then 0x41 else 0x42, by decide +kernel⟩,
    ⟨{ demo with obuf := [(4092, 1), (4093, 2), (4094, 3), (4095, 4)] }, fun j => BitVec.ofNat 8 (j + 1), by decide +kernel⟩⟩

/-- The read-only registers and the windows at the ends of their ranges; no register the host writes is among them. -/
theorem witness_HostWritesStoreAsRuled :
    demo.status.busy = false ∧
    (∀ off ∈ [0x000, 0x008, 0x02C, 0x08C, 0x1000, 0x1BFC, 0x2000, 0x5FFC, 0x10000, 0x1BFFC, 0x40000, 0x7FFFC],
      off % 4 = 0 ∧ (off < 0x00C ∨ (0x02C ≤ off ∧ off < 0x090) ∨ inTableWindow off)) ∧
    ∀ off ∈ [0x00C, 0x010, 0x014, 0x018, 0x01C, 0x020, 0x024, 0x028],
      ¬ (off < 0x00C ∨ (0x02C ≤ off ∧ off < 0x090) ∨ inTableWindow off) := by decide +kernel

theorem witness_FailedPrerequisiteRaisesSequence :
    (∃ s : State, s.bp.cnt ≠ 0) ∧ demo.stage.freqV = false ∧ demo.stage.hufStage.toNat < 1 ∧
    (∃ s : State, s.stage.hufStage = 1 ∧ s.stage.hufStage.toNat < 2) ∧
    (∃ s : State, s.stage.hufStage = 2 ∧ s.stage.hufStage ≠ 3) ∧
    (∃ s : State, s.stage.ariV = true ∧ s.stage.ariTblV = false) ∧ demo.stage.ariV = false ∧
    demo.stage.lzwV = false :=
  ⟨⟨{ demo with bp.cnt := 1 }, by decide⟩, rfl, by decide, ⟨{ demo with stage.hufStage := 1 }, by decide⟩,
    ⟨{ demo with stage.hufStage := 2 }, by decide⟩, ⟨{ demo with stage.ariV := true }, rfl, rfl⟩, rfl, rfl⟩

/-- 95_test_vectors.md 3.3: IN_BASE 4090, IN_LEN 7 and OUT_BASE 4000, OUT_CAP 97 just do not fit. -/
theorem witness_BadRangesRaiseBeforeAnyChange :
    (∃ s : State, s.ibufSize < s.cfg.inBase.toNat + s.cfg.inLen.toNat ∧ s.stage.hufStage = 3 ∧
      s.stage.ariTblV = true ∧ s.stage.ariV = true ∧ s.stage.lzwV = true) ∧
    ∃ s : State, s.obufSize < s.cfg.outBase.toNat + s.cfg.outCap.toNat ∧
      s.cfg.inBase.toNat + s.cfg.inLen.toNat ≤ s.ibufSize ∧ s.stage.hufStage = 3 ∧ s.stage.ariV = true ∧
      s.stage.lzwV = true :=
  ⟨⟨{ demo with cfg.inBase := 4090, cfg.inLen := 7, stage := ⟨true, 3, false, true, true, true, false⟩ },
      by decide +kernel⟩,
    ⟨{ demo with cfg.outBase := 4000, cfg.outCap := 97, stage := ⟨true, 3, false, true, true, true, false⟩ },
      by decide +kernel⟩⟩

/-- 95_test_vectors.md 3.8: OUT_CAP 1 and sixteen bits; P4: a full window and a partial byte. -/
theorem witness_OverfullAppendChangesNothing :
    (∃ s : State, s.cfg.outBase.toNat + s.cfg.outCap.toNat ≤ s.obufSize ∧
      s.cfg.outCap.toNat < s.bp.outLen.toNat + (s.bp.cnt.toNat + (16 : Byte).toNat) / 8) ∧
    (∃ s : State, s.cfg.outBase.toNat + s.cfg.outCap.toNat ≤ s.obufSize ∧
      s.cfg.outCap.toNat ≤ s.bp.outLen.toNat ∧ s.bp.cnt ≠ 0) ∧
    ∃ s : State, s.cfg.outBase.toNat + s.cfg.outCap.toNat ≤ s.obufSize ∧ s.stage.lzwV = true ∧
      s.lzw.cur ≠ lzwEmpty ∧
      s.cfg.outCap.toNat < s.bp.outLen.toNat + (s.bp.cnt.toNat + s.lzw.act.width.toNat) / 8 :=
  ⟨⟨{ demo with cfg.outCap := 1 }, by decide +kernel⟩,
    ⟨{ demo with cfg.outCap := 1, bp := ⟨1, 10, 2, 2, 0⟩ }, by decide +kernel⟩,
    ⟨{ oneEach with cfg.outCap := 0 }, by decide +kernel⟩⟩

/-- Each streaming command failing at its second byte: NO_CODE, ARI_NO_SYM, OUT_OVERFLOW. -/
def failing : Instr → State
  | .ariNarrow => { tableAB with
      ibuf := [(0, 0x41), (1, 0x43)], ari.h := 1, ari.d := 1, stage.ariTblV := true, stage.ariV := true }
  | .lzwRun => { oneEach with lzw.cur := lzwEmpty, cfg.outCap := 0 }
  | _ => { loaded [0x41, 0x43] 8 with
      huf.codeLen := (Vector.replicate 256 0).set 0x41 1, stage.hufStage := 3 }

theorem witness_ErrorsArePreciseAtTheByteAndThePhase (i : Instr) (hi : i ∈ [Instr.hufEmit, .ariNarrow, .lzwRun]) :
    ∃ t, (failing i).params.valid ∧ (failing i).cfg.inBase.toNat + (failing i).cfg.inLen.toNat ≤ (failing i).ibufSize ∧
      (failing i).cfg.outBase.toNat + (failing i).cfg.outCap.toNat ≤ (failing i).obufSize ∧
      (i = .hufEmit → (failing i).stage.hufStage = 3) ∧
      (i = .ariNarrow → (failing i).stage.ariTblV = true ∧ (failing i).stage.ariV = true) ∧
      (i = .lzwRun → (failing i).stage.lzwV = true) ∧ (failing i).status.err = false ∧
      exec i (failing i) = .next t ∧ t.status.err = true := by
  have hx : goesOn (exec i (failing i)) true = true := by
    simp only [List.mem_cons, List.not_mem_nil, or_false] at hi
    rcases hi with rfl | rfl | rfl <;> decide +kernel
  obtain ⟨t, h1, h2⟩ := goesOn_next hx
  refine ⟨t, ?_, ?_, ?_, ?_, ?_, ?_, ?_, h1, h2⟩ <;>
    (simp only [List.mem_cons, List.not_mem_nil, or_false] at hi; rcases hi with rfl | rfl | rfl <;> decide +kernel)

/-- The other direction: the pass over the first byte completes and the second byte fails its first check. -/
theorem witness_ErrorsArePreciseAtTheByteAndThePhase_byte (i : Instr) (hi : i ∈ [Instr.hufEmit, .ariNarrow, .lzwRun]) :
    ∃ (u : State) (b : Byte) (c : ErrCode), (1 : Word).toNat < (failing i).cfg.inLen.toNat ∧
      exec i { failing i with cfg := { (failing i).cfg with inLen := 1 } } = .next u ∧ u.status.err = false ∧
      (failing i).ibuf.read ((failing i).cfg.inBase.toNat + (1 : Word).toNat) = some b ∧
      (if i = .hufEmit then u.huf.codeLen.at b = 0 ∧ c = .noCode
        else if i = .ariNarrow then u.freq.count.at b = 0 ∧ c = .ariNoSym
        else u.lzw.cur ≠ lzwEmpty ∧ u.lzw.find u.lzw.cur b = none ∧ u.overfull u.lzw.act.width.toNat ∧
          c = .outOverflow) := by
  simp only [List.mem_cons, List.not_mem_nil, or_false] at hi
  rcases hi with rfl | rfl | rfl
  · exact ⟨after { failing .hufEmit with cfg := { (failing .hufEmit).cfg with inLen := 1 } } .hufEmit, 0x43, .noCode,
      by decide +kernel, rfl, by decide +kernel, by decide +kernel, by decide +kernel⟩
  · exact ⟨after { failing .ariNarrow with cfg := { (failing .ariNarrow).cfg with inLen := 1 } } .ariNarrow, 0x43,
      .ariNoSym, by decide +kernel, rfl, by decide +kernel, by decide +kernel, by decide +kernel⟩
  · exact ⟨after { failing .lzwRun with cfg := { (failing .lzwRun).cfg with inLen := 1 } } .lzwRun, 0x42, .outOverflow,
      by decide +kernel, rfl, by decide +kernel, by decide +kernel, by decide +kernel⟩

/-- Fused commands that complete, and one that ends in its last append. -/
theorem witness_ErrorsArePreciseAtTheByteAndThePhase_phases :
    (∀ i ∈ [Instr.hufEncode false, .hufEncode true, .ariEncode, .lzwEncode], goesOn (exec i demo) false = true) ∧
    goesOn (exec .lzwEncode { demo with cfg.outCap := 1 }) true = true ∧ demo.params.valid ∧
    demo.cfg.inBase.toNat + demo.cfg.inLen.toNat ≤ demo.ibufSize ∧
    demo.cfg.outBase.toNat + demo.cfg.outCap.toNat ≤ demo.obufSize := by decide +kernel

theorem witness_EveryCommandEndsDone : ∃ (i : Instr) (s t : State), i ≠ .sreset ∧ exec i s = .next t :=
  ⟨.nop, demo, _, by decide, rfl⟩

theorem witness_FrameOfEveryCommand : ∃ s t : State, exec .lzwInit s = .next t ∧
    Reg.hufRoot ∉ mayWriteReg .lzwInit ∧ Reg.hufRoot ∉ [Reg.status, .cycles, .stage, .errCode, .errInfo, .errCmd] ∧
    StageBit.hufStage ∉ mayWriteStage .lzwInit ∧ TableName.arena ∉ mayWriteTable .lzwInit :=
  ⟨demo, _, rfl, by decide, by decide, by decide, by decide⟩

/-- Bytes just before and just after what a BP_PUT of 16 bits stores. -/
theorem witness_ObufFrameOfEveryCommand :
    ∃ s t : State, exec (.bpPut 16 0xABCD) s = .next t ∧ 0x10F < s.cfg.outBase.toNat + firstStored (.bpPut 16 0) s ∧
      s.cfg.outBase.toNat + t.bp.outLen.toNat ≤ 0x112 := by
  refine ⟨{ demo with cfg.outBase := 0x110 }, _, rfl, by decide +kernel, ?_⟩
  decide +kernel

theorem witness_ResultLatchesTheSizes :
    (∃ s : State, s.bp.cnt = 0 ∧ s.cfg.inLen = 0) ∧ ∃ s : State, s.bp.cnt = 0 ∧ s.cfg.inLen ≠ 0 :=
  ⟨⟨State.reset, rfl, rfl⟩, ⟨demo, rfl, by decide +kernel⟩⟩

theorem witness_FreqCountsEverySymbol :
    ∃ (s : State) (bs : List Byte), s.params.valid ∧ s.cfg.inBase.toNat + s.cfg.inLen.toNat ≤ s.ibufSize ∧
      s.inputIs bs ∧ bs ≠ [] := ⟨demo, [0x41, 0x42], by decide +kernel⟩

theorem witness_HufInitPlantsTheLeaves : ∃ s : State, s.stage.freqV = true := ⟨tableAB, rfl⟩

theorem witness_HufMergeJoinsTheTwoLowest :
    ∃ s : State, 1 ≤ s.stage.hufStage.toNat ∧ s.huf.live.toNat = s.huf.arena.countP (·.live) ∧
      s.huf.nnodes.toNat = s.huf.arena.length ∧ s.huf.arena.length ≤ 510 ∧ 2 ≤ s.huf.live.toNat :=
  ⟨plantLeaves tableABC, by decide +kernel⟩

theorem witness_HufMergeJoinsTheTwoLowest_one_left :
    ∃ s : State, 1 ≤ s.stage.hufStage.toNat ∧ s.huf.live.toNat = s.huf.arena.countP (·.live) ∧
      s.huf.nnodes.toNat = s.huf.arena.length ∧ s.huf.arena.length ≤ 510 ∧ s.huf.live.toNat ≤ 1 :=
  ⟨buildTree (plantLeaves tableAB), by decide +kernel⟩

theorem witness_HufBuildIsRepeatedMerging :
    ∃ s : State, 1 ≤ s.stage.hufStage.toNat ∧ s.huf.live.toNat = s.huf.arena.countP (·.live) :=
  ⟨plantLeaves tableABC, by decide +kernel⟩

/-- The unit after HUF_INIT, HUF_BUILD and HUF_CODES on "AB"; the table must meet the invariant too. -/
def treeAB : State := extractCodes (buildTree (plantLeaves tableAB))

theorem freqInv_treeAB : FreqInv treeAB := by
  have h := freqInv_tableAB
  have hf : treeAB.freq = tableAB.freq := (huffmanInv_build freqInv_tableAB).2
  have hp : treeAB.params = tableAB.params := by decide +kernel
  refine ⟨by rw [hf]; exact h.total, ?_, by rw [hf]; exact h.nsym⟩
  rw [hf]
  unfold State.ibufSize
  rw [hp]
  exact h.bound

theorem witness_HufCodesAreTheLeafPaths :
    ∃ s : State, FreqInv s ∧ HuffmanInv s ∧ 2 ≤ s.stage.hufStage.toNat ∧ 2 ≤ presentCount s.freq.count :=
  ⟨treeAB, freqInv_treeAB, (huffmanInv_build freqInv_tableAB).1, by decide +kernel, by decide +kernel⟩

/-- The table of "ZZZZ". -/
def tableZ : State :=
  { demo with freq := ⟨(Vector.replicate 256 0).set 0x5A 4, 4, 1⟩, stage.freqV := true }

theorem freqInv_tableZ : FreqInv tableZ := ⟨by decide +kernel, by decide +kernel, by decide +kernel⟩

theorem witness_HufCodesAreTheLeafPaths_single :
    ∃ s : State, HuffmanInv s ∧ 2 ≤ s.stage.hufStage.toNat ∧ presentCount s.freq.count = 1 ∧
      (s.huf.codeLen.at 0x5A).toNat = 1 :=
  ⟨extractCodes (buildTree (plantLeaves tableZ)), (huffmanInv_build freqInv_tableZ).1, by decide +kernel,
    by decide +kernel, by decide +kernel⟩

theorem witness_CodeTableIsCompleteAndPrefixFree :
    ∃ s : State, FreqInv s ∧ HuffmanInv s ∧ s.stage.hufStage = 3 ∧ 2 ≤ presentCount s.freq.count ∧
      s.huf.codeLen.at 0x41 ≠ 0 ∧ s.huf.codeLen.at 0x42 ≠ 0 :=
  ⟨treeAB, freqInv_treeAB, (huffmanInv_build freqInv_tableAB).1, by decide +kernel, by decide +kernel, by decide +kernel,
    by decide +kernel⟩

theorem witness_HufCanonRenumbersInLengthOrder :
    ∃ (s : State) (l : List Byte), s.stage.hufStage = 3 ∧ l.length = 3 ∧ (∀ b, b ∈ l ↔ s.huf.codeLen.at b ≠ 0) ∧
      l.Pairwise fun a b => (s.huf.codeLen.at a).toNat < (s.huf.codeLen.at b).toNat ∨
        ((s.huf.codeLen.at a).toNat = (s.huf.codeLen.at b).toNat ∧ a.toNat < b.toNat) :=
  ⟨{ demo with
      huf.codeLen := (((Vector.replicate 256 0).set 0x41 2).set 0x42 2).set 0x43 1, stage.hufStage := 3 },
    [0x43, 0x41, 0x42], by decide +kernel⟩

theorem witness_HufEmitAppendsTheCodes :
    ∃ (s : State) (bs : List Byte), s.stage.hufStage = 3 ∧
      s.cfg.inBase.toNat + s.cfg.inLen.toNat ≤ s.ibufSize ∧ s.cfg.outBase.toNat + s.cfg.outCap.toNat ≤ s.obufSize ∧
      s.inputIs bs ∧ (∀ b ∈ bs, s.huf.codeLen.at b ≠ 0) ∧ s.bp.acc.toNat < 2 ^ s.bp.cnt.toNat ∧
      s.bp.outLen.toNat + (s.bp.cnt.toNat + (bs.flatMap s.huf.code).length) / 8 ≤ s.cfg.outCap.toNat ∧ bs ≠ [] :=
  ⟨treeAB, [0x41, 0x42], by decide +kernel⟩

theorem witness_HufEncodeCompletes :
    ∃ (s : State) (bs : List Byte), s.params.valid ∧ s.cfg.inBase.toNat + s.cfg.inLen.toNat ≤ s.ibufSize ∧
      s.cfg.outBase.toNat + s.cfg.outCap.toNat ≤ s.obufSize ∧ s.inputIs bs ∧
      255 * s.cfg.inLen.toNat ≤ 8 * s.cfg.outCap.toNat ∧ bs ≠ [] := ⟨demo, [0x41, 0x42], by decide +kernel⟩

theorem witness_AriTableCumulates : ∃ s : State, FreqInv s ∧ s.stage.freqV = true := ⟨tableAB, freqInv_tableAB, rfl⟩

/-- The unit interval over the table of "AB". -/
def unitAB : State := openInterval (buildIntervals tableAB)

theorem arithInv_unitAB : ArithInv unitAB where
  order := fun _ => rfl
  table := fun _ b => cumTable_at _ (by
    have h1 : tableAB.freq.total.toNat = countBelow tableAB.freq.count 256 := freqInv_tableAB.total
    rw [← h1]; exact tableAB.freq.total.isLt) b
  interval := fun _ => by decide +kernel
  denominator := fun _ => by decide +kernel

theorem witness_AriStepNarrowsExactly :
    (∃ (s : State) (b : Byte), s.stage.ariTblV = true ∧ s.stage.ariV = true ∧ s.freq.count.at b = 0) ∧
    (∃ (s : State) (b : Byte), s.stage.ariTblV = true ∧ s.stage.ariV = true ∧ s.freq.count.at b ≠ 0 ∧
      2 ^ s.accBits = s.ari.d * s.freq.total.toNat) ∧
    ∃ (s : State) (b : Byte), s.stage.ariTblV = true ∧ s.stage.ariV = true ∧ s.freq.count.at b ≠ 0 ∧
      s.ari.d * s.freq.total.toNat < 2 ^ s.accBits ∧ s.ari.l ≤ s.ari.h ∧ s.freq.total ≠ 0 ∧ s.ari.d ≠ 0 :=
  ⟨⟨unitAB, 0x43, by decide +kernel⟩, ⟨{ unitAB with ari.d := 2 ^ 255 }, 0x41, by decide +kernel⟩,
    ⟨unitAB, 0x41, by decide +kernel⟩⟩

theorem witness_AriNarrowNarrowsByEveryByte :
    ∃ (s : State) (bs : List Byte), s.stage.ariTblV = true ∧ s.stage.ariV = true ∧
      s.cfg.inBase.toNat + s.cfg.inLen.toNat ≤ s.ibufSize ∧ s.inputIs bs ∧ (∀ b ∈ bs, s.freq.count.at b ≠ 0) ∧
      s.ari.d * s.freq.total.toNat ^ bs.length < 2 ^ s.accBits ∧ s.ari.k.toNat + bs.length < 2 ^ 32 ∧ bs ≠ [] :=
  ⟨unitAB, [0x41, 0x42], by decide +kernel⟩

theorem witness_AriFinalEmitsAFractionInTheInterval :
    ∃ s : State, ArithInv s ∧ s.stage.ariV = true ∧ s.params.valid ∧
      s.cfg.outBase.toNat + s.cfg.outCap.toNat ≤ s.obufSize ∧ s.bp.acc.toNat < 2 ^ s.bp.cnt.toNat :=
  ⟨unitAB, arithInv_unitAB, rfl, by decide +kernel, by decide +kernel, by decide +kernel⟩

theorem witness_AriEncodeCompletes :
    ∃ (s : State) (bs : List Byte), s.params.valid ∧ s.cfg.inBase.toNat + s.cfg.inLen.toNat ≤ s.ibufSize ∧
      s.cfg.outBase.toNat + s.cfg.outCap.toNat ≤ s.obufSize ∧ s.inputIs bs ∧
      bs.length ^ bs.length < 2 ^ s.accBits ∧ s.accBits ≤ 8 * s.cfg.outCap.toNat ∧ bs ≠ [] :=
  ⟨{ demo with cfg.outCap := 32 }, [0x41, 0x42], by decide +kernel⟩

theorem witness_AriStreamDecodesToTheInput :
    ∃ (s t : State) (bs : List Byte), s.params.valid ∧ s.inputIs bs ∧ exec .ariEncode s = .next t ∧
      t.status.err = false ∧ bs ≠ [] := by
  obtain ⟨t, h1, h2⟩ := goesOn_next (r := exec .ariEncode demo) (err := false) (by decide +kernel)
  exact ⟨demo, t, [0x41, 0x42], by decide +kernel, by decide +kernel, h1, h2, by decide⟩

/-- A sound dictionary: entry 256 is (65, 'A'), LZW_CUR is 65. -/
theorem lzwInv_oneEach : LzwInv oneEach := by
  refine dict_lzwInv ⟨by decide +kernel, by decide +kernel, by decide +kernel, .inr (by decide +kernel), ?_, by decide +kernel⟩
    rfl (by decide +kernel)
  intro n x hx
  cases n with
  | zero => simp [oneEach] at hx; subst hx; decide
  | succ n => simp [oneEach] at hx

/-- A full dictionary of width 8 with no entry. -/
def fullAt8 (p : Policy) : State :=
  { demo with lzw := ⟨[], 256, 65, 0, ⟨8, p⟩⟩, stage.lzwV := true, stage.lzwFull := true }

theorem lzwInv_fullAt8 (p : Policy) : LzwInv (fullAt8 p) := by
  refine dict_lzwInv ⟨by simp [fullAt8], by simp [fullAt8, Lzw.cap], rfl, .inr (by simp [fullAt8]), ?_, List.nodup_nil⟩
    rfl (by simp [fullAt8, Lzw.full, Lzw.cap])
  intro n x hx; simp [fullAt8] at hx

theorem not_holds_nil {z : Lzw} (h : z.dict = []) (c : Nat) (b : Byte) (e : Nat) : ¬ z.holds c b e := by
  rintro ⟨-, x, hx, -⟩
  simp [h] at hx

theorem witness_LzwStepFollowsTheDictionary_match :
    (∃ s : State, LzwInv s ∧ s.stage.lzwV = true ∧ s.bp.acc.toNat < 2 ^ s.bp.cnt.toNat ∧
      s.cfg.outBase.toNat + s.cfg.outCap.toNat ≤ s.obufSize ∧ s.lzw.cur = lzwEmpty) ∧
    ∃ (s : State) (b : Byte) (e : Nat), LzwInv s ∧ s.stage.lzwV = true ∧ s.bp.acc.toNat < 2 ^ s.bp.cnt.toNat ∧
      s.cfg.outBase.toNat + s.cfg.outCap.toNat ≤ s.obufSize ∧ s.lzw.cur ≠ lzwEmpty ∧
      s.lzw.holds s.lzw.cur.toNat b e := by
  refine ⟨⟨{ oneEach with lzw.cur := lzwEmpty }, ?_, rfl, by decide +kernel, by decide +kernel, rfl⟩,
    ⟨oneEach, 0x41, 256, lzwInv_oneEach, rfl, by decide +kernel, by decide +kernel, by decide +kernel,
      le_rfl, ⟨65, 0x41⟩, rfl, rfl, rfl⟩⟩
  exact dict_lzwInv (lzwInv_dict lzwInv_oneEach rfl).empty rfl (by decide +kernel)

/-- The misses: an insertion, and the three policies at the cap; with room and without. -/
theorem witness_LzwStepFollowsTheDictionary_miss :
    (∃ (s : State) (b : Byte), LzwInv s ∧ s.stage.lzwV = true ∧ s.lzw.cur ≠ lzwEmpty ∧
      (∀ e, ¬ s.lzw.holds s.lzw.cur.toNat b e) ∧ s.lzw.next.toNat < s.lzw.cap ∧
      s.bp.outLen.toNat + (s.bp.cnt.toNat + s.lzw.act.width.toNat) / 8 ≤ s.cfg.outCap.toNat) ∧
    (∀ p, ∃ (s : State) (b : Byte), LzwInv s ∧ s.stage.lzwV = true ∧ s.lzw.cur ≠ lzwEmpty ∧
      (∀ e, ¬ s.lzw.holds s.lzw.cur.toNat b e) ∧ s.lzw.next.toNat = s.lzw.cap ∧ s.lzw.act.policy = p ∧
      s.bp.outLen.toNat + (s.bp.cnt.toNat + s.lzw.act.width.toNat) / 8 ≤ s.cfg.outCap.toNat) ∧
    ∃ (s : State) (b : Byte), LzwInv s ∧ s.stage.lzwV = true ∧ s.lzw.cur ≠ lzwEmpty ∧
      (∀ e, ¬ s.lzw.holds s.lzw.cur.toNat b e) ∧ s.lzw.act.policy ≠ .reject ∧
      s.cfg.outCap.toNat < s.bp.outLen.toNat + (s.bp.cnt.toNat + s.lzw.act.width.toNat) / 8 := by
  refine ⟨⟨oneEach, 0x42, lzwInv_oneEach, rfl, by decide +kernel, find_none (by decide +kernel), by decide +kernel,
      by decide +kernel⟩, fun p => ⟨fullAt8 p, 0x42, lzwInv_fullAt8 p, rfl, by simp [fullAt8, lzwEmpty], ?_, ?_, rfl, ?_⟩,
    ⟨{ fullAt8 .freeze with cfg.outCap := 0 }, 0x42, ?_, rfl, by decide +kernel, not_holds_nil rfl _ _, by decide +kernel,
      by decide +kernel⟩⟩
  · exact not_holds_nil rfl _ _
  · simp [fullAt8, Lzw.cap]
  · cases p <;> decide +kernel
  · have h : DictInv (fullAt8 .freeze).lzw := lzwInv_dict (lzwInv_fullAt8 .freeze) rfl
    exact dict_lzwInv h rfl (by decide +kernel)

theorem witness_LzwRunCompletes :
    ∃ (s : State) (bs : List Byte), LzwInv s ∧ s.stage.lzwV = true ∧ s.lzw.act.policy ≠ .reject ∧
      s.cfg.inBase.toNat + s.cfg.inLen.toNat ≤ s.ibufSize ∧ s.cfg.outBase.toNat + s.cfg.outCap.toNat ≤ s.obufSize ∧
      s.inputIs bs ∧
      s.bp.outLen.toNat + (s.bp.cnt.toNat + s.lzw.act.width.toNat * bs.length) / 8 ≤ s.cfg.outCap.toNat ∧
      s.lzw.ncodes.toNat + bs.length < 2 ^ 32 ∧ bs ≠ [] :=
  ⟨oneEach, [0x41, 0x42], lzwInv_oneEach, by decide +kernel⟩

theorem witness_LzwRunsConcatenate :
    ∃ (s t u : State) (n m : Word), s.stage.lzwV = true ∧ s.cfg.inBase.toNat + n.toNat + m.toNat ≤ s.ibufSize ∧
      n.toNat + m.toNat < 2 ^ 32 ∧ s.cfg.inBase.toNat + n.toNat < 2 ^ 32 ∧
      s.lzw.ncodes.toNat + n.toNat + m.toNat < 2 ^ 32 ∧
      exec .lzwRun { s with cfg := { s.cfg with inLen := n } } = .next t ∧ t.status.err = false ∧
      exec .lzwRun { t with cfg := { s.cfg with inBase := s.cfg.inBase + n, inLen := m } } = .next u ∧
      u.status.err = false ∧ n ≠ 0 ∧ m ≠ 0 := by
  obtain ⟨t, h1, h2⟩ := goesOn_next (r := exec .lzwRun { oneEach with cfg := { oneEach.cfg with inLen := 1 } })
    (err := false) (by decide +kernel)
  have ht : t = after { oneEach with cfg := { oneEach.cfg with inLen := 1 } } .lzwRun := by unfold after; rw [h1]
  obtain ⟨u, h3, h4⟩ := goesOn_next
    (r := exec .lzwRun { t with cfg := { oneEach.cfg with inBase := oneEach.cfg.inBase + 1, inLen := 1 } })
    (err := false) (by rw [ht]; decide +kernel)
  exact ⟨oneEach, t, u, 1, 1, rfl, by decide +kernel, by decide, by decide +kernel, by decide +kernel, h1, h2, h3, h4,
    by decide, by decide⟩

theorem witness_LzwFlushEmitsThePendingMatch :
    (∃ s : State, s.stage.lzwV = true ∧ s.cfg.outBase.toNat + s.cfg.outCap.toNat ≤ s.obufSize ∧
      s.bp.acc.toNat < 2 ^ s.bp.cnt.toNat ∧
      s.bp.outLen.toNat + (s.bp.cnt.toNat + s.lzw.act.width.toNat) / 8 ≤ s.cfg.outCap.toNat ∧
      s.lzw.cur ≠ lzwEmpty ∧ s.lzw.ncodes.toNat + 1 < 2 ^ 32) ∧
    ∃ s : State, s.stage.lzwV = true ∧ s.cfg.outBase.toNat + s.cfg.outCap.toNat ≤ s.obufSize ∧
      s.bp.acc.toNat < 2 ^ s.bp.cnt.toNat ∧
      s.bp.outLen.toNat + (s.bp.cnt.toNat + s.lzw.act.width.toNat) / 8 ≤ s.cfg.outCap.toNat ∧
      s.lzw.cur = lzwEmpty :=
  ⟨⟨oneEach, by decide +kernel⟩, ⟨{ oneEach with lzw.cur := lzwEmpty }, by decide +kernel⟩⟩

theorem witness_LzwEncodeCompletes :
    ∃ (s : State) (bs : List Byte), ConfigInv s ∧ s.cfg.lzwCfg.policy ≠ .reject ∧
      s.cfg.inBase.toNat + s.cfg.inLen.toNat ≤ s.ibufSize ∧ s.cfg.outBase.toNat + s.cfg.outCap.toNat ≤ s.obufSize ∧
      s.inputIs bs ∧ s.cfg.lzwCfg.width.toNat * s.cfg.inLen.toNat ≤ 8 * s.cfg.outCap.toNat ∧ bs ≠ [] :=
  ⟨{ demo with cfg.outCap := 3 }, [0x41, 0x42], ⟨by decide +kernel, by decide +kernel⟩, by decide +kernel⟩

theorem witness_LzwStreamDecodesToTheInput :
    ∃ (s t : State) (bs : List Byte), ConfigInv s ∧ s.inputIs bs ∧ exec .lzwEncode s = .next t ∧
      t.status.err = false ∧ bs ≠ [] := by
  obtain ⟨t, h1, h2⟩ := goesOn_next (r := exec .lzwEncode demo) (err := false) (by decide +kernel)
  exact ⟨demo, t, [0x41, 0x42], configInv_demo, by decide +kernel, h1, h2, by decide⟩

theorem witness_BpPutAppendsTheLowBits :
    ∃ (s : State) (n : Byte), n.toNat ≤ 16 ∧ s.bp.acc.toNat < 2 ^ s.bp.cnt.toNat ∧
      s.cfg.outBase.toNat + s.cfg.outCap.toNat ≤ s.obufSize ∧
      s.bp.outLen.toNat + (s.bp.cnt.toNat + n.toNat) / 8 ≤ s.cfg.outCap.toNat :=
  ⟨{ demo with cfg.outCap := 2, bp := ⟨0, 7, 5, 7, 0⟩ }, 16, by decide +kernel⟩

theorem witness_BpPadCompletesTheByte :
    ∃ s : State, s.bp.acc.toNat < 2 ^ s.bp.cnt.toNat ∧ s.cfg.outBase.toNat + s.cfg.outCap.toNat ≤ s.obufSize ∧
      s.bp.outLen.toNat + (s.bp.cnt.toNat + 7) / 8 ≤ s.cfg.outCap.toNat ∧ s.bp.cnt ≠ 0 :=
  ⟨{ demo with cfg.outCap := 1, bp := ⟨0, 3, 5, 3, 0⟩ }, by decide +kernel⟩

theorem witness_PackedBytesAreTheStream :
    ∃ (s : State) (strs : List (List Bool)), s.params.valid ∧
      s.cfg.outBase.toNat + s.cfg.outCap.toNat ≤ s.obufSize ∧ strs.flatten.length % 8 = 0 ∧
      strs.flatten.length ≤ 8 * s.cfg.outCap.toNat ∧ strs.flatten ≠ [] :=
  ⟨{ demo with cfg.outCap := 1 }, [[true, false, true], [true, true, false, false, true]], by decide +kernel⟩

/-- An idle block, and one that runs HUF_INIT, meet the premises of the five invariants' statements. -/
theorem streamInv_demo : StreamInv demo := ⟨by decide +kernel, by decide +kernel, by decide +kernel⟩

theorem buffersInv_demo : BuffersInv demo := ⟨by decide +kernel, by decide +kernel, by decide +kernel, by decide +kernel⟩

theorem witness_StepKeepsConfigurationBuffersAndStream :
    ∃ s t : State, ConfigInv s ∧ BuffersInv s ∧ StreamInv s ∧ s.inbox ≠ [] ∧ step s = .next t := by
  obtain ⟨t, h1, -⟩ := goesOn_next (r := step { demo with inbox := [.write .w32 0x01000004 0x12345678] }) (err := false)
    (by decide +kernel)
  refine ⟨{ demo with inbox := [.write .w32 0x01000004 0x12345678] }, t, ⟨configInv_demo.params, configInv_demo.width⟩,
    ⟨buffersInv_demo.ibufForm, buffersInv_demo.obufForm, buffersInv_demo.ibufBound, buffersInv_demo.obufBound⟩,
    ⟨streamInv_demo.bits, streamInv_demo.acc, streamInv_demo.len⟩, List.cons_ne_nil _ _, h1⟩

theorem witness_StepKeepsTheFrequencyTotals :
    ∃ s t : State, ConfigInv s ∧ FreqInv s ∧ s.status.busy = true ∧ step s = .next t := by
  obtain ⟨t, h1, -⟩ := goesOn_next (r := step (tableAB.withFetchWord 32 0x10000000)) (err := false) (by decide +kernel)
  exact ⟨tableAB.withFetchWord 32 0x10000000, t, ⟨by decide +kernel, by decide +kernel⟩,
    ⟨freqInv_tableAB.total, freqInv_tableAB.bound, freqInv_tableAB.nsym⟩, rfl, h1⟩

theorem witness_StepKeepsTheIntervalExact :
    ∃ s t : State, ConfigInv s ∧ FreqInv s ∧ ArithInv s ∧ s.stage.ariV = true ∧ s.status.busy = true ∧
      step s = .next t := by
  obtain ⟨t, h1, -⟩ := goesOn_next (r := step (unitAB.withFetchWord 32 0x32410000)) (err := false) (by decide +kernel)
  exact ⟨unitAB.withFetchWord 32 0x32410000, t, ⟨by decide +kernel, by decide +kernel⟩,
    ⟨freqInv_tableAB.total, freqInv_tableAB.bound, freqInv_tableAB.nsym⟩,
    ⟨arithInv_unitAB.order, arithInv_unitAB.table, arithInv_unitAB.interval, arithInv_unitAB.denominator⟩, rfl, rfl, h1⟩

theorem witness_StepKeepsTheDictionarySound :
    ∃ s t : State, ConfigInv s ∧ LzwInv s ∧ s.stage.lzwV = true ∧ s.status.busy = true ∧ step s = .next t := by
  obtain ⟨t, h1, -⟩ := goesOn_next (r := step (oneEach.withFetchWord 32 0x41420000)) (err := false) (by decide +kernel)
  have h : DictInv oneEach.lzw := lzwInv_dict lzwInv_oneEach rfl
  exact ⟨oneEach.withFetchWord 32 0x41420000, t, ⟨by decide +kernel, by decide +kernel⟩, dict_lzwInv h rfl (by decide +kernel),
    rfl, rfl, h1⟩

theorem freqInv_fetch {s : State} (h : FreqInv s) (w : Nat) : FreqInv (s.withFetchWord 32 w) :=
  ⟨h.total, h.bound, h.nsym⟩

theorem huffmanInv_fetch {s : State} (h : HuffmanInv s) (w : Nat) : HuffmanInv (s.withFetchWord 32 w) :=
  ⟨h.arena, h.merging, h.complete, h.root, h.codes, h.canon⟩

theorem witness_StepKeepsTheTree :
    ∃ s t : State, ConfigInv s ∧ FreqInv s ∧ HuffmanInv s ∧ s.stage.hufStage = 3 ∧ s.status.busy = true ∧
      step s = .next t := by
  obtain ⟨t, h1, -⟩ := goesOn_next (r := step (treeAB.withFetchWord 32 0x24000000)) (err := false) (by decide +kernel)
  exact ⟨treeAB.withFetchWord 32 0x24000000, t, ⟨by decide +kernel, by decide +kernel⟩, freqInv_fetch freqInv_treeAB _,
    huffmanInv_fetch (huffmanInv_build freqInv_tableAB).1 _, by decide +kernel, by decide +kernel, h1⟩

theorem witness_CompleteTreeIsAsRuled :
    ∃ s : State, FreqInv s ∧ HuffmanInv s ∧ 2 ≤ s.stage.hufStage.toNat ∧ 1 ≤ s.freq.nsym.toNat :=
  ⟨treeAB, freqInv_treeAB, (huffmanInv_build freqInv_tableAB).1, by decide +kernel, by decide +kernel⟩

theorem witness_DictionaryStringsAreDistinct :
    ∃ s : State, LzwInv s ∧ s.stage.lzwV = true ∧ s.lzw.next.toNat = 257 :=
  ⟨oneEach, lzwInv_oneEach, rfl, by decide +kernel⟩

end Sys2Proof.Tests
end

section
/-! SUPPORT. Every step keeps the configuration legal, the buffers canonical and in bounds, and the stream's counters
consistent (O53; 00_scope.md R6, 10_state.md R28, R34, 20_memory.md R48, R49, R62, 45_bitpacker.md R120). A command
touches what the three invariants speak of only where it empties the stream, sets PAD_BITS, or appends. Every Append
comes after OutCheck, so the capacity test of R116 bounds both the bytes written and OUT_LEN by the size of OBUF. -/

namespace Sys2Proof.Machine

/-! ## What the invariants speak of -/

/-- Nothing that `ConfigInv`, `BuffersInv` or `StreamInv` speaks of has changed. -/
structure Untouched (s t : State) : Prop where
  params : t.params = s.params
  lzwCfg : t.cfg.lzwCfg = s.cfg.lzwCfg
  ibuf : t.ibuf = s.ibuf
  obuf : t.obuf = s.obuf
  bp : t.bp = s.bp

theorem configInv_of_untouched {s t : State} (h : Untouched s t) (hs : ConfigInv s) : ConfigInv t := by
  refine ⟨?_, ?_⟩
  · rw [h.params]; exact hs.params
  · rw [h.params, h.lzwCfg]; exact hs.width

theorem buffersInv_of_untouched {s t : State} (h : Untouched s t) (hs : BuffersInv s) : BuffersInv t := by
  refine ⟨?_, ?_, ?_, ?_⟩
  · rw [h.ibuf]; exact hs.ibufForm
  · rw [h.obuf]; exact hs.obufForm
  · rw [h.ibuf, State.ibufSize, h.params]; exact hs.ibufBound
  · rw [h.obuf, State.obufSize, h.params]; exact hs.obufBound

theorem streamInv_of_untouched {s t : State} (h : Untouched s t) (hs : StreamInv s) : StreamInv t := by
  refine ⟨?_, ?_, ?_⟩
  · rw [h.bp]; exact hs.bits
  · rw [h.bp]; exact hs.acc
  · rw [h.bp, State.obufSize, h.params]; exact hs.len

/-- An empty stream meets the stream's invariant. -/
theorem streamInv_of_empty {s : State} (h : s.bp = ⟨0, 0, 0, 0, 0⟩) : StreamInv s := by
  refine ⟨?_, ?_, ?_⟩ <;> rw [h] <;> simp

/-! ## Append behind OutCheck (R78, R116) -/

/-- An Append that has room stays inside OBUF: its last byte's end is in the window, and the window is in OBUF. -/
theorem appended_outLen_le {s : State} {l : List Bool} (ho : s.outRangeOk = true) (hr : s.roomFor l.length = true) :
    s.cfg.outBase.toNat + s.bp.outLen.toNat + (s.bp.cnt.toNat + l.length) / 8 ≤ s.obufSize := by
  have hwindow := of_decide_eq_true ho
  have hroom := of_decide_eq_true hr
  omega

theorem appended_buffersInv {s : State} {l : List Bool} (h : BuffersInv s) (ho : s.outRangeOk = true)
    (hr : s.roomFor l.length = true) : BuffersInv (s.appended l) := by
  refine ⟨?_, ?_, ?_, ?_⟩
  · rw [appended_ibuf]; exact h.ibufForm
  · rw [appended_obuf]; exact pushBits_obuf_wf l h.obufForm
  · rw [appended_ibuf, State.ibufSize, appended_params]; exact h.ibufBound
  · rw [appended_obuf, State.obufSize, appended_params]
    exact pushBits_obuf_bound l h.obufBound (room_lt hr) (appended_outLen_le ho hr)

/-- BIT_LEN grows by the string's length, and so does 8·OUT_LEN + CNT; a legal OBUF is too small for BIT_LEN to wrap. -/
theorem appended_streamInv {s : State} {l : List Bool} (h : StreamInv s) (hv : s.params.valid)
    (ho : s.outRangeOk = true) (hr : s.roomFor l.length = true) : StreamInv (s.appended l) := by
  have hlen := appended_outLen_le ho hr
  have hsize := obufSize_le hv
  obtain ⟨hout, hcnt⟩ := appended_counts hr
  refine ⟨?_, appended_acc h.acc, ?_⟩
  · have hbits := h.bits
    rw [hout, hcnt, (appended_bp s l).2.2.2, BitVec.toNat_add, BitVec.toNat_ofNat]
    omega
  · rw [hout, State.obufSize, appended_params]
    exact le_trans (by omega) hlen

/-! ## The three invariants, on the way from a state -/

/-- The configuration is legal, and the buffers and the stream are sound if they were so at the start `s`. -/
structure Kept (s t : State) : Prop where
  config : ConfigInv t
  buffers : BuffersInv s → BuffersInv t
  stream : StreamInv s → StreamInv t

/-- Where the commands append: the invariants are kept, and the output window is in OBUF. -/
structure KeptInWindow (s t : State) : Prop extends Kept s t where
  window : t.outRangeOk = true

theorem kept_refl {s : State} (h : ConfigInv s) : Kept s s := ⟨h, id, id⟩

section
variable {s t u : State}

theorem kept_of_untouched (hk : Kept s t) (h : Untouched t u) : Kept s u :=
  ⟨configInv_of_untouched h hk.config, fun hb => buffersInv_of_untouched h (hk.buffers hb),
    fun hs => streamInv_of_untouched h (hk.stream hs)⟩

/-- The form in which the bodies' frames say what they change. -/
theorem kept_of_eq {v : State} (hk : Kept s t) (hu : u = v) (h : Untouched t v) : Kept s u :=
  kept_of_untouched hk (hu ▸ h)

theorem kept_clearStream (hk : Kept s t) : Kept s (clearStream t) :=
  ⟨{ hk.config with },
    fun hb => { hk.buffers hb with },
    fun _ => streamInv_of_empty rfl⟩

theorem kept_softReset (hk : Kept s t) : Kept s (softReset t) :=
  kept_of_untouched (kept_clearStream hk) ⟨rfl, rfl, rfl, rfl, rfl⟩

theorem kept_padBits (hk : Kept s t) (p : BitVec 3) : Kept s { t with bp.padBits := p } :=
  ⟨{ hk.config with },
    fun hb => { hk.buffers hb with },
    fun hs => { hk.stream hs with }⟩

theorem keptInWindow_of_untouched (hk : KeptInWindow s t) (h : Untouched t u) (hcfg : u.cfg = t.cfg) :
    KeptInWindow s u := by
  refine ⟨kept_of_untouched hk.toKept h, ?_⟩
  rw [State.outRangeOk, State.obufSize, hcfg, h.params]
  exact hk.window

theorem keptInWindow_appended {l : List Bool} (hk : KeptInWindow s t) (hr : t.roomFor l.length = true) :
    KeptInWindow s (t.appended l) where
  config := ⟨by rw [appended_params]; exact hk.config.params, by
    rw [appended_params, appended_cfg]; exact hk.config.width⟩
  buffers hb := appended_buffersInv (hk.buffers hb) hk.window hr
  stream hs := appended_streamInv (hk.stream hs) hk.config.params hk.window hr
  window := by rw [State.outRangeOk, State.obufSize, appended_params, appended_cfg]; exact hk.window

theorem keptInWindow_appendBits (info : Word) (l : List Bool) (hk : KeptInWindow s t) :
    (appendBits info l t).Ends (KeptInWindow s) :=
  ends_appendBits hk fun hr => keptInWindow_appended hk hr

/-- Leaving the window: what the appending part of a body keeps, the body keeps. -/
theorem kept_of_inWindow {r : CmdResult} (h : r.Ends (KeptInWindow s)) : r.Ends (Kept s) :=
  ends_imp h fun _ hk => hk.toKept

/-- OutCheck opens the window (R78). -/
theorem kept_outCheck {f : State → CmdResult} (hk : Kept s t) (h : KeptInWindow s t → (f t).Ends (KeptInWindow s)) :
    ((outCheck t).andThen f).Ends (Kept s) :=
  ends_check hk fun hwindow => kept_of_inWindow (h ⟨hk, hwindow⟩)

/-- The pass over the input range keeps what the step of each byte keeps. -/
theorem keptInWindow_stream {body : Nat → Byte → State → CmdResult} (hk : KeptInWindow s t)
    (h : ∀ i b u, KeptInWindow s u → (body i b u).Ends (KeptInWindow s)) : (stream body t).Ends (KeptInWindow s) :=
  ends_stream (fun _ _ hu => keptInWindow_of_untouched hu ⟨rfl, rfl, rfl, rfl, rfl⟩ rfl) h hk

/-! ## The bodies that do not append -/

theorem resultBody_kept (hk : Kept s t) : (resultBody t).Ends (Kept s) :=
  ends_imp (resultBody_only t) fun _ h => kept_of_eq hk h ⟨rfl, rfl, rfl, rfl, rfl⟩

theorem freqBody_kept (hk : Kept s t) : (freqBody t).Ends (Kept s) :=
  ends_imp (freqBody_only t) fun _ h => kept_of_eq hk h.1 ⟨rfl, rfl, rfl, rfl, rfl⟩

/-- The Huffman table commands, by the frame they share. -/
theorem kept_of_hufOnly {r : CmdResult} (h : r.Ends (hufOnly t)) (hk : Kept s t) : r.Ends (Kept s) :=
  ends_imp h fun _ hu => kept_of_eq hk hu ⟨rfl, rfl, rfl, rfl, rfl⟩

theorem ariTableBody_kept (hk : Kept s t) : (ariTableBody t).Ends (Kept s) :=
  ends_imp (ariTableBody_only t) fun _ h => kept_of_eq hk h ⟨rfl, rfl, rfl, rfl, rfl⟩

/-- The narrowing commands, by the frame they share. -/
theorem kept_of_narrowOnly {r : CmdResult} (h : r.Ends (narrowOnly t)) (hk : Kept s t) : r.Ends (Kept s) :=
  ends_imp h fun _ hu => kept_of_eq hk hu.1 ⟨rfl, rfl, rfl, rfl, rfl⟩

theorem kept_openInterval (hk : Kept s t) : Kept s (openInterval t) :=
  kept_of_untouched hk ⟨rfl, rfl, rfl, rfl, rfl⟩

theorem kept_seedDict (hk : Kept s t) : Kept s (seedDict t) :=
  kept_of_untouched hk ⟨rfl, rfl, rfl, rfl, rfl⟩

/-! ## The bodies that append -/

theorem bpPutBody_kept (n : Byte) (bits : BitVec 16) (hk : Kept s t) : (bpPutBody n bits t).Ends (Kept s) :=
  kept_outCheck hk fun hw => keptInWindow_appendBits _ _ hw

theorem bpPadBody_kept (hk : Kept s t) : (bpPadBody t).Ends (Kept s) :=
  ends_check hk fun hwindow =>
    ends_andThen (kept_of_inWindow (keptInWindow_appendBits _ _ ⟨hk, hwindow⟩)) fun _ _ hu => kept_padBits hu _

theorem emitByte_kept (i : Nat) (b : Byte) (hk : KeptInWindow s t) : (emitByte i b t).Ends (KeptInWindow s) := by
  unfold emitByte
  split
  · exact hk
  · exact keptInWindow_appendBits _ _ hk

theorem hufEmitBody_kept (hk : Kept s t) : (hufEmitBody t).Ends (Kept s) :=
  ends_check hk fun _ => ends_check hk fun _ => kept_outCheck hk fun hw =>
    keptInWindow_stream hw fun i b _ hu => emitByte_kept i b hu

theorem ariFinalBody_kept (hk : Kept s t) : (ariFinalBody t).Ends (Kept s) :=
  ends_check hk fun _ => kept_outCheck hk fun hw =>
    ends_andThen (keptInWindow_appendBits _ _ hw) fun _ _ hu =>
      keptInWindow_of_untouched hu ⟨rfl, rfl, rfl, rfl, rfl⟩ rfl

theorem lzwStepAt_kept (pos : Nat) (b : Byte) (hk : KeptInWindow s t) :
    (lzwStepAt pos b t).Ends (KeptInWindow s) := by
  have moveTo : ∀ c, KeptInWindow s (setCur t c) := fun c =>
    keptInWindow_of_untouched hk ⟨rfl, rfl, rfl, rfl, rfl⟩ rfl
  unfold lzwStepAt
  split
  · exact moveTo _
  · split
    · exact moveTo _
    · split
      · exact hk
      · exact ends_andThen (keptInWindow_appendBits _ _ hk) fun _ _ hu =>
          keptInWindow_of_untouched hu ⟨rfl, rfl, rfl, rfl, rfl⟩ rfl

theorem lzwStepBody_kept (b : Byte) (hk : Kept s t) : (lzwStepBody b t).Ends (Kept s) :=
  ends_check hk fun _ => kept_outCheck hk fun hw => lzwStepAt_kept 0 b hw

theorem lzwRunBody_kept (hk : Kept s t) : (lzwRunBody t).Ends (Kept s) :=
  ends_check hk fun _ => ends_check hk fun _ => kept_outCheck hk fun hw =>
    keptInWindow_stream hw fun i b _ hu => lzwStepAt_kept i b hu

theorem lzwFlushBody_kept (hk : Kept s t) : (lzwFlushBody t).Ends (Kept s) := by
  refine ends_check hk fun _ => kept_outCheck hk fun hw => ?_
  split
  · exact hw
  · exact ends_andThen (keptInWindow_appendBits _ _ hw) fun _ _ hu =>
      keptInWindow_of_untouched hu ⟨rfl, rfl, rfl, rfl, rfl⟩ rfl

/-! ## The fused commands, phase by phase (R98, R106, R114) -/

theorem hufEncodeBody_kept (canon : Bool) (hk : Kept s t) : (hufEncodeBody canon t).Ends (Kept s) := by
  refine ends_check hk fun _ => ends_check hk fun _ =>
    ends_andThen (freqBody_kept (kept_clearStream hk)) fun _ _ hk =>
    ends_andThen (kept_of_hufOnly (hufInitBody_only _) hk) fun _ _ hk =>
    ends_andThen (kept_of_hufOnly (hufBuildBody_only _) hk) fun _ _ hk =>
    ends_andThen (kept_of_hufOnly (hufCodesBody_only _) hk) fun _ _ hk =>
    ends_andThen (?_ : CmdResult.Ends (Kept s) _) fun _ _ hk =>
    ends_andThen (hufEmitBody_kept hk) fun _ _ hk =>
    ends_andThen (bpPadBody_kept hk) fun _ _ hk => resultBody_kept hk
  split
  · exact kept_of_hufOnly (hufCanonBody_only _) hk
  · exact hk

theorem ariEncodeBody_kept (hk : Kept s t) : (ariEncodeBody t).Ends (Kept s) :=
  ends_check hk fun _ => ends_check hk fun _ =>
    ends_andThen (freqBody_kept (kept_clearStream hk)) fun _ _ hk =>
    ends_andThen (ariTableBody_kept hk) fun _ _ hk =>
    ends_andThen (kept_of_narrowOnly (ariNarrowBody_only _) (kept_openInterval hk)) fun _ _ hk =>
    ends_andThen (ariFinalBody_kept hk) fun _ _ hk =>
    ends_andThen (bpPadBody_kept hk) fun _ _ hk => resultBody_kept hk

theorem lzwEncodeBody_kept (hk : Kept s t) : (lzwEncodeBody t).Ends (Kept s) :=
  ends_check hk fun _ => ends_check hk fun _ =>
    ends_andThen (lzwRunBody_kept (kept_seedDict (kept_clearStream hk))) fun _ _ hk =>
    ends_andThen (lzwFlushBody_kept hk) fun _ _ hk =>
    ends_andThen (bpPadBody_kept hk) fun _ _ hk => resultBody_kept hk

/-- Every command's body keeps the three invariants. -/
theorem bodyOf_kept (i : Instr) (hk : Kept s t) : (bodyOf i t).Ends (Kept s) := by
  cases i with
  | nop => exact hk
  | sreset => exact kept_softReset hk
  | result => exact resultBody_kept hk
  | freq => exact freqBody_kept hk
  | hufInit => exact kept_of_hufOnly (hufInitBody_only t) hk
  | hufMerge => exact kept_of_hufOnly (hufMergeBody_only t) hk
  | hufBuild => exact kept_of_hufOnly (hufBuildBody_only t) hk
  | hufCodes => exact kept_of_hufOnly (hufCodesBody_only t) hk
  | hufCanon => exact kept_of_hufOnly (hufCanonBody_only t) hk
  | hufEmit => exact hufEmitBody_kept hk
  | hufEncode canon => exact hufEncodeBody_kept canon hk
  | ariTable => exact ariTableBody_kept hk
  | ariInit => exact kept_openInterval hk
  | ariStep sym => exact kept_of_narrowOnly (ariStepBody_only sym t) hk
  | ariNarrow => exact kept_of_narrowOnly (ariNarrowBody_only t) hk
  | ariFinal => exact ariFinalBody_kept hk
  | ariEncode => exact ariEncodeBody_kept hk
  | lzwInit => exact kept_seedDict hk
  | lzwStep sym => exact lzwStepBody_kept sym hk
  | lzwRun => exact lzwRunBody_kept hk
  | lzwFlush => exact lzwFlushBody_kept hk
  | lzwEncode => exact lzwEncodeBody_kept hk
  | bpClear => exact kept_clearStream hk
  | bpPut n bits => exact bpPutBody_kept n bits hk
  | bpPad => exact bpPadBody_kept hk

theorem kept_complete (hk : Kept s t) : Kept s t.complete :=
  kept_of_untouched hk ⟨rfl, rfl, rfl, rfl, rfl⟩

theorem kept_raiseError (c : ErrCode) (i : Word) (hk : Kept s t) : Kept s (t.raiseError c i) :=
  kept_of_untouched hk ⟨rfl, rfl, rfl, rfl, rfl⟩

end

/-! ## The host's accesses -/

theorem scatterBytes_wf : ∀ (n a : Nat) (v : Word) {m : Memory}, m.wf → (scatterBytes n a v m).wf := by
  intro n
  induction n with
  | zero => intro _ _ _ h; exact h
  | succ n ih => intro a v m h; exact ih _ _ (memory_write_wf h a _)

theorem scatterBytes_bound : ∀ (n a : Nat) (v : Word) {m : Memory} {size : Nat}, a + n ≤ size →
    (∀ c ∈ m, c.1 < size) → ∀ c ∈ scatterBytes n a v m, c.1 < size := by
  intro n
  induction n with
  | zero => intro _ _ _ _ _ h; exact h
  | succ n ih => intro a v m size hle h; exact ih _ _ (by omega) (memory_write_bound h (by omega) _)

/-- An aligned access that begins inside a buffer ends inside it: the buffer's size is a multiple of 4 (R6, R53). -/
theorem aligned_access_le {w : AccessWidth} {base off k : Nat} (hk : 8 ≤ k) (hbase : base % 4 = 0)
    (ha : off % w.bytes = 0) (hle : base ≤ off) (hlt : off < base + 2 ^ k) : off - base + w.bytes ≤ 2 ^ k := by
  obtain ⟨j, rfl⟩ := Nat.exists_eq_add_of_le hk
  rw [Nat.pow_add] at *
  generalize 2 ^ j = q at *
  cases w <;> simp only [AccessWidth.bytes] at * <;> omega

/-- What `target` says of an access that lands in a buffer: all of its bytes are offsets of that buffer (R50, R53). -/
theorem target_in_buffer {s : State} {w : AccessWidth} {off : Word} {x : Target} (hv : s.params.valid)
    (h : target s w off = some x) :
    (∀ a, x = .ibuf a → a + w.bytes ≤ s.ibufSize) ∧ (∀ a, x = .obuf a → a + w.bytes ≤ s.obufSize) := by
  obtain ⟨⟨hi, -⟩, ⟨ho, -⟩, -⟩ := hv
  simp only [target] at h
  split at h
  · simp at h
  · rename_i ha
    have hend : ∀ {base k : Nat}, 8 ≤ k → base % 4 = 0 → base ≤ off.toNat → off.toNat < base + 2 ^ k →
        off.toNat - base + w.bytes ≤ 2 ^ k := fun hk hbase => aligned_access_le hk hbase (not_ne_iff.1 ha)
    split at h
    · rename_i hin
      obtain rfl : Target.ibuf _ = x := by simpa using h
      refine ⟨fun a e => ?_, nofun⟩
      rw [← Target.ibuf.inj e]
      exact hend hi rfl hin.1 hin.2
    · split at h
      · rename_i hout
        obtain rfl : Target.obuf _ = x := by simpa using h
        refine ⟨nofun, fun a e => ?_⟩
        rw [← Target.obuf.inj e]
        exact hend ho rfl hout.1 hout.2
      · split at h
        · split at h
          · obtain ⟨r, -, rfl⟩ := Option.map_eq_some_iff.1 h; simp
          · obtain ⟨v, -, rfl⟩ := Option.map_eq_some_iff.1 h; simp
        · simp at h

/-- The WARL write of LZW_CFG keeps WIDTH legal (R28). -/
theorem written_width_legal {c : LzwCfg} {wmax : Nat} (v : Word) (h : 8 ≤ c.width.toNat ∧ c.width.toNat ≤ wmax) :
    8 ≤ (c.written wmax v).width.toNat ∧ (c.written wmax v).width.toNat ≤ wmax := by
  simp only [LzwCfg.written]
  split
  · assumption
  · exact h

section
variable {s t : State}

/-- A write that BUSY may drop (R46). -/
theorem kept_ifIdle {u : State} (hk : Kept s t) (h : Kept s u) : Kept s (ifIdle t u) := by
  unfold ifIdle
  split
  · exact kept_of_untouched hk ⟨rfl, rfl, rfl, rfl, rfl⟩
  · exact h

theorem kept_writeLzwCfg (hk : Kept s t) (v : Word) :
    Kept s { t with cfg.lzwCfg := t.cfg.lzwCfg.written t.params.lzwWmax v } :=
  ⟨⟨hk.config.params, written_width_legal v hk.config.width⟩,
    fun hb => { hk.buffers hb with },
    fun hs => { hk.stream hs with }⟩

theorem kept_writeIbuf (hk : Kept s t) {n a : Nat} (v : Word) (h : a + n ≤ t.ibufSize) :
    Kept s { t with ibuf := scatterBytes n a v t.ibuf } :=
  ⟨{ hk.config with },
    fun hb => { hk.buffers hb with
      ibufForm := scatterBytes_wf n a v (hk.buffers hb).ibufForm
      ibufBound := scatterBytes_bound n a v h (hk.buffers hb).ibufBound },
    fun hs => { hk.stream hs with }⟩

theorem kept_writeObuf (hk : Kept s t) {n a : Nat} (v : Word) (h : a + n ≤ t.obufSize) :
    Kept s { t with obuf := scatterBytes n a v t.obuf } :=
  ⟨{ hk.config with },
    fun hb => { hk.buffers hb with
      obufForm := scatterBytes_wf n a v (hk.buffers hb).obufForm
      obufBound := scatterBytes_bound n a v h (hk.buffers hb).obufBound },
    fun hs => { hk.stream hs with }⟩

theorem kept_writeCmd (hk : Kept s t) (v : Word) : Kept s (writeCmd t v) := by
  unfold writeCmd
  split <;> exact kept_of_untouched hk ⟨rfl, rfl, rfl, rfl, rfl⟩

theorem kept_writeReg (hk : Kept s t) (v : Word) (r : Reg) : Kept s (writeReg t v r) := by
  have same : ∀ u, Untouched t u → Kept s u := fun _ h => kept_of_untouched hk h
  cases r
  case ctrl => exact same _ ⟨rfl, rfl, rfl, rfl, rfl⟩
  case status => exact same _ ⟨rfl, rfl, rfl, rfl, rfl⟩
  case cmd => exact kept_writeCmd hk v
  case inBase => exact kept_ifIdle hk (same _ ⟨rfl, rfl, rfl, rfl, rfl⟩)
  case inLen => exact kept_ifIdle hk (same _ ⟨rfl, rfl, rfl, rfl, rfl⟩)
  case outBase => exact kept_ifIdle hk (same _ ⟨rfl, rfl, rfl, rfl, rfl⟩)
  case outCap => exact kept_ifIdle hk (same _ ⟨rfl, rfl, rfl, rfl, rfl⟩)
  case lzwCfg => exact kept_ifIdle hk (kept_writeLzwCfg hk v)
  all_goals exact hk

theorem kept_writeTarget {w : AccessWidth} {off : Word} {x : Target} (hk : Kept s t) (v : Word)
    (hx : target t w off = some x) : Kept s (writeTarget t w v x) := by
  obtain ⟨hibuf, hobuf⟩ := target_in_buffer hk.config.params hx
  cases x with
  | reg r => exact kept_writeReg hk v r
  | window _ => exact hk
  | ibuf a => exact kept_ifIdle hk (kept_writeIbuf hk v (hibuf a rfl))
  | obuf a => exact kept_ifIdle hk (kept_writeObuf hk v (hobuf a rfl))

/-- Hardware reset: the parameters stay, WIDTH is 12, which R6 always allows, and the rest is empty (R142). -/
theorem kept_hwReset (hk : Kept s t) : Kept s (hwReset t) where
  config := ⟨hk.config.params, (by decide : 8 ≤ (12 : BitVec 5).toNat), hk.config.params.2.2.1.1⟩
  buffers _ := ⟨List.Pairwise.nil, List.Pairwise.nil, nofun, nofun⟩
  stream _ := streamInv_of_empty rfl

theorem kept_hostStep {e : HostEvent} {u : State} (hk : Kept s t) (h : hostStep e t = .next u) : Kept s u := by
  rcases hostStep_next h with ⟨-, rfl⟩ | ⟨w, off, -, hu⟩ | ⟨w, off, v, x, -, hx, rfl⟩
  · exact kept_hwReset hk
  · exact kept_of_eq hk hu ⟨rfl, rfl, rfl, rfl, rfl⟩
  · exact kept_of_untouched (kept_writeTarget hk v hx) ⟨rfl, rfl, rfl, rfl, rfl⟩

theorem kept_takeEvent (hk : Kept s t) (rest : List HostEvent) : Kept s (takeEvent t rest) :=
  kept_of_untouched hk ⟨rfl, rfl, rfl, rfl, rfl⟩

/-- Every step keeps the three invariants. -/
theorem step_kept (hc : ConfigInv s) (h : step s = .next t) : Kept s t := by
  have hk := kept_refl hc
  rcases step_next h with ⟨-, -, rfl⟩ | ⟨i, -, -, hx⟩ | ⟨e, -, -, rfl⟩ | ⟨e, rest, -, hx⟩
  · exact hk
  · rw [exec_eq] at hx
    exact ends_finish (bodyOf_kept i hk) hx (fun _ => kept_complete) (fun _ c i => kept_raiseError c i)
  · exact kept_raiseError _ _ hk
  · exact kept_hostStep (kept_takeEvent hk rest) hx

end

/-- Settles O53: an invariant of the step, from the bodies' frames, Append behind OutCheck, and the host's accesses. -/
theorem stepKeepsConfigurationBuffersAndStream : Obligations.StepKeepsConfigurationBuffersAndStream := by
  intro s t hc h
  obtain ⟨hconfig, hbuffers, hstream⟩ := step_kept hc h
  exact ⟨hconfig, hbuffers, hstream⟩

end Sys2Proof.Machine
end

section
/-! SUPPORT. The host's side of the block (10_state.md R19-R46, 20_memory.md R50-R53): what a read or a write of each
register, table window and buffer byte does (O10, O13, O14, O15). -/

namespace Sys2Proof.Machine

/-! ## Accesses -/

theorem hostRead_visible {s : State} {w : AccessWidth} {off : Word} {x : Target} (hx : target s w off = some x)
    (hv : visible s x = true) : hostStep (.read w off) s = .next { s with resp := some (targetValue s w x) } := by
  simp only [hostStep, hostRead, hx, hv, if_true]

/-- While BUSY hides a word, its read is a draw of a free value (R46, R147). -/
theorem hostRead_hidden {s : State} {off : Word} {x : Target} (hx : target s .w32 off = some x)
    (hv : visible s x = false) :
    hostStep (.read .w32 off) s =
      .next { s with resp := some (Config.freeBusyRead s.draws), draws := s.draws + 1 } := by
  simp only [hostStep, hostRead, hx, hv, AccessWidth.truncate]
  rfl

theorem hostWrite_target {s : State} {w : AccessWidth} {off : Word} {x : Target} (v : Word)
    (hx : target s w off = some x) :
    hostStep (.write w off v) s = .next { writeTarget s w v x with resp := none } := by
  simp only [hostStep, hostWrite, hx]

theorem ifIdle_idle {s : State} (t : State) (h : s.status.busy = false) : ifIdle s t = t := by
  simp [ifIdle, h]

/-! ## The registers' offsets (R20-R38) -/

/-- A register's offset: `regsInOrder` lists the registers one word apart. -/
def Reg.offset (r : Reg) : Nat := 4 * regsInOrder.idxOf r

theorem getElem_regsInOrder_offset (r : Reg) : regsInOrder[r.offset / 4]? = some r := by
  cases r <;> rfl

theorem Reg.offset_lt (r : Reg) : r.offset < 0x090 := by
  cases r <;> decide

theorem exists_reg_of_offset {off : Nat} (h4 : off % 4 = 0) (hlt : off < 0x090) : ∃ r : Reg, r.offset = off := by
  have hk : off / 4 < regsInOrder.length := by
    simp only [regsInOrder, List.length_cons, List.length_nil]
    omega
  have hnodup : regsInOrder.Nodup := by decide
  refine ⟨regsInOrder[off / 4], ?_⟩
  rw [Reg.offset, hnodup.idxOf_getElem]
  omega

theorem target_offset (s : State) (r : Reg) : target s .w32 (BitVec.ofNat 32 r.offset) = some (.reg r) := by
  have hlt := r.offset_lt
  have hn : (BitVec.ofNat 32 r.offset).toNat = r.offset := by
    rw [BitVec.toNat_ofNat]
    omega
  refine target_reg ?_ ?_ ?_ <;> rw [hn]
  · omega
  · exact Nat.mul_mod_right ..
  · exact getElem_regsInOrder_offset r

/-- Which registers read their current value while BUSY, by offset (R46, R147, log 17). -/
theorem steady_eq (r : Reg) :
    r.steady = if r.offset ≤ 0x028 then true
      else if r.offset ≤ 0x034 then Config.errorRegsReadCurrent else false := by
  cases r <;> rfl

/-! ## The registers' fields (R20-R38) -/

theorem eq_ofNat_of_toNat {v : Word} {n : Nat} (h : v.toNat = n) : v = BitVec.ofNat 32 n := by
  rw [← h, BitVec.ofNat_toNat, BitVec.setWidth_eq]

theorem ctrlWord_toNat (c : Ctrl) : c.word.toNat = c.ieDone.toNat + 2 * c.ieErr.toNat := by
  obtain ⟨d, e⟩ := c
  revert d e
  decide

theorem getLsbD_bitAt (k i : Nat) (x : Bool) : (bitAt k x).getLsbD i = (x && decide (i = k) && decide (i < 32)) := by
  rcases Nat.lt_trichotomy i k with h | rfl | h
  · simp [bitAt, h, h.ne]
  · cases x <;> simp [bitAt]
  · have : i - k ≠ 0 := by omega
    cases x <;> simp [bitAt, h.ne', this]

theorem statusBits_toNat : ∀ busy done err drop wbusy irq : Bool,
    (bitAt 0 busy ||| bitAt 1 done ||| bitAt 2 err ||| bitAt 3 drop ||| bitAt 4 wbusy ||| bitAt 5 irq).toNat =
      busy.toNat + 2 * done.toNat + 4 * err.toNat + 8 * drop.toNat + 16 * wbusy.toNat + 32 * irq.toNat := by
  decide

theorem stageWord_toNat (g : Stage) :
    g.word.toNat = g.freqV.toNat + 2 * g.hufStage.toNat + 2 ^ 3 * g.hufCanon.toNat + 2 ^ 4 * g.ariTblV.toNat +
      2 ^ 5 * g.ariV.toNat + 2 ^ 6 * g.lzwV.toNat + 2 ^ 7 * g.lzwFull.toNat := by
  obtain ⟨a, b, c, d, e, f, g⟩ := g
  revert a b c d e f g
  decide

theorem policy_num_toNat (p : Policy) : p.num.toNat = [Policy.freeze, .reject, .reset].idxOf p := by
  cases p <;> rfl

theorem lzwCfgWord_toNat (c : LzwCfg) :
    c.word.toNat = c.width.toNat + 2 ^ 8 * [Policy.freeze, .reject, .reset].idxOf c.policy := by
  have hw : (c.width.setWidth 32 : Word).toNat = c.width.toNat := BitVec.toNat_setWidth_of_le (by decide)
  have hp : c.policy.num.toNat ≤ 2 := by cases c.policy <;> decide
  rw [LzwCfg.word, or_shift_toNat (by have := c.width.isLt; omega) (by omega), hw, policy_num_toNat]

theorem errCode_num_toNat (c : ErrCode) :
    c.num.toNat = [ErrCode.none, .illegalCmd, .sequence, .inRange, .outRange, .outOverflow, .noCode, .ariNoSym,
      .precisionOverflow, .dictOverflow].idxOf c := by
  cases c <;> rfl

theorem bpStateWord_toNat (b : BitPacker) : b.stateWord.toNat = b.cnt.toNat + 2 ^ 8 * b.acc.toNat := by
  have hc : (b.cnt.setWidth 32 : Word).toNat = b.cnt.toNat := BitVec.toNat_setWidth_of_le (by decide)
  have ha : (b.acc.setWidth 32 : Word).toNat = b.acc.toNat := BitVec.toNat_setWidth_of_le (by decide)
  have := b.cnt.isLt
  have := b.acc.isLt
  rw [BitPacker.stateWord, or_shift_toNat (by omega) (by omega), hc, ha]

theorem param0Word_toNat {p : Params} (h : p.valid) :
    (param0Word p).toNat = p.ibufLog2 + 2 ^ 8 * p.obufLog2 + 2 ^ 16 * p.lzwWmax := by
  obtain ⟨⟨-, hi⟩, ⟨-, ho⟩, ⟨-, hw⟩, -⟩ := h
  have small : ∀ {n : Nat}, n ≤ 24 → (BitVec.ofNat 32 n).toNat = n := fun hn => by
    rw [BitVec.toNat_ofNat]
    omega
  have hin := small hi
  have hout := small ho
  have hmax := small (hw.trans (by decide))
  have hlow := or_shift_toNat (k := 8) (lo := BitVec.ofNat 32 p.ibufLog2) (hi := BitVec.ofNat 32 p.obufLog2)
    (by omega) (by omega)
  rw [param0Word, or_shift_toNat (by omega) (by omega), hlow, hin, hout, hmax]

/-- The fields of a register, each at its place. -/
def Reg.fields (s : State) : Reg → Nat
  | .id => 0x48544231
  | .param0 => s.params.ibufLog2 + 2 ^ 8 * s.params.obufLog2 + 2 ^ 16 * s.params.lzwWmax
  | .param1 => s.params.ariWords
  | .ctrl => s.ctrl.ieDone.toNat + 2 * s.ctrl.ieErr.toNat
  | .status => s.status.busy.toNat + 2 * s.status.done.toNat + 4 * s.status.err.toNat + 8 * s.status.drop.toNat +
      16 * s.status.wbusy.toNat + 32 * s.irq.toNat
  | .cmd => s.cmd.toNat
  | .inBase => s.cfg.inBase.toNat
  | .inLen => s.cfg.inLen.toNat
  | .outBase => s.cfg.outBase.toNat
  | .outCap => s.cfg.outCap.toNat
  | .lzwCfg => s.cfg.lzwCfg.width.toNat + 2 ^ 8 * [Policy.freeze, .reject, .reset].idxOf s.cfg.lzwCfg.policy
  | .errCode => [ErrCode.none, .illegalCmd, .sequence, .inRange, .outRange, .outOverflow, .noCode, .ariNoSym,
      .precisionOverflow, .dictOverflow].idxOf s.err.code
  | .errInfo => s.err.info.toNat
  | .errCmd => s.err.cmd.toNat
  | .cycles => s.cycles.toNat
  | .stage => s.stage.freqV.toNat + 2 * s.stage.hufStage.toNat + 2 ^ 3 * s.stage.hufCanon.toNat +
      2 ^ 4 * s.stage.ariTblV.toNat + 2 ^ 5 * s.stage.ariV.toNat + 2 ^ 6 * s.stage.lzwV.toNat +
      2 ^ 7 * s.stage.lzwFull.toNat
  | .inPos => s.inPos.toNat
  | .resOrig => s.res.orig.toNat
  | .resComp => s.res.comp.toNat
  | .outLen => s.bp.outLen.toNat
  | .bitLen => s.bp.bitLen.toNat
  | .bpState => s.bp.cnt.toNat + 2 ^ 8 * s.bp.acc.toNat
  | .padBits => s.bp.padBits.toNat
  | .freqTotal => s.freq.total.toNat
  | .freqNsym => s.freq.nsym.toNat
  | .hufNnodes => s.huf.nnodes.toNat
  | .hufLive => s.huf.live.toNat
  | .hufRoot => s.huf.root.toNat
  | .hufMaxlen => s.huf.maxLen.toNat
  | .ariK => s.ari.k.toNat
  | .ariB => s.ari.b.toNat
  | .ariBits => s.ari.bits.toNat
  | .lzwNext => s.lzw.next.toNat
  | .lzwCur => s.lzw.cur.toNat
  | .lzwNcodes => s.lzw.ncodes.toNat
  | .lzwAct => s.lzw.act.width.toNat + 2 ^ 8 * [Policy.freeze, .reject, .reset].idxOf s.lzw.act.policy

theorem regValue_eq_fields {s : State} (hv : s.params.valid) (r : Reg) :
    regValue s r = BitVec.ofNat 32 (r.fields s) := by
  cases r
  case param0 => exact eq_ofNat_of_toNat (param0Word_toNat hv)
  case ctrl => exact eq_ofNat_of_toNat (ctrlWord_toNat s.ctrl)
  case status => exact eq_ofNat_of_toNat (statusBits_toNat ..)
  case lzwCfg => exact eq_ofNat_of_toNat (lzwCfgWord_toNat s.cfg.lzwCfg)
  case errCode => exact eq_ofNat_of_toNat (errCode_num_toNat s.err.code)
  case stage => exact eq_ofNat_of_toNat (stageWord_toNat s.stage)
  case bpState => exact eq_ofNat_of_toNat (bpStateWord_toNat s.bp)
  case lzwAct => exact eq_ofNat_of_toNat (lzwCfgWord_toNat s.lzw.act)
  case id | param1 => rfl
  all_goals simp only [regValue, Reg.fields, BitVec.ofNat_toNat, BitVec.setWidth_eq]

/-! ## The table windows (R39-R44, R50) -/

section
variable (s : State)

theorem windowWord_count (b : Byte) : windowWord s (0x1000 + 4 * b.toNat) = some (s.freq.count.at b) := by
  have := b.isLt
  rw [windowWord, if_pos (by omega), show (0x1000 + 4 * b.toNat - 0x1000) / 4 = b.toNat by omega]
  simp

theorem windowWord_cumLo (b : Byte) : windowWord s (0x1400 + 4 * b.toNat) = some (s.ari.cumLo.at b) := by
  have := b.isLt
  rw [windowWord, if_neg (by omega), if_pos (by omega), show (0x1400 + 4 * b.toNat - 0x1400) / 4 = b.toNat by omega]
  simp

theorem windowWord_codeLen (b : Byte) :
    windowWord s (0x1800 + 4 * b.toNat) = some ((s.huf.codeLen.at b).setWidth 32) := by
  have := b.isLt
  rw [windowWord, if_neg (by omega), if_neg (by omega), if_pos (by omega),
    show (0x1800 + 4 * b.toNat - 0x1800) / 4 = b.toNat by omega]
  simp

theorem wordOf_toNat_eq_extract (v : BitVec 256) (j : Nat) : wordOf v.toNat j = v.extractLsb' (32 * j) 32 := rfl

theorem windowWord_codeVal (b : Byte) {j : Nat} (hj : j < 8) :
    windowWord s (0x2000 + 32 * b.toNat + 4 * j) = some ((s.huf.codeVal.at b).extractLsb' (32 * j) 32) := by
  have := b.isLt
  rw [windowWord, if_neg (by omega), if_neg (by omega), if_neg (by omega), if_pos (by omega),
    show (0x2000 + 32 * b.toNat + 4 * j - 0x2000) / 32 = b.toNat by omega,
    show (0x2000 + 32 * b.toNat + 4 * j - 0x2000) / 4 % 8 = j by omega, wordOf_toNat_eq_extract]
  simp

/-- An arena entry that is not in use reads as 0 (R41). -/
theorem windowWord_node_unused {i j : Nat} (hi : i < 512) (hj : j < 4) (h : s.huf.arena.length ≤ i) :
    windowWord s (0x4000 + 16 * i + 4 * j) = some 0 := by
  rw [windowWord, if_neg (by omega), if_neg (by omega), if_neg (by omega), if_neg (by omega), if_pos (by omega),
    show (0x4000 + 16 * i + 4 * j - 0x4000) / 16 = i by omega, List.getElem?_eq_none h]

theorem windowWord_node {i j : Nat} {nd : Node} (hi : i < 512) (hj : j < 4) (h : s.huf.arena[i]? = some nd) :
    windowWord s (0x4000 + 16 * i + 4 * j) = some (nodeWord nd j) := by
  rw [windowWord, if_neg (by omega), if_neg (by omega), if_neg (by omega), if_neg (by omega), if_pos (by omega),
    show (0x4000 + 16 * i + 4 * j - 0x4000) / 16 = i by omega,
    show (0x4000 + 16 * i + 4 * j - 0x4000) / 4 % 4 = j by omega, h]

theorem windowWord_accL {j : Nat} (hj : j < 4096) : windowWord s (0x10000 + 4 * j) = some (accWord s s.ari.l j) := by
  rw [windowWord, if_neg (by omega), if_neg (by omega), if_neg (by omega), if_neg (by omega), if_neg (by omega),
    if_pos (by omega), show (0x10000 + 4 * j - 0x10000) / 4 = j by omega]

theorem windowWord_accH {j : Nat} (hj : j < 4096) : windowWord s (0x14000 + 4 * j) = some (accWord s s.ari.h j) := by
  rw [windowWord, if_neg (by omega), if_neg (by omega), if_neg (by omega), if_neg (by omega), if_neg (by omega),
    if_neg (by omega), if_pos (by omega), show (0x14000 + 4 * j - 0x14000) / 4 = j by omega]

theorem windowWord_accD {j : Nat} (hj : j < 4096) : windowWord s (0x18000 + 4 * j) = some (accWord s s.ari.d j) := by
  rw [windowWord, if_neg (by omega), if_neg (by omega), if_neg (by omega), if_neg (by omega), if_neg (by omega),
    if_neg (by omega), if_neg (by omega), if_pos (by omega), show (0x18000 + 4 * j - 0x18000) / 4 = j by omega]

theorem windowWord_dict {e : Nat} (he : e < 65536) : windowWord s (0x40000 + 4 * e) = some (dictWord s e) := by
  rw [windowWord, if_neg (by omega), if_neg (by omega), if_neg (by omega), if_neg (by omega), if_neg (by omega),
    if_neg (by omega), if_neg (by omega), if_neg (by omega), if_pos (by omega),
    show (0x40000 + 4 * e - 0x40000) / 4 = e by omega]

theorem accWord_toNat (x j : Nat) :
    (accWord s x j).toNat = if j < s.params.ariWords then x / 2 ^ (32 * j) % 2 ^ 32 else 0 := by
  unfold accWord
  split
  · rw [wordOf, BitVec.toNat_ofNat, Nat.shiftRight_eq_div_pow]
  · rfl

/-- The seed entries, which the dictionary does not hold (R44). -/
theorem dictWord_seed {e : Nat} (hv : s.stage.lzwV = true) (he : e < 256) :
    (dictWord s e).toNat = 0xFFFF + 2 ^ 16 * e + 2 ^ 31 := by
  have hn : (BitVec.ofNat 32 e).toNat = e := by
    rw [BitVec.toNat_ofNat]
    omega
  have hlow := or_shift_toNat (k := 16) (lo := 0xFFFF) (hi := BitVec.ofNat 32 e) (by decide) (by omega)
  rw [hn] at hlow
  have hff : (0xFFFF : Word).toNat = 0xFFFF := rfl
  rw [dictWord, if_pos hv, if_pos he]
  show ((0xFFFF : Word) ||| (BitVec.ofNat 32 e <<< 16) ||| bitAt 31 true).toNat = _
  rw [or_bitAt_toNat _ (by omega) (by decide), hlow, hff]
  rfl

theorem dictWord_stored {e : Nat} {x : DictEntry} (hv : s.stage.lzwV = true) (he : 256 ≤ e)
    (hn : e < s.lzw.next.toNat) (hx : s.lzw.dict[e - 256]? = some x) :
    (dictWord s e).toNat = x.pre.toNat + 2 ^ 16 * x.byte.toNat + 2 ^ 31 := by
  have hpre : (x.pre.setWidth 32 : Word).toNat = x.pre.toNat := BitVec.toNat_setWidth_of_le (by decide)
  have hbyte : (x.byte.setWidth 32 : Word).toNat = x.byte.toNat := BitVec.toNat_setWidth_of_le (by decide)
  have := x.pre.isLt
  have := x.byte.isLt
  have hlow := or_shift_toNat (k := 16) (lo := x.pre.setWidth 32) (hi := x.byte.setWidth 32) (by omega) (by omega)
  rw [dictWord, if_pos hv, if_neg (by omega), if_pos hn, hx]
  show (x.pre.setWidth 32 ||| (x.byte.setWidth 32 <<< 16) ||| bitAt 31 true).toNat = _
  rw [or_bitAt_toNat _ (by omega) (by decide), hlow, hpre, hbyte]
  rfl

theorem dictWord_absent {e : Nat} (h : s.stage.lzwV = false ∨ (256 ≤ e ∧ s.lzw.next.toNat ≤ e)) :
    dictWord s e = 0 := by
  unfold dictWord
  rcases h with hv | ⟨he, hn⟩
  · rw [if_neg (by simp [hv])]
  · rw [if_neg (show ¬ e < 256 by omega), if_neg (show ¬ e < s.lzw.next.toNat by omega), ite_self]

end

theorem nodeWord_children (nd : Node) : (nodeWord nd 1).toNat = nd.left.toNat + 2 ^ 16 * nd.right.toNat := by
  have hl : (nd.left.setWidth 32 : Word).toNat = nd.left.toNat := BitVec.toNat_setWidth_of_le (by decide)
  have hr : (nd.right.setWidth 32 : Word).toNat = nd.right.toNat := BitVec.toNat_setWidth_of_le (by decide)
  have := nd.left.isLt
  have := nd.right.isLt
  rw [nodeWord, or_shift_toNat (by omega) (by omega), hl, hr]

theorem nodeWord_flags (nd : Node) :
    (nodeWord nd 2).toNat = nd.sym.toNat + 2 ^ 8 * nd.leaf.toNat + 2 ^ 9 * nd.live.toNat := by
  have hs : (nd.sym.setWidth 32 : Word).toNat = nd.sym.toNat := BitVec.toNat_setWidth_of_le (by decide)
  have := nd.sym.isLt
  have := nd.leaf.toNat_le
  have hlow := or_bitAt_toNat (k := 8) (lo := nd.sym.setWidth 32) nd.leaf (by omega) (by decide)
  rw [nodeWord, or_bitAt_toNat _ (by omega) (by decide), hlow, hs]

theorem inTableWindow_of_windowWord {s : State} {off : Nat} {v : Word} (h : windowWord s off = some v) :
    inTableWindow off := by
  unfold windowWord at h
  unfold inTableWindow
  repeat' split at h
  all_goals first | omega | cases h

theorem hostRead_window {s : State} {off : Nat} {v : Word} (hidle : s.status.busy = false) (h4 : off % 4 = 0)
    (hv : windowWord s off = some v) :
    hostStep (.read .w32 (BitVec.ofNat 32 off)) s = .next { s with resp := some v } := by
  obtain ⟨u, hu, hx⟩ := target_window s h4 (inTableWindow_of_windowWord hv)
  obtain rfl : u = v := Option.some.inj (hu.symm.trans hv)
  exact hostRead_visible hx (by simp [visible, hidle])

theorem hostRead_reg {s : State} (hv : s.params.valid) (r : Reg) (h : s.status.busy = false ∨ r.steady = true) :
    hostStep (.read .w32 (BitVec.ofNat 32 r.offset)) s =
      .next { s with resp := some (BitVec.ofNat 32 (r.fields s)) } := by
  rw [← regValue_eq_fields hv]
  exact hostRead_visible (target_offset s r) (by simpa [visible] using h)

/-- What a read of a register from CYCLES on, of a window or of OBUF lands on is hidden while BUSY (R46, R147). -/
theorem exists_hidden_target {s : State} {off : Nat} (hv : s.params.valid) (hbusy : s.status.busy = true)
    (h4 : off % 4 = 0)
    (h : (0x038 ≤ off ∧ off < 0x090) ∨ (Config.errorRegsReadCurrent = false ∧ 0x02C ≤ off ∧ off < 0x038) ∨
      inTableWindow off ∨ (0x2000000 ≤ off ∧ off < 0x2000000 + s.obufSize)) :
    ∃ x, target s .w32 (BitVec.ofNat 32 off) = some x ∧ visible s x = false := by
  have hreg : ∀ r : Reg, r.steady = false → visible s (.reg r) = false := fun r hr => by simp [visible, hbusy, hr]
  rcases h with ⟨hlo, hhi⟩ | ⟨hfree, hlo, hhi⟩ | hw | ⟨hlo, hhi⟩
  · obtain ⟨r, rfl⟩ := exists_reg_of_offset h4 hhi
    refine ⟨_, target_offset s r, hreg r ?_⟩
    rw [steady_eq, if_neg (by omega), if_neg (by omega)]
  · obtain ⟨r, rfl⟩ := exists_reg_of_offset h4 (by omega)
    refine ⟨_, target_offset s r, hreg r ?_⟩
    rw [steady_eq, if_neg (by omega), hfree, ite_self]
  · obtain ⟨v, -, hx⟩ := target_window s h4 hw
    exact ⟨_, hx, by simp [visible, hbusy]⟩
  · obtain ⟨a, rfl⟩ := Nat.exists_eq_add_of_le hlo
    exact ⟨_, target_obuf hv (w := .w32) (show a % 4 = 0 by omega) (by omega), by simp [visible, hbusy]⟩

/-- Settles O10: by the registers' offsets and fields, the words of each window, and what BUSY hides. -/
theorem registersAndWindowsReadAsMapped : Obligations.RegistersAndWindowsReadAsMapped := by
  intro s hv
  refine ⟨fun off n hvis hmem => ?_, fun hbusy off h4 h => ?_, fun hidle off v h => ?_⟩
  · change (off, n) ∈ regsInOrder.map fun r => (r.offset, r.fields s) at hmem
    obtain ⟨r, -, hr⟩ := List.mem_map.1 hmem
    obtain ⟨rfl, rfl⟩ := Prod.mk.inj hr
    refine hostRead_reg hv r (hvis.imp_right fun hsteady => ?_)
    rw [steady_eq]
    rcases hsteady with hlo | ⟨hcur, hlo⟩
    · rw [if_pos hlo]
    · rw [if_pos hlo, hcur, ite_self]
  · obtain ⟨x, hx, hhid⟩ := exists_hidden_target hv hbusy h4 h
    exact hostRead_hidden hx hhid
  · have read := fun h4 (hw : windowWord s off = some v) => hostRead_window hidle h4 hw
    rcases h with ⟨b, hb⟩ | ⟨i, hi, hlen, ⟨j, hj, rfl⟩, rfl⟩ | ⟨i, nd, hi, hnd, hword⟩ | ⟨j, x, hj, hacc, hval⟩ |
      ⟨e, he, rfl, hentry⟩
    · rcases hb with ⟨rfl, rfl⟩ | ⟨rfl, rfl⟩ | ⟨rfl, rfl⟩ | ⟨j, hj, rfl, rfl⟩
      · exact read (by omega) (windowWord_count s b)
      · exact read (by omega) (windowWord_cumLo s b)
      · exact read (by omega) (windowWord_codeLen s b)
      · exact read (by omega) (windowWord_codeVal s b hj)
    · exact read (by omega) (windowWord_node_unused s hi hj hlen)
    · have word : ∀ {j}, j < 4 → _ := fun hj => windowWord_node s (Nat.lt_succ_of_lt hi) hj hnd
      rcases hword with ⟨rfl, rfl⟩ | ⟨rfl, hval⟩ | ⟨rfl, hval⟩ | ⟨rfl, rfl⟩
      · exact read (by omega) (word (j := 0) (by decide))
      · obtain rfl := BitVec.eq_of_toNat_eq (hval.trans (nodeWord_children nd).symm)
        exact read (by omega) (word (j := 1) (by decide))
      · obtain rfl := BitVec.eq_of_toNat_eq (hval.trans (nodeWord_flags nd).symm)
        exact read (by omega) (word (j := 2) (by decide))
      · exact read (by omega) (word (j := 3) (by decide))
    · obtain rfl := BitVec.eq_of_toNat_eq (hval.trans (accWord_toNat s x j).symm)
      rcases hacc with ⟨rfl, rfl⟩ | ⟨rfl, rfl⟩ | ⟨rfl, rfl⟩
      · exact read (by omega) (windowWord_accL s hj)
      · exact read (by omega) (windowWord_accH s hj)
      · exact read (by omega) (windowWord_accD s hj)
    · refine read (by omega) ((windowWord_dict s he).trans (congrArg some ?_))
      rcases hentry with ⟨hlzw, hseed, hval⟩ | ⟨x, hlzw, hlo, hnext, hx, hval⟩ | ⟨habsent, rfl⟩
      · exact BitVec.eq_of_toNat_eq ((dictWord_seed s hlzw hseed).trans hval.symm)
      · exact BitVec.eq_of_toNat_eq ((dictWord_stored s hlzw hlo hnext hx).trans hval.symm)
      · exact dictWord_absent s habsent

/-! ## The buffers (R48, R49, R52) -/

theorem bytes_of_mem {w : AccessWidth} {n : Nat} (h : (w, n) ∈ [(AccessWidth.w8, 1), (.w16, 2), (.w32, 4)]) :
    w.bytes = n := by
  simp only [List.mem_cons, Prod.mk.injEq, List.not_mem_nil, or_false] at h
  rcases h with ⟨rfl, rfl⟩ | ⟨rfl, rfl⟩ | ⟨rfl, rfl⟩ <;> rfl

theorem bytes_le (w : AccessWidth) : w.bytes ≤ 4 := by
  cases w <;> decide

/-- The bytes gathered from a buffer in which they are stored (R52). -/
theorem gatherBytes_stored {m : Memory} {free : Nat → Byte} {n a : Nat} {bytes : Nat → Byte} (hn : n ≤ 4)
    (h : ∀ j, j < n → m.read (a + j) = some (bytes j)) {j : Nat} (hj : j < n) :
    (gatherBytes (fun x => (m.read x).getD (free x)) n a).extractLsb' (8 * j) 8 = bytes j := by
  rw [gatherBytes_at _ n a hn j hj, h j hj, Option.getD_some]

section
variable {s : State} (hv : s.params.valid) {w : AccessWidth} {a : Nat} (ha : a % w.bytes = 0)
include hv ha

theorem hostWrite_ibuf (hidle : s.status.busy = false) (hlt : a < s.ibufSize) (v : Word) :
    hostStep (.write w (BitVec.ofNat 32 (0x1000000 + a)) v) s =
      .next { s with ibuf := scatterBytes w.bytes a v s.ibuf, resp := none } := by
  rw [hostWrite_target v (target_ibuf hv ha hlt), writeTarget, ifIdle_idle _ hidle]

theorem hostWrite_obuf (hidle : s.status.busy = false) (hlt : a < s.obufSize) (v : Word) :
    hostStep (.write w (BitVec.ofNat 32 (0x2000000 + a)) v) s =
      .next { s with obuf := scatterBytes w.bytes a v s.obuf, resp := none } := by
  rw [hostWrite_target v (target_obuf hv ha hlt), writeTarget, ifIdle_idle _ hidle]

theorem hostRead_ibuf (hlt : a < s.ibufSize) :
    hostStep (.read w (BitVec.ofNat 32 (0x1000000 + a))) s =
      .next { s with resp := some (gatherBytes (ibufByte s) w.bytes a) } :=
  hostRead_visible (target_ibuf hv ha hlt) rfl

theorem hostRead_obuf (hidle : s.status.busy = false) (hlt : a < s.obufSize) :
    hostStep (.read w (BitVec.ofNat 32 (0x2000000 + a))) s =
      .next { s with resp := some (gatherBytes (obufByte s) w.bytes a) } :=
  hostRead_visible (target_obuf hv ha hlt) (by simp [visible, hidle])

end

/-- Settles O13: a write scatters the word's bytes, a read gathers the stored ones. -/
theorem bufferAccessesAreLittleEndian : Obligations.BufferAccessesAreLittleEndian := by
  intro s w n a hv hw ha
  obtain rfl := bytes_of_mem hw
  refine ⟨fun hidle v => ⟨fun hlt => ?_, fun hlt => ?_⟩, fun bytes => ⟨fun hlt hin => ?_, fun hlt hidle hout => ?_⟩⟩
  · exact ⟨_, hostWrite_ibuf hv ha hidle hlt v, rfl, scatterBytes_at w.bytes a v s.ibuf,
      scatterBytes_other w.bytes a v s.ibuf⟩
  · exact ⟨_, hostWrite_obuf hv ha hidle hlt v, rfl, scatterBytes_at w.bytes a v s.obuf,
      scatterBytes_other w.bytes a v s.obuf⟩
  · exact ⟨_, hostRead_ibuf hv ha hlt, fun _ => gatherBytes_stored (bytes_le w) hin⟩
  · exact ⟨_, hostRead_obuf hv ha hidle hlt, fun _ => gatherBytes_stored (bytes_le w) hout⟩

/-! ## STATUS (R24, R128) -/

theorem statusWord_getLsbD (s : State) (n : Nat) :
    s.statusWord.getLsbD n =
      (s.status.busy && decide (n = 0) || s.status.done && decide (n = 1) || s.status.err && decide (n = 2) ||
        s.status.drop && decide (n = 3) || s.status.wbusy && decide (n = 4) || s.irq && decide (n = 5)) := by
  simp only [State.statusWord, BitVec.getLsbD_or, getLsbD_bitAt]
  rcases Nat.lt_or_ge n 32 with hn | hn
  · simp only [hn, decide_true, Bool.and_true]
  · have hne : ∀ k, k < 32 → n ≠ k := by omega
    simp [hne]

/-- Settles O14: the bits of the status word, and the W1C write bit by bit. -/
theorem statusReadsItsBitsAndClearsOnOne : Obligations.StatusReadsItsBitsAndClearsOnOne := by
  intro s
  have hx : target s .w32 0x010 = some (.reg .status) := target_offset s .status
  refine ⟨⟨_, s.statusWord, hostRead_visible hx (Bool.or_true _), rfl, ?_⟩,
    fun w => ⟨_, hostWrite_target w hx, rfl, rfl, ?_⟩⟩
  · simp only [statusWord_getLsbD]
    refine ⟨by simp, by simp, by simp, by simp, by simp, by simp [State.irq], fun n hn => ?_⟩
    have hne : ∀ k, k < 6 → n ≠ k := by omega
    simp [hne]
  · simp [writeTarget, writeReg, State.writeStatus]

/-! ## Writes to registers and windows (R19, R23, R26-R28) -/

theorem hostWrite_reg {s : State} (r : Reg) (v : Word) :
    hostStep (.write .w32 (BitVec.ofNat 32 r.offset) v) s = .next { writeReg s v r with resp := none } :=
  hostWrite_target v (target_offset s r)

/-- The registers only the engine writes, and the constants: the offsets outside CTRL to LZW_CFG. -/
theorem writeReg_readOnly (s : State) (v : Word) {r : Reg} (h : r.offset < 0x00C ∨ 0x02C ≤ r.offset) :
    writeReg s v r = s := by
  cases r
  case ctrl | status | cmd | inBase | inLen | outBase | outCap | lzwCfg => exact absurd h (by decide)
  all_goals rfl

theorem written_width (c : LzwCfg) (wmax : Nat) (w : Word) :
    if 8 ≤ w.toNat % 32 ∧ w.toNat % 32 ≤ wmax then (c.written wmax w).width.toNat = w.toNat % 32
      else (c.written wmax w).width = c.width := by
  have hfield : (w.extractLsb' 0 5).toNat = w.toNat % 32 := by simp
  simp only [LzwCfg.written, hfield]
  split
  · exact hfield
  · rfl

theorem written_policy (c : LzwCfg) (wmax : Nat) (w : Word) :
    if w.toNat / 256 % 4 = 0 then (c.written wmax w).policy = .freeze
      else if w.toNat / 256 % 4 = 1 then (c.written wmax w).policy = .reject
      else if w.toNat / 256 % 4 = 2 then (c.written wmax w).policy = .reset
      else (c.written wmax w).policy = c.policy := by
  have hfield : (w.extractLsb' 8 2).toNat = w.toNat / 256 % 4 := by simp [Nat.shiftRight_eq_div_pow]
  simp only [LzwCfg.written, hfield]
  have hlt : w.toNat / 256 % 4 < 4 := Nat.mod_lt _ (by decide)
  generalize w.toNat / 256 % 4 = p at hlt ⊢
  interval_cases p <;> rfl

/-- Settles O15: each register's write, and what a read-only register and a window do with theirs. -/
theorem hostWritesStoreAsRuled : Obligations.HostWritesStoreAsRuled := by
  intro s w
  refine ⟨fun hidle => ?_, hostWrite_reg .ctrl w, fun off h4 h => ?_⟩
  · have store : ∀ (r : Reg) (t : State), writeReg s w r = ifIdle s t →
        hostStep (.write .w32 (BitVec.ofNat 32 r.offset) w) s = .next { t with resp := none } := fun r t ht => by
      rw [hostWrite_reg, ht, ifIdle_idle t hidle]
    exact ⟨store .inBase _ rfl, store .inLen _ rfl, store .outBase _ rfl, store .outCap _ rfl,
      _, store .lzwCfg _ rfl, rfl, written_width .., written_policy ..⟩
  · rcases h with hlo | ⟨hlo, hhi⟩ | hw
    · obtain ⟨r, rfl⟩ := exists_reg_of_offset h4 (by omega)
      rw [hostWrite_reg, writeReg_readOnly s w (.inl hlo)]
    · obtain ⟨r, rfl⟩ := exists_reg_of_offset h4 hhi
      rw [hostWrite_reg, writeReg_readOnly s w (.inr hlo)]
    · obtain ⟨v, -, hx⟩ := target_window s h4 hw
      rw [hostWrite_target w hx, writeTarget]

end Sys2Proof.Machine
end

section
/-! SUPPORT. The frame of every command (O22): what its rule's "Writes" entry and the table of 10_state.md R31 do not name
reads as before. The engine's side of the state is cut into the parts that the commands write as wholes. The bodies' frames
of Laws/Frames.lean say which parts a body may write, and each register, STAGE field and table reads one part. -/

namespace Sys2Proof.Machine

/-! ## The parts of the engine's side -/

/-- The parts of what the engine writes, but for what the end of a command writes (10_state.md R30-R44). -/
inductive Part where
  | inPos | res | stream | padBits | freq | tree | codeLen | codeVal | cumLo | interval | fraction
  | lzwMatch | lzwDict | lzwAct | obuf
  | bit (b : StageBit)
  deriving DecidableEq

/-- A part is the same in two states. -/
def samePart (s t : State) : Part → Prop
  | .inPos => t.inPos = s.inPos
  | .res => t.res = s.res
  | .stream => (t.bp.outLen, t.bp.bitLen, t.bp.acc, t.bp.cnt) = (s.bp.outLen, s.bp.bitLen, s.bp.acc, s.bp.cnt)
  | .padBits => t.bp.padBits = s.bp.padBits
  | .freq => t.freq = s.freq
  | .tree => (t.huf.arena, t.huf.nnodes, t.huf.live, t.huf.root) = (s.huf.arena, s.huf.nnodes, s.huf.live, s.huf.root)
  | .codeLen => (t.huf.codeLen, t.huf.maxLen) = (s.huf.codeLen, s.huf.maxLen)
  | .codeVal => t.huf.codeVal = s.huf.codeVal
  | .cumLo => t.ari.cumLo = s.ari.cumLo
  | .interval => (t.ari.l, t.ari.h, t.ari.d, t.ari.k) = (s.ari.l, s.ari.h, s.ari.d, s.ari.k)
  | .fraction => (t.ari.b, t.ari.bits) = (s.ari.b, s.ari.bits)
  | .lzwMatch => (t.lzw.cur, t.lzw.ncodes) = (s.lzw.cur, s.lzw.ncodes)
  | .lzwDict => (t.lzw.dict, t.lzw.next) = (s.lzw.dict, s.lzw.next)
  | .lzwAct => t.lzw.act = s.lzw.act
  | .obuf => t.obuf = s.obuf
  | .bit b => t.stage.field b = s.stage.field b

/-- The part a register reads, if it is neither of the host's side nor of what the end of a command writes. -/
def Reg.part : Reg → Option Part
  | .id | .param0 | .param1 | .ctrl | .status | .cmd | .inBase | .inLen | .outBase | .outCap | .lzwCfg
  | .errCode | .errInfo | .errCmd | .cycles | .stage => none
  | .inPos => some .inPos
  | .resOrig | .resComp => some .res
  | .outLen | .bitLen | .bpState => some .stream
  | .padBits => some .padBits
  | .freqTotal | .freqNsym => some .freq
  | .hufNnodes | .hufLive | .hufRoot => some .tree
  | .hufMaxlen => some .codeLen
  | .ariK => some .interval
  | .ariB | .ariBits => some .fraction
  | .lzwCur | .lzwNcodes => some .lzwMatch
  | .lzwNext => some .lzwDict
  | .lzwAct => some .lzwAct

/-- The part a table belongs to. -/
def TableName.part : TableName → Part
  | .freq => .freq
  | .cumLo => .cumLo
  | .arena => .tree
  | .codeLen => .codeLen
  | .codeVal => .codeVal
  | .accumulators => .interval
  | .dict => .lzwDict
  | .obuf => .obuf

theorem regValue_of_samePart {s t : State} {r : Reg} {p : Part} (hr : r.part = some p) (h : samePart s t p) :
    regValue t r = regValue s r := by
  cases r <;> cases hr <;> simp_all [samePart, regValue, BitPacker.stateWord]

theorem regValue_of_sameHostSide {s t : State} {r : Reg} (hr : r.part = none)
    (hend : r ∉ [Reg.status, .cycles, .stage, .errCode, .errInfo, .errCmd]) (h : s.sameHostSide t) :
    regValue t r = regValue s r := by
  obtain ⟨hparams, hctrl, hcmd, hcfg, -⟩ := h
  cases r <;> cases hr <;> simp_all [regValue]

theorem sameTable_of_samePart {s t : State} {x : TableName} (h : samePart s t x.part) : sameTable s t x := by
  cases x <;> simp_all [samePart, sameTable, TableName.part]

/-! ## The parts each command writes -/

/-- The parts the body of a command may write (files 40 to 45, 10_state.md R31). -/
def partsOf : Instr → List Part
  | .nop => []
  | .sreset => [.inPos, .res, .stream, .padBits, .freq, .tree, .codeLen, .codeVal, .cumLo, .interval, .fraction,
      .lzwMatch, .lzwDict, .lzwAct, .bit .freqV, .bit .hufStage, .bit .hufCanon, .bit .ariTblV, .bit .ariV,
      .bit .lzwV, .bit .lzwFull]
  | .result => [.res]
  | .freq => [.freq, .inPos, .bit .freqV, .bit .hufStage, .bit .hufCanon, .bit .ariTblV, .bit .ariV]
  | .hufInit => [.tree, .codeLen, .codeVal, .bit .hufStage, .bit .hufCanon]
  | .hufMerge | .hufBuild => [.tree, .bit .hufStage]
  | .hufCodes => [.codeLen, .codeVal, .bit .hufStage, .bit .hufCanon]
  | .hufCanon => [.codeVal, .bit .hufCanon]
  | .hufEmit => [.stream, .obuf, .inPos]
  | .hufEncode _ => [.stream, .padBits, .obuf, .freq, .inPos, .tree, .codeLen, .codeVal, .res,
      .bit .freqV, .bit .hufStage, .bit .hufCanon, .bit .ariTblV, .bit .ariV]
  | .ariTable => [.cumLo, .bit .ariTblV, .bit .ariV]
  | .ariInit => [.interval, .fraction, .bit .ariV]
  | .ariStep _ => [.interval]
  | .ariNarrow => [.interval, .inPos]
  | .ariFinal => [.stream, .obuf, .fraction]
  | .ariEncode => [.stream, .padBits, .obuf, .freq, .inPos, .cumLo, .interval, .fraction, .res,
      .bit .freqV, .bit .hufStage, .bit .hufCanon, .bit .ariTblV, .bit .ariV]
  | .lzwInit => [.lzwMatch, .lzwDict, .lzwAct, .bit .lzwV, .bit .lzwFull]
  | .lzwStep _ => [.lzwMatch, .lzwDict, .stream, .obuf, .bit .lzwFull]
  | .lzwRun => [.lzwMatch, .lzwDict, .stream, .obuf, .bit .lzwFull, .inPos]
  | .lzwFlush => [.lzwMatch, .stream, .obuf]
  | .lzwEncode => [.lzwMatch, .lzwDict, .lzwAct, .stream, .padBits, .obuf, .inPos, .res, .bit .lzwV, .bit .lzwFull]
  | .bpClear => [.stream, .padBits]
  | .bpPut _ _ => [.stream, .obuf]
  | .bpPad => [.stream, .padBits, .obuf]

/-- The rule of the command names every register of the part. -/
def regsNamed (i : Instr) (p : Part) : Bool :=
  regsInOrder.all fun r => r.part != some p || r ∈ mayWriteReg i

/-- The rule of the command names every table of the part. -/
def tablesNamed (i : Instr) (p : Part) : Bool :=
  [TableName.freq, .cumLo, .arena, .codeLen, .codeVal, .accumulators, .dict, .obuf].all fun x =>
    x.part != p || x ∈ mayWriteTable i

/-- R31 lets the command write the STAGE field, if the part is one. -/
def bitNamed (i : Instr) : Part → Bool
  | .bit b => b ∈ mayWriteStage i
  | _ => true

theorem parts_named (i : Instr) :
    (partsOf i).all (fun p => regsNamed i p && tablesNamed i p && bitNamed i p) = true := by
  cases i <;> rfl

section
variable {i : Instr} {p : Part} (h : p ∈ partsOf i)
include h

theorem reg_named {r : Reg} (hr : r.part = some p) : r ∈ mayWriteReg i := by
  have hp := List.all_eq_true.1 (parts_named i) p h
  simp only [Bool.and_eq_true] at hp
  have := List.all_eq_true.1 hp.1.1 r (List.mem_of_getElem? (getElem_regsInOrder_offset r))
  simpa [hr] using this

theorem table_named {x : TableName} (hx : x.part = p) : x ∈ mayWriteTable i := by
  have hp := List.all_eq_true.1 (parts_named i) p h
  simp only [Bool.and_eq_true] at hp
  have := List.all_eq_true.1 hp.1.2 x (by cases x <;> decide)
  simpa [hx] using this

theorem bit_named {b : StageBit} (hb : p = .bit b) : b ∈ mayWriteStage i := by
  have hp := List.all_eq_true.1 (parts_named i) p h
  simp only [Bool.and_eq_true, hb] at hp
  simpa [bitNamed] using hp.2

end

/-! ## What a body keeps -/

/-- The host's side and every part but those of the list are as before. -/
structure Keeps (ps : List Part) (s t : State) : Prop where
  host : s.sameHostSide t
  part : ∀ p, p ∉ ps → samePart s t p

theorem sameHostSide_refl (s : State) : s.sameHostSide s := ⟨rfl, rfl, rfl, rfl, rfl, rfl, rfl, rfl, rfl⟩

section
variable {ps : List Part} {s t : State}

theorem keeps_refl (s : State) : Keeps ps s s :=
  ⟨sameHostSide_refl s, fun p _ => by cases p <;> rfl⟩

/-- The end of a command writes no part (R75, R122). -/
theorem keeps_complete (h : Keeps ps s t) : Keeps ps s t.complete :=
  ⟨h.host, fun p hp => by cases p <;> exact h.part _ hp⟩

theorem keeps_raiseError (c : ErrCode) (i : Word) (h : Keeps ps s t) : Keeps ps s (t.raiseError c i) :=
  ⟨h.host, fun p hp => by cases p <;> exact h.part _ hp⟩

/-- A step command, which does not count in IN_POS (R32), beside the streaming command with its step body. -/
theorem keeps_of_inPos (h : Keeps (ps ++ [.inPos]) s t) (hpos : t.inPos = s.inPos) : Keeps ps s t := by
  refine ⟨h.host, fun p hp => ?_⟩
  by_cases e : p = .inPos
  · rw [e]
    exact hpos
  · exact h.part p (by simp [hp, e])

theorem keeps_of_streamOnly (h : streamOnly s t) : Keeps [.stream, .obuf] s t := by
  obtain ⟨h, hpad⟩ := h
  rw [h]
  refine ⟨sameHostSide_refl s, fun p hp => ?_⟩
  cases p
  case stream | obuf => exact absurd (by decide) hp
  case padBits => exact hpad
  all_goals rfl

theorem keeps_of_emitOnly (h : emitOnly s t) : Keeps [.stream, .obuf, .inPos] s t := by
  obtain ⟨h, hpad⟩ := h
  rw [h]
  refine ⟨sameHostSide_refl s, fun p hp => ?_⟩
  cases p
  case stream | obuf | inPos => exact absurd (by decide) hp
  case padBits => exact hpad
  all_goals rfl

theorem keeps_of_padOnly (h : t = { s with bp := t.bp, obuf := t.obuf }) :
    Keeps [.stream, .padBits, .obuf] s t := by
  rw [h]
  refine ⟨sameHostSide_refl s, fun p hp => ?_⟩
  cases p
  case stream | padBits | obuf => exact absurd (by decide) hp
  all_goals rfl

theorem keeps_clearStream (s : State) : Keeps [.stream, .padBits] s (clearStream s) := by
  refine ⟨sameHostSide_refl s, fun p hp => ?_⟩
  cases p
  case stream | padBits => exact absurd (by decide) hp
  all_goals rfl

theorem keeps_of_resOnly (h : t = { s with res := t.res }) : Keeps [.res] s t := by
  rw [h]
  refine ⟨sameHostSide_refl s, fun p hp => ?_⟩
  cases p
  case res => exact absurd (by decide) hp
  all_goals rfl

theorem keeps_softReset (s : State) : Keeps (partsOf .sreset) s (softReset s) := by
  refine ⟨sameHostSide_refl s, fun p hp => ?_⟩
  cases p
  case obuf => rfl
  case bit b => cases b <;> exact absurd (by decide) hp
  all_goals exact absurd (by decide) hp

theorem keeps_of_freqOnly (h : freqOnly s t) : Keeps (partsOf .freq) s t := by
  obtain ⟨h, hlzwV, hlzwFull⟩ := h
  rw [h]
  refine ⟨sameHostSide_refl s, fun p hp => ?_⟩
  cases p
  case freq | inPos => exact absurd (by decide) hp
  case bit b =>
    cases b
    case lzwV => exact congrArg Bool.toNat hlzwV
    case lzwFull => exact congrArg Bool.toNat hlzwFull
    all_goals exact absurd (by decide) hp
  all_goals rfl

theorem keeps_of_hufOnly (h : hufOnly s t) : Keeps (partsOf .hufInit) s t := by
  rw [h]
  refine ⟨sameHostSide_refl s, fun p hp => ?_⟩
  cases p
  case tree | codeLen | codeVal => exact absurd (by decide) hp
  case bit b =>
    cases b
    case hufStage | hufCanon => exact absurd (by decide) hp
    all_goals rfl
  all_goals rfl

/-- The merges (R90, R91). -/
theorem keeps_of_sameButTree (h : sameButTree s t) : Keeps [.tree, .bit .hufStage] s t := by
  obtain ⟨h, hlen, hval, hmax⟩ := h
  rw [h]
  refine ⟨sameHostSide_refl s, fun p hp => ?_⟩
  cases p
  case tree => exact absurd (by decide) hp
  case codeLen => exact Prod.ext hlen hmax
  case codeVal => exact hval
  case bit b =>
    cases b
    case hufStage => exact absurd (by decide) hp
    all_goals rfl
  all_goals rfl

theorem keeps_extractCodes (s : State) : Keeps (partsOf .hufCodes) s (extractCodes s) := by
  refine ⟨sameHostSide_refl s, fun p hp => ?_⟩
  cases p
  case codeLen | codeVal => exact absurd (by decide) hp
  case tree => simp only [samePart, extractCodes]
  case bit b =>
    cases b
    case hufStage | hufCanon => exact absurd (by decide) hp
    all_goals rfl
  all_goals rfl

theorem keeps_renumberCodes (s : State) : Keeps (partsOf .hufCanon) s (renumberCodes s) := by
  refine ⟨sameHostSide_refl s, fun p hp => ?_⟩
  cases p
  case codeVal => exact absurd (by decide) hp
  case bit b =>
    cases b
    case hufCanon => exact absurd (by decide) hp
    all_goals rfl
  all_goals rfl

theorem keeps_of_hufEncodeOnly (canon : Bool) (h : hufEncodeOnly s t) : Keeps (partsOf (.hufEncode canon)) s t := by
  obtain ⟨h, hlzwV, hlzwFull⟩ := h
  rw [h]
  refine ⟨sameHostSide_refl s, fun p hp => ?_⟩
  simp only [partsOf] at hp
  cases p
  case cumLo | interval | fraction | lzwMatch | lzwDict | lzwAct => rfl
  case bit b =>
    cases b
    case lzwV => exact congrArg Bool.toNat hlzwV
    case lzwFull => exact congrArg Bool.toNat hlzwFull
    all_goals exact absurd (by decide) hp
  all_goals exact absurd (by decide) hp

theorem keeps_of_ariTable (h : t = { s with
    ari.cumLo := t.ari.cumLo, stage := { s.stage with ariTblV := t.stage.ariTblV, ariV := t.stage.ariV } }) :
    Keeps (partsOf .ariTable) s t := by
  rw [h]
  refine ⟨sameHostSide_refl s, fun p hp => ?_⟩
  cases p
  case cumLo => exact absurd (by decide) hp
  case bit b =>
    cases b
    case ariTblV | ariV => exact absurd (by decide) hp
    all_goals rfl
  all_goals rfl

theorem keeps_openInterval (s : State) : Keeps (partsOf .ariInit) s (openInterval s) := by
  refine ⟨sameHostSide_refl s, fun p hp => ?_⟩
  cases p
  case interval | fraction => exact absurd (by decide) hp
  case bit b =>
    cases b
    case ariV => exact absurd (by decide) hp
    all_goals rfl
  all_goals rfl

theorem keeps_of_narrowOnly (h : narrowOnly s t) : Keeps (partsOf .ariNarrow) s t := by
  obtain ⟨h, hcum, hb, hbits⟩ := h
  rw [h]
  refine ⟨sameHostSide_refl s, fun p hp => ?_⟩
  cases p
  case interval | inPos => exact absurd (by decide) hp
  case cumLo => exact hcum
  case fraction => exact Prod.ext hb hbits
  all_goals rfl

theorem keeps_of_ariFinal (h : t = { s with
      bp := t.bp, obuf := t.obuf, ari := { s.ari with b := t.ari.b, bits := t.ari.bits } } ∧
    t.bp.padBits = s.bp.padBits) : Keeps (partsOf .ariFinal) s t := by
  obtain ⟨h, hpad⟩ := h
  rw [h]
  refine ⟨sameHostSide_refl s, fun p hp => ?_⟩
  cases p
  case stream | obuf | fraction => exact absurd (by decide) hp
  case padBits => exact hpad
  all_goals rfl

theorem keeps_of_ariEncodeOnly (h : ariEncodeOnly s t) : Keeps (partsOf .ariEncode) s t := by
  obtain ⟨h, hlzwV, hlzwFull⟩ := h
  rw [h]
  refine ⟨sameHostSide_refl s, fun p hp => ?_⟩
  cases p
  case tree | codeLen | codeVal | lzwMatch | lzwDict | lzwAct => rfl
  case bit b =>
    cases b
    case lzwV => exact congrArg Bool.toNat hlzwV
    case lzwFull => exact congrArg Bool.toNat hlzwFull
    all_goals exact absurd (by decide) hp
  all_goals exact absurd (by decide) hp

theorem keeps_seedDict (s : State) : Keeps (partsOf .lzwInit) s (seedDict s) := by
  refine ⟨sameHostSide_refl s, fun p hp => ?_⟩
  cases p
  case lzwMatch | lzwDict | lzwAct => exact absurd (by decide) hp
  case bit b =>
    cases b
    case lzwV | lzwFull => exact absurd (by decide) hp
    all_goals rfl
  all_goals rfl

theorem keeps_of_lzwOnly (h : lzwOnly s t) : Keeps (partsOf .lzwRun) s t := by
  obtain ⟨h, hact, hpad⟩ := h
  rw [h]
  refine ⟨sameHostSide_refl s, fun p hp => ?_⟩
  cases p
  case lzwMatch | lzwDict | stream | obuf | inPos => exact absurd (by decide) hp
  case lzwAct => exact hact
  case padBits => exact hpad
  case bit b =>
    cases b
    case lzwFull => exact absurd (by decide) hp
    all_goals rfl
  all_goals rfl

theorem keeps_of_flushOnly (h : flushOnly s t) : Keeps (partsOf .lzwFlush) s t := by
  obtain ⟨h, hpad⟩ := h
  rw [h]
  refine ⟨sameHostSide_refl s, fun p hp => ?_⟩
  cases p
  case lzwMatch | stream | obuf => exact absurd (by decide) hp
  case padBits => exact hpad
  all_goals rfl

theorem keeps_of_lzwEncodeOnly (h : lzwEncodeOnly s t) : Keeps (partsOf .lzwEncode) s t := by
  rw [h]
  refine ⟨sameHostSide_refl s, fun p hp => ?_⟩
  cases p
  case freq | tree | codeLen | codeVal | cumLo | interval | fraction => rfl
  case bit b =>
    cases b
    case lzwV | lzwFull => exact absurd (by decide) hp
    all_goals rfl
  all_goals exact absurd (by decide) hp

end

/-! ## Every command -/

theorem ends_and {P Q : State → Prop} {r : CmdResult} (hp : r.Ends P) (hq : r.Ends Q) :
    r.Ends fun t => P t ∧ Q t := by
  cases r with
  | ok s => exact ⟨hp, hq⟩
  | error s c i => exact ⟨hp, hq⟩
  | fault x => trivial

theorem ariStepBody_inPos (b : Byte) (s : State) : (ariStepBody b s).Ends fun t => t.inPos = s.inPos := by
  refine ends_check rfl fun _ => ?_
  unfold ariStepAt
  split
  · rfl
  · split <;> rfl

theorem hufBuildBody_sameButTree (s : State) : (hufBuildBody s).Ends (sameButTree s) :=
  ends_check (sameButTree_refl s) fun _ => sameButTree_buildTree s

theorem hufMergeBody_sameButTree (s : State) : (hufMergeBody s).Ends (sameButTree s) :=
  ends_check (sameButTree_refl s) fun _ => sameButTree_mergeStep s

theorem bodyOf_keeps (i : Instr) (s : State) : (bodyOf i s).Ends (Keeps (partsOf i) s) := by
  cases i with
  | nop => exact keeps_refl s
  | sreset => exact keeps_softReset s
  | result => exact ends_imp (resultBody_only s) fun _ => keeps_of_resOnly
  | freq => exact ends_imp (freqBody_only s) fun _ => keeps_of_freqOnly
  | hufInit => exact ends_imp (hufInitBody_only s) fun _ => keeps_of_hufOnly
  | hufMerge => exact ends_imp (hufMergeBody_sameButTree s) fun _ => keeps_of_sameButTree
  | hufBuild => exact ends_imp (hufBuildBody_sameButTree s) fun _ => keeps_of_sameButTree
  | hufCodes => exact ends_check (keeps_refl s) fun _ => keeps_extractCodes s
  | hufCanon => exact ends_check (keeps_refl s) fun _ => keeps_renumberCodes s
  | hufEmit => exact ends_imp (hufEmitBody_only s) fun _ => keeps_of_emitOnly
  | hufEncode canon => exact ends_imp (hufEncodeBody_only canon s) fun _ => keeps_of_hufEncodeOnly canon
  | ariTable => exact ends_imp (ariTableBody_only s) fun _ => keeps_of_ariTable
  | ariInit => exact keeps_openInterval s
  | ariStep sym =>
    exact ends_imp (ends_and (ariStepBody_only sym s) (ariStepBody_inPos sym s)) fun _ h =>
      keeps_of_inPos (keeps_of_narrowOnly h.1) h.2
  | ariNarrow => exact ends_imp (ariNarrowBody_only s) fun _ => keeps_of_narrowOnly
  | ariFinal => exact ends_imp (ariFinalBody_only s) fun _ => keeps_of_ariFinal
  | ariEncode => exact ends_imp (ariEncodeBody_only s) fun _ => keeps_of_ariEncodeOnly
  | lzwInit => exact keeps_seedDict s
  | lzwStep sym =>
    exact ends_imp (ends_and (lzwStepBody_only sym s) (lzwStepBody_inPos sym s)) fun _ h =>
      keeps_of_inPos (keeps_of_lzwOnly h.1) h.2
  | lzwRun => exact ends_imp (lzwRunBody_only s) fun _ => keeps_of_lzwOnly
  | lzwFlush => exact ends_imp (lzwFlushBody_only s) fun _ => keeps_of_flushOnly
  | lzwEncode => exact ends_imp (lzwEncodeBody_only s) fun _ => keeps_of_lzwEncodeOnly
  | bpClear => exact keeps_clearStream s
  | bpPut n bits => exact ends_imp (bpPutBody_only n bits s) fun _ => keeps_of_streamOnly
  | bpPad => exact ends_imp (bpPadBody_only s) fun _ => keeps_of_padOnly

theorem exec_keeps {i : Instr} {s t : State} (h : exec i s = .next t) : Keeps (partsOf i) s t := by
  rw [exec_eq] at h
  exact ends_finish (bodyOf_keeps i s) h (fun _ => keeps_complete) fun _ c k => keeps_raiseError c k

/-- Settles O22: a part the command may write has none but registers, fields and tables its rule names. -/
theorem frameOfEveryCommand : Obligations.FrameOfEveryCommand := by
  intro i s t h
  have hk := exec_keeps h
  refine ⟨hk.host, fun r hr hend => ?_, fun b hb => ?_, fun x hx => ?_⟩
  · cases hp : r.part with
    | none => exact regValue_of_sameHostSide hp hend hk.host
    | some p => exact regValue_of_samePart hp (hk.part p fun h => hr (reg_named h hp))
  · exact hk.part (.bit b) fun h => hb (bit_named h rfl)
  · exact sameTable_of_samePart (hk.part x.part fun h => hx (table_named h rfl))

end Sys2Proof.Machine
end

section
/-! SUPPORT. Every step keeps FREQ_TOTAL the sum of the counts and FREQ_NSYM the number of present symbols (O54;
41_frequency.md R86). FREQ sets the table and its totals together, both resets clear them, and nothing else writes them. -/

namespace Sys2Proof.Machine

/-- The invariant reads the frequency table, its totals and the size of IBUF only. -/
theorem freqInv_congr {s t : State} (hs : FreqInv s) (hf : t.freq = s.freq) (hp : t.params = s.params) : FreqInv t := by
  refine ⟨?_, ?_, ?_⟩
  · rw [hf]
    exact hs.total
  · rw [hf, State.ibufSize, hp]
    exact hs.bound
  · rw [hf]
    exact hs.nsym

theorem presentCount_replicate_zero : presentCount (Vector.replicate 256 0) = 0 := by
  simp [presentCount]

/-- The cleared table and its totals (R142). -/
theorem freqInv_of_zero {s : State} (h : s.freq = FreqModel.zero) : FreqInv s := by
  refine ⟨?_, ?_, ?_⟩ <;> rw [h]
  · exact (countBelow_zero 256).symm
  · exact Nat.zero_le _
  · exact presentCount_replicate_zero.symm

/-- FREQ leaves totals that agree with its table, whatever they were before, unless it raises before any change. -/
theorem freqBody_freqInv {s : State} (hs : FreqInv s) : (freqBody s).Ends FreqInv := by
  cases hr : freqBody s with
  | ok t => exact (freqBody_inv hr).1
  | error t c i =>
    obtain ⟨rfl, -, -⟩ := freqBody_error hr
    exact hs
  | fault x => trivial

/-- A body that writes neither the table nor its totals. -/
theorem freqInv_of_keeps {i : Instr} {s : State} (hs : FreqInv s) (h : Part.freq ∉ partsOf i) :
    (bodyOf i s).Ends FreqInv :=
  ends_imp (bodyOf_keeps i s) fun _ hk => freqInv_congr hs (hk.part .freq h) hk.host.1

theorem hufEncodeBody_freqInv (canon : Bool) {s : State} (hs : FreqInv s) : (hufEncodeBody canon s).Ends FreqInv := by
  have hclear : FreqInv (clearStream s) := freqInv_congr hs rfl rfl
  refine ends_check hs fun _ => ends_check hs fun _ =>
    ends_andThen (freqBody_freqInv hclear) fun _ _ ht =>
    ends_andThen (freqInv_of_keeps (i := .hufInit) ht (by decide)) fun _ _ ht =>
    ends_andThen (freqInv_of_keeps (i := .hufBuild) ht (by decide)) fun _ _ ht =>
    ends_andThen (freqInv_of_keeps (i := .hufCodes) ht (by decide)) fun _ _ ht =>
    ends_andThen (?_ : CmdResult.Ends FreqInv _) fun _ _ ht =>
    ends_andThen (freqInv_of_keeps (i := .hufEmit) ht (by decide)) fun _ _ ht =>
    ends_andThen (freqInv_of_keeps (i := .bpPad) ht (by decide)) fun _ _ ht =>
    freqInv_of_keeps (i := .result) ht (by decide)
  split
  · exact freqInv_of_keeps (i := .hufCanon) ht (by decide)
  · exact ht

theorem ariEncodeBody_freqInv {s : State} (hs : FreqInv s) : (ariEncodeBody s).Ends FreqInv := by
  have hclear : FreqInv (clearStream s) := freqInv_congr hs rfl rfl
  exact ends_check hs fun _ => ends_check hs fun _ =>
    ends_andThen (freqBody_freqInv hclear) fun _ _ ht =>
    ends_andThen (freqInv_of_keeps (i := .ariTable) ht (by decide)) fun t _ ht =>
    ends_andThen (freqInv_of_keeps (i := .ariNarrow) (s := openInterval t) (freqInv_congr ht rfl rfl) (by decide))
      fun _ _ ht =>
    ends_andThen (freqInv_of_keeps (i := .ariFinal) ht (by decide)) fun _ _ ht =>
    ends_andThen (freqInv_of_keeps (i := .bpPad) ht (by decide)) fun _ _ ht =>
    freqInv_of_keeps (i := .result) ht (by decide)

theorem bodyOf_freqInv (i : Instr) {s : State} (hs : FreqInv s) : (bodyOf i s).Ends FreqInv := by
  cases i
  case sreset => exact freqInv_of_zero rfl
  case freq => exact freqBody_freqInv hs
  case hufEncode canon => exact hufEncodeBody_freqInv canon hs
  case ariEncode => exact ariEncodeBody_freqInv hs
  all_goals exact freqInv_of_keeps hs (by simp [partsOf])

/-- Settles O54: the bodies keep the totals, and no host event but a reset touches them. -/
theorem stepKeepsTheFrequencyTotals : Obligations.StepKeepsTheFrequencyTotals := by
  intro s t _ hs h
  exact step_keeps hs h (fun i => bodyOf_freqInv i hs)
    (fun _ hu => freqInv_congr hu rfl rfl)
    (fun _ _ _ hu => freqInv_congr hu rfl rfl)
    (fun _ _ => freqInv_of_zero rfl)
    (fun _ _ htouch hu => freqInv_congr hu htouch.freq htouch.params)

end Sys2Proof.Machine
end

section
/-! SUPPORT. What a step is and where it stops (O5, O7; 20_memory.md R51, R56, R57): the engine's turn, the host's turn or
neither. A command reads IBUF only in the pass over its input range, and no body writes IN_BASE, IN_LEN or IBUF, so every
unwritten byte a phase meets was an unwritten byte of the input range when the command began. -/

namespace Sys2Proof.Machine

/-! ## The three kinds of step (R57, R75) -/

/-- It is the engine's turn: a command runs, and no host event is left to come before its end (log 2). -/
def State.engineTurn (s : State) : Prop := s.status.busy = true ∧ (s.inbox = [] ∨ s.engineWait = 0)

theorem step_engineTurn {s : State} (h : s.engineTurn) : step s = engineStep s := by
  obtain ⟨hbusy, hwait⟩ := h
  unfold step
  split
  · exact if_pos hbusy
  · rename_i e rest hi
    exact if_pos ⟨hbusy, hwait.resolve_left (by simp [hi])⟩

theorem step_hostTurn {s : State} {e : HostEvent} {rest : List HostEvent} (hi : s.inbox = e :: rest)
    (h : s.status.busy = false ∨ s.engineWait ≠ 0) : step s = hostStep e (takeEvent s rest) := by
  have hturn : ¬ (s.status.busy = true ∧ s.engineWait = 0) := by
    rintro ⟨hbusy, hwait⟩
    rcases h with hidle | hne
    · simp [hbusy] at hidle
    · exact hne hwait
  simp only [step, hi, if_neg hturn]

theorem step_idle {s : State} (hidle : s.status.busy = false) (hi : s.inbox = []) : step s = .next s := by
  simp [step, hi, hidle]

theorem step_cases (s : State) :
    (s.engineTurn ∧ step s = engineStep s) ∨
    (∃ e rest, s.inbox = e :: rest ∧ step s = hostStep e (takeEvent s rest)) ∨ step s = .next s := by
  by_cases h : s.engineTurn
  · exact .inl ⟨h, step_engineTurn h⟩
  · refine .inr ?_
    cases hi : s.inbox with
    | nil =>
      have hidle : s.status.busy = false := by simpa [State.engineTurn, hi] using h
      exact .inr (step_idle hidle hi)
    | cons e rest =>
      refine .inl ⟨e, rest, rfl, step_hostTurn hi ?_⟩
      simpa [State.engineTurn, hi, imp_iff_not_or] using h

theorem engineStep_legal {s : State} {i : Instr} (h : decode s.cmd = .ok i) : engineStep s = exec i s := by
  simp only [engineStep, h]

theorem engineStep_illegal {s : State} {e : DecodeReject} (h : decode s.cmd = .error e) :
    engineStep s = .next (s.raiseError .illegalCmd ((opcOf s.cmd).setWidth 32)) := by
  simp only [engineStep, h, finish_error]

/-- Settles O5: by the three kinds of step. -/
theorem stepRunsTheDecodedCommand : Obligations.StepRunsTheDecodedCommand := by
  intro s
  refine ⟨fun i hbusy hwait hi => ?_, fun e rest hi h => ?_, step_idle⟩
  · rw [step_engineTurn ⟨hbusy, hwait⟩, engineStep_legal hi]
  · exact step_hostTurn hi h

/-! ## Where a host event stops (R51) -/

theorem hostRead_busError {s : State} {w : AccessWidth} {off : Word} (h : target s w off = none) :
    hostStep (.read w off) s = .fault (.busError off) := by
  simp only [hostStep, hostRead, h]

theorem hostWrite_busError {s : State} {w : AccessWidth} {off : Word} (v : Word) (h : target s w off = none) :
    hostStep (.write w off v) s = .fault (.busError off) := by
  simp only [hostStep, hostWrite, h]

theorem target_takeEvent (s : State) (rest : List HostEvent) (w : AccessWidth) (off : Word) :
    target (takeEvent s rest) w off = target s w off := rfl

/-- A read that lands on a target answers a next state, whatever BUSY hides. -/
theorem hostRead_target {s : State} {w : AccessWidth} {off : Word} {x : Target} (h : target s w off = some x) :
    ∃ t, hostStep (.read w off) s = .next t := by
  cases hv : visible s x with
  | true => exact ⟨_, hostRead_visible h hv⟩
  | false =>
    refine ⟨{ s with resp := some (w.truncate (Config.freeBusyRead s.draws)), draws := s.draws + 1 }, ?_⟩
    simp [hostStep, hostRead, h, hv]

/-- A host event answers a next state, unless it is an access that lands nowhere: then it is a bus error. -/
theorem hostStep_cases (e : HostEvent) (s : State) :
    (∃ t, hostStep e s = .next t) ∨
    ∃ w off, target s w off = none ∧ (e = .read w off ∨ ∃ v, e = .write w off v) ∧
      hostStep e s = .fault (.busError off) := by
  cases e with
  | hwReset => exact .inl ⟨_, rfl⟩
  | read w off =>
    cases hx : target s w off with
    | none => exact .inr ⟨w, off, hx, .inl rfl, hostRead_busError hx⟩
    | some x => exact .inl (hostRead_target hx)
  | write w off v =>
    cases hx : target s w off with
    | none => exact .inr ⟨w, off, hx, .inr ⟨v, rfl⟩, hostWrite_busError v hx⟩
    | some x => exact .inl ⟨_, hostWrite_target v hx⟩

/-! ## Where a command stops (R56) -/

/-- The fault of reading an input byte that no host write has set. -/
def Fault.atUnwrittenInput (s : State) (f : Fault) : Prop :=
  ∃ a, f = .ibufUnwritten a ∧ s.ibuf.read a = none ∧
    s.cfg.inBase.toNat ≤ a ∧ a < s.cfg.inBase.toNat + s.cfg.inLen.toNat

/-- The input range and its bytes are the same. -/
def sameInput (s t : State) : Prop := t.cfg = s.cfg ∧ t.ibuf = s.ibuf

/-- A body that keeps the input of `s`, and faults only at an unwritten byte of it. -/
def CmdResult.ReadsInput (s : State) : CmdResult → Prop
  | .ok t => sameInput s t
  | .error _ _ _ => True
  | .fault f => f.atUnwrittenInput s

section
variable {s t : State}

theorem readsInput_andThen {r : CmdResult} {f : State → CmdResult} (hr : r.ReadsInput s)
    (hf : ∀ t, sameInput s t → (f t).ReadsInput s) : (r.andThen f).ReadsInput s := by
  cases r with
  | ok t => exact hf t hr
  | error t c i => trivial
  | fault x => exact hr

theorem readsInput_check {b : Bool} {c : ErrCode} {i : Word} {f : State → CmdResult} (h : (f t).ReadsInput s) :
    ((require b c i t).andThen f).ReadsInput s := by
  cases b with
  | true => exact h
  | false => trivial

theorem readsInput_appendBits (info : Word) (l : List Bool) (h : sameInput s t) :
    (appendBits info l t).ReadsInput s := by
  cases hr : t.roomFor l.length with
  | true => rw [appendBits_ok hr]; exact ⟨(appended_cfg t l).trans h.1, (appended_ibuf t l).trans h.2⟩
  | false => rw [appendBits_full hr]; trivial

/-- The pass reads the bytes at IN_BASE + i for i < IN_LEN (R32). -/
theorem readsInput_streamFrom {body : Nat → Byte → State → CmdResult}
    (hbody : ∀ i b u, sameInput s u → (body i b u).ReadsInput s) :
    ∀ n i t, i + n ≤ s.cfg.inLen.toNat → sameInput s t → (streamFrom body n i t).ReadsInput s := by
  intro n
  induction n with
  | zero => intro i t _ h; exact h
  | succ n ih =>
    intro i t hle h
    cases hread : t.ibuf.read (t.cfg.inBase.toNat + i) with
    | none =>
      rw [streamFrom, hread]
      obtain ⟨hcfg, hibuf⟩ := h
      rw [hcfg, hibuf] at hread
      exact ⟨_, by rw [hcfg], hread, by omega, by omega⟩
    | some b =>
      rw [streamFrom_known hread]
      exact readsInput_andThen (hbody i b t h) fun u hu => ih (i + 1) _ (by omega) hu

theorem readsInput_stream {body : Nat → Byte → State → CmdResult}
    (hbody : ∀ i b u, sameInput s u → (body i b u).ReadsInput s) (h : sameInput s t) :
    (stream body t).ReadsInput s :=
  readsInput_streamFrom hbody _ 0 _ (by rw [h.1]; omega) h

/-! ### The bodies -/

theorem resultBody_readsInput (h : sameInput s t) : (resultBody t).ReadsInput s := readsInput_check h

theorem freqBody_readsInput (h : sameInput s t) : (freqBody t).ReadsInput s :=
  readsInput_check <| readsInput_andThen (readsInput_stream (fun _ _ _ hu => hu) h) fun _ hu => hu

theorem hufInitBody_readsInput (h : sameInput s t) : (hufInitBody t).ReadsInput s := readsInput_check h

/-- The tree commands, by the frame of what they do to the tree. -/
theorem sameInput_of_hufOnly {u : State} (h : sameInput s t) (hu : hufOnly t u) : sameInput s u := by
  rw [hu]; exact h

theorem hufMergeBody_readsInput (h : sameInput s t) : (hufMergeBody t).ReadsInput s :=
  readsInput_check (sameInput_of_hufOnly h (mergeStep_only t))

theorem hufBuildBody_readsInput (h : sameInput s t) : (hufBuildBody t).ReadsInput s :=
  readsInput_check (sameInput_of_hufOnly h (hufOnly_trans (mergeStep_only t) (mergeUntilOne_only _ _)))

theorem hufCodesBody_readsInput (h : sameInput s t) : (hufCodesBody t).ReadsInput s := readsInput_check h

theorem hufCanonBody_readsInput (h : sameInput s t) : (hufCanonBody t).ReadsInput s := readsInput_check h

theorem emitByte_readsInput (i : Nat) (b : Byte) (h : sameInput s t) : (emitByte i b t).ReadsInput s := by
  unfold emitByte
  split
  · trivial
  · exact readsInput_appendBits _ _ h

theorem hufEmitBody_readsInput (h : sameInput s t) : (hufEmitBody t).ReadsInput s :=
  readsInput_check <| readsInput_check <| readsInput_check <|
    readsInput_stream (fun i b _ hu => emitByte_readsInput i b hu) h

theorem ariTableBody_readsInput (h : sameInput s t) : (ariTableBody t).ReadsInput s := readsInput_check h

theorem ariStepAt_readsInput (pos : Nat) (b : Byte) (h : sameInput s t) : (ariStepAt pos b t).ReadsInput s := by
  unfold ariStepAt
  split
  · trivial
  · split
    · trivial
    · exact h

theorem ariStepBody_readsInput (b : Byte) (h : sameInput s t) : (ariStepBody b t).ReadsInput s :=
  readsInput_check (ariStepAt_readsInput 0 b h)

theorem ariNarrowBody_readsInput (h : sameInput s t) : (ariNarrowBody t).ReadsInput s :=
  readsInput_check <| readsInput_check <| readsInput_stream (fun i b _ hu => ariStepAt_readsInput i b hu) h

theorem ariFinalBody_readsInput (h : sameInput s t) : (ariFinalBody t).ReadsInput s :=
  readsInput_check <| readsInput_check <| readsInput_andThen (readsInput_appendBits _ _ h) fun _ hu => hu

theorem lzwStepAt_readsInput (pos : Nat) (b : Byte) (h : sameInput s t) : (lzwStepAt pos b t).ReadsInput s := by
  unfold lzwStepAt
  split
  · exact h
  · split
    · exact h
    · split
      · trivial
      · exact readsInput_andThen (readsInput_appendBits _ _ h) fun _ hu => hu

theorem lzwStepBody_readsInput (b : Byte) (h : sameInput s t) : (lzwStepBody b t).ReadsInput s :=
  readsInput_check <| readsInput_check <| lzwStepAt_readsInput 0 b h

theorem lzwRunBody_readsInput (h : sameInput s t) : (lzwRunBody t).ReadsInput s :=
  readsInput_check <| readsInput_check <| readsInput_check <|
    readsInput_stream (fun i b _ hu => lzwStepAt_readsInput i b hu) h

theorem lzwFlushBody_readsInput (h : sameInput s t) : (lzwFlushBody t).ReadsInput s := by
  refine readsInput_check <| readsInput_check ?_
  split
  · exact h
  · exact readsInput_andThen (readsInput_appendBits _ _ h) fun _ hu => hu

theorem bpPutBody_readsInput (n : Byte) (bits : BitVec 16) (h : sameInput s t) : (bpPutBody n bits t).ReadsInput s :=
  readsInput_check (readsInput_appendBits _ _ h)

theorem bpPadBody_readsInput (h : sameInput s t) : (bpPadBody t).ReadsInput s :=
  readsInput_check <| readsInput_andThen (readsInput_appendBits _ _ h) fun _ hu => hu

/-! ### The fused commands, phase by phase (R98, R106, R114) -/

theorem hufEncodeBody_readsInput (canon : Bool) (h : sameInput s t) : (hufEncodeBody canon t).ReadsInput s := by
  refine readsInput_check <| readsInput_check <|
    readsInput_andThen (freqBody_readsInput (t := clearStream t) h) fun _ h =>
    readsInput_andThen (hufInitBody_readsInput h) fun _ h =>
    readsInput_andThen (hufBuildBody_readsInput h) fun _ h =>
    readsInput_andThen (hufCodesBody_readsInput h) fun _ h =>
    readsInput_andThen (?_ : CmdResult.ReadsInput s _) fun _ h =>
    readsInput_andThen (hufEmitBody_readsInput h) fun _ h =>
    readsInput_andThen (bpPadBody_readsInput h) fun _ h => resultBody_readsInput h
  split
  · exact hufCanonBody_readsInput h
  · exact h

theorem ariEncodeBody_readsInput (h : sameInput s t) : (ariEncodeBody t).ReadsInput s :=
  readsInput_check <| readsInput_check <|
    readsInput_andThen (freqBody_readsInput (t := clearStream t) h) fun _ h =>
    readsInput_andThen (ariTableBody_readsInput h) fun t h =>
    readsInput_andThen (ariNarrowBody_readsInput (t := openInterval t) h) fun _ h =>
    readsInput_andThen (ariFinalBody_readsInput h) fun _ h =>
    readsInput_andThen (bpPadBody_readsInput h) fun _ h => resultBody_readsInput h

theorem lzwEncodeBody_readsInput (h : sameInput s t) : (lzwEncodeBody t).ReadsInput s :=
  readsInput_check <| readsInput_check <|
    readsInput_andThen (lzwRunBody_readsInput (t := seedDict (clearStream t)) h) fun _ h =>
    readsInput_andThen (lzwFlushBody_readsInput h) fun _ h =>
    readsInput_andThen (bpPadBody_readsInput h) fun _ h => resultBody_readsInput h

end

/-- Every command's body faults only at an unwritten byte of its input range. -/
theorem bodyOf_readsInput (i : Instr) (s : State) : (bodyOf i s).ReadsInput s := by
  have h : sameInput s s := ⟨rfl, rfl⟩
  cases i with
  | nop | sreset | ariInit | lzwInit | bpClear => exact h
  | result => exact resultBody_readsInput h
  | freq => exact freqBody_readsInput h
  | hufInit => exact hufInitBody_readsInput h
  | hufMerge => exact hufMergeBody_readsInput h
  | hufBuild => exact hufBuildBody_readsInput h
  | hufCodes => exact hufCodesBody_readsInput h
  | hufCanon => exact hufCanonBody_readsInput h
  | hufEmit => exact hufEmitBody_readsInput h
  | hufEncode canon => exact hufEncodeBody_readsInput canon h
  | ariTable => exact ariTableBody_readsInput h
  | ariStep sym => exact ariStepBody_readsInput sym h
  | ariNarrow => exact ariNarrowBody_readsInput h
  | ariFinal => exact ariFinalBody_readsInput h
  | ariEncode => exact ariEncodeBody_readsInput h
  | lzwStep sym => exact lzwStepBody_readsInput sym h
  | lzwRun => exact lzwRunBody_readsInput h
  | lzwFlush => exact lzwFlushBody_readsInput h
  | lzwEncode => exact lzwEncodeBody_readsInput h
  | bpPut n bits => exact bpPutBody_readsInput n bits h
  | bpPad => exact bpPadBody_readsInput h

theorem exec_cases (i : Instr) (s : State) :
    (∃ t, exec i s = .next t) ∨ ∃ f, f.atUnwrittenInput s ∧ exec i s = .fault f := by
  have h := bodyOf_readsInput i s
  rw [exec_eq]
  cases hr : bodyOf i s with
  | ok t => exact .inl ⟨_, rfl⟩
  | error t c k => exact .inl ⟨_, rfl⟩
  | fault f => exact .inr ⟨f, by rwa [hr] at h, rfl⟩

theorem engineStep_cases (s : State) :
    (∃ t, engineStep s = .next t) ∨ ∃ f, f.atUnwrittenInput s ∧ engineStep s = .fault f := by
  cases hd : decode s.cmd with
  | ok i => rw [engineStep_legal hd]; exact exec_cases i s
  | error e => exact .inl ⟨_, engineStep_illegal hd⟩

/-- Settles O7: a step is the engine's, which stops only at an unwritten input byte, the host's, which stops only at a
bus error, or none. -/
theorem stepStopsOnlyWhereTheSpecSays : Obligations.StepStopsOnlyWhereTheSpecSays := by
  intro s
  rcases step_cases s with ⟨⟨hbusy, -⟩, hs⟩ | ⟨e, rest, hi, hs⟩ | hs
  · rcases engineStep_cases s with ⟨t, ht⟩ | ⟨f, ⟨a, rfl, hread, hlo, hhi⟩, hf⟩
    · simp [hs, ht]
    · rw [hs, hf]
      refine ⟨nofun, ?_⟩
      rintro _ ⟨⟩
      exact .inr ⟨a, rfl, hbusy, hread, hlo, hhi⟩
  · rcases hostStep_cases e (takeEvent s rest) with ⟨t, ht⟩ | ⟨w, off, hx, he, hf⟩
    · simp [hs, ht]
    · rw [hs, hf]
      refine ⟨nofun, ?_⟩
      rintro _ ⟨⟩
      exact .inl ⟨off, e, rest, rfl, hi, w, target_takeEvent s rest w off ▸ hx, he⟩
  · simp [hs]

end Sys2Proof.Machine
end

section
/-! SUPPORT. Bus errors and the repeatability of reads (O11, O12; 20_memory.md R50, R51, R53, R54). -/

namespace Sys2Proof.Machine

/-! ## Where no access lands (R51) -/

theorem target_misaligned {s : State} {w : AccessWidth} {off : Word} (h : off.toNat % w.bytes ≠ 0) :
    target s w off = none := if_pos h

/-- Outside the buffers only a whole word lands, and only below the last register's end or in a table window. -/
theorem target_outside {s : State} {w : AccessWidth} {off : Word}
    (hibuf : ¬ (0x1000000 ≤ off.toNat ∧ off.toNat < 0x1000000 + s.ibufSize))
    (hobuf : ¬ (0x2000000 ≤ off.toNat ∧ off.toNat < 0x2000000 + s.obufSize))
    (h : w ≠ .w32 ∨ (0x090 ≤ off.toNat ∧ ¬ inTableWindow off.toNat)) : target s w off = none := by
  simp only [target, if_neg hibuf, if_neg hobuf]
  split
  · rfl
  · split
    · obtain ⟨hlo, hwindow⟩ := h.resolve_left (not_not_intro ‹_›)
      split
      · rw [List.getElem?_eq_none (show regsInOrder.length ≤ off.toNat / 4 by simp [regsInOrder]; omega)]
        rfl
      · rw [Option.eq_none_iff_forall_ne_some.2 fun v hv => hwindow (inTableWindow_of_windowWord hv)]
        rfl
    · rfl

/-- Settles O12: no such access lands anywhere, by the address map and the sizes of the buffers. -/
theorem illegalAccessIsABusError : Obligations.IllegalAccessIsABusError := by
  intro s w off v hv h
  have hnone : target s w off = none := by
    rcases h with hmis | h
    · exact target_misaligned hmis
    · have hi := ibufSize_le hv
      have ho := obufSize_le hv
      refine target_outside (by omega) (by omega) ?_
      rcases h with ⟨-, hnarrow⟩ | h
      · exact .inl hnarrow
      · exact .inr ⟨by omega, by unfold inTableWindow; omega⟩
  exact ⟨hostRead_busError hnone, hostWrite_busError v hnone⟩

/-! ## Reads (R54) -/

theorem visible_idle {s : State} (h : s.status.busy = false) (x : Target) : visible s x = true := by
  cases x <;> simp [visible, h]

/-- The answer on the bus is part of no target. -/
theorem hostRead_resp {s : State} {w : AccessWidth} {off : Word} {x : Target} (hidle : s.status.busy = false)
    (hx : target s w off = some x) (r : Option Word) :
    hostStep (.read w off) { s with resp := r } = .next { s with resp := some (targetValue s w x) } :=
  hostRead_visible (s := { s with resp := r }) hx (visible_idle hidle x)

/-- Settles O11: a read changes the answer and the draws alone, and while idle it draws nothing. -/
theorem readsHaveNoSideEffects : Obligations.ReadsHaveNoSideEffects := by
  intro s t w off h
  refine ⟨?_, fun hidle => ?_⟩
  · rcases hostStep_next h with ⟨he, -⟩ | ⟨_, _, -, ht⟩ | ⟨_, _, _, _, he, -⟩
    · cases he
    · exact ht
    · cases he
  · cases hx : target s w off with
    | none => rw [hostRead_busError hx] at h; cases h
    | some x =>
      have hread := hostRead_resp hidle hx
      rw [hread s.resp] at h
      cases h
      exact hread _

end Sys2Proof.Machine
end

section
/-! SUPPORT. What every command leaves alone in OBUF (O23; 20_memory.md R49, 45_bitpacker.md R116). Append stores only the
window bytes from OUT_LEN before it to OUT_LEN after it, and OUT_LEN grows until a command starts the stream anew; the fused
commands do so before their first Append, so what they store lies between offset 0 and OUT_LEN. -/

namespace Sys2Proof.Machine

/-- On the way from `s`, OBUF has changed only in the window bytes from offset `first` to OUT_LEN. -/
structure StoredFrom (first : Nat) (s t : State) : Prop where
  cfg : t.cfg = s.cfg
  le : first ≤ t.bp.outLen.toNat
  frame : ∀ a, (a < s.cfg.outBase.toNat + first ∨ s.cfg.outBase.toNat + t.bp.outLen.toNat ≤ a) →
    t.obuf.read a = s.obuf.read a

/-- Neither the configuration, the stream nor OBUF has changed. -/
structure SameWindow (s t : State) : Prop where
  cfg : t.cfg = s.cfg
  outLen : t.bp.outLen = s.bp.outLen
  obuf : t.obuf = s.obuf

section
variable {first : Nat} {s t u : State}

theorem storedFrom_refl (h : first ≤ s.bp.outLen.toNat) : StoredFrom first s s := ⟨rfl, h, fun _ _ => rfl⟩

theorem storedFrom_of_sameWindow (h : StoredFrom first s t) (hu : SameWindow t u) : StoredFrom first s u where
  cfg := hu.cfg.trans h.cfg
  le := hu.outLen ▸ h.le
  frame a ha := by rw [hu.obuf]; exact h.frame a (hu.outLen ▸ ha)

/-- An empty stream, before anything is stored. -/
theorem storedFrom_clearStream (s : State) : StoredFrom 0 s (clearStream s) := ⟨rfl, Nat.zero_le _, fun _ _ => rfl⟩

/-! ## Append (R116) -/

theorem storedFrom_appended {l : List Bool} (h : StoredFrom first s t) (hr : t.roomFor l.length = true) :
    StoredFrom first s (t.appended l) := by
  obtain ⟨hout, -⟩ := appended_counts hr
  have hle := h.le
  refine ⟨(appended_cfg t l).trans h.cfg, by omega, fun a ha => ?_⟩
  rw [appended_obuf_frame hr (by rw [h.cfg]; omega)]
  exact h.frame a (by omega)

theorem storedFrom_appendBits (info : Word) (l : List Bool) (h : StoredFrom first s t) :
    (appendBits info l t).Ends (StoredFrom first s) :=
  ends_appendBits h fun hr => storedFrom_appended h hr

theorem storedFrom_stream {body : Nat → Byte → State → CmdResult}
    (hbody : ∀ i b u, StoredFrom first s u → (body i b u).Ends (StoredFrom first s)) (h : StoredFrom first s t) :
    (stream body t).Ends (StoredFrom first s) :=
  ends_stream (fun _ _ hu => storedFrom_of_sameWindow hu ⟨rfl, rfl, rfl⟩) hbody h

/-! ## The bodies -/

/-- The commands that write neither the stream nor OBUF, by their frame. -/
theorem bodyOf_storedFrom_of_frame {i : Instr} (h : StoredFrom first s t) (hstream : Part.stream ∉ partsOf i)
    (hobuf : Part.obuf ∉ partsOf i) : (bodyOf i t).Ends (StoredFrom first s) :=
  ends_imp (bodyOf_keeps i t) fun _ hk =>
    have ⟨_, _, _, hcfg, _⟩ := hk.host
    have ⟨houtLen, _⟩ := Prod.mk.inj (hk.part _ hstream)
    storedFrom_of_sameWindow h ⟨hcfg, houtLen, hk.part _ hobuf⟩

theorem emitByte_storedFrom (i : Nat) (b : Byte) (h : StoredFrom first s t) :
    (emitByte i b t).Ends (StoredFrom first s) := by
  unfold emitByte
  split
  · exact h
  · exact storedFrom_appendBits _ _ h

theorem hufEmitBody_storedFrom (h : StoredFrom first s t) : (hufEmitBody t).Ends (StoredFrom first s) :=
  ends_check h fun _ => ends_check h fun _ => ends_check h fun _ =>
    storedFrom_stream (fun i b _ hu => emitByte_storedFrom i b hu) h

theorem ariFinalBody_storedFrom (h : StoredFrom first s t) : (ariFinalBody t).Ends (StoredFrom first s) :=
  ends_check h fun _ => ends_check h fun _ => ends_andThen (storedFrom_appendBits _ _ h) fun _ _ hu =>
    storedFrom_of_sameWindow hu ⟨rfl, rfl, rfl⟩

theorem lzwStepAt_storedFrom (pos : Nat) (b : Byte) (h : StoredFrom first s t) :
    (lzwStepAt pos b t).Ends (StoredFrom first s) := by
  have moveTo : ∀ c, StoredFrom first s (setCur t c) := fun _ => storedFrom_of_sameWindow h ⟨rfl, rfl, rfl⟩
  unfold lzwStepAt
  split
  · exact moveTo _
  · split
    · exact moveTo _
    · split
      · exact h
      · exact ends_andThen (storedFrom_appendBits _ _ h) fun _ _ hu => storedFrom_of_sameWindow hu ⟨rfl, rfl, rfl⟩

theorem lzwStepBody_storedFrom (b : Byte) (h : StoredFrom first s t) :
    (lzwStepBody b t).Ends (StoredFrom first s) :=
  ends_check h fun _ => ends_check h fun _ => lzwStepAt_storedFrom 0 b h

theorem lzwRunBody_storedFrom (h : StoredFrom first s t) : (lzwRunBody t).Ends (StoredFrom first s) :=
  ends_check h fun _ => ends_check h fun _ => ends_check h fun _ =>
    storedFrom_stream (fun i b _ hu => lzwStepAt_storedFrom i b hu) h

theorem lzwFlushBody_storedFrom (h : StoredFrom first s t) : (lzwFlushBody t).Ends (StoredFrom first s) := by
  refine ends_check h fun _ => ends_check h fun _ => ?_
  split
  · exact h
  · exact ends_andThen (storedFrom_appendBits _ _ h) fun _ _ hu => storedFrom_of_sameWindow hu ⟨rfl, rfl, rfl⟩

theorem bpPutBody_storedFrom (n : Byte) (bits : BitVec 16) (h : StoredFrom first s t) :
    (bpPutBody n bits t).Ends (StoredFrom first s) :=
  ends_check h fun _ => storedFrom_appendBits _ _ h

theorem bpPadBody_storedFrom (h : StoredFrom first s t) : (bpPadBody t).Ends (StoredFrom first s) :=
  ends_check h fun _ => ends_andThen (storedFrom_appendBits _ _ h) fun _ _ hu =>
    storedFrom_of_sameWindow hu ⟨rfl, rfl, rfl⟩

end

/-! ## The fused commands, phase by phase (R98, R106, R114) -/

section
variable (s : State)

theorem hufEncodeBody_storedFrom (canon : Bool) : (hufEncodeBody canon s).Ends (StoredFrom 0 s) := by
  have h0 := storedFrom_refl s.bp.outLen.toNat.zero_le
  refine ends_check h0 fun _ => ends_check h0 fun _ =>
    ends_andThen (bodyOf_storedFrom_of_frame (i := .freq) (storedFrom_clearStream s) (by decide) (by decide)) fun _ _ h =>
    ends_andThen (bodyOf_storedFrom_of_frame (i := .hufInit) h (by decide) (by decide)) fun _ _ h =>
    ends_andThen (bodyOf_storedFrom_of_frame (i := .hufBuild) h (by decide) (by decide)) fun _ _ h =>
    ends_andThen (bodyOf_storedFrom_of_frame (i := .hufCodes) h (by decide) (by decide)) fun _ _ h =>
    ends_andThen (?_ : CmdResult.Ends (StoredFrom 0 s) _) fun _ _ h =>
    ends_andThen (hufEmitBody_storedFrom h) fun _ _ h =>
    ends_andThen (bpPadBody_storedFrom h) fun _ _ h =>
    bodyOf_storedFrom_of_frame (i := .result) h (by decide) (by decide)
  split
  · exact bodyOf_storedFrom_of_frame (i := .hufCanon) h (by decide) (by decide)
  · exact h

theorem ariEncodeBody_storedFrom : (ariEncodeBody s).Ends (StoredFrom 0 s) := by
  have h0 := storedFrom_refl s.bp.outLen.toNat.zero_le
  exact ends_check h0 fun _ => ends_check h0 fun _ =>
    ends_andThen (bodyOf_storedFrom_of_frame (i := .freq) (storedFrom_clearStream s) (by decide) (by decide)) fun _ _ h =>
    ends_andThen (bodyOf_storedFrom_of_frame (i := .ariTable) h (by decide) (by decide)) fun t _ h =>
    ends_andThen (bodyOf_storedFrom_of_frame (i := .ariNarrow) (t := openInterval t)
      (storedFrom_of_sameWindow h ⟨rfl, rfl, rfl⟩) (by decide) (by decide)) fun _ _ h =>
    ends_andThen (ariFinalBody_storedFrom h) fun _ _ h =>
    ends_andThen (bpPadBody_storedFrom h) fun _ _ h =>
    bodyOf_storedFrom_of_frame (i := .result) h (by decide) (by decide)

theorem lzwEncodeBody_storedFrom : (lzwEncodeBody s).Ends (StoredFrom 0 s) := by
  have h0 := storedFrom_refl s.bp.outLen.toNat.zero_le
  have hseed : StoredFrom 0 s (seedDict (clearStream s)) :=
    storedFrom_of_sameWindow (storedFrom_clearStream s) ⟨rfl, rfl, rfl⟩
  exact ends_check h0 fun _ => ends_check h0 fun _ =>
    ends_andThen (lzwRunBody_storedFrom hseed) fun _ _ h =>
    ends_andThen (lzwFlushBody_storedFrom h) fun _ _ h =>
    ends_andThen (bpPadBody_storedFrom h) fun _ _ h =>
    bodyOf_storedFrom_of_frame (i := .result) h (by decide) (by decide)

end

/-! ## Every command -/

/-- The commands that may store a byte. -/
theorem bodyOf_storedFrom {i : Instr} (s : State) (hi : Part.obuf ∈ partsOf i) :
    (bodyOf i s).Ends (StoredFrom (firstStored i s) s) := by
  have h := storedFrom_refl (le_refl s.bp.outLen.toNat)
  cases i
  case hufEmit => exact hufEmitBody_storedFrom h
  case hufEncode canon => exact hufEncodeBody_storedFrom s canon
  case ariFinal => exact ariFinalBody_storedFrom h
  case ariEncode => exact ariEncodeBody_storedFrom s
  case lzwStep sym => exact lzwStepBody_storedFrom sym h
  case lzwRun => exact lzwRunBody_storedFrom h
  case lzwFlush => exact lzwFlushBody_storedFrom h
  case lzwEncode => exact lzwEncodeBody_storedFrom s
  case bpPut n bits => exact bpPutBody_storedFrom n bits h
  case bpPad => exact bpPadBody_storedFrom h
  all_goals exact absurd hi (by simp [partsOf])

/-- Settles O23: a command stores only from its first stored byte to OUT_LEN, or nothing. -/
theorem obufFrameOfEveryCommand : Obligations.ObufFrameOfEveryCommand := by
  intro i s t a h ha
  by_cases hi : Part.obuf ∈ partsOf i
  · rw [exec_eq] at h
    have hstored : StoredFrom (firstStored i s) s t :=
      ends_finish (bodyOf_storedFrom s hi) h (fun _ hu => storedFrom_of_sameWindow hu ⟨rfl, rfl, rfl⟩)
        fun _ _ _ hu => storedFrom_of_sameWindow hu ⟨rfl, rfl, rfl⟩
    exact hstored.frame a ha
  · rw [show t.obuf = s.obuf from (exec_keeps h).part .obuf hi]

end Sys2Proof.Machine
end

section
/-! SUPPORT. The encoding (O1, O2, O3, O4, O6; 30_encoding.md R64-R71). The decoder inverts the encoder in both
directions, so a legal word and a well-formed instruction are the same thing written twice. A row of R66 and an arm of
the decoder ask a word for the same format, and in each format the word is the encoding of the instruction of its
fields. -/

namespace Sys2Proof

/-! ## From an instruction to its word and back (R64, R65) -/

theorem lowCanon_reserved (canon : Bool) : ((BitVec.ofBool canon).setWidth 16).extractLsb' 1 15 = 0 := by
  cases canon <;> rfl

/-- The low field of format F is its CANON bit, when the bits above it are zero. -/
theorem lowCanon_of_reserved {low : BitVec 16} (h : low.extractLsb' 1 15 = 0) :
    (BitVec.ofBool (low.getLsbD 0)).setWidth 16 = low := by
  apply BitVec.eq_of_getLsbD_eq
  intro k hk
  rw [BitVec.getLsbD_setWidth, BitVec.getLsbD_ofBool]
  cases k with
  | zero => simp
  | succ k =>
    have hbit : low.getLsbD (k + 1) = false := by
      simpa [show k < 15 by omega, Nat.add_comm 1 k] using congrArg (BitVec.getLsbD · k) h
    simp [hbit]

/-- A command with operands decodes by its fields; the word of any other command is one number. -/
theorem decode_encode {i : Instr} (h : i.wellFormed = true) : decode (encode i) = .ok i := by
  cases i with
  | hufEncode canon => simp [decode, encode, decodeF, lowCanon_reserved]
  | ariStep sym => simp [decode, encode, decodeS]
  | lzwStep sym => simp [decode, encode, decodeS]
  | bpPut n bits =>
    have hn : n.toNat ≤ 16 := by simpa [Instr.wellFormed] using h
    simp [decode, encode, decodeP, hn]
  | _ => rfl

/-- Settles O1: the fields of an instruction's word are its operands. -/
theorem decodeOfEncodeIsTheInstruction : Obligations.DecodeOfEncodeIsTheInstruction := fun _ => decode_encode

/-! ## A word of a format is the encoding of the instruction of its fields -/

/-- The word is the encoding of this well-formed instruction. -/
def Instr.HasWord (i : Instr) (w : Word) : Prop := i.wellFormed = true ∧ encode i = w

section
variable {w : Word} {o : Byte}

theorem hasWord_formatN {i : Instr} (hi : i.HasWord (packWord o 0 0)) (h : opcOf w = o ∧ midOf w = 0 ∧ lowOf w = 0) :
    i.HasWord w := by
  obtain ⟨ho, hmid, hlow⟩ := h
  rwa [← packWord_fields w, ho, hmid, hlow]

theorem hasWord_formatS {f : Byte → Instr} (hf : ∀ sym, (f sym).HasWord (packWord o sym 0))
    (h : opcOf w = o ∧ lowOf w = 0) : (f (midOf w)).HasWord w := by
  obtain ⟨ho, hlow⟩ := h
  have hw := packWord_fields w
  rw [ho, hlow] at hw
  simpa only [hw] using hf (midOf w)

theorem hasWord_formatF {f : Bool → Instr}
    (hf : ∀ canon, (f canon).HasWord (packWord o 0 ((BitVec.ofBool canon).setWidth 16)))
    (h : opcOf w = o ∧ midOf w = 0 ∧ (lowOf w).extractLsb' 1 15 = 0) : (f ((lowOf w).getLsbD 0)).HasWord w := by
  obtain ⟨ho, hmid, hreserved⟩ := h
  have hw := packWord_fields w
  rw [ho, hmid, ← lowCanon_of_reserved hreserved] at hw
  simpa only [hw] using hf ((lowOf w).getLsbD 0)

theorem hasWord_formatP {f : Byte → BitVec 16 → Instr}
    (hf : ∀ n bits, n.toNat ≤ 16 → (f n bits).HasWord (packWord o n bits))
    (h : opcOf w = o ∧ (midOf w).toNat ≤ 16) : (f (midOf w) (lowOf w)).HasWord w := by
  obtain ⟨ho, hcount⟩ := h
  have hw := packWord_fields w
  rw [ho] at hw
  simpa only [hw] using hf (midOf w) (lowOf w) hcount

end

theorem hasWord_hufEncode (canon : Bool) :
    (Instr.hufEncode canon).HasWord (packWord 0x2F 0 ((BitVec.ofBool canon).setWidth 16)) := ⟨rfl, rfl⟩
theorem hasWord_ariStep (sym : Byte) : (Instr.ariStep sym).HasWord (packWord 0x32 sym 0) := ⟨rfl, rfl⟩
theorem hasWord_lzwStep (sym : Byte) : (Instr.lzwStep sym).HasWord (packWord 0x41 sym 0) := ⟨rfl, rfl⟩
theorem hasWord_bpPut (n : Byte) (bits : BitVec 16) (hn : n.toNat ≤ 16) :
    (Instr.bpPut n bits).HasWord (packWord 0x51 n bits) := ⟨decide_eq_true hn, rfl⟩

/-! ## From a legal word to its instruction and back (R67, R68) -/

section
variable {w : Word} {i : Instr}

theorem ite_ok_eq_ok {p : Prop} [Decidable p] {j : Instr} {e : DecodeReject} :
    (if p then .ok j else .error e : Except DecodeReject Instr) = .ok i ↔ p ∧ j = i := by
  split <;> simp [*]

theorem decodeN_eq_ok {j : Instr} : decodeN j w = .ok i ↔ (midOf w = 0 ∧ lowOf w = 0) ∧ j = i :=
  ite_ok_eq_ok

theorem decodeS_eq_ok {f : Byte → Instr} : decodeS f w = .ok i ↔ lowOf w = 0 ∧ f (midOf w) = i :=
  ite_ok_eq_ok

theorem decodeF_eq_ok {f : Bool → Instr} :
    decodeF f w = .ok i ↔ (midOf w = 0 ∧ (lowOf w).extractLsb' 1 15 = 0) ∧ f ((lowOf w).getLsbD 0) = i :=
  ite_ok_eq_ok

theorem decodeP_eq_ok {f : Byte → BitVec 16 → Instr} :
    decodeP f w = .ok i ↔ (midOf w).toNat ≤ 16 ∧ f (midOf w) (lowOf w) = i :=
  ite_ok_eq_ok

/-- Arm by arm of the decoder: the opcode and the format's test give the instruction. -/
theorem hasWord_of_decode (h : decode w = .ok i) : i.HasWord w := by
  unfold decode at h
  split at h <;> rename_i ho
  case h_11 => -- HUF_ENCODE
    obtain ⟨hw, rfl⟩ := decodeF_eq_ok.1 h
    exact hasWord_formatF hasWord_hufEncode ⟨BitVec.eq_of_toNat_eq ho, hw⟩
  case h_14 => -- ARI_STEP
    obtain ⟨hw, rfl⟩ := decodeS_eq_ok.1 h
    exact hasWord_formatS hasWord_ariStep ⟨BitVec.eq_of_toNat_eq ho, hw⟩
  case h_19 => -- LZW_STEP
    obtain ⟨hw, rfl⟩ := decodeS_eq_ok.1 h
    exact hasWord_formatS hasWord_lzwStep ⟨BitVec.eq_of_toNat_eq ho, hw⟩
  case h_24 => -- BP_PUT
    obtain ⟨hw, rfl⟩ := decodeP_eq_ok.1 h
    exact hasWord_formatP hasWord_bpPut ⟨BitVec.eq_of_toNat_eq ho, hw⟩
  case h_26 => cases h
  all_goals
    obtain ⟨hw, rfl⟩ := decodeN_eq_ok.1 h
    exact hasWord_formatN ⟨rfl, rfl⟩ ⟨BitVec.eq_of_toNat_eq ho, hw⟩

theorem decode_eq_ok_iff : decode w = .ok i ↔ i.HasWord w :=
  ⟨hasWord_of_decode, fun ⟨hi, hw⟩ => hw ▸ decode_encode hi⟩

end

/-- Settles O2: each arm of the decoder tests every bit of the word that is not an operand. -/
theorem legalWordIsTheEncodingOfItsInstruction : Obligations.LegalWordIsTheEncodingOfItsInstruction :=
  fun _ _ => hasWord_of_decode

/-! ## The opcode table (R66) -/

open Laws.RowOf in
/-- Every instruction has a row, which admits its word. -/
theorem rowOf (i : Instr) : Statement i := by
  cases i
  exacts [nop, sreset, result, freq,
    hufInit, hufMerge, hufBuild, hufCodes, hufCanon, hufEmit, hufEncode _,
    ariTable, ariInit, ariStep _, ariNarrow, ariFinal, ariEncode,
    lzwInit, lzwStep _, lzwRun, lzwFlush, lzwEncode,
    bpClear, bpPut _ _, bpPad]

theorem mnemonics_nodup : (opcodeTable.map OpcodeRow.mnemonic).Nodup := by decide

/-- The word is the encoding of a well-formed instruction of this row. -/
def OpcodeRow.HasWord (r : OpcodeRow) (w : Word) : Prop := ∃ i : Instr, i.HasWord w ∧ i.mnemonic = r.mnemonic

section
variable {w : Word}

theorem admits_of_hasWord {r : OpcodeRow} (hr : r ∈ opcodeTable) (h : r.HasWord w) : r.admits w = true := by
  obtain ⟨i, ⟨hi, rfl⟩, hm⟩ := h
  obtain ⟨r', hr', hm', hadmits⟩ := rowOf i
  obtain rfl : r' = r := List.inj_on_of_nodup_map mnemonics_nodup hr' hr (hm'.trans hm)
  exact hadmits hi

theorem rowN_hasWord {o : Byte} (i : Instr) (hi : i.HasWord (packWord o 0 0))
    (h : (rowN i.mnemonic o).admits w = true) : (rowN i.mnemonic o).HasWord w :=
  ⟨i, hasWord_formatN hi ((rowN_admits _ _ _).1 h), rfl⟩

/-- Row by row of R66. -/
theorem hasWord_of_admits : ∀ r ∈ opcodeTable, r.admits w = true → r.HasWord w := by
  simp only [opcodeTable, List.cons_append, List.nil_append, List.forall_mem_cons]
  exact ⟨rowN_hasWord .nop ⟨rfl, rfl⟩, rowN_hasWord .sreset ⟨rfl, rfl⟩, rowN_hasWord .result ⟨rfl, rfl⟩,
    rowN_hasWord .freq ⟨rfl, rfl⟩, rowN_hasWord .hufInit ⟨rfl, rfl⟩, rowN_hasWord .hufMerge ⟨rfl, rfl⟩,
    rowN_hasWord .hufBuild ⟨rfl, rfl⟩, rowN_hasWord .hufCodes ⟨rfl, rfl⟩, rowN_hasWord .hufCanon ⟨rfl, rfl⟩,
    rowN_hasWord .hufEmit ⟨rfl, rfl⟩,
    fun h => ⟨_, hasWord_formatF hasWord_hufEncode ((rowF_admits _ _ _).1 h), rfl⟩,
    rowN_hasWord .ariTable ⟨rfl, rfl⟩, rowN_hasWord .ariInit ⟨rfl, rfl⟩,
    fun h => ⟨_, hasWord_formatS hasWord_ariStep ((rowS_admits _ _ _).1 h), rfl⟩,
    rowN_hasWord .ariNarrow ⟨rfl, rfl⟩, rowN_hasWord .ariFinal ⟨rfl, rfl⟩, rowN_hasWord .ariEncode ⟨rfl, rfl⟩,
    rowN_hasWord .lzwInit ⟨rfl, rfl⟩,
    fun h => ⟨_, hasWord_formatS hasWord_lzwStep ((rowS_admits _ _ _).1 h), rfl⟩,
    rowN_hasWord .lzwRun ⟨rfl, rfl⟩, rowN_hasWord .lzwFlush ⟨rfl, rfl⟩, rowN_hasWord .lzwEncode ⟨rfl, rfl⟩,
    rowN_hasWord .bpClear ⟨rfl, rfl⟩,
    fun h => ⟨_, hasWord_formatP hasWord_bpPut ((rowP_admits _ _ _).1 h), rfl⟩,
    rowN_hasWord .bpPad ⟨rfl, rfl⟩, nofun⟩

theorem admits_iff_hasWord {r : OpcodeRow} (hr : r ∈ opcodeTable) : r.admits w = true ↔ r.HasWord w :=
  ⟨hasWord_of_admits r hr, admits_of_hasWord hr⟩

end

/-- Settles O3: a row admits the words of its instructions, and a legal word is the word of an instruction, which has a
row. -/
theorem decoderAgreesWithTheOpcodeTable : Obligations.DecoderAgreesWithTheOpcodeTable := by
  intro w
  have hrow : ∀ r ∈ opcodeTable, (r.admits w = true ↔ ∃ i, decode w = .ok i ∧ i.mnemonic = r.mnemonic) :=
    fun r hr => by
      simp only [decode_eq_ok_iff]
      exact admits_iff_hasWord hr
  refine ⟨hrow, fun hnone => ?_, fun ⟨e, he⟩ r hr => ?_⟩
  · cases hd : decode w with
    | error e => exact ⟨e, rfl⟩
    | ok i =>
      obtain ⟨r, hr, hm, -⟩ := rowOf i
      exact absurd ((hrow r hr).2 ⟨i, hd, hm.symm⟩) (by simp [hnone r hr])
  · refine Bool.eq_false_iff.2 fun hadmits => ?_
    obtain ⟨i, hi, -⟩ := (hrow r hr).1 hadmits
    exact absurd (he.symm.trans hi) nofun

/-- Settles O4: seven closed words, by evaluation. -/
theorem wordsOfTheSpecDecode : Obligations.WordsOfTheSpecDecode := by
  unfold Obligations.WordsOfTheSpecDecode
  decide

end Sys2Proof

namespace Sys2Proof.Machine

/-! ## An illegal word at the engine's turn (R67, R74, R122) -/

theorem raised_raiseError (s : State) (c : ErrCode) (info : Word) : s.raised (s.raiseError c info) c info := ⟨rfl, rfl⟩

theorem sameHostSide_raiseError (s : State) (c : ErrCode) (info : Word) : s.sameHostSide (s.raiseError c info) :=
  sameHostSide_refl s

theorem sameEngineSide_raiseError (s : State) (c : ErrCode) (info : Word) : s.sameEngineSide (s.raiseError c info) :=
  ⟨rfl, rfl, rfl, rfl, rfl, rfl, rfl, rfl, rfl⟩

/-- Settles O6: the engine's turn on an illegal word is the error entry and nothing else. -/
theorem illegalWordRaisesIllegalCmd : Obligations.IllegalWordRaisesIllegalCmd := by
  intro s e hbusy hwait he
  exact ⟨_, (step_engineTurn ⟨hbusy, hwait⟩).trans (engineStep_illegal he), raised_raiseError ..,
    sameHostSide_raiseError .., sameEngineSide_raiseError ..⟩

end Sys2Proof.Machine
end

section
/-! SUPPORT. How a command ends (O17, O18, O21; 40_control.md R75-R78, 60_exceptions.md R122), what the control commands
do (O24, O25, O26; R79-R82, R117), and what a write to CMD does (O8; R73). -/

namespace Sys2Proof.Machine

/-! ## The end of a command (R75, R122) -/

/-- What the end of a command writes, but for CYCLES: STATUS and the error registers. -/
def sameEnd (s t : State) : Prop := t.status = s.status ∧ t.err = s.err

theorem sameEnd_refl (s : State) : sameEnd s s := ⟨rfl, rfl⟩

/-- The form in which the bodies' frames say what they change. -/
theorem sameEnd_of_eq {s t u : State} (h : t = u) (hu : sameEnd s u) : sameEnd s t := h ▸ hu

/-- No body but SRESET's writes STATUS or the error registers. -/
theorem bodyOf_sameEnd {i : Instr} (hi : i ≠ .sreset) (s : State) : (bodyOf i s).Ends (sameEnd s) := by
  cases i with
  | sreset => exact absurd rfl hi
  | nop | ariInit | lzwInit | bpClear => exact sameEnd_refl s
  | result => exact ends_imp (resultBody_only s) fun _ h => sameEnd_of_eq h ⟨rfl, rfl⟩
  | freq => exact ends_imp (freqBody_only s) fun _ h => sameEnd_of_eq h.1 ⟨rfl, rfl⟩
  | hufInit => exact ends_imp (hufInitBody_only s) fun _ h => sameEnd_of_eq h ⟨rfl, rfl⟩
  | hufMerge => exact ends_imp (hufMergeBody_only s) fun _ h => sameEnd_of_eq h ⟨rfl, rfl⟩
  | hufBuild => exact ends_imp (hufBuildBody_only s) fun _ h => sameEnd_of_eq h ⟨rfl, rfl⟩
  | hufCodes => exact ends_imp (hufCodesBody_only s) fun _ h => sameEnd_of_eq h ⟨rfl, rfl⟩
  | hufCanon => exact ends_imp (hufCanonBody_only s) fun _ h => sameEnd_of_eq h ⟨rfl, rfl⟩
  | hufEmit => exact ends_imp (hufEmitBody_only s) fun _ h => sameEnd_of_eq h.1 ⟨rfl, rfl⟩
  | hufEncode canon => exact ends_imp (hufEncodeBody_only canon s) fun _ h => sameEnd_of_eq h.1 ⟨rfl, rfl⟩
  | ariTable => exact ends_imp (ariTableBody_only s) fun _ h => sameEnd_of_eq h ⟨rfl, rfl⟩
  | ariStep sym => exact ends_imp (ariStepBody_only sym s) fun _ h => sameEnd_of_eq h.1 ⟨rfl, rfl⟩
  | ariNarrow => exact ends_imp (ariNarrowBody_only s) fun _ h => sameEnd_of_eq h.1 ⟨rfl, rfl⟩
  | ariFinal => exact ends_imp (ariFinalBody_only s) fun _ h => sameEnd_of_eq h.1 ⟨rfl, rfl⟩
  | ariEncode => exact ends_imp (ariEncodeBody_only s) fun _ h => sameEnd_of_eq h.1 ⟨rfl, rfl⟩
  | lzwStep sym => exact ends_imp (lzwStepBody_only sym s) fun _ h => sameEnd_of_eq h.1 ⟨rfl, rfl⟩
  | lzwRun => exact ends_imp (lzwRunBody_only s) fun _ h => sameEnd_of_eq h.1 ⟨rfl, rfl⟩
  | lzwFlush => exact ends_imp (lzwFlushBody_only s) fun _ h => sameEnd_of_eq h.1 ⟨rfl, rfl⟩
  | lzwEncode => exact ends_imp (lzwEncodeBody_only s) fun _ h => sameEnd_of_eq h ⟨rfl, rfl⟩
  | bpPut n bits => exact ends_imp (bpPutBody_only n bits s) fun _ h => sameEnd_of_eq h.1 ⟨rfl, rfl⟩
  | bpPad => exact ends_imp (bpPadBody_only s) fun _ h => sameEnd_of_eq h ⟨rfl, rfl⟩

section
variable {i : Instr} {s t : State} (hi : i ≠ .sreset)
include hi

theorem completed_of_body (h : bodyOf i s = .ok t) : s.completed t.complete := by
  have hend := bodyOf_sameEnd hi s
  rw [h] at hend
  obtain ⟨hstatus, herr⟩ := hend
  exact ⟨by rw [complete_status, hstatus], herr⟩

theorem raised_of_body {c : ErrCode} {info : Word} (h : bodyOf i s = .error t c info) :
    s.raised (t.raiseError c info) c info := by
  have hend := bodyOf_sameEnd hi s
  have hcmd := bodyOf_keeps i s
  rw [h] at hend hcmd
  obtain ⟨hstatus, -⟩ := hend
  obtain ⟨⟨-, -, hcmd, -⟩, -⟩ := hcmd
  exact ⟨by rw [raiseError_status, hstatus], by rw [raiseError_err, hcmd]⟩

end

/-- Settles O21: a body leaves STATUS, the error registers and CMD as they were, and then its end writes them. -/
theorem everyCommandEndsDone : Obligations.EveryCommandEndsDone := by
  intro i s t hi h
  rw [exec_eq] at h
  rcases finish_next h with ⟨u, hu, rfl⟩ | ⟨u, c, info, hu, rfl⟩
  · exact .inl (completed_of_body hi hu)
  · exact .inr ⟨c, info, raised_of_body hi hu⟩

/-! ## The checks before any change (R76-R78) -/

theorem raisesOnly_of_body {i : Instr} {s : State} {c : ErrCode} {info : Word} (h : bodyOf i s = .error s c info) :
    raisesOnly i s c info :=
  ⟨_, by rw [exec_eq, h, finish_error], raised_raiseError .., sameHostSide_raiseError .., sameEngineSide_raiseError ..⟩

section
variable {i : Instr} {s : State} {f : State → CmdResult}

theorem checkStage_then (h : stageReady i s = true) : (checkStage i s).andThen f = f s := by
  rw [checkStage_ok h, andThen_ok]

theorem checkStage_raises (h : stageReady i s = false) :
    (checkStage i s).andThen f = .error s .sequence s.stage.word := by
  rw [checkStage_fail h, andThen_error]

theorem inCheck_then (h : s.cfg.inBase.toNat + s.cfg.inLen.toNat ≤ s.ibufSize) : (inCheck s).andThen f = f s := by
  rw [inCheck_ok ((inRangeOk_iff s).2 h), andThen_ok]

theorem inCheck_raises (h : s.ibufSize < s.cfg.inBase.toNat + s.cfg.inLen.toNat) :
    (inCheck s).andThen f = .error s .inRange 0 := by
  rw [inCheck_fail (decide_eq_false (Nat.not_le.2 h)), andThen_error]

theorem outCheck_then (h : s.cfg.outBase.toNat + s.cfg.outCap.toNat ≤ s.obufSize) : (outCheck s).andThen f = f s := by
  rw [outCheck_ok ((outRangeOk_iff s).2 h), andThen_ok]

theorem outCheck_raises (h : s.obufSize < s.cfg.outBase.toNat + s.cfg.outCap.toNat) :
    (outCheck s).andThen f = .error s .outRange 0 := by
  rw [outCheck_fail (decide_eq_false (Nat.not_le.2 h)), andThen_error]

end

/-- A command with a stage prerequisite checks it first (R76); the others are always ready. -/
theorem raisesOnly_of_stage {i : Instr} {s : State} (h : stageReady i s = false) :
    raisesOnly i s .sequence s.stage.word := by
  refine raisesOnly_of_body ?_
  cases i
  case nop | sreset | freq | hufEncode | ariInit | ariEncode | lzwInit | lzwEncode | bpClear | bpPut | bpPad => cases h
  all_goals exact checkStage_raises h

/-- Settles O17: each prerequisite of the table of R76, read off `stageReady`. -/
theorem failedPrerequisiteRaisesSequence : Obligations.FailedPrerequisiteRaisesSequence := by
  intro s
  have pair {i j} (hi : stageReady i s = false) (hj : stageReady j s = false) :
      ∀ k ∈ [i, j], raisesOnly k s .sequence s.stage.word :=
    List.forall_mem_cons.2 ⟨raisesOnly_of_stage hi, List.forall_mem_singleton.2 (raisesOnly_of_stage hj)⟩
  refine ⟨fun h => raisesOnly_of_stage (beq_false_of_ne h), fun h => pair h h, fun h => ?_,
    fun h => raisesOnly_of_stage (decide_eq_false (Nat.not_le.2 h)), fun h => ?_, fun h => ?_,
    fun h => raisesOnly_of_stage h,
    fun h => ⟨raisesOnly_of_stage h, raisesOnly_of_stage h, fun _ => raisesOnly_of_stage h⟩⟩
  · have hlt := decide_eq_false (Nat.not_le.2 h)
    exact pair hlt hlt
  · have hne := beq_false_of_ne h
    exact pair hne hne
  · have hboth : (s.stage.ariTblV && s.stage.ariV) = false := Bool.and_eq_false_iff.2 h
    exact ⟨raisesOnly_of_stage hboth, fun _ => raisesOnly_of_stage hboth⟩

/-- Settles O18: the checks of each command in their order, the one that fails being the first. -/
theorem badRangesRaiseBeforeAnyChange : Obligations.BadRangesRaiseBeforeAnyChange := by
  refine fun s => ⟨fun hin => ?_, fun hout => ?_⟩
  · have first {i f} (h : bodyOf i s = (inCheck s).andThen f) : raisesOnly i s .inRange 0 :=
      raisesOnly_of_body (h.trans (inCheck_raises hin))
    refine ⟨first rfl, fun _ => first rfl, first rfl, first rfl, fun h => ?_, fun ht hv => ?_, fun h => ?_⟩
    · exact first (checkStage_then (beq_iff_eq.2 h))
    · exact first (checkStage_then (Bool.and_eq_true_iff.2 ⟨ht, hv⟩))
    · exact first (checkStage_then h)
  · have first {i f} (h : bodyOf i s = (outCheck s).andThen f) : raisesOnly i s .outRange 0 :=
      raisesOnly_of_body (h.trans (outCheck_raises hout))
    refine ⟨first rfl, fun _ _ => first rfl, fun h => first (checkStage_then h),
      fun h => ⟨first (checkStage_then h), fun _ => first (checkStage_then h)⟩, fun hin => ?_⟩
    refine ⟨fun _ => first (inCheck_then hin), first (inCheck_then hin), first (inCheck_then hin), fun h => ?_,
      fun h => ?_⟩
    · exact first ((checkStage_then (i := .hufEmit) (beq_iff_eq.2 h)).trans (inCheck_then hin))
    · exact first ((checkStage_then (i := .lzwRun) h).trans (inCheck_then hin))

/-! ## The control commands (R79-R82, R117) -/

/-- Settles O24: NOP's body is empty, and BP_CLEAR's writes the stream's registers alone. -/
theorem nopAndBpClearComplete : Obligations.NopAndBpClearComplete := fun s =>
  ⟨⟨s.complete, rfl, ⟨rfl, rfl⟩, sameHostSide_refl s, ⟨rfl, rfl, rfl, rfl, rfl, rfl, rfl, rfl, rfl⟩⟩,
    (clearStream s).complete, rfl, ⟨rfl, rfl⟩, sameHostSide_refl s, rfl, rfl,
    ⟨rfl, rfl, rfl, rfl, rfl, rfl, rfl, rfl, rfl⟩⟩

/-- Settles O25: what SRESET clears is the engine's side of the hardware reset. -/
theorem sresetRestoresWorkingState : Obligations.SresetRestoresWorkingState := fun s =>
  ⟨(softReset s).complete, rfl, rfl, rfl, sameHostSide_refl s, rfl, rfl, rfl, rfl, rfl, rfl, rfl, rfl, rfl⟩

theorem ratio_of_empty {s : State} (h : s.res.orig = 0) : s.ratio = 0 := if_pos h

theorem ratio_mul_orig {s : State} (h : s.res.orig ≠ 0) : s.ratio * s.res.orig.toNat = s.res.comp.toNat := by
  have hne : (s.res.orig.toNat : ℚ) ≠ 0 := Nat.cast_ne_zero.2 fun h0 => h (BitVec.eq_of_toNat_eq h0)
  rw [State.ratio, if_neg h, div_mul_cancel₀ _ hne]

/-- Settles O26: the aligned stream passes RESULT's check, and the ratio reads the record it latches. -/
theorem resultLatchesTheSizes : Obligations.ResultLatchesTheSizes := by
  intro s h
  have hbody : bodyOf .result s = .ok (latchResult s) := checkStage_then (beq_iff_eq.2 h)
  let t := (latchResult s).complete
  exact ⟨t, by rw [exec_eq, hbody, finish_ok], completed_of_body (by decide) hbody, sameHostSide_refl s, rfl, rfl,
    ⟨rfl, rfl, rfl, rfl, rfl, rfl, rfl, rfl, rfl⟩, ratio_of_empty (s := t), ratio_mul_orig (s := t)⟩

/-! ## A write to CMD (R73) -/

theorem writeCmd_accepted {s : State} {w : Word} (hidle : s.status.busy = false)
    (h : s.status.err = false ∨ w = sresetWord) : writeCmd s w = s.accept w := by
  refine if_neg ?_
  rintro (hbusy | ⟨herr, hne⟩)
  · simp [hidle] at hbusy
  · rcases h with h | h
    · simp [h] at herr
    · exact hne h

theorem writeCmd_dropped {s : State} {w : Word} (h : s.status.busy = true ∨ (s.status.err = true ∧ w ≠ sresetWord)) :
    writeCmd s w = { s with status := { s.status with drop := true } } := if_pos h

/-- Settles O8: the two cases of a write to CMD. -/
theorem commandWriteIsAcceptedOrDropped : Obligations.CommandWriteIsAcceptedOrDropped := by
  intro s w
  have hwrite : hostStep (.write .w32 0x014 w) s = .next { writeCmd s w with resp := none } := hostWrite_reg .cmd w
  refine ⟨fun hidle h => ?_, fun h => ?_⟩
  · rw [hwrite, writeCmd_accepted hidle h]
    exact ⟨_, rfl, rfl, rfl, rfl, rfl, rfl, rfl, rfl, rfl, ⟨rfl, rfl, rfl, rfl, rfl, rfl, rfl, rfl, rfl⟩⟩
  · rw [hwrite, writeCmd_dropped h]

end Sys2Proof.Machine
end

section
/-! SUPPORT. The steps of the streaming commands, case by case (42_huffman.md R97, 43_arithmetic.md R102, 44_lzw.md
R110), and where a step fails: exactly at a byte that fails a check, with nothing changed. -/

namespace Sys2Proof.Machine

/-! ## The cases of each step -/

section
variable {pos : Nat} {b : Byte} {s : State}

theorem emitByte_noCode (h : s.huf.codeLen.at b = 0) : emitByte pos b s = .error s .noCode (byteInfo pos b) := if_pos h

theorem emitByte_coded (h : s.huf.codeLen.at b ≠ 0) :
    emitByte pos b s = appendBits (byteInfo pos b) (s.huf.code b) s := if_neg h

theorem ariStepAt_noSym (h : s.freq.count.at b = 0) :
    ariStepAt pos b s = .error s .ariNoSym (byteInfo pos b) := if_pos h

section
variable (h : s.freq.count.at b ≠ 0)
include h

theorem ariStepAt_overflow (hd : 2 ^ s.accBits ≤ s.ari.d * s.freq.total.toNat) :
    ariStepAt pos b s = .error s .precisionOverflow (byteInfo pos b) := by rw [ariStepAt, if_neg h, if_pos hd]

theorem ariStepAt_narrows (hd : ¬ 2 ^ s.accBits ≤ s.ari.d * s.freq.total.toNat) :
    ariStepAt pos b s = .ok (narrowBy s b) := by rw [ariStepAt, if_neg h, if_neg hd]

end

theorem lzwStepAt_first (h : s.lzw.cur = lzwEmpty) : lzwStepAt pos b s = .ok (setCur s (b.setWidth 17)) := if_pos h

section
variable (h : s.lzw.cur ≠ lzwEmpty)
include h

theorem lzwStepAt_longer {e : Nat} (hf : s.lzw.find s.lzw.cur b = some e) :
    lzwStepAt pos b s = .ok (setCur s (BitVec.ofNat 17 e)) := by rw [lzwStepAt, if_neg h, hf]

variable (hf : s.lzw.find s.lzw.cur b = none)
include hf

theorem lzwStepAt_rejects (hr : s.lzw.next.toNat = s.lzw.cap ∧ s.lzw.act.policy = .reject) :
    lzwStepAt pos b s = .error s .dictOverflow (byteInfo pos b) := by
  rw [lzwStepAt, if_neg h, hf]
  exact if_pos hr

theorem lzwStepAt_emits (hr : ¬ (s.lzw.next.toNat = s.lzw.cap ∧ s.lzw.act.policy = .reject)) :
    lzwStepAt pos b s =
      (appendBits (byteInfo pos b) s.lzw.curBits s).andThen fun t => .ok (restartAt t b) := by
  rw [lzwStepAt, if_neg h, hf]
  exact if_neg hr

end

end

/-! ## Where each step fails (R125) -/

theorem roomFor_eq_false_iff {s : State} {n : Nat} : s.roomFor n = false ↔ s.overfull n :=
  decide_eq_false_iff_not.trans Nat.not_le

/-- The step of a command fails exactly where a byte fails a check, with the code of the first one, and changes
nothing. -/
structure FailsFirst (i : Instr) (step : Nat → Byte → State → CmdResult) : Prop where
  of_error : ∀ {pos b s t c info}, step pos b s = .error t c info →
    t = s ∧ info = byteInfo pos b ∧ firstFailure i s b c
  error : ∀ {b s c} (pos), firstFailure i s b c → step pos b s = .error s c (byteInfo pos b)

theorem appendBits_of_error {info k : Word} {l : List Bool} {s t : State} {c : ErrCode}
    (h : appendBits info l s = .error t c k) : s.overfull l.length ∧ t = s ∧ c = .outOverflow ∧ k = info := by
  cases hr : s.roomFor l.length with
  | true => rw [appendBits_ok hr] at h; cases h
  | false => rw [appendBits_full hr] at h; cases h; exact ⟨roomFor_eq_false_iff.1 hr, rfl, rfl, rfl⟩

theorem code_length (h : Huffman) (b : Byte) : (h.code b).length = (h.codeLen.at b).toNat := bitsOf_length ..

theorem curBits_length (z : Lzw) : z.curBits.length = z.act.width.toNat := bitsOf_length ..

theorem emitByte_failsFirst : FailsFirst .hufEmit emitByte where
  of_error {pos b s t c info} h := by
    by_cases hb : s.huf.codeLen.at b = 0
    · rw [emitByte_noCode hb] at h
      cases h
      exact ⟨rfl, rfl, .inl ⟨rfl, .inl ⟨hb, rfl⟩⟩⟩
    · rw [emitByte_coded hb] at h
      obtain ⟨hfull, rfl, rfl, rfl⟩ := appendBits_of_error h
      rw [code_length] at hfull
      exact ⟨rfl, rfl, .inl ⟨rfl, .inr ⟨hb, hfull, rfl⟩⟩⟩
  error {b s c} pos h := by
    rcases h with ⟨-, ⟨hb, rfl⟩ | ⟨hb, hfull, rfl⟩⟩ | ⟨hi, -⟩ | ⟨hi, -⟩
    · exact emitByte_noCode hb
    · rw [← code_length] at hfull
      rw [emitByte_coded hb, appendBits_full (roomFor_eq_false_iff.2 hfull)]
    · cases hi
    · cases hi

theorem ariStepAt_failsFirst : FailsFirst .ariNarrow ariStepAt where
  of_error {pos b s t c info} h := by
    by_cases hb : s.freq.count.at b = 0
    · rw [ariStepAt_noSym hb] at h
      cases h
      exact ⟨rfl, rfl, .inr (.inl ⟨rfl, .inl ⟨hb, rfl⟩⟩)⟩
    · by_cases hd : 2 ^ s.accBits ≤ s.ari.d * s.freq.total.toNat
      · rw [ariStepAt_overflow hb hd] at h
        cases h
        exact ⟨rfl, rfl, .inr (.inl ⟨rfl, .inr ⟨hb, hd, rfl⟩⟩)⟩
      · rw [ariStepAt_narrows hb hd] at h
        cases h
  error {b s c} pos h := by
    rcases h with ⟨hi, -⟩ | ⟨-, ⟨hb, rfl⟩ | ⟨hb, hd, rfl⟩⟩ | ⟨hi, -⟩
    · cases hi
    · exact ariStepAt_noSym hb
    · exact ariStepAt_overflow hb hd
    · cases hi

theorem lzwStepAt_failsFirst : FailsFirst .lzwRun lzwStepAt where
  of_error {pos b s t c info} h := by
    by_cases hc : s.lzw.cur = lzwEmpty
    · rw [lzwStepAt_first hc] at h
      cases h
    · cases hf : s.lzw.find s.lzw.cur b with
      | some e => rw [lzwStepAt_longer hc hf] at h; cases h
      | none =>
        by_cases hr : s.lzw.next.toNat = s.lzw.cap ∧ s.lzw.act.policy = .reject
        · rw [lzwStepAt_rejects hc hf hr] at h
          cases h
          exact ⟨rfl, rfl, .inr (.inr ⟨rfl, hc, find_none hf, .inl ⟨hr.1, hr.2, rfl⟩⟩)⟩
        · rw [lzwStepAt_emits hc hf hr] at h
          cases ha : appendBits (byteInfo pos b) s.lzw.curBits s with
          | ok u => rw [ha] at h; cases h
          | fault f => rw [ha] at h; cases h
          | error u d k =>
            rw [ha] at h
            cases h
            obtain ⟨hfull, rfl, rfl, rfl⟩ := appendBits_of_error ha
            rw [curBits_length] at hfull
            exact ⟨rfl, rfl, .inr (.inr ⟨rfl, hc, find_none hf, .inr ⟨hr, hfull, rfl⟩⟩)⟩
  error {b s c} pos h := by
    rcases h with ⟨hi, -⟩ | ⟨hi, -⟩ | ⟨-, hc, hnone, hfail⟩
    · cases hi
    · cases hi
    · have hf := find_of_none hnone
      rcases hfail with ⟨hn, hp, rfl⟩ | ⟨hr, hfull, rfl⟩
      · exact lzwStepAt_rejects hc hf ⟨hn, hp⟩
      · rw [← curBits_length] at hfull
        rw [lzwStepAt_emits hc hf hr, appendBits_full (roomFor_eq_false_iff.2 hfull), andThen_error]

end Sys2Proof.Machine
end

section
/-! SUPPORT. The same body in two runs (O20). A pass over a shorter input range runs with another IN_LEN, and a phase
run as a command of its own starts from the STATUS and CYCLES that the command before it left, with one free value more
drawn. Within another setting of these a body does the same, and keeps the setting: no body but SRESET's reads or writes
STATUS, the error registers or CYCLES, a step does not read IN_LEN, and the draws count only where a counter is at
2^32 - 1 (log 8). -/

namespace Sys2Proof.Machine

/-- What may differ between two runs that do the same. -/
structure Setting where
  status : Status
  err : ErrRegs
  cycles : Word
  /-- IN_LEN, if it is another one. -/
  inLen : Option Word
  /-- How many free values more have been drawn. -/
  ahead : Nat

/-- The state within another setting. -/
def State.within (s : State) (x : Setting) : State :=
  { s with
    status := x.status
    err := x.err
    cycles := x.cycles
    cfg.inLen := x.inLen.getD s.cfg.inLen
    draws := s.draws + x.ahead }

/-- A body's end within another setting. -/
def CmdResult.within (r : CmdResult) (x : Setting) : CmdResult :=
  match r with
  | .ok s => .ok (s.within x)
  | .error s c i => .error (s.within x) c i
  | .fault f => .fault f

section
variable {x : Setting}

theorem andThen_within {r : CmdResult} {f g : State → CmdResult}
    (h : ∀ t, r = .ok t → f (t.within x) = (g t).within x) : (r.within x).andThen f = (r.andThen g).within x := by
  cases r with
  | ok t => exact h t rfl
  | error t c i => rfl
  | fault y => rfl

theorem check_within {b : Bool} {c : ErrCode} {i : Word} {s : State} {f : State → CmdResult}
    (h : f (s.within x) = (f s).within x) :
    (require b c i (s.within x)).andThen f = ((require b c i s).andThen f).within x := by
  cases b with
  | true => exact h
  | false => rfl

theorem ite_eq_apply_ite {α β : Type} (f : α → β) {p : Prop} [Decidable p] {a b : α} {u v : β} (h : u = f a)
    (h' : v = f b) : (if p then u else v) = f (if p then a else b) := by
  rw [apply_ite f, h, h']

/-! ## Append (R116) -/

theorem pushBit_within (s : State) (b : Bool) : pushBit (s.within x) b = (pushBit s b).within x := by
  by_cases h : s.bp.cnt = 7
  · rw [pushBit_fill h, pushBit_fill (s := s.within x) h]; rfl
  · rw [pushBit_hold h, pushBit_hold (s := s.within x) h]; rfl

theorem pushBits_within (l : List Bool) (s : State) : pushBits (s.within x) l = (pushBits s l).within x :=
  List.foldl_hom (State.within · x) pushBit_within

theorem appended_within (l : List Bool) (s : State) : (s.within x).appended l = (s.appended l).within x := by
  rw [State.appended, pushBits_within]; rfl

theorem appendBits_within (info : Word) (l : List Bool) (s : State) :
    appendBits info l (s.within x) = (appendBits info l s).within x := by
  cases hr : s.roomFor l.length with
  | true => rw [appendBits_ok hr, appendBits_ok (s := s.within x) hr, appended_within]; rfl
  | false => rw [appendBits_full hr, appendBits_full (s := s.within x) hr]; rfl

theorem appendBits_lzw {info : Word} {l : List Bool} {s t : State} (h : appendBits info l s = .ok t) :
    t.lzw = s.lzw := by
  have happend := appendBits_only info l s
  rw [h] at happend
  rw [happend.1]

/-! ## The steps of the passes -/

/-- The counter can be counted up without a free value that depends on the setting. -/
def Setting.counts (x : Setting) (c : Word) : Prop := x.ahead = 0 ∨ c ≠ BitVec.allOnes 32

theorem bumpCount_within {c : Word} (h : x.counts c) (d : Nat) : bumpCount c (d + x.ahead) = bumpCount c d := by
  unfold bumpCount
  rcases h with h | h
  · rw [h, Nat.add_zero]
  · rw [if_neg h, if_neg h]

theorem emitByte_within (i : Nat) (b : Byte) (s : State) : emitByte i b (s.within x) = (emitByte i b s).within x := by
  by_cases h : s.huf.codeLen.at b = 0
  · rw [emitByte_noCode h, emitByte_noCode (s := s.within x) h]; rfl
  · rw [emitByte_coded h, emitByte_coded (s := s.within x) h]
    exact appendBits_within ..

theorem narrowBy_within {s : State} (h : x.counts s.ari.k) (b : Byte) :
    narrowBy (s.within x) b = (narrowBy s b).within x := by
  show ({ (narrowBy s b).within x with
    ari.k := bumpCount s.ari.k (s.draws + x.ahead), draws := s.draws + x.ahead + 1 } : State) = _
  rw [bumpCount_within h, Nat.add_right_comm]; rfl

theorem ariStepAt_within {s : State} (h : x.counts s.ari.k) (i : Nat) (b : Byte) :
    ariStepAt i b (s.within x) = (ariStepAt i b s).within x := by
  by_cases hb : s.freq.count.at b = 0
  · rw [ariStepAt_noSym hb, ariStepAt_noSym (s := s.within x) hb]; rfl
  · by_cases hd : 2 ^ s.accBits ≤ s.ari.d * s.freq.total.toNat
    · rw [ariStepAt_overflow hb hd, ariStepAt_overflow (s := s.within x) hb hd]; rfl
    · rw [ariStepAt_narrows hb hd, ariStepAt_narrows (s := s.within x) hb hd, narrowBy_within h]; rfl

theorem countCode_within {s : State} (h : x.counts s.lzw.ncodes) : countCode (s.within x) = (countCode s).within x := by
  show ({ (countCode s).within x with
    lzw.ncodes := bumpCount s.lzw.ncodes (s.draws + x.ahead), draws := s.draws + x.ahead + 1 } : State) = _
  rw [bumpCount_within h, Nat.add_right_comm]; rfl

theorem restartAt_within {s : State} (h : x.counts s.lzw.ncodes) (b : Byte) :
    restartAt (s.within x) b = (restartAt s b).within x := by
  rw [restartAt, countCode_within h]; rfl

theorem emptyMatch_within {s : State} (h : x.counts s.lzw.ncodes) :
    emptyMatch (s.within x) = (emptyMatch s).within x := by
  rw [emptyMatch, countCode_within h]; rfl

theorem lzwStepAt_within {s : State} (h : x.counts s.lzw.ncodes) (i : Nat) (b : Byte) :
    lzwStepAt i b (s.within x) = (lzwStepAt i b s).within x := by
  by_cases hc : s.lzw.cur = lzwEmpty
  · rw [lzwStepAt_first hc, lzwStepAt_first (s := s.within x) hc]; rfl
  · cases hf : s.lzw.find s.lzw.cur b with
    | some e => rw [lzwStepAt_longer hc hf, lzwStepAt_longer (s := s.within x) hc hf]; rfl
    | none =>
      by_cases hr : s.lzw.next.toNat = s.lzw.cap ∧ s.lzw.act.policy = .reject
      · rw [lzwStepAt_rejects hc hf hr, lzwStepAt_rejects (s := s.within x) hc hf hr]; rfl
      · rw [lzwStepAt_emits hc hf hr, lzwStepAt_emits (s := s.within x) hc hf hr, appendBits_within]
        refine andThen_within fun t (ht : appendBits (byteInfo i b) s.lzw.curBits s = .ok t) => ?_
        exact congrArg CmdResult.ok (restartAt_within (by rwa [appendBits_lzw ht]) b)


/-! ## The pass (R32) -/

theorem streamFrom_unwritten {body : Nat → Byte → State → CmdResult} {n i : Nat} {s : State}
    (h : s.ibuf.read (s.cfg.inBase.toNat + i) = none) :
    streamFrom body (n + 1) i s = .fault (.ibufUnwritten (s.cfg.inBase.toNat + i)) := by
  rw [streamFrom, h]

theorem streamFrom_succ_ok {body : Nat → Byte → State → CmdResult} {n i : Nat} {s t : State}
    (h : streamFrom body (n + 1) i s = .ok t) :
    ∃ b u, body i b s = .ok u ∧ streamFrom body n (i + 1) { u with inPos := BitVec.ofNat 32 (i + 1) } = .ok t := by
  cases hread : s.ibuf.read (s.cfg.inBase.toNat + i) with
  | none => rw [streamFrom_unwritten hread] at h; cases h
  | some b =>
    rw [streamFrom_known hread] at h
    cases hb : body i b s with
    | ok u => rw [hb] at h; exact ⟨b, u, hb, h⟩
    | error u c k => rw [hb] at h; cases h
    | fault f => rw [hb] at h; cases h

/-- What the pass needs of a step: it counts `counter` up by at most one, and with the counter below 2^32 - 1 it does
the same within any setting. -/
structure CountsBy (body : Nat → Byte → State → CmdResult) (counter : State → Word) : Prop where
  inPos : ∀ s (p : Word), counter { s with inPos := p } = counter s
  le_succ : ∀ {i b s t}, (counter s).toNat + 1 < 2 ^ 32 → body i b s = .ok t → (counter t).toNat ≤ (counter s).toNat + 1
  within : ∀ {x : Setting} {i b s}, x.counts (counter s) → body i b (s.within x) = (body i b s).within x

section
variable {body : Nat → Byte → State → CmdResult} {counter : State → Word} (hc : CountsBy body counter)
include hc

theorem streamFrom_within : ∀ (n i : Nat) (s : State), (x.ahead = 0 ∨ (counter s).toNat + n < 2 ^ 32) →
    streamFrom body n i (s.within x) = (streamFrom body n i s).within x := by
  intro n
  induction n with
  | zero => intro i s _; rfl
  | succ n ih =>
    intro i s hroom
    cases hread : s.ibuf.read (s.cfg.inBase.toNat + i) with
    | none => rw [streamFrom_unwritten hread, streamFrom_unwritten (s := s.within x) hread]; rfl
    | some b =>
      have hcount : x.counts (counter s) := hroom.imp_right fun hlt heq => by
        rw [heq, BitVec.toNat_allOnes] at hlt
        omega
      rw [streamFrom_known hread, streamFrom_known (s := s.within x) hread, hc.within hcount]
      refine andThen_within fun t ht =>
        ih (i + 1) { t with inPos := BitVec.ofNat 32 (i + 1) } (hroom.imp_right fun hlt => ?_)
      have hle := hc.le_succ (by omega) ht
      rw [hc.inPos t]
      omega

theorem streamFrom_count_le : ∀ (n i : Nat) {s t : State}, (counter s).toNat + n < 2 ^ 32 →
    streamFrom body n i s = .ok t → (counter t).toNat ≤ (counter s).toNat + n := by
  intro n
  induction n with
  | zero => intro i s t _ h; cases h; exact le_rfl
  | succ n ih =>
    intro i s t hlt h
    obtain ⟨b, u, hstep, hrest⟩ := streamFrom_succ_ok h
    have hle := hc.le_succ (by omega) hstep
    have hle' := ih _ (by rw [hc.inPos u]; omega) hrest
    rw [hc.inPos u] at hle'
    omega

end

theorem countsBy_countByte : CountsBy countByte fun _ => 0 := ⟨fun _ _ => rfl, fun _ _ => Nat.zero_le _, fun _ => rfl⟩

theorem countsBy_emitByte : CountsBy emitByte fun _ => 0 :=
  ⟨fun _ _ => rfl, fun _ _ => Nat.zero_le _, fun _ => emitByte_within ..⟩

theorem countsBy_ariStepAt : CountsBy ariStepAt fun s => s.ari.k where
  inPos _ _ := rfl
  le_succ {i b s t} hlt h := by
    by_cases hb : s.freq.count.at b = 0
    · rw [ariStepAt_noSym hb] at h; cases h
    · by_cases hd : 2 ^ s.accBits ≤ s.ari.d * s.freq.total.toNat
      · rw [ariStepAt_overflow hb hd] at h; cases h
      · rw [ariStepAt_narrows hb hd] at h
        cases h
        exact (bumpCount_toNat s.draws hlt).le
  within h := ariStepAt_within h ..

theorem learn_ncodes (z : Lzw) (b : Byte) : (z.learn b).ncodes = z.ncodes := by
  unfold Lzw.learn
  split
  · rfl
  · split <;> rfl

theorem restartAt_ncodes (s : State) (b : Byte) : (restartAt s b).lzw.ncodes = bumpCount s.lzw.ncodes s.draws :=
  learn_ncodes ..

theorem countsBy_lzwStepAt : CountsBy lzwStepAt fun s => s.lzw.ncodes where
  inPos _ _ := rfl
  le_succ {i b s t} hlt h := by
    rcases lzwStepAt_ok h with ⟨-, rfl⟩ | ⟨-, e, -, rfl⟩ | ⟨-, -, -, -, rfl⟩
    · exact Nat.le_succ _
    · exact Nat.le_succ _
    · rw [restartAt_ncodes, appended_lzw]
      exact (bumpCount_toNat _ hlt).le
  within h := lzwStepAt_within h ..

/-! ## What reads IN_LEN -/

section
variable (hx : x.inLen = none)
include hx

theorem cfg_within (s : State) : (s.within x).cfg = s.cfg := by
  obtain ⟨status, err, cycles, inLen, ahead⟩ := x
  cases hx
  rfl

theorem stream_within {body : Nat → Byte → State → CmdResult} {counter : State → Word} (hc : CountsBy body counter)
    {s : State} (hroom : (counter s).toNat + s.cfg.inLen.toNat < 2 ^ 32) :
    stream body (s.within x) = (stream body s).within x := by
  show streamFrom body (s.within x).cfg.inLen.toNat 0 (State.within { s with inPos := 0 } x) = _
  rw [cfg_within hx]
  exact streamFrom_within hc _ 0 { s with inPos := 0 } (.inr (by rwa [hc.inPos]))

theorem inCheck_within {s : State} {f : State → CmdResult} (h : f (s.within x) = (f s).within x) :
    (inCheck (s.within x)).andThen f = ((inCheck s).andThen f).within x := by
  have hrange : (s.within x).inRangeOk = s.inRangeOk := by rw [State.inRangeOk, cfg_within hx]; rfl
  rw [inCheck, hrange]
  exact check_within h

theorem closeFreq_within (s : State) : closeFreq (s.within x) = (closeFreq s).within x := by
  obtain ⟨status, err, cycles, inLen, ahead⟩ := x
  cases hx
  rfl

theorem latchResult_within (s : State) : latchResult (s.within x) = (latchResult s).within x := by
  obtain ⟨status, err, cycles, inLen, ahead⟩ := x
  cases hx
  rfl

end

/-! ## The tree (R90, R91) -/

theorem mergeStep_within (s : State) : mergeStep (s.within x) = (mergeStep s).within x := by
  have hsettle : ∀ t : State, settleRoot (t.within x) = (settleRoot t).within x := fun t =>
    ite_eq_apply_ite (State.within · x) rfl rfl
  have hmerge : (if 2 ≤ s.huf.live.toNat then { s.within x with huf := mergeTwo s.huf } else s.within x) =
      (if 2 ≤ s.huf.live.toNat then { s with huf := mergeTwo s.huf } else s).within x :=
    ite_eq_apply_ite (State.within · x) rfl rfl
  exact (congrArg settleRoot hmerge).trans (hsettle _)

theorem mergeUntilOne_within : ∀ (n : Nat) (s : State),
    mergeUntilOne n (s.within x) = (mergeUntilOne n s).within x := by
  intro n
  induction n with
  | zero => intro s; rfl
  | succ n ih => exact fun s => ite_eq_apply_ite (State.within · x) rfl (by rw [mergeStep_within, ih])

theorem buildTree_within (s : State) : buildTree (s.within x) = (buildTree s).within x := by
  rw [buildTree, mergeStep_within]
  exact mergeUntilOne_within ..

/-! ## The phases of the fused commands -/

/-- The command is a phase of a fused one, and no counter it counts reaches 2^32 - 1. -/
def phaseSafe : Instr → State → Prop
  | .bpClear, _ | .freq, _ | .hufInit, _ | .hufBuild, _ | .hufCodes, _ | .hufCanon, _ | .hufEmit, _ | .ariTable, _
  | .ariInit, _ | .ariFinal, _ | .lzwInit, _ | .bpPad, _ | .result, _ => True
  | .ariNarrow, s => s.ari.k.toNat + s.cfg.inLen.toNat < 2 ^ 32
  | .lzwRun, s => s.lzw.ncodes.toNat + s.cfg.inLen.toNat < 2 ^ 32
  | .lzwFlush, s => s.lzw.ncodes ≠ BitVec.allOnes 32
  | _, _ => False

theorem bodyOf_within (hx : x.inLen = none) {i : Instr} {s : State} (h : phaseSafe i s) :
    bodyOf i (s.within x) = (bodyOf i s).within x := by
  cases i with
  | bpClear | ariInit | lzwInit => rfl
  | hufInit | hufCodes | hufCanon | ariTable => exact check_within rfl
  | hufBuild => exact check_within (congrArg CmdResult.ok (buildTree_within s))
  | result => exact check_within (congrArg CmdResult.ok (latchResult_within hx s))
  | freq =>
    refine inCheck_within hx ?_
    have hpass : stream countByte (clearFreq (s.within x)) = (stream countByte (clearFreq s)).within x :=
      stream_within (s := clearFreq s) hx countsBy_countByte (by simpa using (clearFreq s).cfg.inLen.isLt)
    rw [hpass]
    exact andThen_within fun t _ => congrArg CmdResult.ok (closeFreq_within hx t)
  | hufEmit =>
    exact check_within (inCheck_within hx (check_within
      (stream_within hx countsBy_emitByte (by simpa using s.cfg.inLen.isLt))))
  | ariNarrow => exact check_within (inCheck_within hx (stream_within hx countsBy_ariStepAt h))
  | lzwRun => exact check_within (inCheck_within hx (check_within (stream_within hx countsBy_lzwStepAt h)))
  | ariFinal =>
    refine check_within (check_within ?_)
    rw [appendBits_within]
    exact andThen_within fun t _ => rfl
  | bpPad =>
    refine check_within ?_
    rw [appendBits_within]
    exact andThen_within fun t _ => rfl
  | lzwFlush =>
    refine check_within (check_within (ite_eq_apply_ite (CmdResult.within · x) rfl ?_))
    rw [appendBits_within]
    refine andThen_within fun t (ht : appendBits 0 s.lzw.curBits s = .ok t) => ?_
    exact congrArg CmdResult.ok (emptyMatch_within (.inr (by rwa [appendBits_lzw ht])))
  | nop | sreset | hufMerge | hufEncode | ariStep | ariEncode | lzwStep | lzwEncode | bpPut => exact h.elim

end

end Sys2Proof.Machine
end

section
/-! SUPPORT. Errors are precise at the byte and at the phase (O20; 40_control.md R83, 60_exceptions.md R123-R125). A
streaming command is a pass of its step, so a pass over n bytes is the start of every longer one. A fused command is its
phases' bodies one after another. -/

namespace Sys2Proof.Machine

/-! ## The failing byte of a streaming command -/

theorem byteInfo_toNat {n : Nat} (b : Byte) (h : n < 2 ^ 24) : (byteInfo n b).toNat = n * 256 + b.toNat := by
  rw [byteInfo, BitVec.toNat_append, BitVec.toNat_ofNat, Nat.mod_eq_of_lt h, Nat.shiftLeft_eq, Nat.mul_comm,
    ← Nat.two_pow_add_eq_or_of_lt b.isLt, Nat.mul_comm]

/-- IN_POS counts the bytes of a pass that completes (R32). -/
theorem streamFrom_inPos {body : Nat → Byte → State → CmdResult} : ∀ (n i : Nat) {s t : State},
    s.inPos = BitVec.ofNat 32 i → streamFrom body n i s = .ok t → t.inPos = BitVec.ofNat 32 (i + n) := by
  intro n
  induction n with
  | zero => intro i s t hs h; cases h; exact hs
  | succ n ih =>
    intro i s t _ h
    obtain ⟨b, u, -, hrest⟩ := streamFrom_succ_ok h
    rw [ih (i + 1) rfl hrest, Nat.add_assoc, Nat.add_comm 1 n]

/-- The state with another IN_LEN. -/
def State.upTo (s : State) (n : Word) : State := { s with cfg := { s.cfg with inLen := n } }

/-- The pass of a step over the first n bytes of the input range. -/
def State.pass (s : State) (step : Nat → Byte → State → CmdResult) (n : Nat) : CmdResult :=
  streamFrom step n 0 { s with inPos := 0 }

/-- A run over the first n bytes only. -/
def State.settingUpTo (s : State) (n : Word) : Setting := ⟨s.status, s.err, s.cycles, some n, 0⟩

/-- The command is the pass of a step, over its input range and over any shorter one. -/
structure StreamsOver (i : Instr) (step : Nat → Byte → State → CmdResult) (s : State) : Prop where
  ne : i ≠ .sreset
  fails : FailsFirst i step
  counts : ∃ counter, CountsBy step counter
  body : ∀ n : Word, n.toNat ≤ s.cfg.inLen.toNat → bodyOf i (s.upTo n) = stream step (s.upTo n)

section
variable {i : Instr} {step : Nat → Byte → State → CmdResult} {s : State} (hs : StreamsOver i step s)
include hs

theorem bodyOf_eq_pass : bodyOf i s = s.pass step s.cfg.inLen.toNat := hs.body s.cfg.inLen le_rfl

theorem exec_upTo {n : Word} (hn : n.toNat ≤ s.cfg.inLen.toNat) :
    exec i (s.upTo n) = finish ((s.pass step n.toNat).within (s.settingUpTo n)) := by
  obtain ⟨counter, hc⟩ := hs.counts
  rw [exec_eq, hs.body n hn]
  exact congrArg finish (streamFrom_within (x := s.settingUpTo n) hc n.toNat 0 { s with inPos := 0 } (.inl rfl))

theorem error_at_failing_byte {t : State} (hv : s.params.valid) (herr : s.status.err = false)
    (hin : s.cfg.inBase.toNat + s.cfg.inLen.toNat ≤ s.ibufSize) (h : exec i s = .next t) (ht : t.status.err = true) :
    ∃ b u, t.inPos.toNat < s.cfg.inLen.toNat ∧ s.ibuf.read (s.cfg.inBase.toNat + t.inPos.toNat) = some b ∧
      t.err.info.toNat = t.inPos.toNat * 256 + b.toNat ∧ exec i (s.upTo t.inPos) = .next u ∧ s.completed u ∧
      t.sameEngineSide u ∧ firstFailure i u b t.err.code := by
  rw [exec_eq] at h
  rcases finish_next h with ⟨u, hu, rfl⟩ | ⟨u, c, info, hu, rfl⟩
  · obtain ⟨hstatus, -⟩ := completed_of_body hs.ne hu
    rw [hstatus, herr] at ht
    cases ht
  · obtain ⟨⟨-, -, -, hcfg, hibuf, -⟩, -⟩ : Keeps (partsOf i) s u := by
      have hkeep := bodyOf_keeps i s
      rwa [hu] at hkeep
    rw [bodyOf_eq_pass hs] at hu
    obtain ⟨j, v, b, hj, hpass, hread, hfail⟩ := streamFrom_error _ _ _ hu
    obtain ⟨rfl, rfl, hfirst⟩ := hs.fails.of_error hfail
    rw [Nat.zero_add] at hread
    have hsize := ibufSize_le hv
    have hpos : u.inPos.toNat = j := by
      rw [streamFrom_inPos j 0 rfl hpass, Nat.zero_add, BitVec.toNat_ofNat]
      omega
    refine ⟨b, (u.within (s.settingUpTo u.inPos)).complete, ?_, ?_, ?_, ?_, ⟨rfl, rfl⟩,
      ⟨rfl, rfl, rfl, rfl, rfl, rfl, rfl, rfl, rfl⟩, hfirst⟩
    · rwa [raiseError_inPos, hpos]
    · rwa [raiseError_inPos, hpos, ← hcfg, ← hibuf]
    · rw [raiseError_inPos, hpos, raiseError_err, Nat.zero_add, byteInfo_toNat b (by omega)]
    · have hshort : s.pass step u.inPos.toNat = .ok u := by rwa [hpos]
      rw [raiseError_inPos, exec_upTo hs (by omega), hshort]
      rfl

theorem failing_byte_raises {n : Word} {b : Byte} {u : State} {c : ErrCode} (hv : s.params.valid)
    (herr : s.status.err = false) (hin : s.cfg.inBase.toNat + s.cfg.inLen.toNat ≤ s.ibufSize)
    (hn : n.toNat < s.cfg.inLen.toNat) (h : exec i (s.upTo n) = .next u) (hu : s.completed u)
    (hread : s.ibuf.read (s.cfg.inBase.toNat + n.toNat) = some b) (hfirst : firstFailure i u b c) :
    ∃ t info, exec i s = .next t ∧ s.raised t c info ∧ info.toNat = n.toNat * 256 + b.toNat ∧ t.inPos = n ∧
      u.sameEngineSide t := by
  obtain ⟨-, -, -, hcfg, hibuf, -⟩ := (exec_keeps h).host
  rw [exec_upTo hs hn.le] at h
  cases hpass : s.pass step n.toNat with
  | fault f => rw [hpass] at h; cases h
  | error v d k =>
    rw [hpass] at h
    cases h
    obtain ⟨hstatus, -⟩ := hu
    have htrue : true = s.status.err := congrArg Status.err hstatus
    rw [herr] at htrue
    cases htrue
  | ok v =>
    rw [hpass] at h
    cases h
    obtain ⟨m, hm⟩ : ∃ m, s.cfg.inLen.toNat = n.toNat + (m + 1) := Nat.exists_eq_add_of_lt hn
    have hbase : v.cfg.inBase = s.cfg.inBase := congrArg (·.inBase) hcfg
    have hread' : v.ibuf.read (v.cfg.inBase.toNat + n.toNat) = some b := by
      rw [hbase]
      exact (congrArg (Memory.read · _) hibuf).trans hread
    have hbody : bodyOf i s = .error v c (byteInfo n.toNat b) := by
      rw [State.pass] at hpass
      rw [bodyOf_eq_pass hs, State.pass, hm, streamFrom_add, hpass, andThen_ok,
        Nat.zero_add, streamFrom_known hread', hs.fails.error (s := v) _ hfirst, andThen_error]
    have hsize := ibufSize_le hv
    refine ⟨_, _, by rw [exec_eq, hbody, finish_error], raised_of_body hs.ne hbody, byteInfo_toNat b (by omega), ?_,
      ⟨rfl, rfl, rfl, rfl, rfl, rfl, rfl, rfl, rfl⟩⟩
    rw [raiseError_inPos, streamFrom_inPos n.toNat 0 rfl hpass, Nat.zero_add, BitVec.ofNat_toNat, BitVec.setWidth_eq]

end

section
variable {s : State} (hin : s.cfg.inBase.toNat + s.cfg.inLen.toNat ≤ s.ibufSize)
include hin

/-- A shorter input range fits where the whole one does (R77). -/
theorem inCheck_upTo {n : Word} (hn : n.toNat ≤ s.cfg.inLen.toNat) {f : State → CmdResult} :
    (inCheck (s.upTo n)).andThen f = f (s.upTo n) :=
  inCheck_then (le_trans (Nat.add_le_add_left hn _) hin)

theorem ariNarrow_streamsOver (h : s.stage.ariTblV = true ∧ s.stage.ariV = true) :
    StreamsOver .ariNarrow ariStepAt s where
  ne := by decide
  fails := ariStepAt_failsFirst
  counts := ⟨_, countsBy_ariStepAt⟩
  body n hn := (checkStage_then (i := .ariNarrow) (s := s.upTo n) (Bool.and_eq_true_iff.2 h)).trans
    (inCheck_upTo hin hn)

variable (hout : s.cfg.outBase.toNat + s.cfg.outCap.toNat ≤ s.obufSize)
include hout

theorem hufEmit_streamsOver (h : s.stage.hufStage = 3) : StreamsOver .hufEmit emitByte s where
  ne := by decide
  fails := emitByte_failsFirst
  counts := ⟨_, countsBy_emitByte⟩
  body n hn := (checkStage_then (i := .hufEmit) (s := s.upTo n) (beq_iff_eq.2 h)).trans
    ((inCheck_upTo hin hn).trans (outCheck_then (s := s.upTo n) hout))

theorem lzwRun_streamsOver (h : s.stage.lzwV = true) : StreamsOver .lzwRun lzwStepAt s where
  ne := by decide
  fails := lzwStepAt_failsFirst
  counts := ⟨_, countsBy_lzwStepAt⟩
  body n hn := (checkStage_then (i := .lzwRun) (s := s.upTo n) h).trans
    ((inCheck_upTo hin hn).trans (outCheck_then (s := s.upTo n) hout))

end

/-! ## The phases of a fused command -/

/-- The bodies of a list of commands one after another. -/
def runBodies : List Instr → State → CmdResult
  | [], s => .ok s
  | i :: rest, s => (bodyOf i s).andThen (runBodies rest)

/-- Every command of the list is a phase that is safe in the state it runs in. -/
def phasesSafe : List Instr → State → Prop
  | [], _ => True
  | i :: rest, s => phaseSafe i s ∧ ∀ t, bodyOf i s = .ok t → phasesSafe rest t

theorem ne_sreset_of_phaseSafe {i : Instr} {s : State} (h : phaseSafe i s) : i ≠ .sreset := by
  rintro rfl
  exact h

/-- The end of a body, in what the engine writes, is the end of the commands run one by one from s: all complete, or one
ends by the error after those before it have completed. -/
def CmdResult.EndsAs (phases : List Instr) (s : State) : CmdResult → Prop
  | .ok t => ∃ u, runsClean phases s u ∧ u.sameEngineSide t
  | .error t code info => ∃ before j after u v, phases = before ++ j :: after ∧ runsClean before s u ∧
      exec j u = .next v ∧ u.raised v code info ∧ v.sameEngineSide t
  | .fault _ => True

theorem endsAs_cons {i : Instr} {phases : List Instr} {s t : State} {r : CmdResult} (h : exec i s = .next t)
    (hdone : s.completed t) (hr : r.EndsAs phases t) : r.EndsAs (i :: phases) s := by
  cases r with
  | ok u =>
    obtain ⟨v, hrun, hside⟩ := hr
    exact ⟨v, ⟨t, h, hdone, hrun⟩, hside⟩
  | error u c k =>
    obtain ⟨before, j, after, v, w, rfl, hrun, hfail⟩ := hr
    exact ⟨i :: before, j, after, v, w, rfl, ⟨t, h, hdone, hrun⟩, hfail⟩
  | fault f => trivial

/-- The setting the next command runs in: the end of this one has written STATUS and CYCLES and drawn a free value. -/
def Setting.afterEnd (x : Setting) (s : State) : Setting :=
  { x with
    status := { x.status with busy := false, done := true }
    cycles := Config.freeCycles (s.draws + x.ahead)
    ahead := x.ahead + 1 }

theorem complete_within (s : State) (x : Setting) : (s.within x).complete = s.within (x.afterEnd s) := rfl

theorem runBodies_endsAs : ∀ (phases : List Instr) {s : State} {x : Setting}, x.inLen = none → phasesSafe phases s →
    (runBodies phases s).EndsAs phases (s.within x) := by
  intro phases
  induction phases with
  | nil => exact fun _ _ => ⟨_, rfl, rfl, rfl, rfl, rfl, rfl, rfl, rfl, rfl, rfl⟩
  | cons i phases ih =>
    intro s x hx hsafe
    obtain ⟨hi, hrest⟩ := hsafe
    have hne := ne_sreset_of_phaseSafe hi
    have hbody := bodyOf_within hx hi
    cases hr : bodyOf i s with
    | fault f => rw [runBodies, hr]; trivial
    | error t c k =>
      rw [hr] at hbody
      rw [runBodies, hr]
      exact ⟨[], i, phases, s.within x, (t.within x).raiseError c k, rfl, rfl, by rw [exec_eq, hbody]; rfl,
        raised_of_body hne hbody, rfl, rfl, rfl, rfl, rfl, rfl, rfl, rfl, rfl⟩
    | ok t =>
      rw [hr] at hbody
      rw [runBodies, hr, andThen_ok]
      refine endsAs_cons (t := (t.within x).complete) (by rw [exec_eq, hbody]; rfl) (completed_of_body hne hbody) ?_
      rw [complete_within]
      exact ih hx (hrest t hr)

/-- The fused commands and their phases (R98, R106, R114). -/
def fusedPhases : List (Instr × List Instr) :=
  [(.hufEncode false, [.bpClear, .freq, .hufInit, .hufBuild, .hufCodes, .hufEmit, .bpPad, .result]),
    (.hufEncode true, [.bpClear, .freq, .hufInit, .hufBuild, .hufCodes, .hufCanon, .hufEmit, .bpPad, .result]),
    (.ariEncode, [.bpClear, .freq, .ariTable, .ariInit, .ariNarrow, .ariFinal, .bpPad, .result]),
    (.lzwEncode, [.bpClear, .lzwInit, .lzwRun, .lzwFlush, .bpPad, .result])]

theorem runBodies_result : runBodies [.result] = resultBody := by
  funext s
  show (resultBody s).andThen CmdResult.ok = _
  cases resultBody s <;> rfl

/-- Behind its two checks, the body of a fused command is its phases' bodies one after another. -/
theorem bodyOf_fused {i : Instr} {phases : List Instr} {s : State} (h : (i, phases) ∈ fusedPhases)
    (hin : s.cfg.inBase.toNat + s.cfg.inLen.toNat ≤ s.ibufSize)
    (hout : s.cfg.outBase.toNat + s.cfg.outCap.toNat ≤ s.obufSize) : bodyOf i s = runBodies phases s := by
  have checked {i f} (hi : bodyOf i s = (inCheck s).andThen fun s => (outCheck s).andThen f) : bodyOf i s = f s :=
    hi.trans ((inCheck_then hin).trans (outCheck_then hout))
  simp only [fusedPhases, List.mem_cons, Prod.mk.injEq, List.not_mem_nil, or_false] at h
  rcases h with ⟨rfl, rfl⟩ | ⟨rfl, rfl⟩ | ⟨rfl, rfl⟩ | ⟨rfl, rfl⟩ <;>
    exact (checked rfl).trans (by rw [← runBodies_result]; rfl)

/-! ## The counters of the phases -/

theorem phasesSafe_of_forall {phases : List Instr} (h : ∀ i ∈ phases, ∀ s, phaseSafe i s) :
    ∀ s, phasesSafe phases s := by
  induction phases with
  | nil => exact fun _ => trivial
  | cons i phases ih =>
    obtain ⟨hi, hrest⟩ := List.forall_mem_cons.1 h
    exact fun s => ⟨hi s, fun t _ => ih hrest t⟩

/-- ARI_INIT sets ARI_K to 0, and the pass counts no more than IN_LEN. -/
theorem phasesSafe_ariEncode (s : State) :
    phasesSafe [.bpClear, .freq, .ariTable, .ariInit, .ariNarrow, .ariFinal, .bpPad, .result] s := by
  refine ⟨trivial, fun _ _ => ⟨trivial, fun _ _ => ⟨trivial, fun t _ => ⟨trivial, fun u hu => ⟨?_, fun v _ => ?_⟩⟩⟩⟩⟩
  · cases hu
    show 0 + t.cfg.inLen.toNat < 2 ^ 32
    omega
  · exact phasesSafe_of_forall (by simp [phaseSafe]) v

theorem check_ok {b : Bool} {c : ErrCode} {i : Word} {s t : State} {f : State → CmdResult}
    (h : (require b c i s).andThen f = .ok t) : f s = .ok t := by
  cases b with
  | true => exact h
  | false => cases h

theorem lzwRun_ncodes_le {s t : State} (hlt : s.lzw.ncodes.toNat + s.cfg.inLen.toNat < 2 ^ 32)
    (h : bodyOf .lzwRun s = .ok t) : t.lzw.ncodes.toNat ≤ s.lzw.ncodes.toNat + s.cfg.inLen.toNat := by
  have hpass : stream lzwStepAt s = .ok t := check_ok (check_ok (check_ok h))
  exact streamFrom_count_le (s := { s with inPos := 0 }) countsBy_lzwStepAt _ 0 hlt hpass

/-- LZW_INIT sets LZW_NCODES to 0, the pass counts no more than IN_LEN, and the flush one more. -/
theorem phasesSafe_lzwEncode {s : State} (hlen : s.cfg.inLen.toNat + 1 < 2 ^ 32) :
    phasesSafe [.bpClear, .lzwInit, .lzwRun, .lzwFlush, .bpPad, .result] s := by
  refine ⟨trivial, fun t ht => ⟨trivial, fun u hu => ?_⟩⟩
  cases ht
  cases hu
  have hrun : 0 + s.cfg.inLen.toNat < 2 ^ 32 := by omega
  refine ⟨hrun, fun v hv => ⟨fun hmax => ?_, fun w _ => phasesSafe_of_forall (by simp [phaseSafe]) w⟩⟩
  have hle : v.lzw.ncodes.toNat ≤ 0 + s.cfg.inLen.toNat :=
    lzwRun_ncodes_le (s := seedDict (clearStream s)) hrun hv
  rw [hmax, BitVec.toNat_allOnes] at hle
  omega

theorem phasesSafe_fused {i : Instr} {phases : List Instr} {s : State} (h : (i, phases) ∈ fusedPhases)
    (hlen : s.cfg.inLen.toNat + 1 < 2 ^ 32) : phasesSafe phases s := by
  simp only [fusedPhases, List.mem_cons, Prod.mk.injEq, List.not_mem_nil, or_false] at h
  rcases h with ⟨rfl, rfl⟩ | ⟨rfl, rfl⟩ | ⟨rfl, rfl⟩ | ⟨rfl, rfl⟩
  · exact phasesSafe_of_forall (by simp [phaseSafe]) s
  · exact phasesSafe_of_forall (by simp [phaseSafe]) s
  · exact phasesSafe_ariEncode s
  · exact phasesSafe_lzwEncode hlen

theorem fused_ne_sreset {i : Instr} {phases : List Instr} (h : (i, phases) ∈ fusedPhases) : i ≠ .sreset := by
  rintro rfl
  simp [fusedPhases] at h

/-- The setting a command starts in: its own. -/
def State.setting (s : State) : Setting := ⟨s.status, s.err, s.cycles, none, 0⟩

theorem within_setting (s : State) : s.within s.setting = s := rfl

/-- Settles O20: a streaming command is the pass of a step that fails first where a check fails, and a fused command is
its phases' bodies, which end as the phases run one by one do. -/
theorem errorsArePreciseAtTheByteAndThePhase : Obligations.ErrorsArePreciseAtTheByteAndThePhase := by
  refine ⟨fun i s hi hv herr hin hout hemit hnarrow hrun => ?_, fun i phases s t hi hv hin hout h => ?_⟩
  · obtain ⟨step, hs⟩ : ∃ step, StreamsOver i step s := by
      simp only [List.mem_cons, List.not_mem_nil, or_false] at hi
      rcases hi with rfl | rfl | rfl
      · exact ⟨_, hufEmit_streamsOver hin (hout (by decide)) (hemit rfl)⟩
      · exact ⟨_, ariNarrow_streamsOver hin (hnarrow rfl)⟩
      · exact ⟨_, lzwRun_streamsOver hin (hout (by decide)) (hrun rfl)⟩
    exact ⟨fun t => error_at_failing_byte hs hv herr hin, fun n b u c => failing_byte_raises hs hv herr hin⟩
  · change (i, phases) ∈ fusedPhases at hi
    have hsize := ibufSize_le hv
    have hends := runBodies_endsAs phases (s := s) (x := s.setting) rfl (phasesSafe_fused hi (by omega))
    rw [within_setting, ← bodyOf_fused hi hin hout] at hends
    rw [exec_eq] at h
    rcases finish_next h with ⟨u, hu, rfl⟩ | ⟨u, code, info, hu, rfl⟩
    · rw [hu] at hends
      exact .inl ⟨completed_of_body (fused_ne_sreset hi) hu, hends⟩
    · rw [hu] at hends
      obtain ⟨before, j, after, v, w, hsplit, hclean, hexec, hraised, hside⟩ := hends
      exact .inr ⟨before, j, after, v, w, code, info, hsplit, hclean, hexec, hraised,
        raised_of_body (fused_ne_sreset hi) hu, hside⟩

end Sys2Proof.Machine
end

section
/-! SUPPORT. FREQ as a command (O27; 41_frequency.md R85, R86): it completes on a readable input range, and the state it
leaves has the table, the totals and the voided models that its body gives. -/

namespace Sys2Proof.Machine

/-- Settles O27: the body's counting pass (`freqBody_counts`), which the end of the command leaves as it is. FREQ_NSYM
counts the non-zero entries of the table, and those are the bytes that occur. -/
theorem freqCountsEverySymbol : Obligations.FreqCountsEverySymbol := by
  intro s bs _ hrange hin
  obtain ⟨t, hbody, hcount, htotal, hnsym, hpos, -, hstage, -⟩ := freqBody_counts ((inRangeOk_iff s).2 hrange) hin
  have hexec : exec .freq s = .next t.complete := by rw [exec_eq, bodyOf, hbody, finish_ok]
  have hpresent : t.freq.nsym.toNat = bs.toFinset.card := hnsym.trans (presentCount_counted hcount)
  exact ⟨t.complete, hexec, completed_of_body (i := .freq) (by decide) hbody, hcount, htotal, hpresent, hpos, hstage⟩

end Sys2Proof.Machine
end

section
/-! SUPPORT. Every step keeps the Huffman unit's invariant (O57; 42_huffman.md R87-R96), and what the invariant says of
a complete tree (O58; R92). A command writes what the invariant reads only where it voids the tree (FREQ, the resets),
plants the leaves, merges, or writes the code table. -/

namespace Sys2Proof.Machine

/-! ## What the invariant reads -/

/-- The parts of the state that the Huffman unit's invariant speaks of. -/
def hufParts : List Part := [.freq, .tree, .codeLen, .codeVal, .bit .hufStage, .bit .hufCanon]

theorem treeCodes_congr {h h' : Huffman} (ha : h'.arena = h.arena) (hr : h'.root = h.root) :
    treeCodes h' = treeCodes h := by
  unfold treeCodes
  rw [ha, hr]

theorem bool_eq_of_toNat_eq : ∀ a b : Bool, a.toNat = b.toNat → a = b := by decide

theorem huffmanInv_congr {s t : State} (hs : HuffmanInv s) (h : ∀ p ∈ hufParts, samePart s t p) : HuffmanInv t := by
  have hfreq : t.freq = s.freq := h .freq (by decide)
  have htree := h .tree (by decide)
  have hlen := h .codeLen (by decide)
  have hval : t.huf.codeVal = s.huf.codeVal := h .codeVal (by decide)
  have hstage : t.stage.hufStage = s.stage.hufStage := BitVec.eq_of_toNat_eq (h (.bit .hufStage) (by decide))
  have hcanon : t.stage.hufCanon = s.stage.hufCanon := bool_eq_of_toNat_eq _ _ (h (.bit .hufCanon) (by decide))
  simp only [samePart, Prod.mk.injEq] at htree hlen
  obtain ⟨harena, hnnodes, hlive, hroot⟩ := htree
  obtain ⟨harenaInv, hmerging, hcomplete, hrootAt, hcodes, hcanonAt⟩ := hs
  constructor
  · rw [hstage, hfreq]
    exact fun h0 => arenaInv_congr hnnodes hlive harena (harenaInv h0)
  · rwa [hstage, hlive]
  · rwa [hstage, hlive]
  · rwa [hstage, hroot, harena]
  · rwa [hstage, hcanon, hlen.1, hval, treeCodes_congr harena hroot]
  · rwa [hstage, hcanon]

/-- With no tree the invariant says nothing (R142, 41_frequency.md R85). -/
theorem huffmanInv_of_noTree {s : State} (h0 : s.stage.hufStage = 0) (hc : s.stage.hufCanon = false) :
    HuffmanInv s := by
  constructor <;> simp [h0, hc]

/-- Before HUF_CODES the invariant is the tree's. -/
theorem huffmanInv_of_treeInv {s : State} (h : TreeInv s) (h3 : s.stage.hufStage ≠ 3) (hc : s.stage.hufCanon = false) :
    HuffmanInv s where
  arena _ := h.arena
  merging := h.merging
  complete := h.complete
  root := h.root
  codes h3' := absurd h3' h3
  canon hc' := by simp [hc] at hc'

/-- HUF_CODES leaves the codes of the tree (R93). -/
theorem huffmanInv_extractCodes {s : State} (h : TreeInv s) (h2 : 2 ≤ s.stage.hufStage.toNat) :
    HuffmanInv (extractCodes s) where
  arena _ := arenaInv_congr (by simp) (by simp) (by simp) h.arena
  merging h1 := by simp at h1
  complete _ := by rw [extractCodes_live]; exact h.complete h2
  root _ := by rw [extractCodes_root, extractCodes_arena]; exact h.root h2
  codes _ := by
    rw [treeCodes_congr (extractCodes_arena s) (extractCodes_root s)]
    simp
  canon hc := by simp at hc

/-! ## The bodies that write what it reads -/

section
variable {s : State}

theorem freqBody_huffmanInv (hs : HuffmanInv s) : (freqBody s).Ends HuffmanInv := by
  cases hr : freqBody s with
  | ok t =>
    obtain ⟨-, hstage, -⟩ := freqBody_inv hr
    exact huffmanInv_of_noTree (by rw [hstage]) (by rw [hstage])
  | error t c i =>
    obtain ⟨rfl, -, -⟩ := freqBody_error hr
    exact hs
  | fault x => trivial

theorem huffmanInv_plantLeaves (hf : FreqInv s) : HuffmanInv (plantLeaves s) := by
  refine huffmanInv_of_treeInv (plantLeaves_inv hf.total) ?_ rfl
  show (if (leavesOf s.freq.count).length ≤ 1 then (2 : BitVec 2) else 1) ≠ 3
  split <;> decide

/-- While the tree is being merged there are no codes, and none are canonical. -/
theorem hufCanon_of_ne_three (hs : HuffmanInv s) (h3 : s.stage.hufStage ≠ 3) : s.stage.hufCanon = false := by
  by_contra hc
  exact h3 (hs.canon (by simpa using hc))

theorem huffmanInv_mergeStep (hs : HuffmanInv s) (h1 : 1 ≤ s.stage.hufStage.toNat) : HuffmanInv (mergeStep s) := by
  have ht := treeInv_of hs h1
  rcases Nat.lt_or_ge s.stage.hufStage.toNat 2 with hlt | hge
  · have hone : s.stage.hufStage = 1 := stage_one.2 (by omega)
    obtain ⟨htree, -, hstage⟩ := mergeStep_merging ht hone
    refine huffmanInv_of_treeInv htree ?_ ?_
    · rw [hstage]
      show (if _ then (2 : BitVec 2) else 1) ≠ 3
      split <;> decide
    · rw [hstage]
      exact hufCanon_of_ne_three hs (by rw [hone]; decide)
  · rw [mergeStep_complete ht hge]
    exact hs

theorem mergeUntilOne_of_le_one (h : s.huf.live.toNat ≤ 1) : ∀ n, mergeUntilOne n s = s := by
  rintro (- | n)
  · rfl
  · exact if_pos h

/-- A build of a complete tree changes nothing (R90, R91). -/
theorem buildTree_complete (ht : TreeInv s) (h2 : 2 ≤ s.stage.hufStage.toNat) : buildTree s = s := by
  rw [buildTree, mergeStep_complete ht h2]
  exact mergeUntilOne_of_le_one (ht.complete h2) _

theorem huffmanInv_buildTree (hs : HuffmanInv s) (h1 : 1 ≤ s.stage.hufStage.toNat) : HuffmanInv (buildTree s) := by
  have ht := treeInv_of hs h1
  rcases Nat.lt_or_ge s.stage.hufStage.toNat 2 with hlt | hge
  · have hone : s.stage.hufStage = 1 := stage_one.2 (by omega)
    obtain ⟨htree, -, hstage⟩ := buildTree_inv ht
    refine huffmanInv_of_treeInv htree ?_ ?_
    · rw [hstage, if_pos hone]
      decide
    · have hcanon : (buildTree s).stage.hufCanon = s.stage.hufCanon := by rw [(sameButTree_buildTree s).1]
      rw [hcanon]
      exact hufCanon_of_ne_three hs (by rw [hone]; decide)
  · rw [buildTree_complete ht hge]
    exact hs

/-- The canonical code of a symbol in the list of R96 does not depend on the codes before. -/
theorem canonFrom_mem (lens : Table (BitVec 9)) (b : Byte) :
    ∀ (l : List Byte) (code len : Nat) (t u : Table (BitVec 256)), b ∈ l ∨ t.at b = u.at b →
      (canonFrom lens l code len t).at b = (canonFrom lens l code len u).at b := by
  intro l
  induction l with
  | nil => simp [canonFrom]
  | cons x l ih =>
    intro code len t u h
    refine ih _ _ _ _ ?_
    by_cases hb : b = x
    · exact .inr (by rw [hb, table_at_put_same, table_at_put_same])
    · rw [table_at_put_other _ _ hb, table_at_put_other _ _ hb]
      simpa [hb] using h

/-- HUF_CANON reads the codes before only where it keeps them: for the symbols without a code (R96). -/
theorem canonVals_congr {lens : Table (BitVec 9)} {vals vals' : Table (BitVec 256)}
    (h : ∀ b, lens.at b = 0 → vals.at b = vals'.at b) : canonVals lens vals = canonVals lens vals' := by
  refine table_ext fun b => ?_
  by_cases hb : lens.at b = 0
  · rw [canonVals_other lens vals hb, canonVals_other lens vals' hb, h b hb]
  · have hmem := ((canonList_spec lens).2.2 b).2 hb
    unfold canonVals
    cases hl : canonList lens with
    | nil => simp [hl] at hmem
    | cons x rest =>
      rw [hl, List.mem_cons] at hmem
      refine canonFrom_mem lens b rest 0 _ _ _ ?_
      rcases hmem with rfl | hmem
      · exact .inr (by rw [table_at_put_same, table_at_put_same])
      · exact .inl hmem

/-- "Applying it twice gives the same table as once" (R96). -/
theorem canonVals_idem (lens : Table (BitVec 9)) (vals : Table (BitVec 256)) :
    canonVals lens (canonVals lens vals) = canonVals lens vals :=
  canonVals_congr fun _ hb => canonVals_other lens vals hb

theorem huffmanInv_renumberCodes (hs : HuffmanInv s) (h3 : s.stage.hufStage = 3) : HuffmanInv (renumberCodes s) := by
  obtain ⟨hlen, hval⟩ := hs.codes h3
  refine ⟨fun h0 => arenaInv_congr (h := s.huf) rfl rfl rfl (hs.arena h0), hs.merging, hs.complete, hs.root,
    fun _ => ⟨hlen, ?_⟩, fun _ => h3⟩
  show canonVals s.huf.codeLen s.huf.codeVal = canonVals (treeCodes s.huf).1 (treeCodes s.huf).2
  rw [hlen, hval]
  cases s.stage.hufCanon
  · rfl
  · exact canonVals_idem _ _

end

/-! ## Every body -/

/-- A body that writes nothing the invariant reads. -/
theorem huffmanInv_of_keeps {i : Instr} {s : State} (hs : HuffmanInv s) (h : ∀ p ∈ hufParts, p ∉ partsOf i) :
    (bodyOf i s).Ends HuffmanInv :=
  ends_imp (bodyOf_keeps i s) fun _ hk => huffmanInv_congr hs fun p hp => hk.part p (h p hp)

/-- The commands that are no sequence of phases. -/
theorem unfusedBody_huffmanInv {i : Instr} (hi : startsStream i = false) {s : State} (hf : FreqInv s)
    (hs : HuffmanInv s) : (bodyOf i s).Ends HuffmanInv := by
  cases i
  case hufEncode | ariEncode | lzwEncode => cases hi
  case sreset => exact huffmanInv_of_noTree rfl rfl
  case freq => exact freqBody_huffmanInv hs
  case hufInit => exact ends_check hs fun _ => huffmanInv_plantLeaves hf
  case hufMerge => exact ends_check hs fun h => huffmanInv_mergeStep hs (of_decide_eq_true h)
  case hufBuild => exact ends_check hs fun h => huffmanInv_buildTree hs (of_decide_eq_true h)
  case hufCodes =>
    refine ends_check hs fun h => ?_
    have h2 : 2 ≤ s.stage.hufStage.toNat := of_decide_eq_true h
    exact huffmanInv_extractCodes (treeInv_of hs (by omega)) h2
  case hufCanon => exact ends_check hs fun h => huffmanInv_renumberCodes hs (beq_iff_eq.1 h)
  all_goals exact huffmanInv_of_keeps hs (by simp [hufParts, partsOf])

theorem ends_runBodies {P : State → Prop} {phases : List Instr}
    (h : ∀ i ∈ phases, ∀ s, P s → (bodyOf i s).Ends P) : ∀ s, P s → (runBodies phases s).Ends P := by
  induction phases with
  | nil => exact fun _ hs => hs
  | cons i phases ih =>
    obtain ⟨hi, hrest⟩ := List.forall_mem_cons.1 h
    exact fun s hs => ends_andThen (hi s hs) fun t _ ht => ih hrest t ht

/-- A fused command checks its two ranges first (R83). -/
theorem bodyOf_fused_checks {i : Instr} {phases : List Instr} (h : (i, phases) ∈ fusedPhases) (s : State) :
    ∃ f, bodyOf i s = (inCheck s).andThen fun s => (outCheck s).andThen f := by
  simp only [fusedPhases, List.mem_cons, Prod.mk.injEq, List.not_mem_nil, or_false] at h
  rcases h with ⟨rfl, -⟩ | ⟨rfl, -⟩ | ⟨rfl, -⟩ | ⟨rfl, -⟩ <;> exact ⟨_, rfl⟩

/-- What every phase of a fused command keeps, the command keeps (R83). -/
theorem fusedBody_ends {P : State → Prop} {i : Instr} {phases : List Instr} (hi : (i, phases) ∈ fusedPhases)
    (h : ∀ j ∈ phases, ∀ s, P s → (bodyOf j s).Ends P) {s : State} (hs : P s) : (bodyOf i s).Ends P := by
  obtain ⟨f, hf⟩ := bodyOf_fused_checks hi s
  rcases Nat.lt_or_ge s.ibufSize (s.cfg.inBase.toNat + s.cfg.inLen.toNat) with hin | hin
  · rw [hf, inCheck_raises hin]
    exact hs
  · rcases Nat.lt_or_ge s.obufSize (s.cfg.outBase.toNat + s.cfg.outCap.toNat) with hout | hout
    · rw [hf, inCheck_then hin, outCheck_raises hout]
      exact hs
    · rw [bodyOf_fused hi hin hout]
      exact ends_runBodies h s hs

/-- The phases of the fused commands are no fused commands. -/
theorem phases_unfused : ∀ p ∈ fusedPhases, ∀ j ∈ p.2, startsStream j = false := by decide

theorem mem_fusedPhases {i : Instr} (h : startsStream i = true) : ∃ p ∈ fusedPhases, p.1 = i := by
  cases i
  case hufEncode canon => cases canon <;> decide
  case ariEncode | lzwEncode => decide
  all_goals cases h

theorem bodyOf_huffmanInv (i : Instr) {s : State} (hf : FreqInv s) (hs : HuffmanInv s) :
    (bodyOf i s).Ends HuffmanInv := by
  cases hi : startsStream i with
  | false => exact unfusedBody_huffmanInv hi hf hs
  | true =>
    obtain ⟨⟨_, phases⟩, hphases, rfl⟩ := mem_fusedPhases hi
    refine ends_imp (fusedBody_ends (P := fun t => FreqInv t ∧ HuffmanInv t) hphases ?_ ⟨hf, hs⟩) fun _ h => h.2
    rintro j hj t ⟨hft, hst⟩
    exact ends_and (bodyOf_freqInv j hft) (unfusedBody_huffmanInv (phases_unfused _ hphases j hj) hft hst)

/-- Settles O57: the bodies keep the invariant, and no host event but a reset touches what it reads. -/
theorem stepKeepsTheTree : Obligations.StepKeepsTheTree := by
  intro s t _ hf hs h
  exact step_keeps hs h (fun i => bodyOf_huffmanInv i hf hs)
    (fun _ hu => huffmanInv_congr hu fun p _ => by cases p <;> rfl)
    (fun _ _ _ hu => huffmanInv_congr hu fun p _ => by cases p <;> rfl)
    (fun _ _ => huffmanInv_of_noTree rfl rfl)
    (fun _ _ htouch hu => huffmanInv_congr hu (by simp [hufParts, samePart, htouch.freq, htouch.huf, htouch.stage]))

/-! ## The complete tree (R92) -/

section
variable {s : State} (ht : TreeInv s) (h2 : 2 ≤ s.stage.hufStage.toNat)
include ht h2

/-- Once HUF_STAGE ≥ 2, a tree of k ≥ 1 symbols has 2k - 1 nodes, one of them live, and its last node is its root. -/
theorem completeTree_shape (hk : 1 ≤ presentCount s.freq.count) :
    s.huf.arena.length = 2 * presentCount s.freq.count - 1 ∧ s.huf.arena.countP (·.live) = 1 ∧
      s.huf.root.toNat = s.huf.arena.length - 1 := by
  have hle := ht.complete h2
  have hbalance := ht.arena.balance
  have hcount := ht.arena.liveCount
  have hne : s.huf.arena.length ≠ 0 := by omega
  have hpos := live_pos ht.arena hne
  have hroot := ht.root h2
  rw [if_neg hne] at hroot
  omega

end

/-- The weight of an arena with one live node is that node's frequency. -/
theorem liveWeight_of_one_live {ar : List Node} {i : Nat} {nd : Node} (h1 : ar.countP (·.live) = 1)
    (hn : ar[i]? = some nd) (hl : nd.live = true) : liveWeight ar = nd.freq.toNat := by
  have hcount := countP_kill hn hl
  have hweight := liveWeight_kill hn hl
  have hzero : (ar.set i { nd with live := false }).countP (·.live) = 0 := by omega
  have hnone := List.filter_eq_nil_iff.2 (List.countP_eq_zero.1 hzero)
  rw [liveWeight, hnone] at hweight
  simpa using hweight.symm

/-- Settles O58: the shape of the complete tree, the arena's invariant node by node, and that a tree has exactly one path
to each of its nodes. -/
theorem completeTreeIsAsRuled : Obligations.CompleteTreeIsAsRuled := by
  intro s hf hs h2 hk
  have ht := treeInv_of hs (by omega)
  rw [hf.nsym] at hk ⊢
  obtain ⟨hlen, hone, hroot⟩ := completeTree_shape ht h2 hk
  have hlt : s.huf.arena.length - 1 < s.huf.arena.length := by omega
  have hlast := List.getElem?_eq_getElem hlt
  have hlive := last_live ht.arena hlast
  have htree := arena_tree ht.arena hone
  refine ⟨ht.arena.nnodes.trans hlen, by omega, fun i nd hn => ?_, ?_, fun i nd hn hl => ?_, fun i nd hn _ => ?_⟩
  · rw [hroot]
    refine ⟨fun hl => ?_, ?_⟩
    · by_contra hi
      have := two_live_ne hn hlast hl hlive hi
      omega
    · rintro rfl
      exact last_live ht.arena hn
  · refine BitVec.eq_of_toNat_eq ?_
    rw [← ht.arena.weight, liveWeight_of_one_live hone hlast hlive, hroot, nodeFreq, hlast]
    rfl
  · have hk : presentCount s.freq.count ≤ i := by
      by_contra hi
      have := (arena_leaf ht.arena hn (by omega)).2.2
      simp [hl] at this
    exact (ht.arena.inner i nd hn hk).2.2.2
  · rw [hroot]
    obtain ⟨p, hp⟩ := follow_exists htree _ i le_rfl (List.getElem?_eq_some_iff.1 hn).1
    exact ⟨p, hp, fun q hq => follow_unique htree q p i hq hp⟩

end Sys2Proof.Machine
end

section
/-! SUPPORT. HUF_INIT, HUF_MERGE and HUF_BUILD as commands (O28, O29, O30; 42_huffman.md R88-R91). HUF_BUILD is the
merge step iterated: each one lowers HUF_LIVE while two nodes are live, and with one live node left it changes nothing
more. -/

namespace Sys2Proof.Machine

theorem exec_of_body {i : Instr} {s t : State} (h : bodyOf i s = .ok t) : exec i s = .next t.complete := by
  rw [exec_eq, h, finish_ok]

/-! ## HUF_INIT (R88) -/

theorem plantLeaves_lengths (s : State) : (plantLeaves s).huf.nnodes.toNat = (plantLeaves s).huf.arena.length ∧
    (plantLeaves s).huf.live.toNat = (plantLeaves s).huf.arena.length := by
  have hle := presentCount_le s.freq.count
  have hlen := leavesOf_length s.freq.count
  have h10 : (BitVec.ofNat 10 (leavesOf s.freq.count).length).toNat = (leavesOf s.freq.count).length := by
    rw [BitVec.toNat_ofNat, Nat.mod_eq_of_lt]
    omega
  exact ⟨h10, h10⟩

/-- Settles O28: the leaves of the present symbols, as `leavesOf` lists them, and cleared tables. -/
theorem hufInitPlantsTheLeaves : Obligations.HufInitPlantsTheLeaves := by
  intro s h
  have hbody : bodyOf .hufInit s = .ok (plantLeaves s) := checkStage_then h
  obtain ⟨hnnodes, hlive⟩ := plantLeaves_lengths s
  refine ⟨_, exec_of_body hbody, completed_of_body (by decide) hbody, leavesOf_syms _, fun nd hn => ?_, hnnodes, hlive,
    rfl, rfl, fun b => ⟨table_at_replicate _ b, table_at_replicate _ b⟩, rfl⟩
  obtain ⟨b, -, rfl⟩ := mem_leavesOf.1 hn
  exact ⟨rfl, rfl, rfl, rfl, rfl⟩

/-! ## HUF_MERGE (R89, R90) -/

section
variable (s : State)
@[simp] theorem settleRoot_arena : (settleRoot s).huf.arena = s.huf.arena := by unfold settleRoot; split <;> rfl
@[simp] theorem settleRoot_live : (settleRoot s).huf.live = s.huf.live := by unfold settleRoot; split <;> rfl
@[simp] theorem settleRoot_nnodes : (settleRoot s).huf.nnodes = s.huf.nnodes := by unfold settleRoot; split <;> rfl
end

section
variable {s : State}

theorem hufMergeBody_ok (h : 1 ≤ s.stage.hufStage.toNat) : bodyOf .hufMerge s = .ok (mergeStep s) :=
  checkStage_then (decide_eq_true h)

theorem settleRoot_of_one (h : s.huf.live = 1) : (settleRoot s).huf.root = soleLive s.huf.arena ∧
    (settleRoot s).stage.hufStage = if s.stage.hufStage = 1 then 2 else s.stage.hufStage := by
  rw [settleRoot, if_pos h]
  exact ⟨rfl, rfl⟩

theorem settleRoot_of_ne_one (h : s.huf.live ≠ 1) : settleRoot s = s := if_neg h

/-- The root and the stage settle at once (R90). -/
theorem settleRoot_idem (s : State) : settleRoot (settleRoot s) = settleRoot s := by
  by_cases h : s.huf.live = 1
  · by_cases h1 : s.stage.hufStage = 1#2
    · simp [settleRoot, h, h1]
    · simp [settleRoot, h, h1]
  · rw [settleRoot_of_ne_one h, settleRoot_of_ne_one h]

theorem mergeStep_of_le_one (h : s.huf.live.toNat ≤ 1) : mergeStep s = settleRoot s := by
  rw [mergeStep, if_neg (by omega)]

theorem mergeStep_of_two_le (h : 2 ≤ s.huf.live.toNat) : mergeStep s = settleRoot { s with huf := mergeTwo s.huf } := by
  rw [mergeStep, if_pos h]

/-- HUF_LIVE counts the live nodes (R36, R89). -/
def Huffman.countsLive (h : Huffman) : Prop := h.live.toNat = h.arena.countP (·.live)

/-- A merge takes two live nodes away and adds one (R90). -/
theorem mergeTwo_live {h : Huffman} (hl : h.countsLive) (h2 : 2 ≤ h.live.toNat) :
    (mergeTwo h).countsLive ∧ (mergeTwo h).live.toNat + 1 = h.live.toNat := by
  have hcount := hl
  rw [Huffman.countsLive] at hcount
  obtain ⟨a, b, x, y, hx, hy, hxl, hyl, hab, -, -, he⟩ := mergeTwo_spec (h := h) (by omega)
  have hy' : (h.arena.set a { x with live := false })[b]? = some y := by
    rw [getElem?_kill hx, hy]
    simp [hab.symm]
  have hca := countP_kill hx hxl
  have hcb := countP_kill hy' hyl
  have hlive : (h.live - 1 - 1 + 1).toNat + 1 = h.live.toNat := by bv_omega
  rw [he]
  refine ⟨?_, hlive⟩
  rw [Huffman.countsLive, List.countP_append, List.countP_singleton, if_pos rfl]
  show (h.live - 1 - 1 + 1).toNat = _
  omega

theorem mergeStep_live (hl : s.huf.countsLive) (h2 : 2 ≤ s.huf.live.toNat) :
    (mergeStep s).huf.countsLive ∧ (mergeStep s).huf.live.toNat + 1 = s.huf.live.toNat := by
  rw [mergeStep_of_two_le h2, Huffman.countsLive, settleRoot_live, settleRoot_arena]
  exact mergeTwo_live hl h2

/-- The first live node, where there is one. -/
theorem soleLive_live {ar : List Node} (h : 0 < ar.countP (·.live)) (hlen : ar.length < 512) :
    ∃ nd, ar[(soleLive ar).toNat]? = some nd ∧ nd.live = true := by
  have hlt : ar.findIdx (·.live) < ar.length := List.findIdx_lt_length_of_exists (List.countP_pos_iff.1 h)
  refine ⟨ar[ar.findIdx (·.live)], ?_, List.findIdx_getElem⟩
  rw [soleLive, BitVec.toNat_ofNat, Nat.mod_eq_of_lt (by omega), List.getElem?_eq_getElem hlt]

/-- Between two nodes the order of R89 is strict. -/
theorem keyLe_strict {f i g j : Nat} (h : keyLe f i g j) (hij : i ≠ j) : f < g ∨ (f = g ∧ i < j) := by
  unfold keyLe at h
  omega

/-- A merge of two live nodes with room for a third (R89, R90): which two it joins, and the node it adds. -/
theorem mergeTwo_joins {h : Huffman} (hl : h.countsLive) (h2 : 2 ≤ h.live.toNat) :
    ∃ a b x y, h.arena[a]? = some x ∧ h.arena[b]? = some y ∧ x.live = true ∧ y.live = true ∧ a ≠ b ∧
      (x.freq.toNat < y.freq.toNat ∨ (x.freq.toNat = y.freq.toNat ∧ a < b)) ∧
      (∀ c z, h.arena[c]? = some z → z.live = true → c ≠ a → c ≠ b →
        y.freq.toNat < z.freq.toNat ∨ (y.freq.toNat = z.freq.toNat ∧ b < c)) ∧
      (mergeTwo h).arena = (h.arena.set a { x with live := false }).set b { y with live := false } ++
        [⟨x.freq + y.freq, false, 0, BitVec.ofNat 9 a, BitVec.ofNat 9 b, true⟩] ∧
      (mergeTwo h).nnodes = h.nnodes + 1 := by
  obtain ⟨a, b, x, y, hx, hy, hxl, hyl, hab, hle, hmin, he⟩ := mergeTwo_spec (h := h) (hl ▸ h2)
  rw [he]
  exact ⟨a, b, x, y, hx, hy, hxl, hyl, hab, keyLe_strict hle hab,
    fun c z hz hzl hca hcb => keyLe_strict (hmin c z hz hzl hca) (Ne.symm hcb), rfl, rfl⟩

/-- What the second half of a merge step says of the root and of STAGE (R90). -/
theorem settleRoot_settles (hl : s.huf.countsLive) (hlen : s.huf.arena.length < 512) :
    ((settleRoot s).huf.live = 1 →
      (∃ nd, (settleRoot s).huf.arena[(settleRoot s).huf.root.toNat]? = some nd ∧ nd.live = true) ∧
      (settleRoot s).stage.hufStage = if s.stage.hufStage = 1 then 2 else s.stage.hufStage) ∧
    ((settleRoot s).huf.live ≠ 1 → (settleRoot s).huf.root = s.huf.root ∧ (settleRoot s).stage = s.stage) := by
  rw [settleRoot_live]
  refine ⟨fun h1 => ?_, fun h1 => ?_⟩
  · obtain ⟨hroot, hstage⟩ := settleRoot_of_one h1
    rw [settleRoot_arena, hroot]
    refine ⟨soleLive_live ?_ hlen, hstage⟩
    rw [← hl, h1]
    decide
  · rw [settleRoot_of_ne_one h1]
    exact ⟨rfl, rfl⟩

end

theorem mergeTwo_root (h : Huffman) : (mergeTwo h).root = h.root := by
  unfold mergeTwo extractMin
  cases leastLive h.arena with
  | none => rfl
  | some a =>
    simp only [Option.map_some]
    cases leastLive (killNode h.arena a) <;> rfl

/-- Settles O29: the two nodes `ExtractMin` returns and the node that joins them, then the root. -/
theorem hufMergeJoinsTheTwoLowest : Obligations.HufMergeJoinsTheTwoLowest := by
  intro s h1 hl hnnodes hlen
  have hbody := hufMergeBody_ok h1
  refine ⟨_, exec_of_body hbody, completed_of_body (by decide) hbody, ?_⟩
  simp only [complete_huf, complete_stage]
  rcases Nat.lt_or_ge 1 s.huf.live.toNat with h2 | hle
  · obtain ⟨hlive', hcount⟩ := mergeTwo_live hl h2
    obtain ⟨a, b, x, y, hx, hy, hxl, hyl, hab, hkey, hmin, harena, hnn⟩ := mergeTwo_joins hl h2
    have hlen' : (mergeTwo s.huf).arena.length < 512 := by
      rw [harena, List.length_append, List.length_set, List.length_set, List.length_singleton]
      omega
    obtain ⟨hone, hmore⟩ := settleRoot_settles (s := { s with huf := mergeTwo s.huf }) hlive' hlen'
    rw [mergeStep_of_two_le h2]
    refine ⟨fun hle => by omega, fun _ => ⟨a, b, x, y, hx, hy, hxl, hyl, hab, hkey, hmin, ?_, ?_, ?_⟩, hone, ?_⟩
    · rw [settleRoot_arena, harena]
    · rw [settleRoot_nnodes, hnn]
      bv_omega
    · rw [settleRoot_live]
      show (mergeTwo s.huf).live.toNat = _
      omega
    · rwa [mergeTwo_root] at hmore
  · obtain ⟨hone, hmore⟩ := settleRoot_settles (s := s) hl (by omega)
    rw [mergeStep_of_le_one hle]
    exact ⟨fun _ => ⟨settleRoot_arena s, settleRoot_live s, settleRoot_nnodes s⟩, fun h2 => by omega, hone, hmore⟩

/-! ## HUF_BUILD (R91) -/

section
variable {s : State}

theorem mergeStep_countsLive (hl : s.huf.countsLive) : (mergeStep s).huf.countsLive := by
  rcases Nat.lt_or_ge 1 s.huf.live.toNat with h2 | hle
  · exact (mergeStep_live hl h2).1
  · rw [mergeStep_of_le_one hle, Huffman.countsLive, settleRoot_live, settleRoot_arena]
    exact hl

theorem settleRoot_stage_pos (h : 1 ≤ s.stage.hufStage.toNat) : 1 ≤ (settleRoot s).stage.hufStage.toNat := by
  by_cases hone : s.huf.live = 1
  · rw [(settleRoot_of_one hone).2]
    split
    · decide
    · exact h
  · rwa [settleRoot_of_ne_one hone]

theorem mergeStep_stage_pos (h : 1 ≤ s.stage.hufStage.toNat) : 1 ≤ (mergeStep s).stage.hufStage.toNat := by
  unfold mergeStep
  split <;> exact settleRoot_stage_pos h

/-- A merge step that leaves at most one live node leaves nothing more to do. -/
theorem mergeStep_settled (h : (mergeStep s).huf.live.toNat ≤ 1) : mergeStep (mergeStep s) = mergeStep s := by
  rw [mergeStep_of_le_one h]
  exact settleRoot_idem _

/-- Merging until one live node is left takes one merge step for each live node but one (R91). -/
theorem mergeUntilOne_eq_iterate : ∀ (n : Nat) {s : State}, s.huf.countsLive → s.huf.live.toNat ≤ n →
    mergeUntilOne n s = mergeStep^[s.huf.live.toNat - 1] s ∧ (mergeUntilOne n s).huf.live.toNat ≤ 1 := by
  intro n
  induction n with
  | zero =>
    intro s _ hn
    rw [show s.huf.live.toNat - 1 = 0 by omega]
    exact ⟨rfl, by rw [mergeUntilOne]; omega⟩
  | succ n ih =>
    intro s hl hn
    rw [mergeUntilOne]
    split
    · rename_i hle
      rw [show s.huf.live.toNat - 1 = 0 by omega]
      exact ⟨rfl, hle⟩
    · obtain ⟨hl', hcount⟩ := mergeStep_live hl (by omega)
      obtain ⟨heq, hle⟩ := ih hl' (by omega)
      rw [show s.huf.live.toNat - 1 = (mergeStep s).huf.live.toNat - 1 + 1 by omega, Function.iterate_succ_apply]
      exact ⟨heq, hle⟩

/-- HUF_BUILD is max(HUF_LIVE - 1, 0) + 1 merge steps; with two or more live nodes the last of them changes nothing. -/
theorem buildTree_eq_iterate (hl : s.huf.countsLive) :
    buildTree s = mergeStep^[s.huf.live.toNat - 1 + 1] s ∧ (buildTree s).huf.live.toNat ≤ 1 := by
  obtain ⟨heq, hle⟩ := mergeUntilOne_eq_iterate _ (mergeStep_countsLive hl) le_rfl
  refine ⟨?_, hle⟩
  change buildTree s = _ at heq
  rw [← Function.iterate_succ_apply] at heq
  rcases Nat.lt_or_ge 1 s.huf.live.toNat with h2 | h1
  · obtain ⟨-, hcount⟩ := mergeStep_live hl h2
    rw [show s.huf.live.toNat - 1 = (mergeStep s).huf.live.toNat - 1 + 1 by omega, Function.iterate_succ_apply',
      ← heq]
    change (buildTree s).huf.live.toNat ≤ 1 at hle
    rw [heq, Function.iterate_succ_apply'] at hle ⊢
    exact (mergeStep_settled hle).symm
  · rw [heq, mergeStep_of_le_one h1, settleRoot_live]

/-- The merges run one by one, each from the STATUS and CYCLES the one before left, end in the iterated merge step. -/
theorem runsClean_hufMerge : ∀ (n : Nat) {s : State} (x : Setting), 1 ≤ s.stage.hufStage.toNat →
    ∃ y : Setting, runsClean (List.replicate n .hufMerge) (s.within x) ((mergeStep^[n] s).within y) := by
  intro n
  induction n with
  | zero => exact fun x _ => ⟨x, rfl⟩
  | succ n ih =>
    intro s x h
    have hbody : bodyOf .hufMerge (s.within x) = .ok ((mergeStep s).within x) := by
      rw [hufMergeBody_ok (s := s.within x) h, mergeStep_within]
    obtain ⟨y, hy⟩ := ih (x.afterEnd (mergeStep s)) (mergeStep_stage_pos h)
    exact ⟨y, _, exec_of_body hbody, completed_of_body (by decide) hbody, hy⟩

end

/-- Settles O30: the build is the merge steps, and the merges run one by one end in them too. -/
theorem hufBuildIsRepeatedMerging : Obligations.HufBuildIsRepeatedMerging := by
  intro s h1 hl
  have hbody : bodyOf .hufBuild s = .ok (buildTree s) := checkStage_then (decide_eq_true h1)
  obtain ⟨heq, hle⟩ := buildTree_eq_iterate hl
  obtain ⟨y, hrun⟩ := runsClean_hufMerge (s.huf.live.toNat - 1 + 1) s.setting h1
  rw [within_setting, ← heq] at hrun
  exact ⟨_, _, exec_of_body hbody, completed_of_body (by decide) hbody, hle, hrun, rfl, rfl⟩

end Sys2Proof.Machine
end

section
/-! SUPPORT. The code table (O31, O32, O33; 42_huffman.md R93-R96): HUF_CODES gives each present symbol its leaf's path,
so that no code begins with another; HUF_CANON numbers the codes anew from their lengths and keeps that. -/

namespace Sys2Proof.Machine

/-! ## The longest code (R93) -/

theorem le_foldl_max {α : Type} (f : α → Nat) : ∀ (l : List α) (m : Nat),
    m ≤ l.foldl (fun m a => max m (f a)) m ∧ ∀ a ∈ l, f a ≤ l.foldl (fun m a => max m (f a)) m := by
  intro l
  induction l with
  | nil => simp
  | cons x l ih =>
    intro m
    obtain ⟨hm, hl⟩ := ih (max m (f x))
    exact ⟨by rw [List.foldl_cons]; omega, List.forall_mem_cons.2 ⟨by rw [List.foldl_cons]; omega, hl⟩⟩

theorem foldl_max_attained {α : Type} (f : α → Nat) : ∀ (l : List α) (m : Nat),
    l.foldl (fun m a => max m (f a)) m = m ∨ ∃ a, l.foldl (fun m a => max m (f a)) m = f a := by
  intro l
  induction l with
  | nil => simp
  | cons x l ih =>
    intro m
    rw [List.foldl_cons]
    rcases ih (max m (f x)) with h | h
    · rw [h]
      rcases Nat.le_total m (f x) with hle | hle
      · exact .inr ⟨x, by omega⟩
      · exact .inl (by omega)
    · exact .inr h

theorem le_longestCode (t : Table (BitVec 9)) (b : Byte) : (t.at b).toNat ≤ longestCode t :=
  (le_foldl_max (fun s => (t.at s).toNat) allSyms 0).2 b (mem_allSyms b)

theorem longestCode_attained (t : Table (BitVec 9)) : longestCode t = 0 ∨ ∃ b, longestCode t = (t.at b).toNat :=
  foldl_max_attained (fun s => (t.at s).toNat) allSyms 0

/-- The longest length fits in HUF_MAXLEN (R36). -/
theorem longestCode_toNat (t : Table (BitVec 9)) : (BitVec.ofNat 9 (longestCode t)).toNat = longestCode t := by
  rw [BitVec.toNat_ofNat, Nat.mod_eq_of_lt]
  rcases longestCode_attained t with h | ⟨b, h⟩ <;> rw [h]
  · norm_num
  · exact (t.at b).isLt

/-! ## The codes of the complete tree (R93, R94) -/

theorem presentCount_pos {t : Table Word} {b : Byte} (h : t.at b ≠ 0) : 1 ≤ presentCount t :=
  List.countP_pos_iff.2 ⟨b, mem_allSyms b, bne_iff_ne.2 h⟩

section
variable {s : State} (ht : TreeInv s) (h2 : 2 ≤ s.stage.hufStage.toNat)
include ht h2

theorem completeTree_empty (hk : presentCount s.freq.count = 0) (b : Byte) :
    (treeCodes s.huf).1.at b = 0 ∧ (treeCodes s.huf).2.at b = 0 := by
  have hlen := ht.arena.balance
  have hroot := ht.root h2
  rw [if_pos (by omega)] at hroot
  exact treeCodes_empty (BitVec.eq_of_toNat_eq hroot) b

theorem completeTree_single (hk : presentCount s.freq.count = 1) :
    ∃ x, s.freq.count.at x ≠ 0 ∧ (∀ b, s.freq.count.at b ≠ 0 → b = x) ∧
      ∀ b, (treeCodes s.huf).1.at b = (if b = x then 1 else 0) ∧ (treeCodes s.huf).2.at b = 0 := by
  obtain ⟨hlen, -, hroot⟩ := completeTree_shape ht h2 (by omega)
  exact treeCodes_single ht.arena hroot (by omega) hk

/-- The path of a coded symbol's leaf, which is its code. -/
theorem completeTree_path (hk : 2 ≤ presentCount s.freq.count) {b : Byte} (hb : s.freq.count.at b ≠ 0) :
    ∃ p n nd, follow s.huf.arena s.huf.root.toNat p = some n ∧ s.huf.arena[n]? = some nd ∧ nd.leaf = true ∧
      nd.sym = b ∧ 1 ≤ p.length ∧ p.length ≤ 255 ∧ ((treeCodes s.huf).1.at b).toNat = p.length ∧
      ((treeCodes s.huf).2.at b).toNat = bitsVal p := by
  obtain ⟨-, hone, hroot⟩ := completeTree_shape ht h2 (by omega)
  exact (treeCodes_paths ht.arena hone hroot hk).2.1 b hb

/-- The code lengths fill the code space (R95). -/
theorem completeTree_kraft (hk : 2 ≤ presentCount s.freq.count) :
    ((allSyms.filter fun b => (treeCodes s.huf).1.at b != 0).map (share (treeCodes s.huf).1)).sum = 2 ^ 256 := by
  obtain ⟨-, hone, hroot⟩ := completeTree_shape ht h2 (by omega)
  exact (treeCodes_paths ht.arena hone hroot hk).2.2

/-- HUF_CODES gives the present symbols a code, and no others (R93). -/
theorem completeTree_coded (b : Byte) : (treeCodes s.huf).1.at b ≠ 0 ↔ s.freq.count.at b ≠ 0 := by
  rcases Nat.lt_or_ge 1 (presentCount s.freq.count) with hk | hk
  · constructor
    · intro hlen hb
      obtain ⟨-, hone, hroot⟩ := completeTree_shape ht h2 (by omega)
      exact hlen ((treeCodes_paths ht.arena hone hroot hk).1 b hb).1
    · intro hb hlen
      obtain ⟨p, -, -, -, -, -, -, hpos, -, hp, -⟩ := completeTree_path ht h2 hk hb
      rw [hlen] at hp
      simp at hp
      omega
  · rcases Nat.lt_or_ge 0 (presentCount s.freq.count) with hpos | hzero
    · obtain ⟨x, hx, honly, hcodes⟩ := completeTree_single ht h2 (by omega)
      rw [(hcodes b).1]
      by_cases hb : b = x
      · rw [if_pos hb, hb]
        exact iff_of_true (by decide) hx
      · rw [if_neg hb]
        exact iff_of_false (by decide) (mt (honly b) hb)
    · rw [(completeTree_empty ht h2 (by omega) b).1]
      have hnot : ¬ s.freq.count.at b ≠ 0 := fun hb => by
        have := presentCount_pos hb
        omega
      simpa using hnot

/-- A tree of at most 256 leaves has no path longer than 255 (R93). -/
theorem completeTree_len_le (b : Byte) : ((treeCodes s.huf).1.at b).toNat ≤ 255 := by
  by_cases hlen : (treeCodes s.huf).1.at b = 0
  · rw [hlen]
    exact Nat.zero_le _
  · have hb := (completeTree_coded ht h2 b).1 hlen
    have hpos := presentCount_pos hb
    rcases Nat.lt_or_ge 1 (presentCount s.freq.count) with hk | hk
    · obtain ⟨p, -, -, -, -, -, -, -, hle, hp, -⟩ := completeTree_path ht h2 hk hb
      omega
    · obtain ⟨x, -, -, hcodes⟩ := completeTree_single ht h2 (by omega)
      rw [(hcodes b).1]
      split <;> decide

end

/-- A code as the bits of its length and its value. -/
theorem code_eq_of_path {h : Huffman} {b : Byte} {p : List Bool} (hlen : (h.codeLen.at b).toNat = p.length)
    (hval : (h.codeVal.at b).toNat = bitsVal p) : h.code b = p := by
  rw [Huffman.code, hlen, hval, bitsOf_bitsVal]

theorem code_eq_zero {h : Huffman} {b : Byte} (hlen : h.codeLen.at b = 1) (hval : h.codeVal.at b = 0) :
    h.code b = [false] := by
  rw [Huffman.code, hlen, hval]
  rfl

theorem pos_iff_ne_zero {n : Nat} {v : BitVec n} : 0 < v.toNat ↔ v ≠ 0 := by
  rw [Nat.pos_iff_ne_zero]
  exact not_congr ⟨fun h => BitVec.eq_of_toNat_eq (by simpa using h), fun h => by simp [h]⟩

/-- Settles O31: the code table of the complete tree, by the number of present symbols. -/
theorem hufCodesAreTheLeafPaths : Obligations.HufCodesAreTheLeafPaths := by
  intro s hf hs h2
  have ht := treeInv_of hs (by omega)
  have hbody : bodyOf .hufCodes s = .ok (extractCodes s) := checkStage_then (decide_eq_true h2)
  have hcoded : ∀ b, 0 < ((treeCodes s.huf).1.at b).toNat ↔ s.freq.count.at b ≠ 0 := fun b =>
    pos_iff_ne_zero.trans (completeTree_coded ht h2 b)
  have hmax : (extractCodes s).huf.maxLen.toNat = longestCode (treeCodes s.huf).1 := longestCode_toNat _
  refine ⟨_, exec_of_body hbody, completed_of_body (by decide) hbody, ?_⟩
  simp only [complete_huf, complete_stage, extractCodes_arena, extractCodes_root, extractCodes_stage,
    extractCodes_codeLen]
  refine ⟨trivial, trivial, trivial, hcoded, fun b hb hk => ?_, fun b hb hk => ?_, fun b => ?_, ?_⟩
  · obtain ⟨p, n, nd, hfollow, hn, hleaf, hsym, -, -, hlen, hval⟩ := completeTree_path ht h2 hk ((hcoded b).1 hb)
    rw [code_eq_of_path (h := (extractCodes s).huf) hlen hval]
    exact ⟨n, nd, hfollow, hn, hleaf, hsym⟩
  · obtain ⟨x, -, honly, hcodes⟩ := completeTree_single ht h2 hk
    obtain rfl := honly b ((hcoded b).1 hb)
    exact code_eq_zero (h := (extractCodes s).huf) ((hcodes b).1.trans (if_pos rfl)) (hcodes b).2
  · rw [hmax]
    exact le_longestCode _ b
  · rcases longestCode_attained (treeCodes s.huf).1 with h | ⟨b, h⟩
    · exact .inl (BitVec.eq_of_toNat_eq (hmax.trans h))
    · exact .inr ⟨b, BitVec.eq_of_toNat_eq (h.symm.trans hmax.symm)⟩

/-! ## Prefix-freeness and the code space (R95) -/

/-- A leaf's path goes no further. -/
theorem follow_leaf {ar : List Node} {n j : Nat} {nd : Node} (hn : ar[n]? = some nd) (hl : nd.leaf = true)
    {q : List Bool} (h : follow ar n q = some j) : j = n := by
  cases q with
  | nil =>
    rw [follow, if_pos (List.getElem?_eq_some_iff.1 hn).1] at h
    exact (Option.some.inj h).symm
  | cons x q =>
    simp only [follow, hn, hl, if_true] at h
    cases h

/-- Paths to leaves of different symbols: none begins with the other (R95). -/
theorem leafPaths_prefixFree {ar : List Node} {r i j : Nat} {x y : Node} {p q : List Bool} (hp : follow ar r p = some i)
    (hq : follow ar r q = some j) (hx : ar[i]? = some x) (hl : x.leaf = true) (hy : ar[j]? = some y)
    (hxy : x.sym ≠ y.sym) : ¬ p <+: q := by
  rintro ⟨u, rfl⟩
  rw [follow_append ar p r i u hp] at hq
  obtain rfl := follow_leaf hx hl hq
  rw [hx] at hy
  exact hxy (congrArg Node.sym (Option.some.inj hy))

/-- One code begins with another only if its value, cut to the other's length, is the other's value. -/
theorem value_of_prefix {l m v w : Nat} (hv : v < 2 ^ l) (hw : w < 2 ^ m) (h : bitsOf l v <+: bitsOf m w) :
    l ≤ m ∧ ∃ r, r < 2 ^ (m - l) ∧ w = v * 2 ^ (m - l) + r := by
  obtain ⟨u, hu⟩ := h
  have hlen := congrArg List.length hu
  have hval := congrArg bitsVal hu
  rw [List.length_append, bitsOf_length, bitsOf_length] at hlen
  rw [bitsVal_append, bitsVal_bitsOf, bitsVal_bitsOf, Nat.mod_eq_of_lt hv, Nat.mod_eq_of_lt hw] at hval
  have hu' : u.length = m - l := by omega
  exact ⟨by omega, bitsVal u, hu' ▸ bitsVal_lt u, by rw [← hval, hu']⟩

theorem canonList_perm (lens : Table (BitVec 9)) :
    (canonList lens).Perm (allSyms.filter fun b => lens.at b != 0) := List.perm_insertionSort ..

/-- With a single coded symbol the canonical code has the value 0 (R96). -/
theorem canonVals_single {lens : Table (BitVec 9)} {x : Byte} (vals : Table (BitVec 256))
    (h : ∀ b, lens.at b ≠ 0 ↔ b = x) : (canonVals lens vals).at x = 0 := by
  obtain ⟨-, hnodup, hmem⟩ := canonList_spec lens
  have hlist : canonList lens = [x] := List.perm_singleton.1
    ((List.perm_ext_iff_of_nodup hnodup (List.nodup_singleton x)).2 fun b => by
      rw [hmem, h, List.mem_singleton])
  rw [canonVals, hlist]
  exact table_at_put_same ..

section
variable {s : State} (ht : TreeInv s) (h2 : 2 ≤ s.stage.hufStage.toNat)
include ht h2

/-- No code of the tree begins with another (R95). -/
theorem treeCodes_prefixFree {x y : Byte} (hk : 2 ≤ presentCount s.freq.count) (hxy : x ≠ y)
    (hx : s.freq.count.at x ≠ 0) (hy : s.freq.count.at y ≠ 0) :
    ¬ bitsOf ((treeCodes s.huf).1.at x).toNat ((treeCodes s.huf).2.at x).toNat <+:
      bitsOf ((treeCodes s.huf).1.at y).toNat ((treeCodes s.huf).2.at y).toNat := by
  obtain ⟨p, i, nx, hp, hnx, hleaf, rfl, -, -, hlenx, hvalx⟩ := completeTree_path ht h2 hk hx
  obtain ⟨q, j, ny, hq, hny, -, rfl, -, -, hleny, hvaly⟩ := completeTree_path ht h2 hk hy
  rw [hlenx, hvalx, hleny, hvaly, bitsOf_bitsVal, bitsOf_bitsVal]
  exact leafPaths_prefixFree hp hq hnx hleaf hny hxy

/-- Neither does a canonical code of the same lengths (R95, R96). -/
theorem canonCodes_prefixFree {x y : Byte} (hk : 2 ≤ presentCount s.freq.count) (hxy : x ≠ y)
    (hx : (treeCodes s.huf).1.at x ≠ 0) (hy : (treeCodes s.huf).1.at y ≠ 0) (vals : Table (BitVec 256)) :
    ¬ bitsOf ((treeCodes s.huf).1.at x).toNat ((canonVals (treeCodes s.huf).1 vals).at x).toNat <+:
      bitsOf ((treeCodes s.huf).1.at y).toNat ((canonVals (treeCodes s.huf).1 vals).at y).toNat := by
  have hsum : ((canonList (treeCodes s.huf).1).map (share (treeCodes s.huf).1)).sum ≤ 2 ^ 256 := by
    rw [((canonList_perm _).map _).sum_eq, completeTree_kraft ht h2 hk]
  obtain ⟨hlt, hseparate⟩ := canonVals_separate vals (completeTree_len_le ht h2) hsum
  intro hprefix
  obtain ⟨hle, r, hr, hval⟩ := value_of_prefix (hlt x hx) (hlt y hy) hprefix
  exact hseparate x y hxy hx hy r hr hle hval

end

/-- Once HUF_STAGE = 3 the present symbols have a code, and no others (R93, R96). -/
theorem coded_iff_present {s : State} (hs : HuffmanInv s) (h3 : s.stage.hufStage = 3) (b : Byte) :
    s.huf.codeLen.at b ≠ 0 ↔ s.freq.count.at b ≠ 0 := by
  have h2 : 2 ≤ s.stage.hufStage.toNat := by rw [h3]; decide
  rw [(hs.codes h3).1]
  exact completeTree_coded (treeInv_of hs (by omega)) h2 b

/-- Once HUF_STAGE = 3 no code is longer than 255 (R93, R96). -/
theorem codeLen_le {s : State} (hs : HuffmanInv s) (h3 : s.stage.hufStage = 3) (b : Byte) :
    (s.huf.codeLen.at b).toNat ≤ 255 := by
  have h2 : 2 ≤ s.stage.hufStage.toNat := by rw [h3]; decide
  rw [(hs.codes h3).1]
  exact completeTree_len_le (treeInv_of hs (by omega)) h2 b

/-- Settles O32: no path to a leaf and no canonical code begins with another, the lengths are those of the tree's
leaves, and a single symbol has the code "0" in both tables. -/
theorem codeTableIsCompleteAndPrefixFree : Obligations.CodeTableIsCompleteAndPrefixFree := by
  intro s hf hs h3
  have h2 : 2 ≤ s.stage.hufStage.toNat := by rw [h3]; decide
  have ht := treeInv_of hs (by omega)
  obtain ⟨hlen, hval⟩ := hs.codes h3
  have hcoded := coded_iff_present hs h3
  have hsingle : presentCount s.freq.count = 1 →
      ∃ x, (∀ b, s.huf.codeLen.at b ≠ 0 ↔ b = x) ∧ s.huf.code x = [false] := by
    intro hk
    obtain ⟨x, hx, honly, hcodes⟩ := completeTree_single ht h2 hk
    have hiff : ∀ b, s.huf.codeLen.at b ≠ 0 ↔ b = x := fun b =>
      (hcoded b).trans ⟨honly b, fun hb => hb ▸ hx⟩
    refine ⟨x, hiff, code_eq_zero (by rw [hlen, (hcodes x).1, if_pos rfl]) ?_⟩
    rw [hval]
    cases s.stage.hufCanon
    · exact (hcodes x).2
    · exact canonVals_single _ (hlen ▸ hiff)
  refine ⟨fun x y hxy hx hy => ?_, fun hk => ?_, fun hk x hx => ?_⟩
  · have hk := presentCount_pos ((hcoded x).1 hx)
    rcases Nat.lt_or_ge 1 (presentCount s.freq.count) with hk2 | hk1
    · rw [Huffman.code, Huffman.code, hval]
      cases s.stage.hufCanon
      · rw [hlen]
        exact treeCodes_prefixFree ht h2 hk2 hxy ((hcoded x).1 hx) ((hcoded y).1 hy)
      · rw [hlen] at hx hy ⊢
        exact canonCodes_prefixFree ht h2 hk2 hxy hx hy _
    · obtain ⟨z, hiff, -⟩ := hsingle (by omega)
      exact absurd (((hiff x).1 hx).trans ((hiff y).1 hy).symm) hxy
  · rw [hlen]
    exact completeTree_kraft ht h2 hk
  · obtain ⟨z, hiff, hcode⟩ := hsingle hk
    rw [(hiff x).1 hx, hcode]

/-! ## The canonical codes (R96) -/

/-- From a code on, each further code is the one before plus 1, shifted by the difference of the lengths. -/
theorem canonFrom_steps (lens : Table (BitVec 9)) : ∀ (l : List Byte) (code len : Nat) (t : Table (BitVec 256)),
    l.Nodup →
    (∀ b, l[0]? = some b →
      ((canonFrom lens l code len t).at b).toNat = (code + 1) * 2 ^ ((lens.at b).toNat - len) % 2 ^ 256) ∧
    ∀ j a b, l[j]? = some a → l[j + 1]? = some b → ((canonFrom lens l code len t).at b).toNat =
      (((canonFrom lens l code len t).at a).toNat + 1) * 2 ^ ((lens.at b).toNat - (lens.at a).toNat) % 2 ^ 256 := by
  intro l
  induction l with
  | nil => simp
  | cons x l ih =>
    intro code len t hn
    obtain ⟨hx, hn⟩ := List.nodup_cons.1 hn
    have hfirst : ((canonFrom lens (x :: l) code len t).at x).toNat =
        (code + 1) * 2 ^ ((lens.at x).toNat - len) % 2 ^ 256 := by
      rw [canonFrom, canonFrom_other _ _ _ _ _ _ hx, table_at_put_same, BitVec.toNat_ofNat, Nat.shiftLeft_eq]
    refine ⟨fun b hb => ?_, fun j a b ha hb => ?_⟩
    · obtain rfl : x = b := by simpa using hb
      exact hfirst
    · obtain ⟨hnext, hrest⟩ := ih ((code + 1) <<< ((lens.at x).toNat - len)) (lens.at x).toNat
        (t.put x (BitVec.ofNat 256 ((code + 1) <<< ((lens.at x).toNat - len)))) hn
      cases j with
      | zero =>
        obtain rfl : x = a := by simpa using ha
        rw [hfirst, canonFrom, hnext b (by simpa using hb), Nat.shiftLeft_eq, Nat.mul_mod, Nat.add_mod]
        conv_rhs => rw [Nat.mul_mod, Nat.add_mod, Nat.mod_mod]
      | succ j => exact hrest j a b (by simpa using ha) (by simpa using hb)

/-- The numbering of R96 over its list. -/
theorem canonVals_steps (lens : Table (BitVec 9)) (vals : Table (BitVec 256)) :
    (∀ b, (canonList lens)[0]? = some b → (canonVals lens vals).at b = 0) ∧
    ∀ j a b, (canonList lens)[j]? = some a → (canonList lens)[j + 1]? = some b →
      ((canonVals lens vals).at b).toNat =
        (((canonVals lens vals).at a).toNat + 1) * 2 ^ ((lens.at b).toNat - (lens.at a).toNat) % 2 ^ 256 := by
  obtain ⟨-, hnodup, -⟩ := canonList_spec lens
  unfold canonVals
  cases hl : canonList lens with
  | nil => simp
  | cons x rest =>
    rw [hl] at hnodup
    obtain ⟨hx, hn⟩ := List.nodup_cons.1 hnodup
    have hfirst : (canonFrom lens rest 0 (lens.at x).toNat (vals.put x 0)).at x = 0 := by
      rw [canonFrom_other _ _ _ _ _ _ hx, table_at_put_same]
    obtain ⟨hnext, hrest⟩ := canonFrom_steps lens rest 0 (lens.at x).toNat (vals.put x 0) hn
    refine ⟨fun b hb => ?_, fun j a b ha hb => ?_⟩
    · obtain rfl : x = b := by simpa using hb
      exact hfirst
    · cases j with
      | zero =>
        obtain rfl : x = a := by simpa using ha
        show ((canonFrom lens rest 0 (lens.at x).toNat (vals.put x 0)).at b).toNat = _
        rw [hnext b (by simpa using hb), hfirst]
        rfl
      | succ j => exact hrest j a b (by simpa using ha) (by simpa using hb)

/-- There is one list of the coded symbols in the order (CODE_LEN, symbol). -/
theorem eq_canonList {lens : Table (BitVec 9)} {l : List Byte} (hmem : ∀ b, b ∈ l ↔ lens.at b ≠ 0)
    (hl : l.Pairwise fun a b => (lens.at a).toNat < (lens.at b).toNat ∨
      ((lens.at a).toNat = (lens.at b).toNat ∧ a.toNat < b.toNat)) : l = canonList lens := by
  obtain ⟨hsorted, hnodup, hcanon⟩ := canonList_spec lens
  have hle : l.Pairwise (canonLe lens) := hl.imp fun h => by unfold canonLe; omega
  have hn : l.Nodup := hl.imp fun h => by
    rintro rfl
    omega
  have hperm : l.Perm (canonList lens) := (List.perm_ext_iff_of_nodup hn hnodup).2 fun b => by rw [hmem, hcanon]
  exact hperm.eq_of_pairwise (fun a b _ _ => canonLe_antisymm) hle hsorted

/-- Settles O33: the list of R96, its numbering, and that a second one starts from the same lengths. -/
theorem hufCanonRenumbersInLengthOrder : Obligations.HufCanonRenumbersInLengthOrder := by
  intro s h3
  have hbody : bodyOf .hufCanon s = .ok (renumberCodes s) := checkStage_then (beq_iff_eq.2 h3)
  have hagain : bodyOf .hufCanon (renumberCodes s).complete = .ok (renumberCodes (renumberCodes s).complete) :=
    checkStage_then (beq_iff_eq.2 h3)
  refine ⟨_, exec_of_body hbody, completed_of_body (by decide) hbody, rfl, rfl, rfl,
    fun b hb => canonVals_other _ _ hb, fun l hmem hl => ?_, _, exec_of_body hagain, ?_⟩
  · rw [eq_canonList hmem hl]
    exact canonVals_steps _ _
  · show { (renumberCodes s).huf with codeVal := canonVals s.huf.codeLen (canonVals s.huf.codeLen s.huf.codeVal) } = _
    rw [canonVals_idem]
    rfl

end Sys2Proof.Machine
end

section
/-! SUPPORT. HUF_EMIT and HUF_ENCODE (O34, O35; 42_huffman.md R97, R98). The pass over the input range appends one code
after another; HUF_ENCODE builds the tables of its own input first, so every byte has a code, and none is longer than 255
bits. -/

namespace Sys2Proof.Machine

/-! ## HUF_EMIT (R97) -/

/-- After the bytes `pre` of a HUF_EMIT that began in `s`: their codes stand in the stream. -/
structure Emitted (s : State) (pre : List Byte) (t : State) : Prop where
  huf : t.huf = s.huf
  stream : t.streamBits = s.streamBits ++ pre.flatMap s.huf.code
  acc : t.bp.acc.toNat < 2 ^ t.bp.cnt.toNat
  counts : 8 * t.bp.outLen.toNat + t.bp.cnt.toNat =
    8 * s.bp.outLen.toNat + s.bp.cnt.toNat + (pre.flatMap s.huf.code).length
  padBits : t.bp.padBits = s.bp.padBits
  inPos : t.inPos = BitVec.ofNat 32 pre.length

/-- An Append that has room grows 8·OUT_LEN + CNT by the string's length (R116). -/
theorem appended_bits {s : State} {l : List Bool} (h : s.roomFor l.length = true) :
    8 * (s.appended l).bp.outLen.toNat + (s.appended l).bp.cnt.toNat =
      8 * s.bp.outLen.toNat + s.bp.cnt.toNat + l.length := by
  obtain ⟨hout, hcnt⟩ := appended_counts h
  omega

/-- The step of one coded byte that has room. -/
theorem emitted_step {s t : State} {pre : List Byte} {b : Byte} (ht : Emitted s pre t) (hb : s.huf.codeLen.at b ≠ 0)
    (hroom : t.roomFor (s.huf.code b).length = true) :
    emitByte pre.length b t = .ok (t.appended (s.huf.code b)) ∧
      Emitted s (pre ++ [b]) { t.appended (s.huf.code b) with inPos := BitVec.ofNat 32 (pre.length + 1) } := by
  have hbits := appended_bits hroom
  have hcounts := ht.counts
  refine ⟨by rw [emitByte_coded (by rwa [ht.huf]), ht.huf, appendBits_ok hroom], ?_, ?_, ?_, ?_, ?_, ?_⟩
  · exact (appended_huf ..).trans ht.huf
  · refine (appended_streamBits ht.acc hroom).trans ?_
    rw [ht.stream]
    simp
  · exact appended_acc ht.acc
  · rw [List.flatMap_append, List.flatMap_singleton, List.length_append]
    show 8 * (t.appended (s.huf.code b)).bp.outLen.toNat + (t.appended (s.huf.code b)).bp.cnt.toNat = _
    omega
  · exact (appended_padBits ..).trans ht.padBits
  · simp

/-- The body of HUF_EMIT with every byte coded and room for all the codes (R97). -/
theorem hufEmitBody_emits {s : State} {bs : List Byte} (h3 : s.stage.hufStage = 3)
    (hin : s.cfg.inBase.toNat + s.cfg.inLen.toNat ≤ s.ibufSize)
    (hout : s.cfg.outBase.toNat + s.cfg.outCap.toNat ≤ s.obufSize) (hbs : s.inputIs bs)
    (hcoded : ∀ b ∈ bs, s.huf.codeLen.at b ≠ 0) (hacc : s.bp.acc.toNat < 2 ^ s.bp.cnt.toNat)
    (hroom : s.bp.outLen.toNat + (s.bp.cnt.toNat + (bs.flatMap s.huf.code).length) / 8 ≤ s.cfg.outCap.toNat) :
    ∃ t, bodyOf .hufEmit s = .ok t ∧ Emitted s bs t := by
  have hbody : bodyOf .hufEmit s = stream emitByte s :=
    (checkStage_then (i := .hufEmit) (beq_iff_eq.2 h3)).trans ((inCheck_then hin).trans (outCheck_then hout))
  have hstart : Emitted s [] { s with inPos := 0 } := ⟨rfl, (List.append_nil _).symm, hacc, rfl, rfl, rfl⟩
  obtain ⟨t, ht, hemitted, -⟩ := stream_completes (body := emitByte) (R := Emitted s) hbs hstart
    fun pre b post t hsplit ht hibuf hcfg => by
      have hlen : (bs.flatMap s.huf.code).length = (pre.flatMap s.huf.code).length + (s.huf.code b).length +
          (post.flatMap s.huf.code).length := by
        rw [hsplit]
        simp
        omega
      have hroom' : t.roomFor (s.huf.code b).length = true := by
        have hcounts := ht.counts
        rw [roomFor_iff, hcfg]
        omega
      obtain ⟨hstep, hnext⟩ := emitted_step ht (hcoded b (by simp [hsplit])) hroom'
      exact ⟨_, hstep, by rw [appended_ibuf, hibuf], by rw [appended_cfg, hcfg], hnext⟩
  exact ⟨t, hbody.trans ht, hemitted⟩

/-- Settles O34: the pass appends the code of each byte, and IN_POS counts the bytes. -/
theorem hufEmitAppendsTheCodes : Obligations.HufEmitAppendsTheCodes := by
  intro s bs h3 hin hout hbs hcoded hacc hroom
  obtain ⟨t, hbody, hemitted⟩ := hufEmitBody_emits h3 hin hout hbs hcoded hacc hroom
  have hpos : t.inPos = s.cfg.inLen := by rw [hemitted.inPos, hbs.1, BitVec.ofNat_toNat, BitVec.setWidth_eq]
  exact ⟨t.complete, exec_of_body hbody, completed_of_body (by decide) hbody, hemitted.stream, hpos, hemitted.counts,
    hemitted.padBits⟩

/-! ## The end of the stream (R119) -/

theorem bitsOf_zero : ∀ n, bitsOf n 0 = List.replicate n false
  | 0 => rfl
  | n + 1 => by rw [bitsOf, bitsOf_zero n, Nat.zero_testBit, List.replicate_succ]

/-- BP_PAD with room for the byte it completes: PAD_BITS zero bits, and the stream is aligned. -/
theorem bpPadBody_pads {s : State} (hout : s.cfg.outBase.toNat + s.cfg.outCap.toNat ≤ s.obufSize)
    (hacc : s.bp.acc.toNat < 2 ^ s.bp.cnt.toNat)
    (hroom : 8 * s.bp.outLen.toNat + s.bp.cnt.toNat ≤ 8 * s.cfg.outCap.toNat) :
    ∃ t, bodyOf .bpPad s = .ok t ∧ t.streamBits = s.streamBits ++ List.replicate t.bp.padBits.toNat false ∧
      t.bp.cnt = 0 := by
  have hcnt := s.bp.cnt.isLt
  have hpad : padCount s.bp.cnt = (8 - s.bp.cnt.toNat) % 8 := rfl
  have hroom' : s.roomFor (bitsOf (padCount s.bp.cnt) 0).length = true := by
    rw [roomFor_iff, bitsOf_length]
    omega
  have hbits := appended_counts hroom'
  have hbody : bodyOf .bpPad s = .ok { s.appended (bitsOf (padCount s.bp.cnt) 0) with
      bp.padBits := BitVec.ofNat 3 (padCount s.bp.cnt) } := by
    refine (outCheck_then hout).trans ?_
    rw [appendBits_ok hroom', andThen_ok]
  refine ⟨_, hbody, ?_, BitVec.eq_of_toNat_eq ?_⟩
  · have hpad3 : (BitVec.ofNat 3 (padCount s.bp.cnt)).toNat = padCount s.bp.cnt := by
      rw [BitVec.toNat_ofNat, Nat.mod_eq_of_lt]
      omega
    rw [hpad3, ← bitsOf_zero]
    exact appended_streamBits hacc hroom'
  · show (s.appended (bitsOf (padCount s.bp.cnt) 0)).bp.cnt.toNat = 0
    rw [bitsOf_length] at hbits
    omega

/-! ## HUF_ENCODE (R98) -/

theorem runBodies_cons {i : Instr} {phases : List Instr} {s t : State} (h : bodyOf i s = .ok t) :
    runBodies (i :: phases) s = runBodies phases t := by
  rw [runBodies, h, andThen_ok]

theorem runBodies_append {l m : List Instr} : ∀ {s t : State}, runBodies l s = .ok t →
    runBodies (l ++ m) s = runBodies m t := by
  induction l with
  | nil =>
    rintro s t h
    rw [CmdResult.ok.inj h]
    rfl
  | cons i l ih =>
    intro s t h
    rw [runBodies] at h
    rw [List.cons_append, runBodies]
    cases hr : bodyOf i s with
    | ok u =>
      rw [hr] at h
      exact ih h
    | error u c k =>
      rw [hr] at h
      cases h
    | fault f =>
      rw [hr] at h
      cases h

theorem keeps_trans {ps : List Part} {s t u : State} (h : Keeps ps s t) (h' : Keeps ps t u) : Keeps ps s u := by
  obtain ⟨⟨a, b, c, d, e, f, g, i, j⟩, hpart⟩ := h
  obtain ⟨⟨a', b', c', d', e', f', g', i', j'⟩, hpart'⟩ := h'
  refine ⟨⟨a'.trans a, b'.trans b, c'.trans c, d'.trans d, e'.trans e, f'.trans f, g'.trans g, i'.trans i, j'.trans j⟩,
    fun p hp => ?_⟩
  have hs := hpart p hp
  have ht := hpart' p hp
  cases p <;> exact Eq.trans ht hs

/-- What no phase writes, a sequence of phases keeps. -/
theorem runBodies_keeps {ps : List Part} {phases : List Instr} (h : ∀ i ∈ phases, ∀ p ∈ partsOf i, p ∈ ps) (s : State) :
    (runBodies phases s).Ends (Keeps ps s) :=
  ends_runBodies (fun i hi t ht => ends_imp (bodyOf_keeps i t) fun _ hu =>
    keeps_trans ht ⟨hu.host, fun p hp => hu.part p fun hm => hp (h i hi p hm)⟩) s (keeps_refl s)

/-- The phases that make the code table of the input. -/
def tablePhases (canon : Bool) : List Instr :=
  [.freq, .hufInit, .hufBuild, .hufCodes] ++ if canon then [.hufCanon] else []

/-- The phases that write the stream and its record. -/
def outputPhases : List Instr := [.hufEmit, .bpPad, .result]

theorem hufEncode_phases (canon : Bool) :
    (Instr.hufEncode canon, .bpClear :: (tablePhases canon ++ outputPhases)) ∈ fusedPhases := by
  cases canon <;> decide

/-- The code table of a readable input, and the invariants it meets (R85-R96). -/
theorem tablePhases_complete {s : State} {bs : List Byte} (canon : Bool)
    (hin : s.cfg.inBase.toNat + s.cfg.inLen.toNat ≤ s.ibufSize) (hbs : s.inputIs bs) :
    ∃ t, runBodies (tablePhases canon) s = .ok t ∧ HuffmanInv t ∧ t.stage.hufStage = 3 ∧ t.stage.hufCanon = canon ∧
      ∀ b, (t.freq.count.at b).toNat = bs.count b := by
  obtain ⟨t, hfreq, hcount, -, -, -, -, hstage, -⟩ := freqBody_counts ((inRangeOk_iff s).2 hin) hbs
  have hf := (freqBody_inv hfreq).1
  obtain ⟨hinv, hfreq'⟩ := huffmanInv_build hf
  obtain ⟨-, h2, -⟩ := buildTree_inv (plantLeaves_inv hf.total)
  have h1 := (plantLeaves_inv hf.total).begun
  have hinit : bodyOf .hufInit t = .ok (plantLeaves t) := checkStage_then (by rw [stageReady, hstage])
  have hbuild : bodyOf .hufBuild (plantLeaves t) = .ok (buildTree (plantLeaves t)) :=
    checkStage_then (decide_eq_true h1)
  have hcodes : bodyOf .hufCodes (buildTree (plantLeaves t)) = .ok (extractCodes (buildTree (plantLeaves t))) :=
    checkStage_then (decide_eq_true h2)
  have hrun : runBodies [.freq, .hufInit, .hufBuild, .hufCodes] s = .ok (extractCodes (buildTree (plantLeaves t))) := by
    rw [runBodies_cons (i := .freq) hfreq, runBodies_cons hinit, runBodies_cons hbuild, runBodies_cons hcodes]
    rfl
  rw [tablePhases, runBodies_append hrun]
  rw [← hfreq'] at hcount
  cases canon with
  | false => exact ⟨_, rfl, hinv, rfl, rfl, hcount⟩
  | true =>
    have hcanon : bodyOf .hufCanon (extractCodes (buildTree (plantLeaves t))) =
        .ok (renumberCodes (extractCodes (buildTree (plantLeaves t)))) :=
      checkStage_then (i := .hufCanon) (s := extractCodes (buildTree (plantLeaves t))) rfl
    exact ⟨_, runBodies_cons hcanon, huffmanInv_renumberCodes hinv rfl, rfl, rfl, hcount⟩

/-- The stream and the result record, with every byte coded and room for the codes and the padding (R97, R119, R81). -/
theorem outputPhases_complete {s : State} {bs : List Byte} (h3 : s.stage.hufStage = 3)
    (hin : s.cfg.inBase.toNat + s.cfg.inLen.toNat ≤ s.ibufSize)
    (hout : s.cfg.outBase.toNat + s.cfg.outCap.toNat ≤ s.obufSize) (hbs : s.inputIs bs)
    (hcoded : ∀ b ∈ bs, s.huf.codeLen.at b ≠ 0) (hempty : s.bp = ⟨0, 0, 0, 0, 0⟩)
    (hroom : (bs.flatMap s.huf.code).length ≤ 8 * s.cfg.outCap.toNat) :
    ∃ t, runBodies outputPhases s = .ok t ∧
      t.streamBits = bs.flatMap s.huf.code ++ List.replicate t.bp.padBits.toNat false ∧ t.bp.cnt = 0 ∧
      t.res = ⟨t.cfg.inLen, t.bp.outLen⟩ := by
  have hstream : s.streamBits = [] := by simp [State.streamBits, hempty, bitsOf]
  have houtLen : s.bp.outLen.toNat = 0 := by rw [hempty]; rfl
  have hcnt : s.bp.cnt.toNat = 0 := by rw [hempty]; rfl
  obtain ⟨t, hemit, hemitted⟩ := hufEmitBody_emits h3 hin hout hbs hcoded (by rw [hempty]; decide) (by omega)
  have hhost := bodyOf_keeps .hufEmit s
  rw [hemit] at hhost
  obtain ⟨⟨hparams, -, -, hcfg, -⟩, -⟩ := hhost
  have hcounts := hemitted.counts
  obtain ⟨u, hpad, hpadded, haligned⟩ := bpPadBody_pads (s := t)
    (by rw [State.obufSize, hparams, hcfg]; exact hout) hemitted.acc (by rw [hcfg]; omega)
  have hresult : bodyOf .result u = .ok (latchResult u) := checkStage_then (beq_iff_eq.2 haligned)
  refine ⟨latchResult u, ?_, ?_, haligned, rfl⟩
  · rw [outputPhases, runBodies_cons hemit, runBodies_cons hpad, runBodies_cons hresult]
    rfl
  · rw [hemitted.stream, hstream, List.nil_append] at hpadded
    exact hpadded

theorem codes_length_le {h : Huffman} (hlen : ∀ b, (h.codeLen.at b).toNat ≤ 255) (bs : List Byte) :
    (bs.flatMap h.code).length ≤ 255 * bs.length := by
  induction bs with
  | nil => simp
  | cons b bs ih =>
    have hb := hlen b
    rw [List.flatMap_cons, List.length_append, code_length, List.length_cons]
    omega

theorem code_congr {h h' : Huffman} (hlen : h'.codeLen = h.codeLen) (hval : h'.codeVal = h.codeVal) :
    h'.code = h.code := by
  funext b
  rw [Huffman.code, Huffman.code, hlen, hval]

/-- The table phases leave the configuration, the input and the stream as they were. -/
theorem tablePhases_frame {canon : Bool} {s t : State} (h : runBodies (tablePhases canon) s = .ok t) :
    t.params = s.params ∧ t.cfg = s.cfg ∧ t.ibuf = s.ibuf ∧ t.bp = s.bp := by
  have hkeeps := runBodies_keeps (ps := [.freq, .inPos, .tree, .codeLen, .codeVal, .bit .freqV, .bit .hufStage,
    .bit .hufCanon, .bit .ariTblV, .bit .ariV]) (phases := tablePhases canon) (by cases canon <;> decide) s
  rw [h] at hkeeps
  obtain ⟨⟨hparams, -, -, hcfg, hibuf, -⟩, hpart⟩ := hkeeps
  have hstream := hpart .stream (by decide)
  have hpad := hpart .padBits (by decide)
  simp only [samePart, Prod.mk.injEq] at hstream hpad
  refine ⟨hparams, hcfg, hibuf, ?_⟩
  cases ht : t.bp
  cases hs : s.bp
  simp_all

/-- The output phases leave the configuration, the counts and the codes as they were. -/
theorem outputPhases_frame {s t : State} (h : runBodies outputPhases s = .ok t) :
    t.cfg = s.cfg ∧ t.freq = s.freq ∧ t.huf.code = s.huf.code ∧ t.stage.hufStage = s.stage.hufStage ∧
      t.stage.hufCanon = s.stage.hufCanon := by
  have hkeeps := runBodies_keeps (ps := [.stream, .obuf, .inPos, .padBits, .res]) (phases := outputPhases) (by decide) s
  rw [h] at hkeeps
  obtain ⟨⟨-, -, -, hcfg, -⟩, hpart⟩ := hkeeps
  have hcodeLen := hpart .codeLen (by decide)
  simp only [samePart, Prod.mk.injEq] at hcodeLen
  exact ⟨hcfg, hpart .freq (by decide), code_congr hcodeLen.1 (hpart .codeVal (by decide)),
    BitVec.eq_of_toNat_eq (hpart (.bit .hufStage) (by decide)),
    bool_eq_of_toNat_eq _ _ (hpart (.bit .hufCanon) (by decide))⟩

/-- Settles O35: the table phases leave a code of at most 255 bits for every byte of the input, so the output phases
have room. -/
theorem hufEncodeCompletes : Obligations.HufEncodeCompletes := by
  intro s bs canon _ hin hout hbs hcap
  obtain ⟨t, htables, hinv, h3, hcanon, hcount⟩ := tablePhases_complete (s := clearStream s) canon hin hbs
  obtain ⟨hparams, hcfg, hibuf, hbp⟩ := tablePhases_frame htables
  rw [clearStream_params] at hparams
  rw [clearStream_cfg] at hcfg
  have hcoded : ∀ b ∈ bs, t.huf.codeLen.at b ≠ 0 := fun b hb => by
    rw [coded_iff_present hinv h3, ← pos_iff_ne_zero, hcount]
    exact List.count_pos_iff.2 hb
  have hlen := codes_length_le (codeLen_le hinv h3) bs
  have hroom : (bs.flatMap t.huf.code).length ≤ 8 * t.cfg.outCap.toNat := by
    rw [hcfg]
    rw [hbs.1] at hlen
    omega
  obtain ⟨u, houtput, hstream, haligned, hres⟩ := outputPhases_complete h3
    (by rw [State.ibufSize, hparams, hcfg]; exact hin) (by rw [State.obufSize, hparams, hcfg]; exact hout)
    (by rw [State.inputIs, hcfg, hibuf]; exact hbs) hcoded hbp hroom
  obtain ⟨hcfg', hfreq, hcode, hstage, hcanon'⟩ := outputPhases_frame houtput
  have hbody : bodyOf (.hufEncode canon) s = .ok u := by
    rw [bodyOf_fused (hufEncode_phases canon) hin hout, runBodies_cons (i := .bpClear) (t := clearStream s) rfl,
      runBodies_append htables, houtput]
  refine ⟨u.complete, exec_of_body hbody, completed_of_body (i := .hufEncode canon) nofun hbody, ?_, haligned, ?_, ?_,
    hstage.trans h3, hcanon'.trans hcanon, fun b => ?_⟩
  · rw [complete_huf, hcode]
    exact hstream
  · rw [complete_res, hres, hcfg', hcfg]
  · rw [complete_res, hres, complete_bp]
  · rw [complete_freq, hfreq]
    exact hcount b

end Sys2Proof.Machine
end

section
/-! SUPPORT. Every step keeps the interval exact (O55; 43_arithmetic.md R99, R100), and the table and the unit interval it
starts from (O36, O37; R99, R101). A command writes what the invariant reads only where it voids the table (FREQ, the
resets), makes it (ARI_TABLE), opens the interval (ARI_INIT), or narrows it (ARI_STEP, ARI_NARROW). -/

namespace Sys2Proof.Machine

/-! ## What the invariant reads -/

/-- The parts of the state that the arithmetic unit's invariant speaks of. -/
def arithParts : List Part := [.freq, .cumLo, .interval, .bit .freqV, .bit .ariTblV, .bit .ariV]

theorem arithInv_congr {s t : State} (hs : ArithInv s) (hp : t.params = s.params)
    (h : ∀ p ∈ arithParts, samePart s t p) : ArithInv t := by
  have hfreq : t.freq = s.freq := h .freq (by decide)
  have hcum : t.ari.cumLo = s.ari.cumLo := h .cumLo (by decide)
  have hinterval := h .interval (by decide)
  have hfreqV : t.stage.freqV = s.stage.freqV := bool_eq_of_toNat_eq _ _ (h (.bit .freqV) (by decide))
  have htblV : t.stage.ariTblV = s.stage.ariTblV := bool_eq_of_toNat_eq _ _ (h (.bit .ariTblV) (by decide))
  have hariV : t.stage.ariV = s.stage.ariV := bool_eq_of_toNat_eq _ _ (h (.bit .ariV) (by decide))
  simp only [samePart, Prod.mk.injEq] at hinterval
  obtain ⟨hl, hh, hd, hk⟩ := hinterval
  obtain ⟨horder, htable, hbounds, hdenom⟩ := hs
  constructor
  · rwa [htblV, hfreqV]
  · rwa [htblV, hcum, hfreq]
  · rwa [hariV, hl, hh, hd, State.accBits, hp]
  · rwa [hariV, hd, hfreq, hk]

/-- With neither table nor interval the invariant says nothing (R142, 41_frequency.md R85). -/
theorem arithInv_of_void {s : State} (ht : s.stage.ariTblV = false) (hv : s.stage.ariV = false) : ArithInv s := by
  constructor <;> simp [ht, hv]

/-! ## The table and the unit interval (R99, R101) -/

/-- The sum of the counts is FREQ_TOTAL, so the running sums do not wrap. -/
theorem buildIntervals_cumLo {s : State} (hf : FreqInv s) (b : Byte) :
    ((buildIntervals s).ari.cumLo.at b).toNat = countBelow s.freq.count b.toNat :=
  cumTable_at _ (hf.total ▸ s.freq.total.isLt) b

theorem ariTableBody_ok {s : State} (h : s.stage.freqV = true) : bodyOf .ariTable s = .ok (buildIntervals s) :=
  checkStage_then h

theorem arithInv_buildIntervals {s : State} (hf : FreqInv s) (hv : s.stage.freqV = true) :
    ArithInv (buildIntervals s) where
  order _ := hv
  table _ := buildIntervals_cumLo hf
  interval h := by cases h
  denominator h := by cases h

/-- Settles O36: each entry of the table is a running sum, none of which wraps. -/
theorem ariTableCumulates : Obligations.AriTableCumulates := by
  intro s hf hv
  have hbody := ariTableBody_ok hv
  exact ⟨_, exec_of_body hbody, completed_of_body (by decide) hbody, buildIntervals_cumLo hf, rfl, rfl⟩

/-- Settles O37: ARI_INIT has no check, and writes the seven registers that its rule names. -/
theorem ariInitOpensTheUnitInterval : Obligations.AriInitOpensTheUnitInterval := fun s =>
  ⟨(openInterval s).complete, rfl, ⟨rfl, rfl⟩, rfl, rfl, rfl, rfl, rfl, rfl, rfl⟩

/-- ARI_ACC_BITS under allowed parameters (00_scope.md R6). -/
theorem accBits_bounds {s : State} (hv : s.params.valid) : 64 ≤ s.accBits ∧ s.accBits ≤ 131072 := by
  obtain ⟨-, -, -, hlow, hhigh⟩ := hv
  unfold State.accBits
  omega

theorem arithInv_openInterval {s : State} (hv : s.params.valid) (hs : ArithInv s) : ArithInv (openInterval s) where
  order := hs.order
  table := hs.table
  interval _ := by
    have hacc : s.accBits ≠ 0 := by have := (accBits_bounds hv).1; omega
    exact ⟨Nat.zero_lt_one, le_rfl, Nat.one_lt_two_pow hacc⟩
  denominator _ := (pow_zero _).symm

/-! ## One narrowing (R102) -/

/-- The unit's invariant with what its commands lean on: ARI_INIT on allowed parameters, ARI_TABLE and the narrowings
on the totals. -/
structure ArithSound (s : State) : Prop where
  params : s.params.valid
  freq : FreqInv s
  arith : ArithInv s

/-- Where the narrowing commands work: over a table and an interval that are both valid. -/
structure Narrowing (s : State) : Prop extends ArithSound s where
  tableValid : s.stage.ariTblV = true
  intervalValid : s.stage.ariV = true

/-- The share of a symbol ends within the whole (R99). -/
theorem cumLo_add_count_le {s : State} (hf : FreqInv s) (ha : ArithInv s) (ht : s.stage.ariTblV = true) (b : Byte) :
    (s.ari.cumLo.at b).toNat + (s.freq.count.at b).toNat ≤ s.freq.total.toNat := by
  rw [ha.table ht, hf.total]
  exact countBelow_le_total _ b

/-- D = T^ARI_K goes on with one more narrowing. At the count the counter cannot hold (log 8), a power of T below
2^ARI_ACC_BITS is a power of 1. -/
theorem pow_bumpCount {T n : Nat} {k : Word} (draws : Nat) (hT : 0 < T) (hn : n + 1 < 2 ^ 32)
    (hlt : T ^ k.toNat < 2 ^ n) : T ^ (bumpCount k draws).toNat = T ^ k.toNat * T := by
  by_cases hk : k.toNat + 1 < 2 ^ 32
  · rw [bumpCount_toNat draws hk, pow_succ]
  · have hnk : n ≤ k.toNat := by omega
    have hone : T = 1 := by
      by_contra hne
      have htwo : 2 ≤ T := by omega
      exact absurd hlt (Nat.not_lt.2
        ((Nat.pow_le_pow_right Nat.zero_lt_two hnk).trans (Nat.pow_le_pow_left htwo _)))
    rw [hone, one_pow, one_pow, Nat.mul_one]

theorem narrowBy_narrowing {s : State} {b : Byte} (hs : Narrowing s) (hb : s.freq.count.at b ≠ 0)
    (hd : ¬ 2 ^ s.accBits ≤ s.ari.d * s.freq.total.toNat) : Narrowing (narrowBy s b) := by
  obtain ⟨⟨hp, hf, ha⟩, ht, hv⟩ := hs
  obtain ⟨hlow, hhigh, hfits⟩ := ha.interval hv
  have hpos := pos_iff_ne_zero.2 hb
  have hshare := cumLo_add_count_le hf ha ht b
  have hdenom := ha.denominator hv
  refine ⟨⟨hp, { hf with }, ha.order, ha.table, fun _ => ⟨?_, ?_, Nat.lt_of_not_le hd⟩, fun _ => ?_⟩, ht, hv⟩
  · have hwidth := narrowBy_width s b
    have := Nat.mul_pos (Nat.sub_pos_of_lt hlow) hpos
    omega
  · calc s.ari.l * s.freq.total.toNat +
          (s.ari.h - s.ari.l) * ((s.ari.cumLo.at b).toNat + (s.freq.count.at b).toNat)
        ≤ s.ari.l * s.freq.total.toNat + (s.ari.h - s.ari.l) * s.freq.total.toNat := by gcongr
      _ = s.ari.h * s.freq.total.toNat := by rw [← Nat.add_mul, Nat.add_sub_cancel' hlow.le]
      _ ≤ s.ari.d * s.freq.total.toNat := by gcongr
  · have hacc := (accBits_bounds hp).2
    show s.ari.d * s.freq.total.toNat = s.freq.total.toNat ^ (bumpCount s.ari.k s.draws).toNat
    rw [pow_bumpCount s.draws (by omega) (n := s.accBits) (by omega) (hdenom ▸ hfits), ← hdenom]

/-- The step of a byte narrows, or raises before any change (R102). -/
theorem ariStepAt_narrowing (pos : Nat) (b : Byte) {s : State} (hs : Narrowing s) :
    (ariStepAt pos b s).Ends Narrowing := by
  by_cases hb : s.freq.count.at b = 0
  · rw [ariStepAt_noSym hb]
    exact hs
  · by_cases hd : 2 ^ s.accBits ≤ s.ari.d * s.freq.total.toNat
    · rw [ariStepAt_overflow hb hd]
      exact hs
    · rw [ariStepAt_narrows hb hd]
      exact narrowBy_narrowing hs hb hd

/-- ARI_STEP and ARI_NARROW work behind the same check (R76). -/
theorem narrowing_of_ready {s : State} (hs : ArithSound s) (h : (s.stage.ariTblV && s.stage.ariV) = true) :
    Narrowing s := by
  obtain ⟨htable, hinterval⟩ := Bool.and_eq_true_iff.1 h
  exact ⟨hs, htable, hinterval⟩

/-! ## Every body -/

/-- A body that writes nothing the invariant reads. -/
theorem arithInv_of_keeps {i : Instr} {s : State} (hs : ArithInv s) (h : ∀ p ∈ arithParts, p ∉ partsOf i) :
    (bodyOf i s).Ends ArithInv :=
  ends_imp (bodyOf_keeps i s) fun _ hk => arithInv_congr hs hk.host.1 fun p hp => hk.part p (h p hp)

theorem freqBody_arithInv {s : State} (hs : ArithInv s) : (freqBody s).Ends ArithInv := by
  cases hr : freqBody s with
  | ok t =>
    obtain ⟨-, hstage, -⟩ := freqBody_inv hr
    exact arithInv_of_void (by rw [hstage]) (by rw [hstage])
  | error t c i =>
    obtain ⟨rfl, -, -⟩ := freqBody_error hr
    exact hs
  | fault x => trivial

theorem ariStepBody_arithInv (b : Byte) {s : State} (hs : ArithSound s) : (ariStepBody b s).Ends ArithInv :=
  ends_check hs.arith fun h =>
    ends_imp (ariStepAt_narrowing 0 b (narrowing_of_ready hs h)) fun _ hn => hn.arith

theorem ariNarrowBody_arithInv {s : State} (hs : ArithSound s) : (ariNarrowBody s).Ends ArithInv := by
  refine ends_check hs.arith fun h => ends_check hs.arith fun _ => ?_
  have hpass : (stream ariStepAt s).Ends Narrowing :=
    ends_stream (fun _ _ hn => ⟨⟨hn.params, { hn.freq with }, { hn.arith with }⟩, hn.tableValid, hn.intervalValid⟩)
      (fun i b _ hn => ariStepAt_narrowing i b hn) (narrowing_of_ready hs h)
  exact ends_imp hpass fun _ hn => hn.arith

/-- The commands that are no sequence of phases. -/
theorem unfusedBody_arithInv {i : Instr} (hi : startsStream i = false) {s : State} (hs : ArithSound s) :
    (bodyOf i s).Ends ArithInv := by
  cases i
  case hufEncode | ariEncode | lzwEncode => cases hi
  case sreset => exact arithInv_of_void rfl rfl
  case freq => exact freqBody_arithInv hs.arith
  case ariTable => exact ends_check hs.arith fun h => arithInv_buildIntervals hs.freq h
  case ariInit => exact arithInv_openInterval hs.params hs.arith
  case ariStep b => exact ariStepBody_arithInv b hs
  case ariNarrow => exact ariNarrowBody_arithInv hs
  all_goals exact arithInv_of_keeps hs.arith (by simp [arithParts, partsOf])

theorem unfusedBody_arithSound {i : Instr} (hi : startsStream i = false) {s : State} (hs : ArithSound s) :
    (bodyOf i s).Ends ArithSound := by
  have hparams := ends_imp (bodyOf_keeps i s) (Q := fun t => t.params.valid) fun _ hk => hk.host.1 ▸ hs.params
  exact ends_imp (ends_and hparams (ends_and (bodyOf_freqInv i hs.freq) (unfusedBody_arithInv hi hs)))
    fun _ ⟨hv, hf, ha⟩ => ⟨hv, hf, ha⟩

theorem bodyOf_arithInv (i : Instr) {s : State} (hs : ArithSound s) : (bodyOf i s).Ends ArithInv := by
  cases hi : startsStream i with
  | false => exact unfusedBody_arithInv hi hs
  | true =>
    obtain ⟨⟨_, phases⟩, hphases, rfl⟩ := mem_fusedPhases hi
    exact ends_imp (fusedBody_ends hphases (fun j hj _ => unfusedBody_arithSound (phases_unfused _ hphases j hj)) hs)
      fun _ h => h.arith

/-- Settles O55: the bodies keep the invariant, and no host event but a reset touches what it reads. -/
theorem stepKeepsTheIntervalExact : Obligations.StepKeepsTheIntervalExact := by
  intro s t hc hf hs h
  exact step_keeps hs h (fun i => bodyOf_arithInv i ⟨hc.params, hf, hs⟩)
    (fun _ hu => { hu with })
    (fun _ _ _ hu => { hu with })
    (fun _ _ => arithInv_of_void rfl rfl)
    (fun _ _ htouch hu => arithInv_congr hu htouch.params
      (by simp [arithParts, samePart, htouch.freq, htouch.ari, htouch.stage]))

end Sys2Proof.Machine
end

section
/-! SUPPORT. The narrowing commands (O38, O39; 43_arithmetic.md R102, R103, R107): what one narrowing does to the bounds
as rationals, and the pass of ARI_NARROW as the narrowings of `narrowed` one after another. -/

namespace Sys2Proof.Machine

/-! ## ARI_STEP (R102) -/

theorem byteInfo_zero (b : Byte) : byteInfo 0 b = b.setWidth 32 := by
  refine BitVec.eq_of_toNat_eq ?_
  rw [byteInfo_toNat b (by decide), BitVec.toNat_setWidth]
  omega

/-- A bound of R102 as a fraction of the new denominator. -/
theorem narrowed_bound {l w x d T : ℚ} (hd : d ≠ 0) (hT : T ≠ 0) :
    (l * T + w * x) / (d * T) = l / d + w / d * (x / T) := by
  field_simp

section
variable {s : State} {b : Byte} (ht : s.stage.ariTblV = true) (hv : s.stage.ariV = true)
include ht hv

theorem ariStepBody_ready : bodyOf (.ariStep b) s = ariStepAt 0 b s :=
  checkStage_then (i := .ariStep b) (Bool.and_eq_true_iff.2 ⟨ht, hv⟩)

theorem ariNarrowBody_ready (hin : s.cfg.inBase.toNat + s.cfg.inLen.toNat ≤ s.ibufSize) :
    bodyOf .ariNarrow s = stream ariStepAt s :=
  (checkStage_then (i := .ariNarrow) (Bool.and_eq_true_iff.2 ⟨ht, hv⟩)).trans (inCheck_then hin)

end

/-- Settles O38: behind its stage check ARI_STEP is the step of one byte, whose two failures change nothing. -/
theorem ariStepNarrowsExactly : Obligations.AriStepNarrowsExactly := by
  intro s b ht hv
  have hbody := ariStepBody_ready (b := b) ht hv
  refine ⟨fun hb => ?_, fun hb hd => ?_, fun hb hd hlh hT hd0 => ?_⟩
  · rw [← byteInfo_zero]
    exact raisesOnly_of_body (hbody.trans (ariStepAt_noSym hb))
  · rw [← byteInfo_zero]
    exact raisesOnly_of_body (hbody.trans (ariStepAt_overflow hb hd))
  · have hok := hbody.trans (ariStepAt_narrows hb (Nat.not_le.2 hd))
    have hdq : (s.ari.d : ℚ) ≠ 0 := Nat.cast_ne_zero.2 hd0
    have hTq : (s.freq.total.toNat : ℚ) ≠ 0 := Nat.cast_ne_zero.2 (pos_iff_ne_zero.2 hT).ne'
    refine ⟨_, exec_of_body hok, completed_of_body (i := .ariStep b) nofun hok, rfl, ?_, ?_, bumpCount_toNat _, rfl, rfl⟩
    · rw [← narrowed_bound hdq hTq]
      simp [narrowBy, Nat.cast_sub hlh]
    · rw [← narrowed_bound hdq hTq]
      simp [narrowBy, Nat.cast_sub hlh]

/-! ## ARI_NARROW (R103, R107) -/

theorem narrowed_snoc (f : FreqModel) (cumLo : Table Word) (bs : List Byte) (b : Byte) (l w : Nat) :
    narrowed f cumLo (bs ++ [b]) l w =
      ((narrowed f cumLo bs l w).1 * f.total.toNat + (narrowed f cumLo bs l w).2 * (cumLo.at b).toNat,
        (narrowed f cumLo bs l w).2 * (f.count.at b).toNat) := by
  rw [narrowed, List.foldl_append]
  rfl

/-- The width grows by the product of the frequencies (R107). -/
theorem narrowed_width (f : FreqModel) (cumLo : Table Word) (bs : List Byte) : ∀ l w,
    (narrowed f cumLo bs l w).2 = w * (bs.map fun b => (f.count.at b).toNat).prod := by
  induction bs with
  | nil => simp [narrowed]
  | cons b bs ih =>
    intro l w
    rw [List.map_cons, List.prod_cons, ← Nat.mul_assoc]
    exact ih _ _

/-- The bytes `bs` have been narrowed by, from the state `s` on. -/
structure NarrowedBy (s : State) (bs : List Byte) (t : State) : Prop where
  params : t.params = s.params
  freq : t.freq = s.freq
  cumLo : t.ari.cumLo = s.ari.cumLo
  inPos : t.inPos = BitVec.ofNat 32 bs.length
  denominator : t.ari.d = s.ari.d * s.freq.total.toNat ^ bs.length
  interval : (t.ari.l, t.ari.h - t.ari.l) = narrowed s.freq s.ari.cumLo bs s.ari.l (s.ari.h - s.ari.l)
  count : s.ari.k.toNat + bs.length < 2 ^ 32 → t.ari.k.toNat = s.ari.k.toNat + bs.length

theorem narrowedBy_start (s : State) : NarrowedBy s [] { s with inPos := 0 } :=
  ⟨rfl, rfl, rfl, rfl, by simp, rfl, fun _ => rfl⟩

theorem narrowedBy_step {s t : State} {bs : List Byte} (ht : NarrowedBy s bs t) (b : Byte) :
    NarrowedBy s (bs ++ [b]) { narrowBy t b with inPos := BitVec.ofNat 32 (bs.length + 1) } := by
  obtain ⟨hp, hf, hc, -, hd, hi, hk⟩ := ht
  refine ⟨hp, hf, hc, by simp, ?_, ?_, fun hlt => ?_⟩
  · show t.ari.d * t.freq.total.toNat = _
    rw [hd, hf, List.length_append, List.length_singleton, pow_succ, Nat.mul_assoc]
  · rw [narrowed_snoc, ← hi]
    refine Prod.ext ?_ ?_
    · show t.ari.l * t.freq.total.toNat + (t.ari.h - t.ari.l) * (t.ari.cumLo.at b).toNat = _
      rw [hf, hc]
    · rw [← hf]
      exact narrowBy_width t b
  · rw [List.length_append, List.length_singleton] at hlt ⊢
    have := hk (by omega)
    show (bumpCount t.ari.k t.draws).toNat = _
    rw [bumpCount_toNat _ (by omega), this]
    omega

/-- The denominators on the way to one that fits fit, also if FREQ_TOTAL is 0. -/
theorem mul_pow_lt_of_le {d T m n K : Nat} (hm : 0 < m) (hmn : m ≤ n) (hK : 0 < K) (h : d * T ^ n < K) :
    d * T ^ m < K := by
  rcases Nat.eq_zero_or_pos T with rfl | hT
  · rwa [Nat.zero_pow hm, Nat.mul_zero]
  · exact lt_of_le_of_lt (Nat.mul_le_mul_left _ (Nat.pow_le_pow_right hT hmn)) h

section
variable {s : State} {bs : List Byte} (ht : s.stage.ariTblV = true) (hv : s.stage.ariV = true)
  (hin : s.cfg.inBase.toNat + s.cfg.inLen.toNat ≤ s.ibufSize) (hbs : s.inputIs bs)
include ht hv hin hbs

/-- With every byte in the table and room for the denominator, the pass completes. -/
theorem ariNarrowBody_completes (hsym : ∀ b ∈ bs, s.freq.count.at b ≠ 0)
    (hfits : s.ari.d * s.freq.total.toNat ^ bs.length < 2 ^ s.accBits) :
    ∃ t, bodyOf .ariNarrow s = .ok t ∧ NarrowedBy s bs t := by
  rw [ariNarrowBody_ready ht hv hin]
  have hpass : ∃ t, stream ariStepAt s = .ok t ∧ NarrowedBy s bs t ∧ t.ibuf = s.ibuf ∧ t.cfg = s.cfg := by
    refine stream_completes hbs (narrowedBy_start s) fun pre b post t hsplit hpre hibuf hcfg =>
      ⟨narrowBy t b, ariStepAt_narrows ?_ (Nat.not_le.2 ?_), hibuf, hcfg, narrowedBy_step hpre b⟩
    · rw [hpre.freq]
      exact hsym b (by simp [hsplit])
    · have hlen : pre.length + 1 ≤ bs.length := by simp [hsplit]
      rw [State.accBits, hpre.params, hpre.denominator, hpre.freq, Nat.mul_assoc, ← pow_succ]
      exact mul_pow_lt_of_le (Nat.succ_pos _) hlen (Nat.two_pow_pos _) hfits
  obtain ⟨t, hok, hnarrowed, -⟩ := hpass
  exact ⟨t, hok, hnarrowed⟩

/-- A pass that completes has narrowed by every byte. -/
theorem narrowedBy_of_ariNarrow {t : State} (h : bodyOf .ariNarrow s = .ok t) : NarrowedBy s bs t := by
  rw [ariNarrowBody_ready ht hv hin] at h
  refine (stream_ok (R := NarrowedBy s) hbs (narrowedBy_start s) ?_ h).1
  intro pre b post t u _ hpre hibuf hcfg hstep
  by_cases hb : t.freq.count.at b = 0
  · rw [ariStepAt_noSym hb] at hstep
    cases hstep
  · by_cases hd : 2 ^ t.accBits ≤ t.ari.d * t.freq.total.toNat
    · rw [ariStepAt_overflow hb hd] at hstep
      cases hstep
    · rw [ariStepAt_narrows hb hd] at hstep
      cases hstep
      exact ⟨hibuf, hcfg, narrowedBy_step hpre b⟩

end

theorem ofNat_length_of_inputIs {s : State} {bs : List Byte} (hbs : s.inputIs bs) :
    BitVec.ofNat 32 bs.length = s.cfg.inLen := by
  rw [hbs.1, BitVec.ofNat_toNat, BitVec.setWidth_eq]

/-- Settles O39: the pass narrows by one byte after another, and the width is the product of their shares. -/
theorem ariNarrowNarrowsByEveryByte : Obligations.AriNarrowNarrowsByEveryByte := by
  intro s bs ht hv hin hbs hsym hfits
  obtain ⟨t, hbody, hnarrowed⟩ := ariNarrowBody_completes ht hv hin hbs hsym hfits
  have hwidth := congrArg Prod.snd hnarrowed.interval
  rw [narrowed_width] at hwidth
  exact ⟨t.complete, exec_of_body hbody, completed_of_body (by decide) hbody,
    hnarrowed.inPos.trans (ofNat_length_of_inputIs hbs), hnarrowed.denominator, hnarrowed.interval, hwidth,
    hnarrowed.count⟩

end Sys2Proof.Machine
end

section
/-! SUPPORT. ARI_FINAL (O40; 43_arithmetic.md R104, R105, R107): the bit bound, the least fraction of that many bits that
is not below the interval, and that fraction without its trailing zeros. -/

namespace Sys2Proof.Machine

/-! ## The fraction (R104, R105) -/

/-- The numerator of the fraction that R105 emits: N without its trailing zeros. -/
def State.finalZ (s : State) : Nat := s.finalN >>> (s.finalB - s.finalE)

theorem finalZ_of_zero {s : State} (h0 : s.finalN = 0) : s.finalE = 0 ∧ s.finalZ = 0 :=
  ⟨if_pos h0, by rw [State.finalZ, h0, Nat.zero_shiftRight]⟩

section
variable {s : State} (ha : ArithInv s) (hv : s.stage.ariV = true)
include ha hv

theorem denominator_pos : 0 < s.ari.d := by
  obtain ⟨hlow, hhigh, -⟩ := ha.interval hv
  omega

/-- B is the least bound, and at most ARI_ACC_BITS: the interval has a width, and D fits (R104). -/
theorem finalB_least : s.finalB ≤ s.accBits ∧ s.ari.d ≤ (s.ari.h - s.ari.l) * 2 ^ s.finalB ∧
    ∀ c, c < s.finalB → (s.ari.h - s.ari.l) * 2 ^ c < s.ari.d := by
  obtain ⟨hlow, -, hfits⟩ := ha.interval hv
  exact bitBound_spec _ _ _ (hfits.le.trans (Nat.le_mul_of_pos_left _ (Nat.sub_pos_of_lt hlow)))

/-- N is the least numerator, and the step 2^-B is no wider than the interval, so N/2^B is below its end (R105). -/
theorem finalN_least : s.ari.l * 2 ^ s.finalB ≤ s.finalN * s.ari.d ∧
    (∀ m, s.ari.l * 2 ^ s.finalB ≤ m * s.ari.d → s.finalN ≤ m) ∧ s.finalN * s.ari.d < s.ari.h * 2 ^ s.finalB := by
  obtain ⟨hlow, -, -⟩ := ha.interval hv
  obtain ⟨-, hB, -⟩ := finalB_least ha hv
  obtain ⟨hle, hlt, hleast⟩ := ceilDiv_spec (a := s.ari.l * 2 ^ s.finalB) (denominator_pos ha hv)
  refine ⟨hle, hleast, ?_⟩
  calc s.finalN * s.ari.d < s.ari.l * 2 ^ s.finalB + s.ari.d := hlt
    _ ≤ s.ari.l * 2 ^ s.finalB + (s.ari.h - s.ari.l) * 2 ^ s.finalB := Nat.add_le_add_left hB _
    _ = s.ari.h * 2 ^ s.finalB := by rw [← Nat.add_mul, Nat.add_sub_cancel' hlow.le]

theorem finalN_lt : s.finalN < 2 ^ s.finalB := by
  obtain ⟨-, hhigh, -⟩ := ha.interval hv
  obtain ⟨-, -, hlt⟩ := finalN_least ha hv
  refine Nat.lt_of_mul_lt_mul_right (a := s.ari.d) (lt_of_lt_of_le hlt ?_)
  rw [Nat.mul_comm]
  exact Nat.mul_le_mul_left _ hhigh

/-- What is left of N > 0 is odd (R105). -/
theorem finalZ_odd (h0 : s.finalN ≠ 0) :
    s.finalN = s.finalZ * 2 ^ (s.finalB - s.finalE) ∧ s.finalZ % 2 = 1 ∧ s.finalE ≤ s.finalB := by
  obtain ⟨z, hz, hodd, htz⟩ := trailingZeros_spec s.finalB s.finalN (Nat.pos_of_ne_zero h0) (finalN_lt ha hv)
  have hE : s.finalE = s.finalB - trailingZeros s.finalB s.finalN := if_neg h0
  have hshift : s.finalB - s.finalE = trailingZeros s.finalB s.finalN := by omega
  have hZ : s.finalZ = z := by
    rw [State.finalZ, hshift, Nat.shiftRight_eq_div_pow]
    exact Nat.div_eq_of_eq_mul_left (Nat.two_pow_pos _) hz
  rw [hZ, hshift]
  exact ⟨hz, hodd, by omega⟩

theorem finalN_eq : s.finalN = s.finalZ * 2 ^ (s.finalB - s.finalE) ∧ s.finalE ≤ s.finalB := by
  by_cases h0 : s.finalN = 0
  · obtain ⟨hE, hZ⟩ := finalZ_of_zero h0
    exact ⟨by rw [hZ, h0, Nat.zero_mul], by omega⟩
  · obtain ⟨hN, -, hE⟩ := finalZ_odd ha hv h0
    exact ⟨hN, hE⟩

/-- The emitted fraction lies in the interval (R107). -/
theorem finalZ_in_interval : s.ari.l * 2 ^ s.finalE ≤ s.finalZ * s.ari.d ∧
    s.finalZ * s.ari.d < s.ari.h * 2 ^ s.finalE := by
  obtain ⟨hlow, -, hhigh⟩ := finalN_least ha hv
  obtain ⟨hN, hE⟩ := finalN_eq ha hv
  have hscale (x : Nat) : x * 2 ^ s.finalB = x * 2 ^ s.finalE * 2 ^ (s.finalB - s.finalE) := by
    rw [Nat.mul_assoc, ← pow_add, Nat.add_sub_cancel' hE]
  rw [hscale, hN, Nat.mul_right_comm s.finalZ] at hlow hhigh
  exact ⟨Nat.le_of_mul_le_mul_right hlow (Nat.two_pow_pos _), Nat.lt_of_mul_lt_mul_right hhigh⟩

theorem finalZ_lt : s.finalZ < 2 ^ s.finalE := by
  obtain ⟨-, hhigh, -⟩ := ha.interval hv
  obtain ⟨-, hlt⟩ := finalZ_in_interval ha hv
  refine Nat.lt_of_mul_lt_mul_right (a := s.ari.d) (lt_of_lt_of_le hlt ?_)
  rw [Nat.mul_comm]
  exact Nat.mul_le_mul_left _ hhigh

/-- ARI_B and ARI_BITS hold B and E. -/
theorem finalB_finalE_toNat (hp : s.params.valid) : (BitVec.ofNat 32 s.finalB).toNat = s.finalB ∧
    (BitVec.ofNat 32 s.finalE).toNat = s.finalE := by
  have hacc := (accBits_bounds hp).2
  have hB := (finalB_least ha hv).1
  have hE := (finalN_eq ha hv).2
  rw [BitVec.toNat_ofNat, BitVec.toNat_ofNat]
  omega

end

/-! ## The command (R105) -/

/-- The state that ARI_FINAL leaves where its bits have room. -/
def State.finalized (s : State) : State :=
  { s.appended s.finalBits with ari.b := BitVec.ofNat 32 s.finalB, ari.bits := BitVec.ofNat 32 s.finalE }

@[simp] theorem finalized_params (s : State) : s.finalized.params = s.params := appended_params s _
@[simp] theorem finalized_cfg (s : State) : s.finalized.cfg = s.cfg := appended_cfg s _
@[simp] theorem finalized_freq (s : State) : s.finalized.freq = s.freq := appended_freq s _

theorem finalized_ari (s : State) : s.finalized.ari =
    { s.ari with b := BitVec.ofNat 32 s.finalB, bits := BitVec.ofNat 32 s.finalE } := by
  rw [State.finalized, appended_ari]

theorem finalBits_length (s : State) : s.finalBits.length = s.finalE := bitsOf_length ..

section
variable {s : State} (hroom : s.bp.outLen.toNat + (s.bp.cnt.toNat + s.finalE) / 8 ≤ s.cfg.outCap.toNat)
include hroom

theorem roomFor_finalBits : s.roomFor s.finalBits.length = true := by
  rwa [finalBits_length, roomFor_iff]

theorem ariFinalBody_room (hv : s.stage.ariV = true)
    (hout : s.cfg.outBase.toNat + s.cfg.outCap.toNat ≤ s.obufSize) : bodyOf .ariFinal s = .ok s.finalized := by
  refine (checkStage_then (i := .ariFinal) hv).trans ((outCheck_then hout).trans ?_)
  rw [appendBits_ok (roomFor_finalBits hroom), andThen_ok]
  rfl

theorem finalized_streamBits (hacc : s.bp.acc.toNat < 2 ^ s.bp.cnt.toNat) :
    s.finalized.streamBits = s.streamBits ++ bitsOf s.finalE s.finalZ :=
  appended_streamBits hacc (roomFor_finalBits hroom)

theorem finalized_counts : s.finalized.bp.outLen.toNat = s.bp.outLen.toNat + (s.bp.cnt.toNat + s.finalE) / 8 ∧
    s.finalized.bp.cnt.toNat = (s.bp.cnt.toNat + s.finalE) % 8 := by
  rw [← finalBits_length]
  exact appended_counts (roomFor_finalBits hroom)

end

theorem ariFinalBody_full {s : State} (hv : s.stage.ariV = true)
    (hout : s.cfg.outBase.toNat + s.cfg.outCap.toNat ≤ s.obufSize)
    (hfull : s.cfg.outCap.toNat < s.bp.outLen.toNat + (s.bp.cnt.toNat + s.finalE) / 8) :
    bodyOf .ariFinal s = .error s .outOverflow 0 := by
  have hover : s.overfull s.finalBits.length := by
    rw [finalBits_length]
    exact hfull
  refine (checkStage_then (i := .ariFinal) hv).trans ((outCheck_then hout).trans ?_)
  rw [appendBits_full (roomFor_eq_false_iff.2 hover), andThen_error]

/-- Settles O40: B, N, E and z are those the model computes, and the Append has room or changes nothing. -/
theorem ariFinalEmitsAFractionInTheInterval : Obligations.AriFinalEmitsAFractionInTheInterval := by
  intro s ha hv hp hout hacc
  obtain ⟨hBle, hB, hBleast⟩ := finalB_least ha hv
  obtain ⟨hbB, hbE⟩ := finalB_finalE_toNat ha hv hp
  refine ⟨s.finalB, s.finalN, s.finalE, s.finalZ, ⟨hB, hBleast⟩, finalN_least ha hv, ?_, hBle, fun hroom => ?_,
    fun hfull => raisesOnly_of_body (ariFinalBody_full hv hout hfull)⟩
  · split
    · exact finalZ_of_zero ‹_›
    · exact finalZ_odd ha hv ‹_›
  · have hbody := ariFinalBody_room hroom hv hout
    refine ⟨s.finalized.complete, exec_of_body hbody, completed_of_body (by decide) hbody,
      finalized_streamBits hroom hacc, ?_⟩
    rw [complete_ari, finalized_ari]
    exact ⟨hbB, hbE, rfl, rfl, rfl, rfl⟩

end Sys2Proof.Machine
end

section
/-! SUPPORT. The decode check of 95_test_vectors.md 4.2 (O42; 43_arithmetic.md R107). The intervals of a sequence are
nested, so a value in the last one is in the share of every symbol on the way; the shares of different symbols are
disjoint, so no other sequence of that length decodes from it. -/

namespace Sys2Proof.Machine

/-- The share of a symbol ends where that of a later one starts, or before (R99). -/
theorem share_end_le (t : Table Word) {b c : Byte} (h : b.toNat < c.toNat) :
    countBelow t b.toNat + (t.at b).toNat ≤ countBelow t c.toNat := by
  rw [← countBelow_sym]
  exact countBelow_mono t h

section
variable {f : FreqModel} {cumLo : Table Word}

/-- The interval of a sequence lies in the one it starts from (R107). -/
theorem narrowed_within (hshare : ∀ b, (cumLo.at b).toNat + (f.count.at b).toNat ≤ f.total.toNat) (bs : List Byte) :
    ∀ l w, l * f.total.toNat ^ bs.length ≤ (narrowed f cumLo bs l w).1 ∧
      (narrowed f cumLo bs l w).1 + (narrowed f cumLo bs l w).2 ≤ (l + w) * f.total.toNat ^ bs.length := by
  induction bs with
  | nil => simp [narrowed]
  | cons b bs ih =>
    intro l w
    obtain ⟨hlow, hhigh⟩ := ih (l * f.total.toNat + w * (cumLo.at b).toNat) (w * (f.count.at b).toNat)
    rw [List.length_cons, pow_succ']
    constructor
    · calc l * (f.total.toNat * f.total.toNat ^ bs.length)
          ≤ (l * f.total.toNat + w * (cumLo.at b).toNat) * f.total.toNat ^ bs.length := by
            rw [← Nat.mul_assoc]
            exact Nat.mul_le_mul_right _ (Nat.le_add_right _ _)
        _ ≤ _ := hlow
    · calc _ ≤ (l * f.total.toNat + w * (cumLo.at b).toNat + w * (f.count.at b).toNat) *
            f.total.toNat ^ bs.length := hhigh
        _ = (l * f.total.toNat + w * ((cumLo.at b).toNat + (f.count.at b).toNat)) *
            f.total.toNat ^ bs.length := by ring
        _ ≤ (l * f.total.toNat + w * f.total.toNat) * f.total.toNat ^ bs.length := by gcongr; exact hshare b
        _ = (l + w) * (f.total.toNat * f.total.toNat ^ bs.length) := by ring

/-- Where a value lies within an interval (95_test_vectors.md 4.2), in terms of the bounds of the next one (R102). -/
theorem position_of_mem {v l w d T x : ℚ} (hw : 0 < w) (hd : 0 < d) (hT : 0 < T) :
    (l * T + w * x ≤ v * (d * T) → x / T ≤ (v - l / d) / (w / d)) ∧
      (v * (d * T) < l * T + w * x → (v - l / d) / (w / d) < x / T) := by
  have hpos : (v - l / d) / (w / d) = (v * d - l) / w := by
    field_simp
  rw [hpos, div_le_div_iff₀ hT hw, div_lt_div_iff₀ hw hT]
  constructor <;> intro h <;> linarith

/-- A value in the interval of a sequence decodes as it. -/
theorem decodesAs_of_mem (hshare : ∀ b, (cumLo.at b).toNat + (f.count.at b).toNat ≤ f.total.toNat) {v : ℚ}
    (bs : List Byte) : ∀ l w d : Nat, 0 < w → 0 < d → (∀ b ∈ bs, f.count.at b ≠ 0) →
      ((narrowed f cumLo bs l w).1 : ℚ) ≤ v * (d * f.total.toNat ^ bs.length) →
      v * (d * f.total.toNat ^ bs.length) < (narrowed f cumLo bs l w).1 + (narrowed f cumLo bs l w).2 →
      decodesAs f cumLo v bs ((l : ℚ) / d) ((w : ℚ) / d) := by
  induction bs with
  | nil => exact fun _ _ _ _ _ _ _ _ => trivial
  | cons b bs ih =>
    intro l w d hw hd hsym hlow hhigh
    obtain ⟨hb, hsym'⟩ := List.forall_mem_cons.1 hsym
    have hf := pos_iff_ne_zero.2 hb
    have hT : 0 < f.total.toNat := lt_of_lt_of_le hf (le_trans (Nat.le_add_left _ _) (hshare b))
    have hwq : (0 : ℚ) < w := Nat.cast_pos.2 hw
    have hdq : (0 : ℚ) < d := Nat.cast_pos.2 hd
    have hTq : (0 : ℚ) < f.total.toNat := Nat.cast_pos.2 hT
    have hpow : (0 : ℚ) < (f.total.toNat : ℚ) ^ bs.length := pow_pos hTq _
    obtain ⟨hin, hin'⟩ := narrowed_within hshare bs (l * f.total.toNat + w * (cumLo.at b).toNat)
      (w * (f.count.at b).toNat)
    have hscale : v * (d * (f.total.toNat : ℚ) ^ (b :: bs).length) =
        v * (d * f.total.toNat) * (f.total.toNat : ℚ) ^ bs.length := by
      rw [List.length_cons, pow_succ']
      ring
    have hstart : (l * f.total.toNat + w * (cumLo.at b).toNat : ℚ) ≤ v * (d * f.total.toNat) := by
      refine le_of_mul_le_mul_right ?_ hpow
      rw [← hscale]
      exact le_trans (by exact_mod_cast hin) hlow
    have hend : v * (d * f.total.toNat : ℚ) <
        l * f.total.toNat + w * (cumLo.at b).toNat + w * (f.count.at b).toNat := by
      refine lt_of_mul_lt_mul_right ?_ hpow.le
      rw [← hscale]
      exact lt_of_lt_of_le hhigh (by exact_mod_cast hin')
    refine ⟨hb, (position_of_mem hwq hdq hTq).1 hstart, (position_of_mem hwq hdq hTq).2 ?_, ?_⟩
    · rwa [mul_add, ← add_assoc]
    · have htail := ih (l * f.total.toNat + w * (cumLo.at b).toNat) (w * (f.count.at b).toNat) (d * f.total.toNat)
        (Nat.mul_pos hw hf) (Nat.mul_pos hd hT) hsym' (hlow.trans_eq (by rw [hscale]; push_cast; ring))
        (lt_of_eq_of_lt (by rw [hscale]; push_cast; ring) hhigh)
      push_cast at htail
      rwa [narrowed_bound hdq.ne' hTq.ne', mul_div_mul_comm] at htail

variable (htable : ∀ b, (cumLo.at b).toNat = countBelow f.count b.toNat)
include htable

/-- One value is in the share of one symbol only. -/
theorem not_two_shares {x : ℚ} {b c : Byte} (hlt : b.toNat < c.toNat)
    (hb : x < (((cumLo.at b).toNat : ℚ) + (f.count.at b).toNat) / f.total.toNat) :
    ¬ ((cumLo.at c).toNat : ℚ) / f.total.toNat ≤ x := by
  intro hc
  have hle : ((cumLo.at b).toNat : ℚ) + (f.count.at b).toNat ≤ (cumLo.at c).toNat := by
    rw [htable, htable]
    exact_mod_cast share_end_le f.count hlt
  exact absurd (lt_of_le_of_lt hc hb) (not_lt.2 (by gcongr))

theorem decodesAs_unique {v : ℚ} (bs : List Byte) : ∀ (cs : List Byte) (lo w : ℚ), cs.length = bs.length →
    decodesAs f cumLo v bs lo w → decodesAs f cumLo v cs lo w → cs = bs := by
  induction bs with
  | nil => exact fun cs _ _ hlen _ _ => List.length_eq_zero_iff.1 hlen
  | cons b bs ih =>
    rintro (- | ⟨c, cs⟩) lo w hlen hbs hcs
    · cases hlen
    · obtain ⟨-, hb, hb', hbs⟩ := hbs
      obtain ⟨-, hc, hc', hcs⟩ := hcs
      have hle : c.toNat ≤ b.toNat := Nat.le_of_not_lt fun hlt => not_two_shares htable hlt hb' hc
      have hge : b.toNat ≤ c.toNat := Nat.le_of_not_lt fun hlt => not_two_shares htable hlt hc' hb
      obtain rfl : c = b := BitVec.eq_of_toNat_eq (Nat.le_antisymm hle hge)
      rw [ih cs _ _ (Nat.succ.inj hlen) hbs hcs]

end

end Sys2Proof.Machine
end

section
/-! SUPPORT. ARI_ENCODE (O41, O42; 43_arithmetic.md R106, R107, R139, R145). The first phases make the table of the input
and narrow the unit interval by its bytes; the last ones write the fraction, the padding and the record. -/

namespace Sys2Proof.Machine

/-! ## How a body that completes has gone -/

theorem runBodies_cons_ok {i : Instr} {phases : List Instr} {s t : State} (h : runBodies (i :: phases) s = .ok t) :
    ∃ u, bodyOf i s = .ok u ∧ runBodies phases u = .ok t := by
  rw [runBodies] at h
  cases hr : bodyOf i s with
  | ok u =>
    rw [hr] at h
    exact ⟨u, rfl, h⟩
  | error u c k =>
    rw [hr] at h
    cases h
  | fault f =>
    rw [hr] at h
    cases h

theorem runBodies_append_ok {l m : List Instr} : ∀ {s t : State}, runBodies (l ++ m) s = .ok t →
    ∃ u, runBodies l s = .ok u ∧ runBodies m u = .ok t := by
  induction l with
  | nil => exact fun h => ⟨_, rfl, h⟩
  | cons i l ih =>
    intro s t h
    obtain ⟨v, hv, h⟩ := runBodies_cons_ok h
    obtain ⟨u, hl, hm⟩ := ih h
    exact ⟨u, by rw [runBodies_cons hv, hl], hm⟩

theorem body_ok_of_exec {i : Instr} {s t : State} (h : exec i s = .next t) (herr : t.status.err = false) :
    ∃ u, bodyOf i s = .ok u ∧ t = u.complete := by
  rw [exec_eq] at h
  rcases finish_next h with hok | ⟨u, c, k, -, rfl⟩
  · exact hok
  · rw [raiseError_status] at herr
    cases herr

/-- A fused command that completes has passed its two checks (R83). -/
theorem fused_ranges {i : Instr} {phases : List Instr} {s t : State} (hi : (i, phases) ∈ fusedPhases)
    (h : bodyOf i s = .ok t) : s.cfg.inBase.toNat + s.cfg.inLen.toNat ≤ s.ibufSize ∧
      s.cfg.outBase.toNat + s.cfg.outCap.toNat ≤ s.obufSize := by
  obtain ⟨f, hf⟩ := bodyOf_fused_checks hi s
  rw [hf] at h
  rcases Nat.lt_or_ge s.ibufSize (s.cfg.inBase.toNat + s.cfg.inLen.toNat) with hin | hin
  · rw [inCheck_raises hin] at h
    cases h
  · rw [inCheck_then hin] at h
    rcases Nat.lt_or_ge s.obufSize (s.cfg.outBase.toNat + s.cfg.outCap.toNat) with hout | hout
    · rw [outCheck_raises hout] at h
      cases h
    · exact ⟨hin, hout⟩

/-- BP_PAD completes only with room for the byte it completes. -/
theorem room_of_bpPad {s t : State} (h : bodyOf .bpPad s = .ok t) :
    8 * s.bp.outLen.toNat + s.bp.cnt.toNat ≤ 8 * s.cfg.outCap.toNat := by
  replace h := check_ok h
  cases hr : s.roomFor (bitsOf (padCount s.bp.cnt) 0).length with
  | false =>
    rw [appendBits_full hr] at h
    cases h
  | true =>
    have hcnt := s.bp.cnt.isLt
    have hpad : padCount s.bp.cnt = (8 - s.bp.cnt.toNat) % 8 := rfl
    rw [roomFor_iff, bitsOf_length] at hr
    omega

/-! ## The interval of the input (R85, R99, R101, R103) -/

/-- In a run of ARI_ENCODE over the input `bs` from `s`: `t` holds the table of `bs` and the interval of its first bytes
`pre`, and the stream is still empty. -/
structure IntervalAfter (s : State) (bs pre : List Byte) (t : State) : Prop extends Narrowing t where
  host : s.sameHostSide t
  empty : t.bp = ⟨0, 0, 0, 0, 0⟩
  count : ∀ b, (t.freq.count.at b).toNat = bs.count b
  total : t.freq.total.toNat = bs.length
  denominator : t.ari.d = bs.length ^ pre.length
  interval : (t.ari.l, t.ari.h - t.ari.l) = narrowed t.freq t.ari.cumLo pre 0 1

section
variable {s t u : State} {bs : List Byte}

/-- The host's side fixes the ranges of R77 and R78, the width of the accumulators, and the input. -/
theorem ranges_of_sameHostSide (h : s.sameHostSide t) : t.ibufSize = s.ibufSize ∧ t.obufSize = s.obufSize ∧
    t.accBits = s.accBits ∧ t.cfg = s.cfg ∧ (t.inputIs bs ↔ s.inputIs bs) := by
  obtain ⟨hparams, -, -, hcfg, hibuf, -⟩ := h
  rw [State.ibufSize, State.obufSize, State.accBits, State.inputIs, hparams, hcfg, hibuf]
  exact ⟨rfl, rfl, rfl, rfl, Iff.rfl⟩

/-- A symbol of the input is in its own table. -/
theorem IntervalAfter.present {pre : List Byte} (ht : IntervalAfter s bs pre t) : ∀ b ∈ bs, t.freq.count.at b ≠ 0 :=
  fun b hb => by
    rw [← pos_iff_ne_zero, ht.count]
    exact List.count_pos_iff.2 hb

/-- The phases that start the unit interval over the table of the input. -/
def unitPhases : List Instr := [.bpClear, .freq, .ariTable, .ariInit]

/-- The phases that end in the interval of the input. -/
def intervalPhases : List Instr := unitPhases ++ [.ariNarrow]

theorem intervalPhases_eq (ht : runBodies unitPhases s = .ok t) : runBodies intervalPhases s = bodyOf .ariNarrow t := by
  rw [intervalPhases, runBodies_append ht, runBodies]
  cases bodyOf .ariNarrow t <;> rfl

/-- A narrowing that completes ends in the interval of the whole input. -/
theorem intervalAfter_of_ariNarrow (hin : s.cfg.inBase.toNat + s.cfg.inLen.toNat ≤ s.ibufSize) (hbs : s.inputIs bs)
    (ht : IntervalAfter s bs [] t) (h : bodyOf .ariNarrow t = .ok u) : IntervalAfter s bs bs u := by
  obtain ⟨hsize, -, -, hcfg, hinput⟩ := ranges_of_sameHostSide (bs := bs) ht.host
  have hnarrowed := narrowedBy_of_ariNarrow ht.tableValid ht.intervalValid (by rw [hsize, hcfg]; exact hin)
    (hinput.2 hbs) h
  have hsound := unfusedBody_arithSound (i := .ariNarrow) rfl ht.toArithSound
  have honly : (bodyOf .ariNarrow t).Ends (narrowOnly t) := ariNarrowBody_only t
  rw [h] at hsound honly
  obtain ⟨hframe, -⟩ := honly
  obtain ⟨-, hfreq, hcum, -, hdenom, hinterval, -⟩ := hnarrowed
  obtain ⟨hl, hwidth⟩ := Prod.mk.inj ht.interval
  refine ⟨⟨hsound, ?_, ?_⟩, ?_, ?_, ?_, ?_, ?_, ?_⟩
  · rw [hframe]
    exact ht.tableValid
  · rw [hframe]
    exact ht.intervalValid
  · rw [hframe]
    exact ht.host
  · rw [hframe]
    exact ht.empty
  · rw [hfreq]
    exact ht.count
  · rw [hfreq]
    exact ht.total
  · rw [hdenom, ht.denominator, ht.total, List.length_nil, pow_zero, Nat.one_mul]
  · rw [hinterval, hwidth, hl, hfreq, hcum]

section
variable (hp : s.params.valid) (hin : s.cfg.inBase.toNat + s.cfg.inLen.toNat ≤ s.ibufSize) (hbs : s.inputIs bs)
include hp hin hbs

/-- The phases before the narrowing complete on any readable input, in the unit interval over its table. -/
theorem unitPhases_complete : ∃ t, runBodies unitPhases s = .ok t ∧ IntervalAfter s bs [] t := by
  obtain ⟨t, hfreq, hcount, htotal, -, -, -, hstage, hframe⟩ :=
    freqBody_counts (s := clearStream s) ((inRangeOk_iff s).2 hin) hbs
  have hfv : t.stage.freqV = true := by rw [hstage]
  have hf := (freqBody_inv hfreq).1
  have hp' : t.params.valid := by rw [hframe]; exact hp
  refine ⟨openInterval (buildIntervals t), ?_,
    ⟨⟨⟨hp', { hf with }, arithInv_openInterval hp' (arithInv_buildIntervals hf hfv)⟩, rfl, rfl⟩,
      ?_, ?_, hcount, ?_, rfl, rfl⟩⟩
  · rw [unitPhases, runBodies_cons (i := .bpClear) (t := clearStream s) rfl, runBodies_cons (i := .freq) hfreq,
      runBodies_cons (ariTableBody_ok hfv)]
    rfl
  · show s.sameHostSide t
    rw [hframe]
    exact sameHostSide_refl s
  · show t.bp = _
    rw [hframe]
    rfl
  · exact (congrArg BitVec.toNat htotal).trans hbs.1.symm

theorem intervalPhases_ok (h : runBodies intervalPhases s = .ok u) : IntervalAfter s bs bs u := by
  obtain ⟨t, ht, hunit⟩ := unitPhases_complete hp hin hbs
  rw [intervalPhases_eq ht] at h
  exact intervalAfter_of_ariNarrow hin hbs hunit h

/-- Every byte of the input is in its own table, so the precision alone can stop the narrowing (R139, R145). -/
theorem intervalPhases_complete (hfits : bs.length ^ bs.length < 2 ^ s.accBits) :
    ∃ u, runBodies intervalPhases s = .ok u := by
  obtain ⟨t, ht, hunit⟩ := unitPhases_complete hp hin hbs
  obtain ⟨hsize, -, hacc, hcfg, hinput⟩ := ranges_of_sameHostSide (bs := bs) hunit.host
  have hfits' : t.ari.d * t.freq.total.toNat ^ bs.length < 2 ^ t.accBits := by
    rwa [hunit.denominator, hunit.total, hacc, List.length_nil, pow_zero, Nat.one_mul]
  obtain ⟨u, hu, -⟩ := ariNarrowBody_completes hunit.tableValid hunit.intervalValid (by rw [hsize, hcfg]; exact hin)
    (hinput.2 hbs) hunit.present hfits'
  exact ⟨u, by rw [intervalPhases_eq ht, hu]⟩

end
end

/-! ## The fraction, the padding and the record (R105, R119, R81) -/

/-- The phases that write the fraction and the record. -/
def fractionPhases : List Instr := [.ariFinal, .bpPad, .result]

/-- The state `t` has the fraction of the interval of `u` in its window, padded, and nothing else. -/
structure FractionOf (u t : State) : Prop where
  cfg : t.cfg = u.cfg
  freq : t.freq = u.freq
  ari : t.ari = u.finalized.ari
  stream : t.streamBits = bitsOf u.finalE u.finalZ ++ List.replicate t.bp.padBits.toNat false
  aligned : t.bp.cnt = 0
  res : t.res = ⟨t.cfg.inLen, t.bp.outLen⟩

theorem start_of_empty {s : State} (h : s.bp = ⟨0, 0, 0, 0, 0⟩) : s.bp.outLen.toNat = 0 ∧ s.bp.cnt.toNat = 0 ∧
    s.bp.acc.toNat < 2 ^ s.bp.cnt.toNat ∧ s.streamBits = [] := by
  rw [State.streamBits, h]
  exact ⟨rfl, rfl, by decide, rfl⟩

section
variable {u : State} (hv : u.stage.ariV = true) (hout : u.cfg.outBase.toNat + u.cfg.outCap.toNat ≤ u.obufSize)
  (hempty : u.bp = ⟨0, 0, 0, 0, 0⟩)
include hv hout hempty

theorem fractionPhases_complete (hroom : u.finalE ≤ 8 * u.cfg.outCap.toNat) :
    ∃ t, runBodies fractionPhases u = .ok t ∧ FractionOf u t := by
  obtain ⟨hlen, hcnt, hacc, hstream⟩ := start_of_empty hempty
  have hroom' : u.bp.outLen.toNat + (u.bp.cnt.toNat + u.finalE) / 8 ≤ u.cfg.outCap.toNat := by omega
  have hfinal := ariFinalBody_room hroom' hv hout
  have hbits := finalized_streamBits hroom' hacc
  rw [hstream, List.nil_append] at hbits
  have hcounts := finalized_counts hroom'
  obtain ⟨t, hpad, hpadded, haligned⟩ := bpPadBody_pads (s := u.finalized)
    (by rw [State.obufSize, finalized_params, finalized_cfg]; exact hout) (appended_acc (l := u.finalBits) hacc)
    (by rw [finalized_cfg]; omega)
  have hframe : (bodyOf .bpPad u.finalized).Ends fun t => t = { u.finalized with bp := t.bp, obuf := t.obuf } :=
    bpPadBody_only _
  rw [hpad] at hframe
  have hresult : bodyOf .result t = .ok (latchResult t) := checkStage_then (beq_iff_eq.2 haligned)
  refine ⟨latchResult t, ?_, ?_, ?_, ?_, ?_, haligned, rfl⟩
  · rw [fractionPhases, runBodies_cons hfinal, runBodies_cons hpad, runBodies_cons hresult]
    rfl
  · rw [latchResult_cfg, hframe, finalized_cfg]
  · rw [latchResult_freq, hframe, finalized_freq]
  · rw [latchResult_ari, hframe]
  · rw [hbits] at hpadded
    exact hpadded

/-- The last phases complete only where the fraction has room. -/
theorem room_of_fractionPhases {t : State} (h : runBodies fractionPhases u = .ok t) :
    u.finalE ≤ 8 * u.cfg.outCap.toNat := by
  obtain ⟨v, hfinal, h⟩ := runBodies_cons_ok h
  obtain ⟨w, hpad, -⟩ := runBodies_cons_ok h
  obtain ⟨hlen, hcnt, -⟩ := start_of_empty hempty
  rcases Nat.lt_or_ge u.cfg.outCap.toNat (u.bp.outLen.toNat + (u.bp.cnt.toNat + u.finalE) / 8) with hfull | hroom
  · rw [ariFinalBody_full hv hout hfull] at hfinal
    cases hfinal
  · rw [ariFinalBody_room hroom hv hout] at hfinal
    cases hfinal
    have hpadroom := room_of_bpPad hpad
    have hcounts := finalized_counts hroom
    rw [finalized_cfg] at hpadroom
    omega

end

/-! ## The whole command -/

theorem ariEncode_phases : (Instr.ariEncode, intervalPhases ++ fractionPhases) ∈ fusedPhases := by decide

section
variable {s t u : State} {bs : List Byte}

theorem fractionPhases_ready (h : IntervalAfter s bs bs u)
    (hout : s.cfg.outBase.toNat + s.cfg.outCap.toNat ≤ s.obufSize) :
    u.cfg.outBase.toNat + u.cfg.outCap.toNat ≤ u.obufSize := by
  obtain ⟨-, hsize, -, hcfg, -⟩ := ranges_of_sameHostSide (bs := bs) h.host
  rwa [hsize, hcfg]

/-- ARI_ENCODE that completes leaves the fraction of the interval of its input. -/
theorem ariEncode_ok (hp : s.params.valid) (hbs : s.inputIs bs) (h : bodyOf .ariEncode s = .ok t) :
    ∃ u, IntervalAfter s bs bs u ∧ FractionOf u t := by
  obtain ⟨hin, hout⟩ := fused_ranges ariEncode_phases h
  rw [bodyOf_fused ariEncode_phases hin hout] at h
  obtain ⟨u, hinterval, hfraction⟩ := runBodies_append_ok h
  have hu := intervalPhases_ok hp hin hbs hinterval
  have hroom := room_of_fractionPhases hu.intervalValid (fractionPhases_ready hu hout) hu.empty hfraction
  obtain ⟨t', ht', hfrac⟩ := fractionPhases_complete hu.intervalValid (fractionPhases_ready hu hout) hu.empty hroom
  obtain rfl : t' = t := CmdResult.ok.inj (ht'.symm.trans hfraction)
  exact ⟨u, hu, hfrac⟩

/-- The fraction has at most ARI_ACC_BITS bits, so a window of ⌈W/8⌉ bytes has room (R145). -/
theorem ariEncode_complete (hp : s.params.valid) (hin : s.cfg.inBase.toNat + s.cfg.inLen.toNat ≤ s.ibufSize)
    (hout : s.cfg.outBase.toNat + s.cfg.outCap.toNat ≤ s.obufSize) (hbs : s.inputIs bs)
    (hfits : bs.length ^ bs.length < 2 ^ s.accBits) (hcap : s.accBits ≤ 8 * s.cfg.outCap.toNat) :
    ∃ t, bodyOf .ariEncode s = .ok t := by
  obtain ⟨u, hinterval⟩ := intervalPhases_complete hp hin hbs hfits
  have hu := intervalPhases_ok hp hin hbs hinterval
  have hE := (finalN_eq hu.arith hu.intervalValid).2
  have hB := (finalB_least hu.arith hu.intervalValid).1
  obtain ⟨-, -, hacc, hcfg, -⟩ := ranges_of_sameHostSide (bs := bs) hu.host
  obtain ⟨t, ht, -⟩ := fractionPhases_complete hu.intervalValid (fractionPhases_ready hu hout) hu.empty
    (by rw [hcfg]; omega)
  exact ⟨t, by rw [bodyOf_fused ariEncode_phases hin hout, runBodies_append hinterval, ht]⟩

/-- The bits in the window are those of the fraction, and ARI_BITS is their number. -/
theorem fractionOf_bits (hu : IntervalAfter s bs bs u) (ht : FractionOf u t) : t.ari.bits.toNat = u.finalE := by
  rw [ht.ari, finalized_ari]
  exact (finalB_finalE_toNat hu.arith hu.intervalValid hu.params).2

/-- The fraction lies in the interval of the input, so it decodes as the input (R107). -/
theorem fraction_decodes (hu : IntervalAfter s bs bs u) :
    decodesAs u.freq u.ari.cumLo ((u.finalZ : ℚ) / 2 ^ u.finalE) bs 0 1 := by
  obtain ⟨hlow, hhigh⟩ := finalZ_in_interval hu.arith hu.intervalValid
  obtain ⟨hlt, -, -⟩ := hu.arith.interval hu.intervalValid
  have hshare := cumLo_add_count_le hu.freq hu.arith hu.tableValid
  have hpow : (0 : ℚ) < 2 ^ u.finalE := by positivity
  have hd : (u.ari.d : ℚ) = (1 : ℕ) * (u.freq.total.toNat : ℚ) ^ bs.length := by
    rw [hu.denominator, hu.total]
    push_cast
    ring
  have hdecodes := decodesAs_of_mem hshare (v := (u.finalZ : ℚ) / 2 ^ u.finalE) bs 0 1 1 Nat.one_pos Nat.one_pos
    hu.present
  rw [← hu.interval, ← hd, div_mul_eq_mul_div, le_div_iff₀ hpow, div_lt_iff₀ hpow] at hdecodes
  have := hdecodes (by exact_mod_cast hlow) (by
    rw [← Nat.cast_add, Nat.add_sub_cancel' hlt.le]
    exact_mod_cast hhigh)
  simpa using this

end

/-- Settles O41: the phases complete one after another, and what they leave is the fraction of the input's interval. -/
theorem ariEncodeCompletes : Obligations.AriEncodeCompletes := by
  intro s bs hp hin hout hbs hfits hcap
  obtain ⟨t, hbody⟩ := ariEncode_complete hp hin hout hbs hfits hcap
  obtain ⟨u, hu, ht⟩ := ariEncode_ok hp hbs hbody
  have hbits := fractionOf_bits hu ht
  have hwidth := congrArg Prod.snd hu.interval
  rw [narrowed_width, Nat.one_mul] at hwidth
  have hl : t.ari.l = u.ari.l := by rw [ht.ari, finalized_ari]
  have hh : t.ari.h = u.ari.h := by rw [ht.ari, finalized_ari]
  have hd : t.ari.d = u.ari.d := by rw [ht.ari, finalized_ari]
  refine ⟨t.complete, u.finalZ, exec_of_body hbody, completed_of_body (by decide) hbody, ?_⟩
  rw [complete_ari, complete_bp, complete_res, hbits, hl, hh, hd]
  obtain ⟨-, -, -, hcfg, -⟩ := ranges_of_sameHostSide (bs := bs) hu.host
  obtain ⟨hlow, hhigh⟩ := finalZ_in_interval hu.arith hu.intervalValid
  refine ⟨hu.denominator, ?_, ht.stream, ht.aligned, finalZ_lt hu.arith hu.intervalValid, hlow, hhigh, ?_, ?_⟩
  · simpa only [hu.count] using hwidth
  · rw [ht.res, ht.cfg, hcfg]
  · rw [ht.res]

/-- Settles O42: the fraction decodes as the input, and no value decodes as two sequences of one length. -/
theorem ariStreamDecodesToTheInput : Obligations.AriStreamDecodesToTheInput := by
  intro s t bs hp hbs h herr
  obtain ⟨v, hbody, rfl⟩ := body_ok_of_exec h herr
  obtain ⟨u, hu, hv⟩ := ariEncode_ok hp hbs hbody
  have hcum : v.ari.cumLo = u.ari.cumLo := by rw [hv.ari, finalized_ari]
  refine ⟨u.finalZ, ?_⟩
  rw [complete_ari, complete_freq, complete_bp, fractionOf_bits hu hv, hcum, hv.freq]
  refine ⟨hv.stream, finalZ_lt hu.arith hu.intervalValid, fun cs hlen => ⟨fun hcs => ?_, ?_⟩⟩
  · exact decodesAs_unique (hu.arith.table hu.tableValid) bs cs 0 1 hlen (fraction_decodes hu) hcs
  · rintro rfl
    exact fraction_decodes hu

end Sys2Proof.Machine
end

section
/-! SUPPORT. Every step keeps the LZW dictionary sound (O56; 44_lzw.md R115). A command writes what the invariant reads
only where it seeds the dictionary (LZW_INIT), runs R110's step body (LZW_STEP, LZW_RUN), empties the match (LZW_FLUSH),
or empties the unit (the resets); LZW_ENCODE is a sequence of these. -/

namespace Sys2Proof.Machine

/-! ## What the invariant reads -/

/-- The parts of the state that the dictionary's invariant speaks of. -/
def lzwParts : List Part := [.lzwMatch, .lzwDict, .lzwAct, .bit .lzwV, .bit .lzwFull]

theorem lzwInv_of_eq {s t : State} (hs : LzwInv s) (hlzw : t.lzw = s.lzw) (hv : t.stage.lzwV = s.stage.lzwV)
    (hfull : t.stage.lzwFull = s.stage.lzwFull) : LzwInv t := by
  obtain ⟨hwidth, hnext, hsize, hcur, hlower, hdistinct, hf, habsent⟩ := hs
  rw [← hv, ← hlzw] at *
  rw [← hfull] at hf
  exact ⟨hwidth, hnext, hsize, hcur, hlower, hdistinct, hf, habsent⟩

theorem lzwInv_congr {s t : State} (hs : LzwInv s) (h : ∀ p ∈ lzwParts, samePart s t p) : LzwInv t := by
  have hmatch := h .lzwMatch (by decide)
  have hdict := h .lzwDict (by decide)
  have hact : t.lzw.act = s.lzw.act := h .lzwAct (by decide)
  simp only [samePart, Prod.mk.injEq] at hmatch hdict
  refine lzwInv_of_eq hs ?_ (bool_eq_of_toNat_eq _ _ (h (.bit .lzwV) (by decide)))
    (bool_eq_of_toNat_eq _ _ (h (.bit .lzwFull) (by decide)))
  cases ht : t.lzw
  cases hs : s.lzw
  simp_all

/-- A unit that is not initialised holds no entry (10_state.md R44). -/
theorem lzwInv_of_absent {s : State} (hv : s.stage.lzwV = false) (hz : s.lzw = Lzw.zero) : LzwInv s := by
  constructor <;> simp [hv, hz, Lzw.zero]

/-! ## LZW_INIT and LZW_FLUSH (R108, R113) -/

/-- A legal WIDTH gives a seeded dictionary of at most 2^16 codes (10_state.md R28). -/
theorem dictInv_seedDict {s : State} (hc : ConfigInv s) : DictInv (seedDict s).lzw := by
  obtain ⟨hlow, hhigh⟩ := hc.width
  obtain ⟨-, -, ⟨-, hmax⟩, -⟩ := hc.params
  exact ⟨⟨hlow, hhigh.trans hmax⟩, ⟨le_rfl, Nat.pow_le_pow_right Nat.two_pos hlow⟩, rfl, .inl rfl, nofun,
    List.nodup_nil⟩

theorem lzwInv_seedDict {s : State} (hc : ConfigInv s) : LzwInv (seedDict s) :=
  dict_lzwInv (dictInv_seedDict hc) rfl rfl

/-- Emptying the match keeps the dictionary sound (R113). -/
theorem lzwInv_emptyMatch {s : State} (hs : LzwInv s) (hv : s.stage.lzwV = true) : LzwInv (emptyMatch s) :=
  dict_lzwInv ((lzwInv_dict hs hv).count _).empty hv (hs.full hv)

theorem lzwInv_appended {s : State} (hs : LzwInv s) (l : List Bool) : LzwInv (s.appended l) :=
  lzwInv_of_eq hs (appended_lzw s l) (by rw [appended_stage]) (by rw [appended_stage])

/-! ## Every body -/

theorem lzwStepBody_lzwInv (b : Byte) {s : State} (hs : LzwInv s) : (lzwStepBody b s).Ends LzwInv :=
  ends_check hs fun hv => ends_check hs fun _ => ends_imp (lzwStepAt_inv 0 b hs hv) fun _ h => h.1

theorem lzwRunBody_lzwInv {s : State} (hs : LzwInv s) : (lzwRunBody s).Ends LzwInv := by
  refine ends_check hs fun hv => ends_check hs fun _ => ends_check hs fun _ => ?_
  have hpass : (stream lzwStepAt s).Ends fun t => LzwInv t ∧ t.stage.lzwV = true :=
    ends_stream (fun _ _ h => ⟨{ h.1 with }, h.2⟩) (fun i b _ h => lzwStepAt_inv i b h.1 h.2) ⟨hs, hv⟩
  exact ends_imp hpass fun _ h => h.1

theorem lzwFlushBody_lzwInv {s : State} (hs : LzwInv s) : (lzwFlushBody s).Ends LzwInv := by
  refine ends_check hs fun (hv : s.stage.lzwV = true) => ends_check hs fun _ => ?_
  split
  · exact hs
  · cases hr : s.roomFor s.lzw.curBits.length with
    | false =>
      rw [appendBits_full hr]
      exact hs
    | true =>
      rw [appendBits_ok hr]
      exact lzwInv_emptyMatch (lzwInv_appended hs _) (by rwa [appended_stage])

/-- A body that writes nothing the invariant reads. -/
theorem lzwInv_of_keeps {i : Instr} {s : State} (hs : LzwInv s) (h : ∀ p ∈ lzwParts, p ∉ partsOf i) :
    (bodyOf i s).Ends LzwInv :=
  ends_imp (bodyOf_keeps i s) fun _ hk => lzwInv_congr hs fun p hp => hk.part p (h p hp)

theorem bodyOf_configInv (i : Instr) {s : State} (hc : ConfigInv s) : (bodyOf i s).Ends ConfigInv :=
  ends_imp (bodyOf_kept i (kept_refl hc)) fun _ hk => hk.config

/-- Every command but LZW_ENCODE. -/
theorem unfusedBody_lzwInv {i : Instr} (hi : i ≠ .lzwEncode) {s : State} (hc : ConfigInv s) (hs : LzwInv s) :
    (bodyOf i s).Ends LzwInv := by
  cases i
  case lzwEncode => exact absurd rfl hi
  case sreset => exact lzwInv_of_absent rfl rfl
  case lzwInit => exact lzwInv_seedDict hc
  case lzwStep b => exact lzwStepBody_lzwInv b hs
  case lzwRun => exact lzwRunBody_lzwInv hs
  case lzwFlush => exact lzwFlushBody_lzwInv hs
  all_goals exact lzwInv_of_keeps hs (by simp [lzwParts, partsOf])

theorem lzwEncode_phases :
    (Instr.lzwEncode, [.bpClear, .lzwInit, .lzwRun, .lzwFlush, .bpPad, .result]) ∈ fusedPhases := by decide

theorem bodyOf_lzwInv (i : Instr) {s : State} (hc : ConfigInv s) (hs : LzwInv s) : (bodyOf i s).Ends LzwInv := by
  by_cases hi : i = .lzwEncode
  · subst hi
    refine ends_imp (fusedBody_ends (P := fun t => ConfigInv t ∧ LzwInv t) lzwEncode_phases ?_ ⟨hc, hs⟩) fun _ h => h.2
    rintro j hj t ⟨hct, hst⟩
    exact ends_and (bodyOf_configInv j hct) (unfusedBody_lzwInv (by rintro rfl; simp at hj) hct hst)
  · exact unfusedBody_lzwInv hi hc hs

/-- Settles O56: the bodies keep the invariant, and no host event but a reset touches what it reads. -/
theorem stepKeepsTheDictionarySound : Obligations.StepKeepsTheDictionarySound := by
  intro s t hc hs h
  exact step_keeps hs h (fun i => bodyOf_lzwInv i hc hs)
    (fun _ hu => { hu with })
    (fun _ _ _ hu => { hu with })
    (fun _ _ => lzwInv_of_absent rfl rfl)
    (fun _ _ htouch hu => lzwInv_congr hu (by simp [lzwParts, samePart, htouch.lzw, htouch.stage]))

end Sys2Proof.Machine
end

section
/-! SUPPORT. The dictionary as mathematics (O59; 44_lzw.md R109-R111, R115, 95_test_vectors.md 4.3). No two codes stand
for one string, and the codes of a pass from an empty dictionary decode to its bytes: the decoder's dictionary is one
entry behind, and that entry ends with the first byte of the match in progress. -/

namespace Sys2Proof.Machine

/-! ## The strings (10_state.md R44) -/

section
variable {z : Lzw} (h : DictInv z)
include h

theorem DictInv.str_ne_nil {e : Nat} (he : e < z.next.toNat) : z.str e ≠ [] :=
  dictStr_ne_nil h.lower (h.size ▸ he)

theorem DictInv.str_of_holds {p e : Nat} {b : Byte} (he : z.holds p b e) : z.str e = z.str p ++ [b] := by
  obtain ⟨hge, x, hx, rfl, rfl⟩ := he
  have hstr := dictStr_entry h.lower hx
  rwa [Nat.add_sub_cancel' hge] at hstr

/-- A code stands for a byte, or for the string of a lower code and one byte more. -/
theorem DictInv.str_cases {e : Nat} (he : e < z.next.toNat) :
    (e < 256 ∧ z.str e = [BitVec.ofNat 8 e]) ∨ ∃ p b, z.holds p b e ∧ p < e ∧ z.str e = z.str p ++ [b] := by
  rcases Nat.lt_or_ge e 256 with hlow | hge
  · exact .inl ⟨hlow, dictStr_byte _ hlow (Nat.succ_pos _)⟩
  · have hsize := h.size
    have hx : z.dict[e - 256]? = some (z.dict[e - 256]'(by omega)) := List.getElem?_eq_getElem (by omega)
    have hlower := h.lower _ _ hx
    have hholds : z.holds _ _ e := ⟨hge, _, hx, rfl, rfl⟩
    exact .inr ⟨_, _, hholds, by omega, h.str_of_holds hholds⟩

/-- A single byte is not the string of an entry. -/
theorem DictInv.length_str_of_holds {p e : Nat} {b : Byte} (he : z.holds p b e) (hp : p < e) :
    (z.str e).length ≠ 1 := by
  have hne := List.length_pos_iff.2 (h.str_ne_nil (hp.trans (h.holds_lt he)))
  rw [h.str_of_holds he, List.length_append, List.length_singleton]
  omega

/-- The string of a code determines the code (R115). -/
theorem DictInv.str_injective : ∀ {e f : Nat}, e < z.next.toNat → f < z.next.toNat → z.str e = z.str f → e = f := by
  intro e
  induction e using Nat.strong_induction_on with
  | _ e ih =>
    intro f he hf heq
    rcases h.str_cases he with ⟨hlow, hstr⟩ | ⟨p, b, hp, hlt, hstr⟩ <;>
      rcases h.str_cases hf with ⟨hlow', hstr'⟩ | ⟨q, c, hq, hlt', hstr'⟩
    · rw [hstr, hstr', List.cons.injEq] at heq
      simpa [Nat.mod_eq_of_lt hlow, Nat.mod_eq_of_lt hlow'] using congrArg BitVec.toNat heq.1
    · exact absurd (by rw [← heq, hstr]; rfl) (h.length_str_of_holds hq hlt')
    · exact absurd (by rw [heq, hstr']; rfl) (h.length_str_of_holds hp hlt)
    · rw [hstr, hstr'] at heq
      obtain ⟨hpre, hbyte⟩ := List.append_inj' heq rfl
      obtain rfl := ih p hlt (hlt.trans he) (hlt'.trans hf) hpre
      obtain rfl := List.singleton_inj.1 hbyte
      exact holds_unique h.distinct hp hq

end

/-- Settles O59: two equal strings end in one byte and begin with equal strings of lower codes. -/
theorem dictionaryStringsAreDistinct : Obligations.DictionaryStringsAreDistinct :=
  fun _ hs hv _ _ => (lzwInv_dict hs hv).str_injective

/-! ## What one byte does to the unit (R110) -/

/-- The code of the match in progress, if there is one. -/
def Lzw.pending (z : Lzw) : List Nat := if z.cur = lzwEmpty then [] else [z.cur.toNat]

theorem pending_of_empty {z : Lzw} (h : z.cur = lzwEmpty) : z.pending = [] := if_pos h

theorem pending_of_match {z : Lzw} (h : z.cur ≠ lzwEmpty) : z.pending = [z.cur.toNat] := if_neg h

theorem pending_length_le (z : Lzw) : z.pending.length ≤ 1 := by
  unfold Lzw.pending
  split <;> simp

/-- A step of R110 that completes, as the unit sees it: the codes it emits, and the unit after it. What LZW_NCODES holds
after an emission is any value. -/
inductive LzwMove (b : Byte) (z : Lzw) : List Nat → Lzw → Prop
  | first (hc : z.cur = lzwEmpty) : LzwMove b z [] { z with cur := b.setWidth 17 }
  | longer (e : Nat) (hc : z.cur ≠ lzwEmpty) (hf : z.find z.cur b = some e) :
      LzwMove b z [] { z with cur := BitVec.ofNat 17 e }
  | emit (n : Word) (hc : z.cur ≠ lzwEmpty) (hf : z.find z.cur b = none) :
      LzwMove b z z.pending { z.learn b with cur := b.setWidth 17, ncodes := n }

/-- The steps of a sequence of bytes, and the codes they emit. -/
inductive LzwMoves (z : Lzw) : List Byte → List Nat → Lzw → Prop
  | nil : LzwMoves z [] [] z
  | snoc {bs codes b e y x} (hs : LzwMoves z bs codes y) (h : LzwMove b y e x) : LzwMoves z (bs ++ [b]) (codes ++ e) x

theorem byte_ne_lzwEmpty (b : Byte) : b.setWidth 17 ≠ lzwEmpty := by
  intro h
  have := congrArg BitVec.toNat h
  have hb := b.isLt
  simp [lzwEmpty] at this
  omega

section
variable {z y : Lzw} {b : Byte} {e : List Nat}

theorem LzwMove.act (h : LzwMove b z e y) : y.act = z.act := by
  cases h with
  | first | longer => rfl
  | emit => exact learn_act z b

theorem LzwMove.dictInv (h : LzwMove b z e y) (hz : DictInv z) : DictInv y := by
  cases h with
  | first => exact hz.restart b
  | longer _ _ hf => exact hz.extend hf
  | emit n hc hf => exact (hz.learn hc hf).count n

/-- LZW_CUR of a stored entry. -/
theorem DictInv.find_toNat (hz : DictInv z) {n : Nat} (hf : z.find z.cur b = some n) :
    (BitVec.ofNat 17 n).toNat = n := by
  have hlt := hz.holds_lt (find_some hf)
  have hle := hz.next.2
  have hcap := hz.cap_le
  rw [BitVec.toNat_ofNat, Nat.mod_eq_of_lt (by omega)]

/-- After a byte there is a match. -/
theorem LzwMove.cur_ne (h : LzwMove b z e y) (hz : DictInv z) : y.cur ≠ lzwEmpty := by
  cases h with
  | first | emit => exact byte_ne_lzwEmpty b
  | longer n _ hf =>
    intro heq
    have hlt := hz.holds_lt (find_some hf)
    have hle := hz.next.2
    have hcap := hz.cap_le
    have hn : n = 0x1FFFF := (hz.find_toNat hf).symm.trans (congrArg BitVec.toNat heq)
    omega

theorem LzwMove.emitted (h : LzwMove b z e y) : e = [] ∨ e = z.pending := by
  cases h with
  | first | longer => exact .inl rfl
  | emit => exact .inr rfl

theorem DictInv.pending_lt (hz : DictInv z) : ∀ c ∈ z.pending, c < z.cap := by
  intro c hc
  by_cases hcur : z.cur = lzwEmpty
  · rw [pending_of_empty hcur] at hc
    cases hc
  · rw [pending_of_match hcur, List.mem_singleton] at hc
    exact hc ▸ (hz.cur.resolve_left hcur).trans_le hz.next.2

end

section
variable {z y : Lzw} {bs : List Byte} {codes : List Nat}

theorem LzwMoves.act (h : LzwMoves z bs codes y) : y.act = z.act := by
  induction h with
  | nil => rfl
  | snoc _ h ih => exact h.act.trans ih

theorem LzwMoves.dictInv (h : LzwMoves z bs codes y) (hz : DictInv z) : DictInv y := by
  induction h with
  | nil => exact hz
  | snoc _ h ih => exact h.dictInv ih

theorem LzwMoves.cur_ne (h : LzwMoves z bs codes y) (hz : DictInv z) (hbs : bs ≠ []) : y.cur ≠ lzwEmpty := by
  cases h with
  | nil => exact absurd rfl hbs
  | snoc hs h => exact h.cur_ne (hs.dictInv hz)

/-- A code is emitted for a match that was in progress, so there are no more codes than bytes (R145). -/
theorem LzwMoves.length_le (h : LzwMoves z bs codes y) :
    codes.length + y.pending.length ≤ bs.length + z.pending.length := by
  induction h with
  | nil => simp
  | @snoc _ _ _ e y x _ h ih =>
    have hle := pending_length_le x
    rw [List.length_append, List.length_append, List.length_singleton]
    rcases h.emitted with rfl | rfl
    · rw [List.length_nil]
      omega
    · omega

theorem LzwMoves.codes_lt (h : LzwMoves z bs codes y) (hz : DictInv z) : ∀ c ∈ codes, c < z.cap := by
  induction h with
  | nil => nofun
  | @snoc _ _ _ e y x hs h ih =>
    have hcap : y.cap = z.cap := by rw [Lzw.cap, Lzw.cap, hs.act]
    intro c hc
    rcases List.mem_append.1 hc with hc | hc
    · exact ih c hc
    · rcases h.emitted with rfl | rfl
      · cases hc
      · exact hcap ▸ (hs.dictInv hz).pending_lt c hc

end

/-! ## The decoder (95_test_vectors.md 4.3) -/

section
variable {z : Lzw} (h : DictInv z) (b : Byte)
include h

/-- The codes that were valid stand for the same strings after the candidate is inserted (R110). -/
theorem DictInv.learn_str_old {c : Nat} (hc : c < z.next.toNat) (hc' : c < (z.learn b).next.toNat) :
    (z.learn b).str c = z.str c := by
  by_cases hlt : z.next.toNat < z.cap
  · rw [learn_insert b hlt]
    exact dictStr_append h.lower _ c (h.size ▸ hc) _ _ (Nat.lt_succ_self c) (Nat.lt_succ_self c)
  · by_cases hp : z.act.policy = .reset
    · rw [learn_reset b hlt hp] at hc' ⊢
      exact (dictStr_byte _ hc' (Nat.succ_pos _)).trans (dictStr_byte _ hc' (Nat.succ_pos _)).symm
    · rw [learn_keep b hlt hp]

/-- A code that was not valid before is the candidate's. -/
theorem DictInv.learn_str_new (hc : z.cur ≠ lzwEmpty) (hf : z.find z.cur b = none) {c : Nat}
    (hge : z.next.toNat ≤ c) (hlt : c < (z.learn b).next.toNat) :
    (z.learn b).str c = z.str z.cur.toNat ++ [b] := by
  have hcur := h.cur.resolve_left hc
  have hlearn := h.learn hc hf
  by_cases hcap : z.next.toNat < z.cap
  · have hnext : (z.learn b).next.toNat = z.next.toNat + 1 := by
      have := h.cap_le
      rw [learn_insert b hcap, BitVec.toNat_add]
      simp
      omega
    have hsize := h.size
    have hholds : (z.learn b).holds z.cur.toNat b c := by
      refine ⟨by omega, ⟨z.cur.setWidth 16, b⟩, ?_, ?_, rfl⟩
      · rw [learn_insert b hcap, show c - 256 = z.dict.length by omega]
        simp
      · have := h.cap_le
        simp only [BitVec.toNat_setWidth]
        omega
    rw [← h.learn_str_old b hcur (by omega)]
    exact hlearn.str_of_holds (z := { z.learn b with cur := b.setWidth 17 }) hholds
  · have hle : (z.learn b).next.toNat ≤ z.next.toNat := by
      by_cases hp : z.act.policy = .reset
      · rw [learn_reset b hcap hp]
        exact h.next.1
      · rw [learn_keep b hcap hp]
    omega

end

/-- What the decoder does with its dictionary is what the unit did. -/
theorem DictInv.learn_dict {z : Lzw} (h : DictInv z) (b : Byte) :
    (if 256 + z.dict.length < z.cap then z.dict ++ [⟨BitVec.ofNat 16 z.cur.toNat, b⟩]
      else if z.act.policy = .reset then [] else z.dict) = (z.learn b).dict := by
  rw [← h.size, Lzw.learn, BitVec.ofNat_toNat]
  split
  · rfl
  · split <;> rfl

theorem lzwDecodeFrom_cons {dict : List DictEntry} {prev c : Nat} {str : List Byte}
    (hstr : (if c < 256 + dict.length then dictStr dict (c + 1) c
      else dictStr dict (prev + 1) prev ++ (dictStr dict (prev + 1) prev).take 1) = str)
    (cap : Nat) (policy : Policy) (rest : List Nat) :
    lzwDecodeFrom cap policy dict prev (c :: rest) =
      str ++ lzwDecodeFrom cap policy
        (if 256 + dict.length < cap then dict ++ [⟨BitVec.ofNat 16 prev, str.headD 0⟩]
          else if policy = .reset then [] else dict) c rest := by
  rw [← hstr]
  rfl

/-- One more code: the decoder, which has the dictionary from before the match was emitted and `b` read, finds the string
of any code that begins with b, also of the one it has yet to insert. -/
theorem DictInv.decode_next {z : Lzw} (h : DictInv z) {b : Byte} (hc : z.cur ≠ lzwEmpty)
    (hf : z.find z.cur b = none) {c : Nat} (hlt : c < (z.learn b).next.toNat)
    (hb : ((z.learn b).str c).headD 0 = b) (rest : List Nat) :
    lzwDecodeFrom z.cap z.act.policy z.dict z.cur.toNat (c :: rest) =
      (z.learn b).str c ++ lzwDecodeFrom z.cap z.act.policy (z.learn b).dict c rest := by
  have hstr : (if c < 256 + z.dict.length then z.str c else z.str z.cur.toNat ++ (z.str z.cur.toNat).take 1) =
      (z.learn b).str c := by
    rw [← h.size]
    split
    · exact (h.learn_str_old b ‹_› hlt).symm
    · have hnew := h.learn_str_new b hc hf (Nat.not_lt.1 ‹_›) hlt
      rw [hnew] at hb ⊢
      obtain ⟨x, l, hxl⟩ := List.exists_cons_of_ne_nil (h.str_ne_nil (h.cur.resolve_left hc))
      rw [hxl] at hb ⊢
      rw [← hb]
      rfl
  rw [lzwDecodeFrom_cons hstr, hb, h.learn_dict b]

/-- After the bytes `bs` from an empty dictionary, with `codes` emitted and a match in progress: every code whose string
begins as that of the match decodes, if it comes next, to its string. -/
structure Lzw.Parses (z : Lzw) (bs : List Byte) (codes : List Nat) : Prop where
  match_ne : z.cur ≠ lzwEmpty
  decodes : ∃ done, bs = done ++ z.str z.cur.toNat ∧
    ∀ c rest, c < z.next.toNat → (z.str c).headD 0 = (z.str z.cur.toNat).headD 0 →
      lzwDecode z.cap z.act.policy (codes ++ c :: rest) =
        done ++ z.str c ++ lzwDecodeFrom z.cap z.act.policy z.dict c rest

theorem str_byte (z : Lzw) (b : Byte) : z.str (b.setWidth 17).toNat = [b] := by
  have hb : (b.setWidth 17).toNat = b.toNat := by
    have := b.isLt
    simp
    omega
  rw [hb]
  exact (dictStr_byte _ b.isLt (Nat.succ_pos _)).trans (by simp)

theorem parses_first {z : Lzw} (hd : z.dict = []) (b : Byte) :
    Lzw.Parses { z with cur := b.setWidth 17 } [b] [] := by
  refine ⟨byte_ne_lzwEmpty b, [], (str_byte _ b).symm, fun c rest _ _ => ?_⟩
  simp only [Lzw.str, hd, List.nil_append]
  rfl

theorem Lzw.Parses.move {z y : Lzw} {b : Byte} {bs : List Byte} {codes e : List Nat} (h : z.Parses bs codes)
    (hz : DictInv z) (hm : LzwMove b z e y) : y.Parses (bs ++ [b]) (codes ++ e) := by
  obtain ⟨hc, done, rfl, hdec⟩ := h
  refine ⟨hm.cur_ne hz, ?_⟩
  cases hm with
  | first hc' => exact absurd hc' hc
  | longer n _ hf =>
    have hstr : z.str n = z.str z.cur.toNat ++ [b] := hz.str_of_holds (find_some hf)
    obtain ⟨x, l, hxl⟩ := List.exists_cons_of_ne_nil (hz.str_ne_nil (hz.cur.resolve_left hc))
    refine ⟨done, ?_, fun c rest hlt hhead => ?_⟩
    · show _ = done ++ z.str (BitVec.ofNat 17 n).toNat
      rw [hz.find_toNat hf, hstr, List.append_assoc]
    · replace hhead : (z.str c).headD 0 = (z.str (BitVec.ofNat 17 n).toNat).headD 0 := hhead
      rw [hz.find_toNat hf, hstr, hxl] at hhead
      rw [List.append_nil]
      exact hdec c rest hlt (by rw [hhead, hxl]; rfl)
  | emit m _ hf =>
    refine ⟨done ++ z.str z.cur.toNat, congrArg _ (str_byte _ b).symm, fun c rest hlt hhead => ?_⟩
    have hb : ((z.learn b).str c).headD 0 = b := hhead.trans (congrArg (List.headD · 0) (str_byte _ b))
    rw [pending_of_match hc, List.append_assoc, List.singleton_append]
    show lzwDecode (2 ^ (z.learn b).act.width.toNat) (z.learn b).act.policy _ = done ++ _ ++ (z.learn b).str c ++
      lzwDecodeFrom (2 ^ (z.learn b).act.width.toNat) (z.learn b).act.policy (z.learn b).dict c rest
    rw [learn_act]
    refine (hdec _ _ (hz.cur.resolve_left hc) rfl).trans ?_
    rw [hz.decode_next hc hf hlt hb rest, List.append_assoc _ ((z.learn b).str c)]
    rfl

/-- The codes of a pass from an empty dictionary, and that of the match it leaves, decode to the bytes. -/
theorem LzwMoves.decodes {z y : Lzw} {bs : List Byte} {codes : List Nat} (h : LzwMoves z bs codes y) (hz : DictInv z)
    (hd : z.dict = []) (hc : z.cur = lzwEmpty) : lzwDecode y.cap y.act.policy (codes ++ y.pending) = bs := by
  have hparses : (bs = [] ∧ codes = [] ∧ y = z) ∨ y.Parses bs codes := by
    induction h with
    | nil => exact .inl ⟨rfl, rfl, rfl⟩
    | @snoc bs _ b _ y _ hs h ih =>
      right
      rcases ih with ⟨rfl, rfl, rfl⟩ | hp
      · cases h with
        | first => exact parses_first hd b
        | longer _ hne => exact absurd hc hne
        | emit _ hne => exact absurd hc hne
      · exact hp.move (hs.dictInv hz) h
  rcases hparses with ⟨rfl, rfl, rfl⟩ | ⟨hne, done, rfl, hdec⟩
  · rw [pending_of_empty hc]
    rfl
  · rw [pending_of_match hne, hdec _ [] (((h.dictInv hz).cur).resolve_left hne) rfl]
    exact List.append_nil _

end Sys2Proof.Machine
end

section
/-! SUPPORT. The LZW commands of one step (O43, O44, O47; 44_lzw.md R108, R110, R111, R113): LZW_INIT, LZW_STEP and
LZW_FLUSH, and what emitting a code does to the stream and the counter. -/

namespace Sys2Proof.Machine

/-! ## LZW_INIT (R108) -/

theorem cap_eq_256_iff (w : BitVec 5) : 256 = 2 ^ w.toNat ↔ w = 8 := by
  constructor
  · intro h
    exact BitVec.eq_of_toNat_eq (Nat.pow_right_injective le_rfl (show 2 ^ w.toNat = 2 ^ 8 from h.symm))
  · rintro rfl
    rfl

/-- Settles O43: LZW_INIT has no check; the seeded dictionary is full only at WIDTH 8. -/
theorem lzwInitSeedsTheDictionary : Obligations.LzwInitSeedsTheDictionary := fun s => by
  have hstage : (seedDict s).stage =
      { s.stage with lzwV := true, lzwFull := decide (s.cfg.lzwCfg.width = 8) } := by
    rw [← decide_eq_decide.2 (cap_eq_256_iff s.cfg.lzwCfg.width)]
    rfl
  exact ⟨(seedDict s).complete, rfl, ⟨rfl, rfl⟩, rfl, rfl, rfl, rfl, rfl, hstage, rfl, rfl, rfl, rfl, rfl⟩

/-! ## Emitting a code (R110, R113, R116) -/

/-- From `s` to `t` the codes have been emitted: the stream has grown by their bits, and LZW_NCODES by their number,
while it can hold it (log 8). -/
structure Emits (s : State) (codes : List Nat) (t : State) : Prop where
  act : t.lzw.act = s.lzw.act
  stream : s.bp.acc.toNat < 2 ^ s.bp.cnt.toNat → t.bp.acc.toNat < 2 ^ t.bp.cnt.toNat ∧
    t.streamBits = s.streamBits ++ codes.flatMap (bitsOf s.lzw.act.width.toNat)
  bits : 8 * t.bp.outLen.toNat + t.bp.cnt.toNat =
    8 * s.bp.outLen.toNat + s.bp.cnt.toNat + s.lzw.act.width.toNat * codes.length
  count : s.lzw.ncodes.toNat + codes.length < 2 ^ 32 → t.lzw.ncodes.toNat = s.lzw.ncodes.toNat + codes.length

section
variable {s t u : State} {codes codes' : List Nat}

theorem emits_refl (s : State) : Emits s [] s :=
  ⟨rfl, fun hacc => ⟨hacc, (List.append_nil _).symm⟩, rfl, fun _ => rfl⟩

theorem Emits.trans (h : Emits s codes t) (h' : Emits t codes' u) : Emits s (codes ++ codes') u := by
  refine ⟨h'.act.trans h.act, fun hacc => ?_, ?_, fun hlt => ?_⟩
  · obtain ⟨hacc', hstream⟩ := h.stream hacc
    obtain ⟨hacc'', hstream'⟩ := h'.stream hacc'
    exact ⟨hacc'', by rw [hstream', hstream, h.act, List.flatMap_append, List.append_assoc]⟩
  · rw [h'.bits, h.bits, h.act, List.length_append, Nat.mul_add, Nat.add_assoc _ (_ * _)]
  · rw [List.length_append] at hlt ⊢
    have hcount := h.count (by omega)
    rw [h'.count (by omega)]
    omega

theorem Emits.setCur (h : Emits s codes t) (c : BitVec 17) : Emits s codes (setCur t c) := { h with }

theorem Emits.emptyMatch (h : Emits s codes (countCode t)) : Emits s codes (emptyMatch t) := { h with }

theorem Emits.restartAt (h : Emits s codes (countCode t)) (b : Byte) : Emits s codes (restartAt t b) :=
  ⟨(learn_act _ b).trans h.act, h.stream, h.bits,
    fun hlt => (congrArg BitVec.toNat (learn_ncodes _ b)).trans (h.count hlt)⟩

/-- The code of the match in progress, appended and counted. -/
theorem emits_pending (hc : s.lzw.cur ≠ lzwEmpty) (hroom : s.roomFor s.lzw.curBits.length = true) :
    Emits s s.lzw.pending (countCode (s.appended s.lzw.curBits)) := by
  rw [pending_of_match hc]
  refine ⟨?_, fun hacc => ⟨appended_acc hacc, ?_⟩, ?_, fun hlt => ?_⟩
  · show (s.appended s.lzw.curBits).lzw.act = _
    rw [appended_lzw]
  · exact (appended_streamBits hacc hroom).trans (by simp [Lzw.curBits])
  · have hbits := appended_bits hroom
    rw [curBits_length] at hbits
    simpa using hbits
  · show (bumpCount (s.appended s.lzw.curBits).lzw.ncodes _).toNat = _
    rw [appended_lzw]
    exact bumpCount_toNat _ hlt

end

theorem learn_count (z : Lzw) (n : Word) (b : Byte) :
    ({ z with ncodes := n } : Lzw).learn b = { z.learn b with ncodes := n } := by
  by_cases hlt : z.next.toNat < z.cap
  · rw [learn_insert b hlt, learn_insert (z := { z with ncodes := n }) b hlt]
  · by_cases hp : z.act.policy = .reset
    · rw [learn_reset b hlt hp, learn_reset (z := { z with ncodes := n }) b hlt hp]
    · rw [learn_keep b hlt hp, learn_keep (z := { z with ncodes := n }) b hlt hp]

theorem restartAt_lzw (s : State) (b : Byte) : (restartAt s b).lzw =
    { s.lzw.learn b with cur := b.setWidth 17, ncodes := bumpCount s.lzw.ncodes s.draws } := by
  rw [restartAt_eq]
  simp only [learn_count]

/-! ## LZW_STEP (R110, R111) -/

section
variable {s : State} (hv : s.stage.lzwV = true) (hout : s.cfg.outBase.toNat + s.cfg.outCap.toNat ≤ s.obufSize)
include hv hout

theorem lzwStepBody_ready (b : Byte) : bodyOf (.lzwStep b) s = lzwStepAt 0 b s :=
  (checkStage_then (i := .lzwStep b) hv).trans (outCheck_then hout)

/-- LZW_STEP on a miss with room for the code. -/
theorem lzwStep_emits {b : Byte} (hc : s.lzw.cur ≠ lzwEmpty)
    (hf : s.lzw.find s.lzw.cur b = none) (hr : ¬ (s.lzw.next.toNat = s.lzw.cap ∧ s.lzw.act.policy = .reject))
    (hroom : s.roomFor s.lzw.curBits.length = true) :
    bodyOf (.lzwStep b) s = .ok (restartAt (s.appended s.lzw.curBits) b) ∧
      Emits s s.lzw.pending (restartAt (s.appended s.lzw.curBits) b) := by
  refine ⟨?_, (emits_pending hc hroom).restartAt b⟩
  rw [lzwStepBody_ready hv hout, lzwStepAt_emits hc hf hr, appendBits_ok hroom, andThen_ok]

end

/-- Settles O44: behind its checks LZW_STEP is the step of one byte, which has one case for each clause. -/
theorem lzwStepFollowsTheDictionary : Obligations.LzwStepFollowsTheDictionary := by
  intro s b hs hv hacc hout
  have hd := lzwInv_dict hs hv
  have hbody := lzwStepBody_ready hv hout b
  refine ⟨fun hc => ?_, fun e hc he => ?_, fun hc hnone => ⟨fun hr => ?_, fun hr => ⟨fun hfull => ?_, fun hroom => ?_⟩⟩⟩
  · have hok := hbody.trans (lzwStepAt_first hc)
    exact ⟨_, exec_of_body hok, completed_of_body (i := .lzwStep b) nofun hok, rfl, rfl, rfl⟩
  · have hok := hbody.trans (lzwStepAt_longer hc (find_of_holds hd.distinct he))
    exact ⟨_, exec_of_body hok, completed_of_body (i := .lzwStep b) nofun hok, rfl, rfl, rfl⟩
  · rw [← byteInfo_zero]
    exact raisesOnly_of_body (hbody.trans (lzwStepAt_rejects hc (find_of_none hnone) hr))
  · rw [← byteInfo_zero]
    refine raisesOnly_of_body (hbody.trans (lzwStepAt_failsFirst.error 0 ?_))
    exact .inr (.inr ⟨rfl, hc, hnone, .inr ⟨hr, hfull, rfl⟩⟩)
  · have hroom' : s.roomFor s.lzw.curBits.length = true := by
      rw [curBits_length]
      exact (roomFor_iff ..).2 hroom
    obtain ⟨hok, hemits⟩ := lzwStep_emits hv hout hc (find_of_none hnone) hr hroom'
    have hlzw := restartAt_lzw (s.appended s.lzw.curBits) b
    rw [appended_lzw] at hlzw
    have hnext := hd.next
    have hcap := hd.cap_le
    obtain ⟨-, hstream⟩ := hemits.stream hacc
    have hcount := hemits.count
    rw [pending_of_match hc] at hstream hcount
    refine ⟨_, exec_of_body hok, completed_of_body (i := .lzwStep b) nofun hok, ?_, ?_, hemits.act, hcount,
      fun hlt => ?_, fun hat hp => ?_, fun hat hp => ?_, ?_⟩
    · exact hstream.trans (by rw [List.flatMap_singleton])
    · rw [complete_lzw, hlzw]
    · rw [complete_lzw, hlzw, learn_insert b hlt, BitVec.ofNat_toNat]
      refine ⟨rfl, ?_⟩
      show (s.lzw.next + 1).toNat = _
      rw [BitVec.toNat_add, Nat.mod_eq_of_lt (by simp; omega)]
      rfl
    · rw [complete_lzw, hlzw, learn_reset b (by omega) hp]
      exact ⟨rfl, rfl⟩
    · rw [complete_lzw, hlzw, learn_keep b (by omega) (by rw [hp]; decide)]
      exact ⟨rfl, rfl⟩
    · rw [complete_stage, restartAt_eq, appended_stage]
      rfl

/-! ## LZW_FLUSH (R113) -/

section
variable {s : State} (hv : s.stage.lzwV = true) (hout : s.cfg.outBase.toNat + s.cfg.outCap.toNat ≤ s.obufSize)
include hv hout

theorem lzwFlush_empty (hc : s.lzw.cur = lzwEmpty) : bodyOf .lzwFlush s = .ok s :=
  ((checkStage_then (i := .lzwFlush) hv).trans (outCheck_then hout)).trans (if_pos hc)

theorem lzwFlush_match (hc : s.lzw.cur ≠ lzwEmpty) :
    bodyOf .lzwFlush s = (appendBits 0 s.lzw.curBits s).andThen fun t => .ok (emptyMatch t) :=
  ((checkStage_then (i := .lzwFlush) hv).trans (outCheck_then hout)).trans (if_neg hc)

/-- A flush with room for the pending match. -/
theorem lzwFlush_completes (hroom : s.lzw.cur ≠ lzwEmpty → s.roomFor s.lzw.act.width.toNat = true) :
    ∃ t, bodyOf .lzwFlush s = .ok t := by
  by_cases hc : s.lzw.cur = lzwEmpty
  · exact ⟨s, lzwFlush_empty hv hout hc⟩
  · refine ⟨emptyMatch (s.appended s.lzw.curBits), ?_⟩
    rw [lzwFlush_match hv hout hc, appendBits_ok (by rw [curBits_length]; exact hroom hc), andThen_ok]

end

section
variable {s t : State}

theorem require_ok_holds {b : Bool} {c : ErrCode} {i : Word} {f : State → CmdResult}
    (h : (require b c i s).andThen f = .ok t) : b = true := by
  cases b with
  | true => rfl
  | false => cases h

/-- A flush that completes has emitted the pending match and emptied it. -/
theorem lzwFlush_ok (h : bodyOf .lzwFlush s = .ok t) :
    Emits s s.lzw.pending t ∧ t.lzw = { s.lzw with cur := lzwEmpty, ncodes := t.lzw.ncodes } := by
  have hv : s.stage.lzwV = true := require_ok_holds h
  have hout := (outRangeOk_iff s).1 (require_ok_holds (check_ok h))
  by_cases hc : s.lzw.cur = lzwEmpty
  · rw [lzwFlush_empty hv hout hc] at h
    obtain rfl := CmdResult.ok.inj h
    rw [pending_of_empty hc]
    exact ⟨emits_refl s, by rw [← hc]⟩
  · rw [lzwFlush_match hv hout hc] at h
    cases hr : s.roomFor s.lzw.curBits.length with
    | false =>
      rw [appendBits_full hr] at h
      cases h
    | true =>
      rw [appendBits_ok hr] at h
      obtain rfl := CmdResult.ok.inj h
      refine ⟨(emits_pending hc hr).emptyMatch, ?_⟩
      show ({ (s.appended s.lzw.curBits).lzw with cur := lzwEmpty, ncodes := _ } : Lzw) = _
      rw [appended_lzw]
      rfl

end

/-- Settles O47: a flush emits what is pending, and after it nothing is. -/
theorem lzwFlushEmitsThePendingMatch : Obligations.LzwFlushEmitsThePendingMatch := by
  intro s hv hout hacc hroom
  obtain ⟨t, hok⟩ := lzwFlush_completes hv hout fun _ => (roomFor_iff ..).2 hroom
  obtain ⟨hemits, hlzw⟩ := lzwFlush_ok hok
  have hcur : t.lzw.cur = lzwEmpty := by rw [hlzw]
  have hframe : (bodyOf .lzwFlush s).Ends (flushOnly s) := lzwFlushBody_only s
  rw [hok] at hframe
  have hagain : bodyOf .lzwFlush t.complete = .ok t.complete := by
    refine lzwFlush_empty ?_ ?_ hcur
    · rw [complete_stage, hframe.1]
      exact hv
    · show t.cfg.outBase.toNat + t.cfg.outCap.toNat ≤ t.obufSize
      rw [hframe.1]
      exact hout
  obtain ⟨-, hstream⟩ := hemits.stream hacc
  have hcount := hemits.count
  refine ⟨t.complete, exec_of_body hok, completed_of_body (by decide) hok, hcur, ?_, ?_, hemits.act, fun hc => ?_,
    fun hc => ?_, _, exec_of_body hagain, rfl, rfl, rfl⟩
  · rw [complete_lzw, hlzw]
  · rw [complete_lzw, hlzw]
  · rw [lzwFlush_empty hv hout hc] at hok
    obtain rfl := CmdResult.ok.inj hok
    exact ⟨rfl, rfl⟩
  · rw [pending_of_match hc] at hstream hcount
    exact ⟨hstream.trans (by rw [List.flatMap_singleton]), hcount⟩

end Sys2Proof.Machine
end

section
/-! SUPPORT. LZW_RUN (O45, O46; 44_lzw.md R110, R112, R145). A pass is the steps of its bytes one after another; and two
runs that start alike, but for the input range, the counter and the draws, go alike, so a pass may be cut into commands
of one byte each, or into two passes. -/

namespace Sys2Proof.Machine

/-! ## The pass as moves of the unit (R112) -/

/-- A step leaves the input where it was. -/
theorem lzwStepAt_input {pos : Nat} {b : Byte} {s t : State} (h : lzwStepAt pos b s = .ok t) :
    t.ibuf = s.ibuf ∧ t.cfg = s.cfg := by
  have hframe := lzwStepAt_only pos b (lzwOnly_refl s)
  rw [h] at hframe
  rw [hframe.1]
  exact ⟨rfl, rfl⟩

/-- A step that completes is a move of the unit, and the codes of the move stand in the stream. -/
theorem lzwStepAt_moves {pos : Nat} {b : Byte} {s t : State} (h : lzwStepAt pos b s = .ok t) :
    ∃ e, LzwMove b s.lzw e t.lzw ∧ Emits s e t := by
  rcases lzwStepAt_ok h with ⟨hc, rfl⟩ | ⟨hc, e, hf, rfl⟩ | ⟨hc, hf, -, hroom, rfl⟩
  · exact ⟨[], .first hc, (emits_refl s).setCur _⟩
  · exact ⟨[], .longer e hc hf, (emits_refl s).setCur _⟩
  · refine ⟨_, ?_, (emits_pending hc hroom).restartAt b⟩
    rw [restartAt_lzw, appended_lzw]
    exact .emit _ hc hf

/-- With a policy other than REJECT and room for the code of the match, a step completes (R110). -/
theorem lzwStepAt_completes {s : State} (pos : Nat) (b : Byte) (hp : s.lzw.act.policy ≠ .reject)
    (hroom : s.lzw.cur ≠ lzwEmpty → s.roomFor s.lzw.act.width.toNat = true) : ∃ t, lzwStepAt pos b s = .ok t := by
  by_cases hc : s.lzw.cur = lzwEmpty
  · exact ⟨_, lzwStepAt_first hc⟩
  · cases hf : s.lzw.find s.lzw.cur b with
    | some e => exact ⟨_, lzwStepAt_longer hc hf⟩
    | none =>
      refine ⟨restartAt (s.appended s.lzw.curBits) b, ?_⟩
      rw [lzwStepAt_emits hc hf fun h => hp h.2, appendBits_ok (by rw [curBits_length]; exact hroom hc), andThen_ok]

/-- After the bytes `pre` of a pass from `s`. -/
def LzwPassed (s : State) (pre : List Byte) (t : State) : Prop :=
  ∃ codes, LzwMoves s.lzw pre codes t.lzw ∧ Emits s codes t

section
variable {s t : State} {bs : List Byte} (hbs : s.inputIs bs)

theorem lzwPassed_nil (s : State) : LzwPassed s [] { s with inPos := 0 } :=
  ⟨[], .nil, { emits_refl s with }⟩

theorem lzwPassed_snoc {u : State} {pre : List Byte} {pos : Nat} {b : Byte} (p : Word) (ht : LzwPassed s pre t)
    (h : lzwStepAt pos b t = .ok u) : LzwPassed s (pre ++ [b]) { u with inPos := p } := by
  obtain ⟨codes, hmoves, hemits⟩ := ht
  obtain ⟨e, hmove, hemit⟩ := lzwStepAt_moves h
  exact ⟨codes ++ e, hmoves.snoc hmove, { hemits.trans hemit with }⟩

include hbs

theorem lzwPass_ok (h : stream lzwStepAt s = .ok t) : LzwPassed s bs t := by
  refine (stream_ok hbs (lzwPassed_nil s) ?_ h).1
  intro pre b post t u _ ht hibuf hcfg hstep
  obtain ⟨hibuf', hcfg'⟩ := lzwStepAt_input hstep
  exact ⟨hibuf'.trans hibuf, hcfg'.trans hcfg, lzwPassed_snoc _ ht hstep⟩

/-- At most one code is emitted for each byte, so a pass with room for that many completes (R145). -/
theorem lzwPass_completes (hp : s.lzw.act.policy ≠ .reject)
    (hroom : s.bp.outLen.toNat + (s.bp.cnt.toNat + s.lzw.act.width.toNat * bs.length) / 8 ≤ s.cfg.outCap.toNat) :
    ∃ t, stream lzwStepAt s = .ok t := by
  have hpass : ∃ t, stream lzwStepAt s = .ok t ∧ LzwPassed s bs t ∧ t.ibuf = s.ibuf ∧ t.cfg = s.cfg := by
    refine stream_completes hbs (lzwPassed_nil s) fun pre b post t hsplit ht hibuf hcfg => ?_
    have hstep : ∃ u, lzwStepAt pre.length b t = .ok u := by
      obtain ⟨codes, hmoves, hemits⟩ := ht
      refine lzwStepAt_completes _ b (by rwa [hemits.act]) fun hc => ?_
      have hlen := hmoves.length_le
      have hpending := pending_length_le s.lzw
      rw [pending_of_match hc, List.length_singleton] at hlen
      have hbytes : codes.length + 1 ≤ bs.length := by
        rw [hsplit, List.length_append, List.length_cons]
        omega
      have hwidth := Nat.mul_le_mul_left s.lzw.act.width.toNat hbytes
      have hbits := hemits.bits
      rw [Nat.mul_add, Nat.mul_one] at hwidth
      rw [roomFor_iff, hcfg, hemits.act]
      omega
    obtain ⟨u, hu⟩ := hstep
    obtain ⟨hibuf', hcfg'⟩ := lzwStepAt_input hu
    exact ⟨u, hu, hibuf'.trans hibuf, hcfg'.trans hcfg, lzwPassed_snoc _ ht hu⟩
  obtain ⟨t, ht, -⟩ := hpass
  exact ⟨t, ht⟩

end

/-! ## The command -/

section
variable {s : State} (hv : s.stage.lzwV = true) (hin : s.cfg.inBase.toNat + s.cfg.inLen.toNat ≤ s.ibufSize)
  (hout : s.cfg.outBase.toNat + s.cfg.outCap.toNat ≤ s.obufSize)
include hv hin hout

theorem lzwRunBody_ready : bodyOf .lzwRun s = stream lzwStepAt s :=
  (checkStage_then (i := .lzwRun) hv).trans ((inCheck_then hin).trans (outCheck_then hout))

end

/-- A run that completes has passed its checks. -/
theorem lzwRun_ok {s t : State} (h : bodyOf .lzwRun s = .ok t) :
    s.cfg.outBase.toNat + s.cfg.outCap.toNat ≤ s.obufSize ∧ stream lzwStepAt s = .ok t :=
  ⟨(outRangeOk_iff s).1 (require_ok_holds (check_ok (check_ok h))), check_ok (check_ok (check_ok h))⟩

theorem stream_inPos {body : Nat → Byte → State → CmdResult} {s t : State} (h : stream body s = .ok t) :
    t.inPos = s.cfg.inLen := by
  rw [streamFrom_inPos _ 0 rfl h, Nat.zero_add, BitVec.ofNat_toNat, BitVec.setWidth_eq]

/-! ## Two runs that go alike -/

/-- The states agree in all that R110's step reads and writes, but for the draws and LZW_NCODES; and in LZW_NCODES too,
as long as it can have been counted up to no more than `n` and the register can hold that (log 8). -/
structure LzwAlike (n : Nat) (s t : State) : Prop where
  ibuf : t.ibuf = s.ibuf
  window : t.cfg.outBase = s.cfg.outBase ∧ t.cfg.outCap = s.cfg.outCap
  stage : t.stage = s.stage
  res : t.res = s.res
  bp : t.bp = s.bp
  freq : t.freq = s.freq
  huf : t.huf = s.huf
  ari : t.ari = s.ari
  lzw : t.lzw = { s.lzw with ncodes := t.lzw.ncodes }
  obuf : t.obuf = s.obuf
  count : n < 2 ^ 32 → s.lzw.ncodes.toNat ≤ n ∧ t.lzw.ncodes = s.lzw.ncodes

theorem pushBit_congr {s t : State} (x : Bool) (hbase : t.cfg.outBase = s.cfg.outBase) (hbp : t.bp = s.bp)
    (hobuf : t.obuf = s.obuf) : (pushBit t x).bp = (pushBit s x).bp ∧ (pushBit t x).obuf = (pushBit s x).obuf := by
  by_cases h : s.bp.cnt = 7
  · rw [pushBit_fill h, pushBit_fill (hbp ▸ h), hbase, hbp, hobuf]
    exact ⟨rfl, rfl⟩
  · rw [pushBit_hold h, pushBit_hold (hbp ▸ h), hbp]
    exact ⟨rfl, hobuf⟩

theorem pushBits_congr (l : List Bool) : ∀ {s t : State}, t.cfg.outBase = s.cfg.outBase → t.bp = s.bp →
    t.obuf = s.obuf → (pushBits t l).bp = (pushBits s l).bp ∧ (pushBits t l).obuf = (pushBits s l).obuf := by
  induction l with
  | nil => exact fun _ hbp hobuf => ⟨hbp, hobuf⟩
  | cons x l ih =>
    intro s t hbase hbp hobuf
    obtain ⟨hbp', hobuf'⟩ := pushBit_congr x hbase hbp hobuf
    exact ih (by rwa [pushBit_cfg, pushBit_cfg]) hbp' hobuf'

section
variable {n : Nat} {s t : State}

theorem lzwAlike_refl (s : State) : LzwAlike s.lzw.ncodes.toNat s s :=
  ⟨rfl, ⟨rfl, rfl⟩, rfl, rfl, rfl, rfl, rfl, rfl, rfl, rfl, fun _ => ⟨le_rfl, rfl⟩⟩

theorem LzwAlike.le {m : Nat} (h : LzwAlike n s t) (hle : n ≤ m) : LzwAlike m s t :=
  { h with count := fun hlt => ⟨(h.count (hle.trans_lt hlt)).1.trans hle, (h.count (hle.trans_lt hlt)).2⟩ }

theorem LzwAlike.setCur (h : LzwAlike n s t) (c : BitVec 17) : LzwAlike n (setCur s c) (setCur t c) := by
  have hfull : t.lzw.full = s.lzw.full := by
    rw [h.lzw]
    rfl
  have hstage : (Machine.setCur t c).stage = (Machine.setCur s c).stage := by
    rw [Machine.setCur, Machine.setCur, h.stage, hfull]
  exact { h with stage := hstage, lzw := congrArg (fun z : Lzw => { z with cur := c }) h.lzw }

theorem LzwAlike.appended (h : LzwAlike n s t) (l : List Bool) : LzwAlike n (s.appended l) (t.appended l) := by
  obtain ⟨hbp, hobuf⟩ := pushBits_congr l h.window.1 h.bp h.obuf
  constructor
  case bp => rw [State.appended, State.appended, hbp, h.bp]
  case obuf => exact hobuf
  case window => simpa using h.window
  case lzw => simpa using h.lzw
  case count => simpa using h.count
  all_goals simp [h.ibuf, h.stage, h.res, h.freq, h.huf, h.ari]

theorem LzwAlike.restartAt (h : LzwAlike n s t) (b : Byte) :
    LzwAlike (n + 1) (restartAt s b) (restartAt t b) := by
  have hlearn : t.lzw.learn b = { s.lzw.learn b with ncodes := t.lzw.ncodes } := by
    rw [← learn_count, ← h.lzw]
  have hlzw : (Machine.restartAt t b).lzw =
      { (Machine.restartAt s b).lzw with ncodes := (Machine.restartAt t b).lzw.ncodes } := by
    rw [restartAt_lzw, restartAt_lzw, hlearn]
  have hstage : (Machine.restartAt t b).stage = (Machine.restartAt s b).stage := by
    have hfull : (Machine.restartAt t b).lzw.full = (Machine.restartAt s b).lzw.full := by
      rw [hlzw]
      rfl
    show { t.stage with lzwFull := (Machine.restartAt t b).lzw.full } =
      { s.stage with lzwFull := (Machine.restartAt s b).lzw.full }
    rw [h.stage, hfull]
  refine { h with lzw := hlzw, stage := hstage, count := fun hlt => ?_ }
  obtain ⟨hle, heq⟩ := h.count (by omega)
  rw [restartAt_ncodes, restartAt_ncodes, heq, bumpCount_toNat s.draws (by omega)]
  refine ⟨by omega, BitVec.eq_of_toNat_eq ?_⟩
  rw [bumpCount_toNat _ (by omega), bumpCount_toNat _ (by omega)]

/-- Where the step completes in the one it completes in the other, at any position of its byte. -/
theorem LzwAlike.step {u : State} {pos : Nat} {b : Byte} (h : LzwAlike n s t) (hs : lzwStepAt pos b s = .ok u)
    (pos' : Nat) : ∃ v, lzwStepAt pos' b t = .ok v ∧ LzwAlike (n + 1) u v := by
  have hcur : t.lzw.cur = s.lzw.cur := by rw [h.lzw]
  have hfind : t.lzw.find t.lzw.cur b = s.lzw.find s.lzw.cur b := by
    rw [h.lzw]
    rfl
  have hbits : t.lzw.curBits = s.lzw.curBits := by
    rw [h.lzw]
    rfl
  have hmoved := h.le (Nat.le_succ n)
  rcases lzwStepAt_ok hs with ⟨hc, rfl⟩ | ⟨hc, e, hf, rfl⟩ | ⟨hc, hf, hr, hroom, rfl⟩
  · exact ⟨_, lzwStepAt_first (hcur.trans hc), hmoved.setCur _⟩
  · exact ⟨_, lzwStepAt_longer (hcur ▸ hc) (hfind.trans hf), hmoved.setCur _⟩
  · have hr' : ¬ (t.lzw.next.toNat = t.lzw.cap ∧ t.lzw.act.policy = .reject) := by
      rw [h.lzw]
      exact hr
    have hroom' : t.roomFor s.lzw.curBits.length = true := by
      rw [State.roomFor, h.bp, h.window.2]
      exact hroom
    refine ⟨Machine.restartAt (t.appended s.lzw.curBits) b, ?_, (h.appended _).restartAt b⟩
    rw [lzwStepAt_emits (hcur ▸ hc) (hfind.trans hf) hr', hbits, appendBits_ok hroom', andThen_ok]

end

/-! ## The steps as commands (R112) -/

theorem runsClean_snoc {i : Instr} {u v : State} : ∀ {l : List Instr} {s : State}, runsClean l s u →
    exec i u = .next v → u.completed v → runsClean (l ++ [i]) s v
  | [], _, h, hi, hdone => by
    cases h
    exact ⟨v, hi, hdone, rfl⟩
  | _ :: _, _, ⟨w, hw, hc, h⟩, hi, hdone => ⟨w, hw, hc, runsClean_snoc h hi hdone⟩

/-- A pass that completes has done what one LZW_STEP for each byte does. -/
theorem lzwPass_as_steps {s t : State} {bs : List Byte} (hv : s.stage.lzwV = true)
    (hout : s.cfg.outBase.toNat + s.cfg.outCap.toNat ≤ s.obufSize) (hbs : s.inputIs bs)
    (h : stream lzwStepAt s = .ok t) :
    ∃ u, runsClean (bs.map fun b => .lzwStep b) s u ∧ LzwAlike (s.lzw.ncodes.toNat + bs.length) t u ∧
      u.inPos = s.inPos := by
  have hpass : (∃ u, runsClean (bs.map fun b => .lzwStep b) s u ∧
      LzwAlike (s.lzw.ncodes.toNat + bs.length) t u ∧ Keeps (partsOf (.lzwStep 0)) s u) ∧
      t.ibuf = s.ibuf ∧ t.cfg = s.cfg := by
    refine stream_ok (R := fun pre t => ∃ u, runsClean (pre.map fun b => .lzwStep b) s u ∧
      LzwAlike (s.lzw.ncodes.toNat + pre.length) t u ∧ Keeps (partsOf (.lzwStep 0)) s u) hbs
      ⟨s, rfl, { lzwAlike_refl s with }, keeps_refl s⟩ ?_ h
    rintro pre b post t t' - ⟨u, hrun, halike, hkeeps⟩ hibuf hcfg hstep
    obtain ⟨hibuf', hcfg'⟩ := lzwStepAt_input hstep
    obtain ⟨u', hu, halike'⟩ := halike.step hstep 0
    have hvu : u.stage.lzwV = true :=
      (bool_eq_of_toNat_eq _ _ (hkeeps.part (.bit .lzwV) (by decide))).trans hv
    have houtu : u.cfg.outBase.toNat + u.cfg.outCap.toNat ≤ u.obufSize := by
      obtain ⟨-, hsize, -, hcfg, -⟩ := ranges_of_sameHostSide (bs := bs) hkeeps.host
      rwa [hsize, hcfg]
    have hbody := (lzwStepBody_ready hvu houtu b).trans hu
    have hexec := exec_of_body hbody
    refine ⟨hibuf'.trans hibuf, hcfg'.trans hcfg, u'.complete, ?_, ?_, ?_⟩
    · rw [List.map_append]
      exact runsClean_snoc hrun hexec (completed_of_body (i := .lzwStep b) nofun hbody)
    · rw [List.length_append, ← Nat.add_assoc]
      exact { halike' with }
    · have hstepkeeps : Keeps (partsOf (.lzwStep b)) u u'.complete := exec_keeps hexec
      exact keeps_trans hkeeps hstepkeeps
  obtain ⟨⟨u, hrun, halike, hkeeps⟩, -⟩ := hpass
  exact ⟨u, hrun, halike, hkeeps.part .inPos (by decide)⟩

/-- Settles O45: there is room for the code of every byte; and the pass is its steps. -/
theorem lzwRunCompletes : Obligations.LzwRunCompletes := by
  intro s bs hs hv hp hin hout hbs hroom
  obtain ⟨t, ht⟩ := lzwPass_completes hbs hp hroom
  obtain ⟨codes, hmoves, -⟩ := lzwPass_ok hbs ht
  obtain ⟨u, hrun, halike, hpos⟩ := lzwPass_as_steps hv hout hbs ht
  have hbody := (lzwRunBody_ready hv hin hout).trans ht
  have hinv : (bodyOf .lzwRun s).Ends LzwInv := lzwRunBody_lzwInv hs
  rw [hbody] at hinv
  refine ⟨t.complete, u, exec_of_body hbody, completed_of_body (by decide) hbody,
    (complete_inPos t).trans (stream_inPos ht), { hinv with },
    hmoves.cur_ne (lzwInv_dict hs hv), hrun, ?_, fun hlt => (halike.count hlt).2.symm⟩
  exact ⟨halike.stage, hpos, halike.res, halike.bp, halike.freq, halike.huf, halike.ari,
    congrArg (fun z : Lzw => { z with ncodes := 0 }) halike.lzw, halike.obuf⟩

/-! ## Two passes (R112) -/

/-- Where a pass completes in the one it completes in the other, over the same bytes at another place. -/
theorem LzwAlike.pass : ∀ (k i j : Nat) {n : Nat} {s t u : State}, LzwAlike n s t →
    t.cfg.inBase.toNat + j = s.cfg.inBase.toNat + i → streamFrom lzwStepAt k i s = .ok u →
    ∃ v, streamFrom lzwStepAt k j t = .ok v ∧ LzwAlike (n + k) u v ∧ v.cfg = t.cfg := by
  intro k
  induction k with
  | zero =>
    intro i j n s t u h _ hs
    obtain rfl := CmdResult.ok.inj hs
    exact ⟨t, rfl, h, rfl⟩
  | succ k ih =>
    intro i j n s t u h hplace hs
    cases hread : s.ibuf.read (s.cfg.inBase.toNat + i) with
    | none =>
      rw [streamFrom_unwritten hread] at hs
      cases hs
    | some b =>
      rw [streamFrom_known hread] at hs
      cases hstep : lzwStepAt i b s with
      | error s' c info =>
        rw [hstep] at hs
        cases hs
      | fault f =>
        rw [hstep] at hs
        cases hs
      | ok s' =>
        rw [hstep, andThen_ok] at hs
        obtain ⟨t', ht, halike⟩ := h.step hstep j
        obtain ⟨-, hcfg⟩ := lzwStepAt_input hstep
        obtain ⟨-, hcfg'⟩ := lzwStepAt_input ht
        obtain ⟨v, hv, hrest, hcfgv⟩ := ih (i + 1) (j + 1)
          (s := { s' with inPos := BitVec.ofNat 32 (i + 1) }) (t := { t' with inPos := BitVec.ofNat 32 (j + 1) })
          { halike with } (by simp only [hcfg, hcfg']; omega) hs
        refine ⟨v, ?_, ?_, hcfgv.trans hcfg'⟩
        · rw [streamFrom_known (by rw [h.ibuf, hplace]; exact hread), ht, andThen_ok, hv]
        · rwa [Nat.add_assoc, Nat.add_comm 1 k] at hrest

/-- Settles O46: the second run goes on as the longer run does after the first n bytes. -/
theorem lzwRunsConcatenate : Obligations.LzwRunsConcatenate := by
  intro s t u n m hv hin hlen hbase hcount ht herr hu herr'
  obtain ⟨t, hbody, rfl⟩ := body_ok_of_exec ht herr
  obtain ⟨u, hbody', rfl⟩ := body_ok_of_exec hu herr'
  obtain ⟨hout, hfirst⟩ := lzwRun_ok hbody
  obtain ⟨-, hsecond⟩ := lzwRun_ok hbody'
  have hnm : (n + m).toNat = n.toNat + m.toNat := by
    rw [BitVec.toNat_add, Nat.mod_eq_of_lt hlen]
  have hbase' : (s.cfg.inBase + n).toNat = s.cfg.inBase.toNat + n.toNat := by
    rw [BitVec.toNat_add, Nat.mod_eq_of_lt hbase]
  obtain ⟨v, hv1, halike, hcfg⟩ := LzwAlike.pass n.toNat 0 0
    (s := { s.upTo n with inPos := 0 }) (t := { s.upTo (n + m) with inPos := 0 }) { lzwAlike_refl s with } rfl hfirst
  obtain ⟨w, hw, halike', -⟩ := LzwAlike.pass m.toNat 0 n.toNat
    (s := { t.complete with cfg := { s.cfg with inBase := s.cfg.inBase + n, inLen := m }, inPos := 0 }) (t := v)
    { halike with window := by rw [hcfg]; exact ⟨rfl, rfl⟩ }
    (by rw [hcfg]; exact hbase'.symm) hsecond
  have hpass : stream lzwStepAt (s.upTo (n + m)) = .ok w := by
    show streamFrom lzwStepAt (n + m).toNat 0 _ = _
    rw [hnm, streamFrom_add, hv1, andThen_ok, Nat.zero_add, hw]
  have hin' : s.cfg.inBase.toNat + (n + m).toNat ≤ s.ibufSize := by
    rw [hnm, ← Nat.add_assoc]
    exact hin
  have hrun := (lzwRunBody_ready (s := s.upTo (n + m)) hv hin' hout).trans hpass
  have hdone := completed_of_body (i := .lzwRun) (by decide) hrun
  refine ⟨(complete_inPos u).trans (stream_inPos hsecond), w.complete, exec_of_body hrun, hdone,
    (complete_inPos w).trans (stream_inPos hpass), ?_⟩
  obtain ⟨-, heq⟩ := halike'.count hcount
  have hlzw := halike'.lzw
  rw [heq] at hlzw
  exact ⟨halike'.stage, rfl, halike'.res, halike'.bp, halike'.freq, halike'.huf, halike'.ari, hlzw, halike'.obuf⟩

end Sys2Proof.Machine
end

section
/-! SUPPORT. LZW_ENCODE (O48, O49; 44_lzw.md R114, R145, 95_test_vectors.md 4.3). The first phases emit the codes of the
input from a seeded dictionary, the last ones pad the stream and latch the record. -/

namespace Sys2Proof.Machine

/-! ## The padding and the record (R119, R81) -/

/-- The phases that end the stream. -/
def closingPhases : List Instr := [.bpPad, .result]

section
variable {s t : State} (hacc : s.bp.acc.toNat < 2 ^ s.bp.cnt.toNat)
include hacc

theorem closingPhases_completes (hout : s.cfg.outBase.toNat + s.cfg.outCap.toNat ≤ s.obufSize)
    (hroom : 8 * s.bp.outLen.toNat + s.bp.cnt.toNat ≤ 8 * s.cfg.outCap.toNat) :
    ∃ t, runBodies closingPhases s = .ok t := by
  obtain ⟨u, hpad, -, haligned⟩ := bpPadBody_pads hout hacc hroom
  have hresult : bodyOf .result u = .ok (latchResult u) := checkStage_then (beq_iff_eq.2 haligned)
  exact ⟨latchResult u, by rw [closingPhases, runBodies_cons hpad, runBodies_cons hresult]; rfl⟩

theorem closingPhases_ok (h : runBodies closingPhases s = .ok t) :
    t.streamBits = s.streamBits ++ List.replicate t.bp.padBits.toNat false ∧ t.bp.cnt = 0 ∧ t.lzw = s.lzw ∧
      t.res = ⟨s.cfg.inLen, t.bp.outLen⟩ := by
  obtain ⟨u, hpad, h⟩ := runBodies_cons_ok h
  obtain ⟨v, hresult, h⟩ := runBodies_cons_ok h
  obtain rfl := CmdResult.ok.inj h
  have hout := (outRangeOk_iff s).1 (require_ok_holds hpad)
  obtain ⟨u', hpad', hstream, haligned⟩ := bpPadBody_pads hout hacc (room_of_bpPad hpad)
  obtain rfl := CmdResult.ok.inj (hpad'.symm.trans hpad)
  replace hresult := check_ok (f := fun s => .ok (latchResult s)) hresult
  obtain rfl := CmdResult.ok.inj hresult
  have hframe : (bodyOf .bpPad s).Ends fun t => t = { s with bp := t.bp, obuf := t.obuf } := bpPadBody_only s
  rw [hpad] at hframe
  refine ⟨hstream, haligned, ?_, ?_⟩
  · rw [latchResult_lzw, hframe]
  · rw [latchResult_res, latchResult_bp, hframe]

end

/-! ## The codes of the input (R108, R112, R113) -/

/-- The phases that emit the codes. -/
def codePhases : List Instr := [.bpClear, .lzwInit, .lzwRun, .lzwFlush]

/-- The codes of the input `bs` of `s` stand in the stream of `u`, and nothing is pending. -/
structure LzwCoded (s : State) (bs : List Byte) (codes : List Nat) (u : State) : Prop where
  host : s.sameHostSide u
  emits : Emits (seedDict (clearStream s)) codes u
  cur : u.lzw.cur = lzwEmpty
  length_le : codes.length ≤ bs.length
  codes_lt : ∀ c ∈ codes, c < u.lzw.cap
  decodes : lzwDecode u.lzw.cap u.lzw.act.policy codes = bs

/-- At most one code is emitted for each byte of the input, the flush's among them (R145). -/
theorem codePhases_completes {s : State} {bs : List Byte} (hbs : s.inputIs bs) (hp : s.cfg.lzwCfg.policy ≠ .reject)
    (hin : s.cfg.inBase.toNat + s.cfg.inLen.toNat ≤ s.ibufSize)
    (hout : s.cfg.outBase.toNat + s.cfg.outCap.toNat ≤ s.obufSize)
    (hroom : s.cfg.lzwCfg.width.toNat * bs.length ≤ 8 * s.cfg.outCap.toNat) :
    ∃ u, runBodies codePhases s = .ok u := by
  obtain ⟨hlen, hcnt, -⟩ := start_of_empty (s := seedDict (clearStream s)) rfl
  have hroom' : (seedDict (clearStream s)).bp.outLen.toNat +
      ((seedDict (clearStream s)).bp.cnt.toNat + s.cfg.lzwCfg.width.toNat * bs.length) / 8 ≤ s.cfg.outCap.toNat := by
    omega
  obtain ⟨v, hpass⟩ := lzwPass_completes (s := seedDict (clearStream s)) hbs hp hroom'
  have hrun := (lzwRunBody_ready (s := seedDict (clearStream s)) rfl hin hout).trans hpass
  obtain ⟨codes, hmoves, hemits⟩ := lzwPass_ok (s := seedDict (clearStream s)) hbs hpass
  have hkeeps := bodyOf_keeps .lzwRun (seedDict (clearStream s))
  rw [hrun] at hkeeps
  have hv : v.stage.lzwV = true := bool_eq_of_toNat_eq _ _ (hkeeps.part (.bit .lzwV) (by decide))
  obtain ⟨-, hsize, -, hcfg, -⟩ := ranges_of_sameHostSide (bs := bs) hkeeps.host
  obtain ⟨u, hflush⟩ := lzwFlush_completes hv (by rw [hcfg, hsize]; exact hout) fun hmatch => by
    have hcodes := hmoves.length_le
    rw [pending_of_match hmatch] at hcodes
    have hwidth := Nat.mul_le_mul_left s.cfg.lzwCfg.width.toNat (show codes.length + 1 ≤ bs.length from hcodes)
    have hbits : _ = _ + s.cfg.lzwCfg.width.toNat * codes.length := hemits.bits
    rw [Nat.mul_add, Nat.mul_one] at hwidth
    rw [roomFor_iff, hcfg, hemits.act]
    show _ + (_ + s.cfg.lzwCfg.width.toNat) / 8 ≤ s.cfg.outCap.toNat
    omega
  refine ⟨u, ?_⟩
  rw [codePhases, runBodies_cons (i := .bpClear) (t := clearStream s) rfl,
    runBodies_cons (i := .lzwInit) (t := seedDict (clearStream s)) rfl, runBodies_cons hrun, runBodies_cons hflush]
  rfl

section
variable {s u : State} {bs : List Byte} (hc : ConfigInv s) (hbs : s.inputIs bs)
include hc hbs

theorem codePhases_ok (h : runBodies codePhases s = .ok u) : ∃ codes, LzwCoded s bs codes u := by
  have hkeeps := runBodies_keeps (ps := partsOf .lzwEncode) (phases := codePhases) (by decide) s
  rw [h] at hkeeps
  obtain ⟨_, hclear, h⟩ := runBodies_cons_ok h
  obtain rfl := CmdResult.ok.inj hclear
  obtain ⟨_, hseed, h⟩ := runBodies_cons_ok h
  obtain rfl := CmdResult.ok.inj hseed
  obtain ⟨v, hrun, h⟩ := runBodies_cons_ok h
  obtain ⟨w, hflush, h⟩ := runBodies_cons_ok h
  obtain rfl := CmdResult.ok.inj h
  obtain ⟨-, hpass⟩ := lzwRun_ok hrun
  obtain ⟨codes, hmoves, hemits⟩ := lzwPass_ok (s := seedDict (clearStream s)) hbs hpass
  obtain ⟨hflushed, hlzw⟩ := lzwFlush_ok hflush
  have hd : DictInv (seedDict (clearStream s)).lzw := dictInv_seedDict { hc with }
  have hcap : w.lzw.cap = v.lzw.cap := by
    rw [Lzw.cap, hflushed.act]
    rfl
  refine ⟨codes ++ v.lzw.pending, hkeeps.host, hemits.trans hflushed, by rw [hlzw], ?_, fun c hmem => ?_, ?_⟩
  · rw [List.length_append]
    exact hmoves.length_le
  · rw [hcap]
    rcases List.mem_append.1 hmem with hmem | hmem
    · rw [Lzw.cap, hmoves.act]
      exact hmoves.codes_lt hd c hmem
    · exact (hmoves.dictInv hd).pending_lt c hmem
  · rw [hcap, hflushed.act]
    exact hmoves.decodes hd rfl rfl

end

/-! ## The whole command -/

theorem lzwEncode_split : (Instr.lzwEncode, codePhases ++ closingPhases) ∈ fusedPhases := lzwEncode_phases

/-- What LZW_ENCODE of the input `bs` of `s` leaves. -/
structure LzwEncoded (s : State) (bs : List Byte) (codes : List Nat) (t : State) : Prop where
  act : t.lzw.act = s.cfg.lzwCfg
  cur : t.lzw.cur = lzwEmpty
  count : t.lzw.ncodes.toNat = codes.length
  length_le : codes.length ≤ bs.length
  codes_lt : ∀ c ∈ codes, c < t.lzw.cap
  stream : t.streamBits = codes.flatMap (bitsOf t.lzw.act.width.toNat) ++ List.replicate t.bp.padBits.toNat false
  aligned : t.bp.cnt = 0
  res : t.res = ⟨s.cfg.inLen, t.bp.outLen⟩
  decodes : lzwDecode t.lzw.cap t.lzw.act.policy codes = bs

section
variable {s : State} {bs : List Byte} (hc : ConfigInv s) (hbs : s.inputIs bs)
include hc hbs

theorem lzwEncode_ok {t : State} (h : bodyOf .lzwEncode s = .ok t) : ∃ codes, LzwEncoded s bs codes t := by
  obtain ⟨hin, hout⟩ := fused_ranges lzwEncode_split h
  rw [bodyOf_fused lzwEncode_split hin hout] at h
  obtain ⟨u, hcodes, hclosing⟩ := runBodies_append_ok h
  obtain ⟨codes, hu⟩ := codePhases_ok hc hbs hcodes
  obtain ⟨-, -, hacc, hempty⟩ := start_of_empty (s := seedDict (clearStream s)) rfl
  obtain ⟨hacc', hstream⟩ := hu.emits.stream hacc
  obtain ⟨hpadded, haligned, hlzw, hres⟩ := closingPhases_ok hacc' hclosing
  obtain ⟨-, -, -, hcfg, -⟩ := hu.host
  have hlt : codes.length < 2 ^ 32 := (hu.length_le.trans_eq hbs.1).trans_lt s.cfg.inLen.isLt
  refine ⟨codes, ?_, ?_, ?_, hu.length_le, ?_, ?_, haligned, ?_, ?_⟩
  · rw [hlzw, hu.emits.act]
    rfl
  · rw [hlzw, hu.cur]
  · rw [hlzw]
    exact (hu.emits.count ((Nat.zero_add _).trans_lt hlt)).trans (Nat.zero_add _)
  · rw [hlzw]
    exact hu.codes_lt
  · rw [hpadded, hstream, hempty, hlzw, hu.emits.act]
    rfl
  · rw [hres, hcfg]
  · rw [hlzw, hu.decodes]

/-- Every byte of the input makes at most one code, so a window of ⌈WIDTH·IN_LEN/8⌉ bytes has room (R145). -/
theorem lzwEncode_completes (hp : s.cfg.lzwCfg.policy ≠ .reject)
    (hin : s.cfg.inBase.toNat + s.cfg.inLen.toNat ≤ s.ibufSize)
    (hout : s.cfg.outBase.toNat + s.cfg.outCap.toNat ≤ s.obufSize)
    (hroom : s.cfg.lzwCfg.width.toNat * bs.length ≤ 8 * s.cfg.outCap.toNat) : ∃ t, bodyOf .lzwEncode s = .ok t := by
  obtain ⟨u, hcodes⟩ := codePhases_completes hbs hp hin hout hroom
  obtain ⟨codes, hu⟩ := codePhases_ok hc hbs hcodes
  obtain ⟨-, hsize, -, hcfg, -⟩ := ranges_of_sameHostSide (bs := bs) hu.host
  obtain ⟨hlen, hcnt, hacc, -⟩ := start_of_empty (s := seedDict (clearStream s)) rfl
  have hbits := hu.emits.bits
  have hwidth := Nat.mul_le_mul_left s.cfg.lzwCfg.width.toNat hu.length_le
  obtain ⟨t, ht⟩ := closingPhases_completes (hu.emits.stream hacc).1 (by rwa [hcfg, hsize])
    (by rw [hcfg, hbits, hlen, hcnt, Nat.zero_add]; exact hwidth.trans hroom)
  exact ⟨t, by rw [bodyOf_fused lzwEncode_split hin hout, runBodies_append hcodes, ht]⟩

end

/-- Settles O48: the phases complete one after another, and what they leave is the codes, the padding and the record. -/
theorem lzwEncodeCompletes : Obligations.LzwEncodeCompletes := by
  intro s bs hc hp hin hout hbs hcap
  obtain ⟨t, hbody⟩ := lzwEncode_completes hc hbs hp hin hout (by rwa [hbs.1])
  obtain ⟨codes, ht⟩ := lzwEncode_ok hc hbs hbody
  have hres := ht.res
  exact ⟨t.complete, codes, exec_of_body hbody, completed_of_body (by decide) hbody, ht.act, ht.cur, ht.count,
    ht.length_le, ht.codes_lt, ht.stream, ht.aligned, congrArg ResultRegs.orig hres, congrArg ResultRegs.comp hres⟩

/-- Settles O49: a run that completes under any policy has emitted the codes of its moves, and these decode to its
bytes. -/
theorem lzwStreamDecodesToTheInput : Obligations.LzwStreamDecodesToTheInput := by
  intro s t bs hc hbs h herr
  obtain ⟨u, hbody, rfl⟩ := body_ok_of_exec h herr
  obtain ⟨codes, hu⟩ := lzwEncode_ok hc hbs hbody
  exact ⟨codes, hu.stream, hu.count.symm, hu.codes_lt, hu.decodes⟩

end Sys2Proof.Machine
end

section
/-! SUPPORT. BP_PUT, BP_PAD and the stream they pack (O19, O50-O52; 45_bitpacker.md R116-R120). Behind OutCheck each
command is one Append. The bytes in the window are the stream cut into eights, because every byte below OUT_LEN has been
written and `streamBits` lists their bits. -/

namespace Sys2Proof.Machine

/-! ## BP_PUT and BP_PAD behind OutCheck -/

theorem putBits_length (n : Byte) (bits : BitVec 16) : (putBits n bits).length = n.toNat := bitsOf_length ..

section
variable {s : State} (hout : s.cfg.outBase.toNat + s.cfg.outCap.toNat ≤ s.obufSize)
include hout

theorem bpPut_appends (n : Byte) (bits : BitVec 16) : bodyOf (.bpPut n bits) s = appendBits 0 (putBits n bits) s :=
  outCheck_then hout

theorem bpPad_appends : bodyOf .bpPad s =
    (appendBits 0 (bitsOf (padCount s.bp.cnt) 0) s).andThen fun t =>
      .ok { t with bp.padBits := BitVec.ofNat 3 (padCount s.bp.cnt) } :=
  outCheck_then hout

/-! ## An Append with no room (R116, R123) -/

theorem bpPut_full {n : Byte} (hfull : s.overfull n.toNat) (bits : BitVec 16) :
    bodyOf (.bpPut n bits) s = .error s .outOverflow 0 := by
  rw [← putBits_length n bits] at hfull
  rw [bpPut_appends hout, appendBits_full (roomFor_eq_false_iff.2 hfull)]

/-- The padding of a partial byte completes one byte, so a full window has no room for it. -/
theorem bpPad_full (hfull : s.cfg.outCap.toNat ≤ s.bp.outLen.toNat) (hcnt : s.bp.cnt ≠ 0) :
    bodyOf .bpPad s = .error s .outOverflow 0 := by
  have hpos : s.bp.cnt.toNat ≠ 0 := fun h => hcnt (BitVec.eq_of_toNat_eq h)
  have hlt := s.bp.cnt.isLt
  have hover : s.overfull (bitsOf (padCount s.bp.cnt) 0).length := by
    rw [bitsOf_length, padCount, State.overfull]
    omega
  rw [bpPad_appends hout, appendBits_full (roomFor_eq_false_iff.2 hover), andThen_error]

theorem lzwFlush_full (hv : s.stage.lzwV = true) (hc : s.lzw.cur ≠ lzwEmpty)
    (hfull : s.overfull s.lzw.act.width.toNat) : bodyOf .lzwFlush s = .error s .outOverflow 0 := by
  rw [← curBits_length] at hfull
  rw [lzwFlush_match hv hout hc, appendBits_full (roomFor_eq_false_iff.2 hfull), andThen_error]

end

/-- Settles O19: behind OutCheck each of the three is one Append, and one with no room ends the body unchanged. -/
theorem overfullAppendChangesNothing : Obligations.OverfullAppendChangesNothing := fun _ hout =>
  ⟨fun _ bits hfull => raisesOnly_of_body (bpPut_full hout hfull bits),
    fun hfull hcnt => raisesOnly_of_body (bpPad_full hout hfull hcnt),
    fun hv hc hfull => raisesOnly_of_body (lzwFlush_full hout hv hc hfull)⟩

/-! ## BP_PUT with room (R118, R65) -/

/-- Bit j of bits_n(v), first bit most significant (00_scope.md R11). -/
theorem bitsOf_getElem? {n j : Nat} (v : Nat) (h : j < n) : (bitsOf n v)[j]? = some (v.testBit (n - 1 - j)) := by
  induction n generalizing j with
  | zero => omega
  | succ n ih =>
    rw [bitsOf]
    cases j with
    | zero => rfl
    | succ j => rw [List.getElem?_cons_succ, ih (by omega), show n + 1 - 1 - (j + 1) = n - 1 - j by omega]

theorem putBits_getElem? {n : Byte} {j : Nat} (bits : BitVec 16) (h : j < n.toNat) :
    (putBits n bits)[j]? = some (bits.getLsbD (n.toNat - 1 - j)) := by
  have hlow : n.toNat - 1 - j < n.toNat := by omega
  rw [putBits, bitsOf_getElem? _ h, Nat.testBit_mod_two_pow, decide_eq_true hlow, Bool.true_and]
  rfl

/-- Settles O50: the string appended is `putBits`, the low bits of the operand. -/
theorem bpPutAppendsTheLowBits : Obligations.BpPutAppendsTheLowBits := by
  intro s n bits _ hacc hout hroom
  have hlen := putBits_length n bits
  have hfits : s.roomFor (putBits n bits).length = true := by rwa [hlen, roomFor_iff]
  have hbody : bodyOf (.bpPut n bits) s = .ok (s.appended (putBits n bits)) :=
    (bpPut_appends hout n bits).trans (appendBits_ok hfits)
  have hcount := appended_bits hfits
  obtain ⟨-, -, -, hbitLen⟩ := appended_bp s (putBits n bits)
  rw [hlen] at hcount hbitLen
  exact ⟨_, putBits n bits, exec_of_body hbody, completed_of_body (i := .bpPut n bits) nofun hbody,
    appended_streamBits hacc hfits, hlen, fun _ => putBits_getElem? bits, hbitLen, hcount,
    appended_padBits ..⟩

/-! ## BP_PAD with room (R119) -/

theorem byteBits_length (b : Byte) : (byteBits b).length = 8 := bitsOf_length ..

/-- The stream has 8·OUT_LEN + CNT bits (R120). -/
theorem streamBits_length (s : State) : s.streamBits.length = 8 * s.bp.outLen.toNat + s.bp.cnt.toNat := by
  simp [State.streamBits, List.length_flatMap, byteBits_length, Nat.mul_comm]

/-- BP_PAD of an aligned stream appends the empty string. -/
theorem bpPad_aligned {s : State} (hout : s.cfg.outBase.toNat + s.cfg.outCap.toNat ≤ s.obufSize) (hcnt : s.bp.cnt = 0)
    (hroom : s.bp.outLen.toNat ≤ s.cfg.outCap.toNat) : bodyOf .bpPad s = .ok { s with bp.padBits := 0 } := by
  have hnone : padCount s.bp.cnt = 0 := by rw [hcnt]; rfl
  have hfits : s.roomFor ([] : List Bool).length = true := by
    rw [roomFor_iff, hcnt]
    exact hroom
  rw [bpPad_appends hout, hnone, bitsOf, appendBits_ok hfits, appended_nil]
  rfl

/-- Settles O51: the lengths of the stream before and after say that PAD_BITS completes the byte; after it the stream is
aligned. -/
theorem bpPadCompletesTheByte : Obligations.BpPadCompletesTheByte := by
  intro s hacc hout hroom
  obtain ⟨t, hbody, hstream, haligned⟩ := bpPadBody_pads hout hacc (by omega)
  have hframe : (bodyOf .bpPad s).Ends fun t => t = { s with bp := t.bp, obuf := t.obuf } := bpPadBody_only s
  rw [hbody] at hframe
  have hsame : t = { s with bp := t.bp, obuf := t.obuf } := hframe
  have hcfg : t.cfg = s.cfg := by rw [hsame]
  have hsize : t.obufSize = s.obufSize := by rw [hsame]; rfl
  have hlength : 8 * t.bp.outLen.toNat = 8 * s.bp.outLen.toNat + s.bp.cnt.toNat + t.bp.padBits.toNat := by
    have h := congrArg List.length hstream
    rw [List.length_append, List.length_replicate, streamBits_length, streamBits_length, haligned] at h
    exact h
  have hagain : bodyOf .bpPad t.complete = .ok { t.complete with bp.padBits := 0 } := by
    refine bpPad_aligned ?_ haligned ?_
    · show t.cfg.outBase.toNat + t.cfg.outCap.toNat ≤ t.obufSize
      rwa [hcfg, hsize]
    · show t.bp.outLen.toNat ≤ t.cfg.outCap.toNat
      have hpad := t.bp.padBits.isLt
      rw [hcfg]
      omega
  exact ⟨t.complete, exec_of_body hbody, completed_of_body (by decide) hbody, haligned,
    show (s.bp.cnt.toNat + t.bp.padBits.toNat) % 8 = 0 by omega, hstream, _, exec_of_body hagain, rfl, rfl⟩

/-! ## The bytes of the window hold values -/

/-- Every byte of the output window below OUT_LEN has been written. -/
def State.windowFilled (s : State) : Prop :=
  ∀ j, j < s.bp.outLen.toNat → ∃ b, s.obuf.read (s.cfg.outBase.toNat + j) = some b

theorem pushBit_windowFilled {s : State} (x : Bool) (h : s.windowFilled) : (pushBit s x).windowFilled := by
  by_cases hc : s.bp.cnt = 7
  · rw [pushBit_fill hc]
    intro j hj
    rcases eq_or_ne j s.bp.outLen.toNat with rfl | hne
    · exact ⟨_, memory_read_write_same ..⟩
    · have hle : (s.bp.outLen + 1).toNat ≤ s.bp.outLen.toNat + 1 := Nat.mod_le ..
      have hlt : j < (s.bp.outLen + 1).toNat := hj
      obtain ⟨b, hb⟩ := h j (by omega)
      exact ⟨b, (memory_read_write_other _ _ (by simpa using hne)).trans hb⟩
  · rw [pushBit_hold hc]
    exact h

theorem pushBits_windowFilled (l : List Bool) : ∀ {s : State}, s.windowFilled → (pushBits s l).windowFilled := by
  induction l with
  | nil => exact id
  | cons x l ih => exact fun h => ih (pushBit_windowFilled x h)

theorem appended_windowFilled {s : State} (l : List Bool) (h : s.windowFilled) : (s.appended l).windowFilled := by
  intro j hj
  rw [appended_obuf, appended_cfg, ← pushBits_cfg l s]
  exact pushBits_windowFilled l h j hj

/-! ## The strings appended, one after another -/

/-- From the empty stream of `s` to `t` the bits `bits` have been appended. -/
structure Packed (s : State) (bits : List Bool) (t : State) : Prop where
  params : t.params = s.params
  cfg : t.cfg = s.cfg
  inv : StreamInv t
  stream : t.streamBits = bits
  filled : t.windowFilled

theorem packed_clearStream (s : State) : Packed s [] (clearStream s) :=
  ⟨rfl, rfl, streamInv_of_empty rfl, rfl, fun j hj => absurd hj (Nat.not_lt_zero j)⟩

section
variable {s : State} (hv : s.params.valid) (hout : s.cfg.outBase.toNat + s.cfg.outCap.toNat ≤ s.obufSize)
include hv hout

theorem packed_append {t : State} {bits l : List Bool} (h : Packed s bits t)
    (hcap : (bits ++ l).length ≤ 8 * s.cfg.outCap.toNat) :
    appendBits 0 l t = .ok (t.appended l) ∧ Packed s (bits ++ l) (t.appended l) := by
  have hlength := streamBits_length t
  rw [h.stream] at hlength
  rw [List.length_append] at hcap
  have hroom : t.roomFor l.length = true := by
    rw [roomFor_iff, h.cfg]
    omega
  have hrange : t.outRangeOk = true := by
    rw [outRangeOk_iff, State.obufSize, h.cfg, h.params]
    exact hout
  exact ⟨appendBits_ok hroom, (appended_params t l).trans h.params, (appended_cfg t l).trans h.cfg,
    appended_streamInv h.inv (h.params ▸ hv) hrange hroom, by rw [appended_streamBits h.inv.acc hroom, h.stream],
    appended_windowFilled l h.filled⟩

theorem packed_appends (strs : List (List Bool)) : ∀ {t : State} {bits : List Bool}, Packed s bits t →
    (bits ++ strs.flatten).length ≤ 8 * s.cfg.outCap.toNat →
    ∃ u, strs.foldl (fun r l => r.andThen (appendBits 0 l)) (CmdResult.ok t) = .ok u ∧
      Packed s (bits ++ strs.flatten) u := by
  induction strs with
  | nil => exact fun h _ => ⟨_, rfl, by rwa [List.flatten_nil, List.append_nil]⟩
  | cons l strs ih =>
    intro t bits h hcap
    rw [List.flatten_cons, ← List.append_assoc] at hcap ⊢
    obtain ⟨hfirst, hnext⟩ := packed_append hv hout h (l := l) (by rw [List.length_append] at hcap; omega)
    rw [List.foldl_cons, andThen_ok, hfirst]
    exact ih hnext hcap

end

/-! ## The bytes are the stream, eight bits at a time (R120) -/

/-- Position k of block j, in blocks of one length laid end to end. -/
theorem flatMap_range_getElem? {α : Type} {f : Nat → List α} {w : Nat} (hf : ∀ j, (f j).length = w) {n j k : Nat}
    (hj : j < n) (hk : k < w) : ((List.range n).flatMap f)[w * j + k]? = (f j)[k]? := by
  have hlength (m : Nat) : ((List.range m).flatMap f).length = w * m := by
    simp [List.length_flatMap, hf, Nat.mul_comm]
  induction n with
  | zero => omega
  | succ n ih =>
    rw [List.range_succ, List.flatMap_append, List.flatMap_singleton]
    rcases Nat.lt_succ_iff_lt_or_eq.1 hj with hlt | rfl
    · have hbefore : w * j + k < w * n := by
        have := Nat.mul_le_mul_left w (Nat.succ_le_of_lt hlt)
        rw [Nat.mul_succ] at this
        omega
      rw [List.getElem?_append_left (by rwa [hlength]), ih hlt]
    · rw [List.getElem?_append_right (by rw [hlength]; omega), hlength, Nat.add_sub_cancel_left]

/-- The bits of byte j of the window are the bits of the stream from 8j on. -/
theorem streamBits_getElem? {s : State} {j k : Nat} {b : Byte} (hj : j < s.bp.outLen.toNat) (hk : k < 8)
    (hb : s.obuf.read (s.cfg.outBase.toNat + j) = some b) : s.streamBits[8 * j + k]? = (byteBits b)[k]? := by
  rw [State.streamBits, List.getElem?_append_left, flatMap_range_getElem? (fun _ => byteBits_length _) hj hk, hb,
    Option.getD_some]
  simp only [List.length_flatMap, byteBits_length, List.map_const', List.length_range, List.sum_replicate, smul_eq_mul]
  omega

/-- The value of a bit string as the sum of its bits' weights (00_scope.md R11). -/
theorem bitsVal_eq_sum (l : List Bool) :
    bitsVal l = ((List.range l.length).map fun k => (l.getD k false).toNat * 2 ^ (l.length - 1 - k)).sum := by
  induction l with
  | nil => rfl
  | cons x l ih =>
    rw [bitsVal, ih, List.length_cons, List.range_succ_eq_map, List.map_cons, List.sum_cons, List.map_map]
    refine congrArg₂ _ rfl (congrArg List.sum (List.map_congr_left fun k _ => ?_))
    rw [Function.comp_apply, List.getD_cons_succ, show l.length + 1 - 1 - k.succ = l.length - 1 - k by omega]

theorem byteBits_sum (b : Byte) :
    b.toNat = ((List.range 8).map fun k => ((byteBits b).getD k false).toNat * 2 ^ (7 - k)).sum := by
  have hval : bitsVal (byteBits b) = b.toNat := (bitsVal_bitsOf 8 b.toNat).trans (Nat.mod_eq_of_lt b.isLt)
  have hsum := bitsVal_eq_sum (byteBits b)
  rwa [byteBits_length, hval] at hsum

/-- Settles O52: the appends fill the window, and its bytes are the blocks of eight bits of the stream. -/
theorem packedBytesAreTheStream : Obligations.PackedBytesAreTheStream := by
  intro s strs hv hout hwhole hcap
  obtain ⟨t, hrun, hpacked⟩ := packed_appends hv hout strs (packed_clearStream s) hcap
  rw [List.nil_append] at hpacked
  have hlength := streamBits_length t
  rw [hpacked.stream] at hlength
  have hcnt : t.bp.cnt.toNat = 0 := by omega
  refine ⟨t, hrun, by rw [hpacked.inv.bits, hlength], by omega, BitVec.eq_of_toNat_eq hcnt, fun j hj => ?_⟩
  obtain ⟨b, hb⟩ := hpacked.filled j hj
  refine ⟨b, hpacked.cfg ▸ hb, (byteBits_sum b).trans (congrArg List.sum (List.map_congr_left fun k hk => ?_))⟩
  have hbit := streamBits_getElem? hj (List.mem_range.1 hk) hb
  rw [hpacked.stream] at hbit
  rw [List.getD_eq_getElem?_getD, List.getD_eq_getElem?_getD, hbit]

end Sys2Proof.Machine
end

section
/-! SUPPORT. Hardware reset (O16, O60; 70_reset_and_hazards.md R141, R142) and the host's accesses while a command runs
(O9; 10_state.md R46, 70_reset_and_hazards.md R148). Such an access leaves all of the block's state as it was but CTRL and
the bits of STATUS other than BUSY: the host's writes to the configuration and the buffers are dropped, and those to the
engine's registers are ignored as ever. -/

namespace Sys2Proof.Machine

/-! ## Hardware reset (R141, R142) -/

/-- The registers of R142 at reset; a word of several fields is read as the sum of its fields. -/
theorem regValue_hwReset (s : State) (r : Reg) :
    regValue (hwReset s) r =
      (if r = .id then 0x48544231 else if r = .param0 then param0Word s.params
        else if r = .param1 then param1Word s.params else if r = .lzwCfg then 0x0000000C
        else if r = .hufRoot then 0x1FF else if r = .lzwCur then 0x1FFFF else 0) := by
  cases r
  case ctrl => exact BitVec.eq_of_toNat_eq (ctrlWord_toNat _)
  case status => exact BitVec.eq_of_toNat_eq (statusBits_toNat ..)
  case lzwCfg | lzwAct => exact BitVec.eq_of_toNat_eq (lzwCfgWord_toNat _)
  case stage => exact BitVec.eq_of_toNat_eq (stageWord_toNat _)
  case bpState => exact BitVec.eq_of_toNat_eq (bpStateWord_toNat _)
  all_goals rfl

/-- Settles O16: the reset state register by register and table by table, whatever state it was reached from. -/
theorem hardwareResetGivesTheResetValues : Obligations.HardwareResetGivesTheResetValues := by
  refine fun s => ⟨hwReset s, rfl, regValue_hwReset s, fun b => ?_, rfl, rfl, rfl, rfl, rfl, rfl, fun _ => ⟨rfl, rfl⟩⟩
  exact ⟨table_at_replicate 0 b, table_at_replicate 0 b, table_at_replicate 0 b, table_at_replicate 0 b⟩

/-- Every instance starts in a state that meets every invariant: WIDTH is 12, which R6 always allows, and nothing else
holds anything. -/
theorem inv_resetOf {p : Params} (hp : p.valid) (inbox : List HostEvent) (draws epoch : Nat) :
    Inv (State.resetOf p inbox draws epoch) where
  config :=
    have ⟨_, _, ⟨hwmax, _⟩, _⟩ := hp
    ⟨hp, (by decide : 8 ≤ (12 : BitVec 5).toNat), hwmax⟩
  buffers := ⟨List.Pairwise.nil, List.Pairwise.nil, nofun, nofun⟩
  stream := streamInv_of_empty rfl
  freq := freqInv_of_zero rfl
  arith := arithInv_of_void rfl rfl
  lzw := lzwInv_of_absent rfl rfl
  huffman := huffmanInv_of_noTree rfl rfl

/-- Settles O60: the test vectors' instance is an allowed one. -/
theorem resetMeetsTheInvariants : Obligations.ResetMeetsTheInvariants :=
  inv_resetOf (by decide : Config.defaultParams.valid) [] 0 0

/-! ## The host's accesses while BUSY (R46, R148) -/

/-- The targets that a write does not reach while BUSY: the configuration registers and the buffers (R46). -/
def Target.dropsWhileBusy (x : Target) : Prop :=
  x ∈ [Target.reg .inBase, .reg .inLen, .reg .outBase, .reg .outCap, .reg .lzwCfg] ∨
    (∃ a, x = .ibuf a) ∨ ∃ a, x = .obuf a

/-- `t` differs from `s` at most in CTRL, in the bits of STATUS other than BUSY, which is 1, and in the model's own
answer and draws. -/
def SameButControl (s t : State) : Prop :=
  t = { s with ctrl := t.ctrl, status := t.status, resp := t.resp, draws := t.draws } ∧ t.status.busy = true

section
variable {s : State} (hbusy : s.status.busy = true)
include hbusy

/-- A dropped write sets WBUSY alone, whatever it would have stored. -/
theorem ifIdle_busy (t : State) : ifIdle s t = { s with status := { s.status with wbusy := true } } := if_pos hbusy

theorem writeTarget_dropped {x : Target} (hx : x.dropsWhileBusy) (w : AccessWidth) (v : Word) :
    writeTarget s w v x = { s with status := { s.status with wbusy := true } } := by
  rcases hx with hreg | ⟨a, rfl⟩ | ⟨a, rfl⟩
  · simp only [List.mem_cons, List.not_mem_nil, or_false] at hreg
    rcases hreg with rfl | rfl | rfl | rfl | rfl <;> exact ifIdle_busy hbusy _
  · exact ifIdle_busy hbusy _
  · exact ifIdle_busy hbusy _

theorem sameButControl_dropped {x : Target} (hx : x.dropsWhileBusy) (w : AccessWidth) (v : Word) :
    SameButControl s (writeTarget s w v x) := by
  rw [writeTarget_dropped hbusy hx]
  exact ⟨rfl, hbusy⟩

theorem sameButControl_writeTarget (w : AccessWidth) (v : Word) (x : Target) :
    SameButControl s (writeTarget s w v x) := by
  have drops {y : Target} (hy : y.dropsWhileBusy) := sameButControl_dropped hbusy hy w v
  cases x with
  | window _ => exact ⟨rfl, hbusy⟩
  | ibuf a => exact drops (.inr (.inl ⟨a, rfl⟩))
  | obuf a => exact drops (.inr (.inr ⟨a, rfl⟩))
  | reg r =>
    cases r
    case inBase | inLen | outBase | outCap | lzwCfg => exact drops (.inl (by simp))
    case cmd =>
      rw [writeTarget, writeReg, writeCmd_dropped (.inl hbusy)]
      exact ⟨rfl, hbusy⟩
    all_goals exact ⟨rfl, hbusy⟩

/-- No host event but a reset reaches what the running command reads or has written. -/
theorem hostStep_sameButControl {e : HostEvent} {t : State} (he : e ≠ .hwReset) (h : hostStep e s = .next t) :
    SameButControl s t := by
  rcases hostStep_next h with ⟨hreset, -⟩ | ⟨w, off, -, ht⟩ | ⟨w, off, v, x, -, -, rfl⟩
  · exact absurd hreset he
  · rw [ht]
    exact ⟨rfl, hbusy⟩
  · obtain ⟨hsame, hstill⟩ := sameButControl_writeTarget hbusy w v x
    exact ⟨congrArg (fun u : State => { u with resp := none }) hsame, hstill⟩

end

/-- Settles O9: a write to the configuration or a buffer is dropped, and no event but a reset changes more than CTRL and
STATUS, of which BUSY stays. -/
theorem hostCannotDisturbARunningCommand : Obligations.HostCannotDisturbARunningCommand := by
  refine ⟨fun s w off v x hbusy hx hdrops => ?_, fun s t e hbusy he h => ?_⟩
  · rw [hostWrite_target v hx, writeTarget_dropped hbusy hdrops]
  · obtain ⟨hsame, hstill⟩ := hostStep_sameButControl hbusy he h
    rw [hsame]
    exact ⟨hstill, rfl, rfl, rfl, rfl, ⟨rfl, rfl, rfl, rfl, rfl, rfl, rfl, rfl, rfl⟩, rfl, rfl⟩

end Sys2Proof.Machine
end
